-- ==== Sys2Proof/Word.lean ====
section
/-! DEFINITION. The words of the machine and the table of fixed size in which State keeps its like things
(channels, positions, entries, links). -/

namespace Sys2Proof

/-- A byte of a frame. -/
abbrev Byte := BitVec 8

/-- A two-byte number of a frame, signed where the spec says so (R193). -/
abbrev Word16 := BitVec 16

/-- A node ID or a discovery pattern (R99, Table 1-4). -/
abbrev Word32 := BitVec 32

/-- Exactly `n` things of one type, in index order. -/
structure Tbl (α : Type) (n : Nat) where
  items : List α
  size : items.length = n
  deriving DecidableEq, Repr

namespace Tbl

/-- The thing at an index. -/
def get {α : Type} {n : Nat} (t : Tbl α n) (i : Fin n) : α :=
  t.items[i.val]'(by rw [t.size]; exact i.isLt)

/-- The table with one thing replaced. -/
def set {α : Type} {n : Nat} (t : Tbl α n) (i : Fin n) (x : α) : Tbl α n :=
  ⟨t.items.set i.val x, by rw [List.length_set]; exact t.size⟩

/-- The table with every thing changed by one function. -/
def map {α β : Type} {n : Nat} (f : α → β) (t : Tbl α n) : Tbl β n :=
  ⟨t.items.map f, by rw [List.length_map]; exact t.size⟩

/-- The table with the same thing at every index. -/
def fill {α : Type} (n : Nat) (x : α) : Tbl α n :=
  ⟨List.replicate n x, List.length_replicate⟩

end Tbl

end Sys2Proof
end

