-- ==== Sys2Proof/Syntax.lean ====
section
/-! DEFINITION. The commands of the part: one constructor of Instr for each row of the step table, with the names
and numbers they carry, and the requests a master's frame can spell (Table 10-3). -/

namespace Sys2Proof

/-- The three master links (R177). -/
inductive LinkId where
  | a | b | c
  deriving DecidableEq, Repr

/-- The roles of the masters (R177, Table 0-1). -/
inductive Role where
  | body | brake | service
  deriving DecidableEq, Repr

/-- The trailer positions, numbered from the tractor outward (R1, 0.7). -/
inductive Pos where
  | p1 | p2 | p3
  deriving DecidableEq, Repr

/-- A circuit channel CH0 to CH11 (R43). -/
abbrev ChanId := Fin 12

/-- A lamp channel in probe order: 0 to 8 are CH0 to CH8, 9 is CH11 (R7, R127). -/
abbrev LampId := Fin 10

/-- A single entry N0 to N47 (R9). -/
abbrev SingleId := Fin 48

/-- A group entry G0 to G5 (R19). -/
abbrev GroupId := Fin 6

/-- An entry of the Node Table. -/
inductive EntryRef where
  | single (i : SingleId)
  | group (j : GroupId)
  deriving DecidableEq, Repr

/-- The function kinds (Table 1-5). -/
inductive FunKind where
  | tyrePressure | axleLoad | lampStatus | liftAxle | tailLift | bodyTemp | doorState | refrigSetpoint | curtainTension
  deriving DecidableEq, Repr

/-- A well-formed request, as Table 10-3 lays it out. A field marked * in the table keeps the value received. -/
inductive Request where
  /-- code 1: named set and states asked, bit n = function n -/
  | lightingSet (named asked : Word16)
  /-- code 2 -/
  | channelStatus (channel : Byte)
  /-- code 3 -/
  | channelClear (channel : Byte)
  /-- code 4: option read and clear -/
  | tripRecordRead (channel : Byte) (clear : Bool)
  /-- code 5 -/
  | functionRead (number : Byte)
  /-- code 6 -/
  | functionWrite (number : Byte) (value : Word16)
  /-- code 7: add or remove -/
  | watch (number : Byte) (add : Bool) (delta : Word16)
  /-- code 8: an absent filter is "any" -/
  | directoryQuery (pos : Option Pos) (kind : Option FunKind) (inst : Option Nat) (changedOnly : Bool) (start : Nat)
  /-- code 9 -/
  | positionRead (pos : Pos)
  /-- code 10 -/
  | nodeRead (entry : EntryRef)
  /-- code 11: set or clear -/
  | pin (number : Byte) (set : Bool)
  /-- code 12: set or release -/
  | quarantine (number : Byte) (set : Bool)
  /-- code 13 -/
  | relearn (position : Byte)
  /-- code 14 -/
  | mapRebuild
  /-- code 15 -/
  | profileForce (setting : Byte)
  /-- code 16 -/
  | freshnessSet (number : Byte) (window : Word16)
  /-- code 17 -/
  | workshopGrant (on : Bool)
  /-- code 18 -/
  | eventExchange (clear : Word16)
  /-- code 19 -/
  | interestSet (interest : Word16)
  deriving DecidableEq, Repr

/-- A CAN frame as a port receives it without error (R179): its identifier, whether that is an extended one and whether
the frame is a remote frame, and its data bytes. -/
structure CanFrame where
  id : Nat
  extended : Bool := false
  remote : Bool := false
  data : List Byte
  deriving DecidableEq, Repr

/-- The commands: the rows of the step table. A command that takes a request names the link whose queue head is
taken; the request's own fields stand in the queued frame (R186, R187). -/
inductive Instr where
  /-- POWER_ON_RESET with the strap levels sampled -/
  | powerOnReset (strap1 strap0 : Bool)
  /-- REQUEST_ARRIVAL: a frame received without error on the link; a request frame is the standard data frame with
  identifier 0x6A0, and any other frame is ignored (R179) -/
  | requestArrival (link : LinkId) (frame : CanFrame)
  /-- MALFORMED_REQUEST -/
  | malformedRequest (link : LinkId)
  /-- LIGHTING_SET -/
  | lightingSet (link : LinkId)
  /-- CHANNEL_STATUS -/
  | channelStatus (link : LinkId)
  /-- CHANNEL_CLEAR -/
  | channelClear (link : LinkId)
  /-- TRIP_RECORD_READ -/
  | tripRecordRead (link : LinkId)
  /-- FUNCTION_READ -/
  | functionRead (link : LinkId)
  /-- FUNCTION_WRITE -/
  | functionWrite (link : LinkId)
  /-- WATCH -/
  | watch (link : LinkId)
  /-- DIRECTORY_QUERY -/
  | directoryQuery (link : LinkId)
  /-- POSITION_READ -/
  | positionRead (link : LinkId)
  /-- NODE_READ -/
  | nodeRead (link : LinkId)
  /-- PIN -/
  | pin (link : LinkId)
  /-- QUARANTINE -/
  | quarantine (link : LinkId)
  /-- RELEARN -/
  | relearn (link : LinkId)
  /-- MAP_REBUILD -/
  | mapRebuild (link : LinkId)
  /-- PROFILE_FORCE -/
  | profileForce (link : LinkId)
  /-- FRESHNESS_SET -/
  | freshnessSet (link : LinkId)
  /-- WORKSHOP_GRANT -/
  | workshopGrant (link : LinkId)
  /-- EVENT_EXCHANGE -/
  | eventExchange (link : LinkId)
  /-- INTEREST_SET -/
  | interestSet (link : LinkId)
  /-- CAN_FRAME_TRANSMITTED -/
  | canFrameTransmitted (link : LinkId)
  /-- CAN_TRANSMIT_ERROR -/
  | canTransmitError (link : LinkId)
  /-- BUS_OFF_RECOVERY -/
  | busOffRecovery (link : LinkId)
  /-- SILENCE_TIMEOUT -/
  | silenceTimeout (link : LinkId)
  /-- CODE_SAMPLE: the voltages on KA and KB in mV -/
  | codeSample (ka kb : Nat)
  /-- POSITION1_DEBOUNCE_EXPIRY -/
  | position1DebounceExpiry
  /-- SUPPLY_READING in mV -/
  | supplyReading (millivolts : Nat)
  /-- TEMPERATURE_READING of a channel in degrees Celsius -/
  | temperatureReading (channel : ChanId) (degrees : Int)
  /-- CURRENT_SAMPLE of a channel in mA -/
  | currentSample (channel : ChanId) (milliamps : Nat)
  /-- TRIP_COOLDOWN_EXPIRY -/
  | tripCooldownExpiry (channel : ChanId)
  /-- STREAK_TIMER_EXPIRY -/
  | streakTimerExpiry (channel : ChanId)
  /-- TURN_FLASHER_PHASE_END -/
  | turnFlasherPhaseEnd
  /-- EMERGENCY_FLASHER_PHASE_END -/
  | emergencyFlasherPhaseEnd
  /-- PWM_PHASE_END -/
  | pwmPhaseEnd (channel : ChanId)
  /-- BACKFEED_CHECK with the output voltage in mV -/
  | backfeedCheck (channel : ChanId) (millivolts : Nat)
  /-- CHECK_WINDOW_COMPLETE -/
  | checkWindowComplete (channel : ChanId)
  /-- PROBE_GAP_END, of the probe request held -/
  | probeGapEnd
  /-- PROBE_ATTEMPT_COMPLETE, of the probe request held -/
  | probeAttemptComplete
  /-- PROBE_LIMIT_EXPIRY, of the probe request held -/
  | probeLimitExpiry
  /-- SETTLED_ONLY_COMPLETE, of the probe request held -/
  | settledOnlyComplete
  /-- POWERING_COUNT_EXPIRY, of the bring-up in progress -/
  | poweringCountExpiry
  /-- COUPLED_SECOND_TICK -/
  | coupledSecondTick (pos : Pos)
  /-- CACHE_AGE_EXPIRY of a slot, by its place in the entry's function list -/
  | cacheAgeExpiry (entry : EntryRef) (slot : Nat)
  /-- POLL_TIMER_EXPIRY of the chain repeater of a position -/
  | pollTimerExpiry (pos : Pos)
  /-- TRAILER_BUS_FRAME_RECEIVED: the bytes received, and whether the arbiter looks at the idle bus before the
  Coupling Detector takes a poll report (either may come first, section 11.3) -/
  | trailerBusFrameReceived (frame : List Byte) (arbiterFirst : Bool)
  /-- RESPONSE_TIMEOUT -/
  | responseTimeout
  /-- BROADCAST_SENT -/
  | broadcastSent
  deriving DecidableEq, Repr

end Sys2Proof
end

