-- ==== Sys2Proof/Config.lean ====
section
/-! DEFINITION. The figures the spec fixes for the part, and the one value it leaves open. -/

namespace Sys2Proof.Config

/-- The value a group slot's last reported value takes when the sum of its members lies outside signed 16 bits
(Table 1-5 gives the field 16 bits, R111 and R170 give it the sum). FREE: log 13. -/
opaque reportedOutside : Nat → Int → BitVec 16

/-- Code contact thresholds in mV (R33). -/
def groundedBelow : Nat := 2000
/-- R33 -/
def openAbove : Nat := 4000
/-- Interval of the code samples in ms (R33). -/
def codeInterval : Nat := 5
/-- Interval of the supply readings in ms (R50). -/
def supplyInterval : Nat := 2
/-- Interval of the temperature readings in ms (R49). -/
def temperatureInterval : Nat := 10
/-- Interval of the backfeed checks in ms (R59). -/
def backfeedInterval : Nat := 300
/-- Trip threshold of a lamp channel in mA (R43). -/
def lampTrip : Nat := 12000
/-- Trip threshold of a supply channel in mA (R43). -/
def supplyTrip : Nat := 20000
/-- Trip blanking and off-gap in ms (R46, R62). -/
def blanking : Nat := 40
/-- Cooldown of a trip in ms (R52). -/
def cooldown : Nat := 1000
/-- Limit of the streak timer in ms (R53). -/
def streakLimit : Nat := 10000
/-- Start of a settled or check window after a switch-on, in ms (R60, R63). -/
def windowStart : Nat := 60
/-- Spacing of STEADY check windows in ms (R60). -/
def windowPeriod : Nat := 300
/-- Limit of a probe request in ms (R61). -/
def probeLimit : Nat := 10000
/-- Largest current reading in mA, a saturated sample (R49). -/
def saturated : Nat := 25000
/-- Response timeout in ms (R94). -/
def responseTimeout : Nat := 5
/-- Poll timer in ms (R109). -/
def pollInterval : Nat := 100
/-- Silence timeout in ms (R188). -/
def silenceLimit : Nat := 1000
/-- Duration of POWERING in ms of CH9 in DRIVE (R125). -/
def poweringTime : Nat := 150
/-- Noise floor of a contribution in mA (R71). -/
def noiseFloor : Nat := 40

end Sys2Proof.Config
end

