-- ==== Sys2Proof/Machine/State.lean ====
section
/-! DEFINITION. The state of the part, whole and as plain data, block by block as the chapters name the blocks
(Table 0-2), the machine right after power-on reset, and the reasons a step could stop. -/

namespace Sys2Proof.Machine

/-! ## Sets -/

/-- A set of roles: BODY in bit 0, BRAKE in bit 1, SERVICE in bit 2 (R193). -/
abbrev RoleSet := BitVec 3

/-- A set of event kinds, one bit for each kind as Table 10-5 numbers them. -/
abbrev EventSet := BitVec 16

/-- A set of degraded reasons, numbered as Table 10-5 numbers them. -/
abbrev ReasonSet := BitVec 5

/-- A set of fixed functions, function n in bit n (Table 10-2). -/
abbrev FunctionSet := BitVec 15

/-- A set of suspects, position p in bit p (R193); bit 0 is never set. -/
abbrev SuspectSet := BitVec 4

/-! ## Coupling Map (chapter 1) -/

/-- The state of a position (Table 1-2). -/
inductive PosState where
  | absent | powering | enumerating | measuring | online | degraded
  deriving DecidableEq, Repr

/-- The class of a contribution (R7). -/
inductive LoadClass where
  | none | led | mixed | filament | unknown
  deriving DecidableEq, Repr

/-- A contribution record (R7); the defaults are the ABSENT values of Table 1-2. -/
structure Contribution where
  settled : Nat := 0
  peak : Nat := 0
  clamped : Bool := false
  cls : LoadClass := .none
  deriving DecidableEq, Repr

/-- The degraded reasons (Table 1-3). -/
inductive Reason where
  | mapFull | idConflict | probeIncomplete | quarantine | chainOpen
  deriving DecidableEq, Repr

/-- A position record (R1, Table 1-2); the defaults are the ABSENT values. -/
structure PosRec where
  state : PosState := .absent
  ident : Option (List Byte) := none
  repeater : Option SingleId := none
  singles : List SingleId := []
  groups : List GroupId := []
  contrib : Tbl Contribution 10 := Tbl.fill 10 {}
  shadow : Tbl Contribution 10 := Tbl.fill 10 {}
  relearn : Bool := false
  reasons : ReasonSet := 0
  coupledSeconds : Nat := 0
  /-- ms of the coupled second under way (R3) -/
  secondMs : Nat := 0
  deriving DecidableEq, Repr

/-- The kind of a node (Table 1-4). -/
inductive NodeKind where
  | unknown | repeater | lampCluster | tyreHub | axleLoad | bodyController | genericSensor
  deriving DecidableEq, Repr

/-- The access class of a slot (Table 1-5). -/
inductive Access where
  | sensor | actuator | setting
  deriving DecidableEq, Repr

/-- The unit of a slot (Table 1-5). -/
inductive MeasureUnit where
  | kPa | tenKg | tenthDegree | mm | count | state
  deriving DecidableEq, Repr

/-- The quality of a cached value (R13). -/
inductive Quality where
  | good | stale | failed
  deriving DecidableEq, Repr

/-- A function slot (R12, Table 1-5); the defaults are those of a new slot. -/
structure Slot where
  kind : FunKind
  inst : Nat
  access : Access
  rangeMin : Word16
  rangeMax : Word16
  unit : MeasureUnit
  /-- directory number, 16 to 127 when bound (R27) -/
  number : Option Nat := none
  /-- the cached value of a single slot, or one value per member of a group (R20) -/
  cache : List Word16
  age : Nat := 65535
  quality : Quality := .stale
  window : Nat := 1000
  watch : RoleSet := 0
  delta : Nat := 1
  lastReported : Word16 := 0
  changed : RoleSet := 0
  deriving DecidableEq, Repr

/-- A valid entry of the Node Table: a single entry (Table 1-4) or a group entry (R19). For a group, `nodeId` is the
head ID, `addr` the base, `run` the run length and `kind` the member kind; for a single entry `run` is 0. -/
structure Entry where
  live : Bool
  nodeId : Word32
  /-- bus address or base while live, preference while stale (R22) -/
  addr : Nat
  run : Nat
  pos : Pos
  kind : NodeKind := .unknown
  slots : List Slot := []
  pins : RoleSet := 0
  locked : Bool := false
  strikes : Nat := 0
  /-- the node has been found unassigned and has not answered at its address since (Table 5-2, Note 1; R107, log 33) -/
  unassigned : Bool := false
  used : Bool
  restarts : Nat := 0
  deriving DecidableEq, Repr

/-- The Coupling Map: Position List and Node Table. The Function Directory's bindings are the numbers the slots hold
(R26, R27). An entry that is `none` is invalid (R9). -/
structure CouplingMap where
  positions : Tbl PosRec 3
  singles : Tbl (Option Entry) 48
  groups : Tbl (Option Entry) 6
  deriving DecidableEq, Repr

/-! ## Contact Matrix (chapter 2) -/

/-- A profile, and with it an effective code state (R34, R35). -/
inductive Profile where
  | none | s | l | d
  deriving DecidableEq, Repr

/-- A contact of the coupling socket: 0 to 15 for C1 to C16 (R32). -/
abbrev Contact := Fin 16

/-- What a contact is connected to (R32, Table 2-1). -/
inductive ContactUse where
  /-- connected to no channel, to no transceiver wire and to no other contact -/
  | leftOpen
  /-- the output of a channel -/
  | channel (c : ChanId)
  /-- one of the two wires of the trailer bus data pair -/
  | dataWire (w : Fin 2)
  /-- sensed as code contact KA or KB -/
  | codeKA | codeKB
  deriving DecidableEq, Repr

/-- The forced setting (R41). -/
inductive Forced where
  | auto | s | l | d
  deriving DecidableEq, Repr

/-- The Contact Matrix (R33, R35, R41). What each contact is connected to follows from the active profile alone (R36):
`State.contact` of Machine/Ops.lean says it. -/
structure ContactMatrix where
  kaGrounded : Bool
  kbGrounded : Bool
  forced : Forced
  active : Profile
  /-- ms since the last code sample -/
  sampleAge : Nat
  deriving DecidableEq, Repr

/-! ## Channel Bank (chapter 3) -/

/-- The seven channel states (R44). -/
inductive ChanState where
  | off | drive | probeGap | probeOn | tripped | latched | thermalOff
  deriving DecidableEq, Repr

/-- A demand (R45). -/
inductive Demand where
  | off | steady | flashTurn | flashEmergency
  deriving DecidableEq, Repr

/-- A driven mode, and the mode of a trip record (R44, Table 3-3). -/
inductive DriveMode where
  | steady | flash | pwm | probe
  deriving DecidableEq, Repr

/-- A trip record (R56, Table 3-3). -/
structure TripRecord where
  peak : Nat
  mean : Nat
  supply : Nat
  temperature : Int
  mode : DriveMode
  count : Nat
  deriving DecidableEq, Repr

/-- A check window under way (R60): its samples, the ms since the last of them, whether every supply reading during it
was inside, and the channel's peak up to its last sample (R69). -/
structure Window where
  samples : List Nat
  gap : Nat
  supplyOk : Bool
  peak : Nat
  deriving DecidableEq, Repr

/-- A circuit channel; the defaults are the condition at power-on reset (R44). -/
structure Channel where
  state : ChanState := .off
  demand : Demand := .off
  derated : Bool := false
  backfeed : Bool := false
  highCount : Nat := 0
  lowCount : Nat := 0
  /-- ms since the later of entry to OFF, routing and the last check (R59) -/
  backfeedAge : Nat := 0
  streakCount : Nat := 0
  streakTimer : Nat := 0
  /-- ms of the cooldown of TRIPPED that have run (R52) -/
  cooldown : Nat := 0
  trip : Option TripRecord := none
  settledMean : Nat := 0
  /-- latest temperature reading (log 7) -/
  temperature : Int := 0
  /-- ms since the last temperature reading -/
  temperatureAge : Nat := 0
  output : Bool := false
  /-- ms since the last switch-on (R46) -/
  sinceOn : Nat := 0
  /-- ms the output has been on without a break, an on-edge of the derating pattern being its start too (R60 (2)) -/
  onFor : Nat := 0
  /-- ms since the output went off (R46); at reset longer than 40 (R44) -/
  sinceOff : Nat := 41
  /-- peak reading since switch-on (R46) -/
  peak : Nat := 0
  /-- a current sample has been taken in this ms (R49) -/
  sampled : Bool := false
  /-- on-time or off-time of the derating pattern, and the ms of it that have run (R57) -/
  pwmOn : Bool := true
  pwmAge : Nat := 0
  window : Option Window := none
  deriving DecidableEq, Repr

/-- A flasher (R47, R48): `fast` is the rate of the phase in progress, used by the turn flasher alone. -/
structure Flasher where
  running : Bool := false
  onPhase : Bool := false
  age : Nat := 0
  fast : Bool := false
  deriving DecidableEq, Repr

/-- The condition of a probe request (R61, R65, R68). -/
inductive ProbePhase where
  | postponed | attempt | settledOnly
  deriving DecidableEq, Repr

/-- The probe request the Bank holds (R61). -/
structure Probe where
  lamp : LampId
  pos : Pos
  /-- ms since the request (R61) -/
  elapsed : Nat := 0
  /-- the 10 s limit has expired with the request unresolved (R65) -/
  expired : Bool := false
  phase : ProbePhase := .postponed
  /-- largest sample of the inrush window so far (R63) -/
  inrush : Nat := 0
  /-- settled samples so far (R63, R65) -/
  samples : List Nat := []
  /-- ms since the last settled sample -/
  gap : Nat := 0
  /-- settled-only measurement of CH2 under the Emergency Signal: the on-phase of its samples has begun (R65) -/
  armed : Bool := false
  deriving DecidableEq, Repr

/-- The Channel Bank: channels, flashers, supply monitor (R50) and the probe request held (R61). -/
structure ChannelBank where
  channels : Tbl Channel 12
  turn : Flasher
  emergency : Flasher
  /-- latest supply reading in mV (log 6) -/
  supply : Nat
  supplyInside : Bool
  supplyAge : Nat
  probe : Option Probe
  deriving DecidableEq, Repr

/-! ## Load Learning Unit (chapter 4) -/

/-- The kind of a verdict (R83). -/
inductive VerdictKind where
  | unchecked | none | ok | lampOut | extraLoad
  deriving DecidableEq, Repr

/-- A candidate as the debounce compares it: a kind and a suspect set (R84). -/
structure Candidate where
  kind : VerdictKind
  suspects : SuspectSet
  deriving DecidableEq, Repr

/-- A verdict record (R83, Table 4-3); the defaults are its last column. -/
structure Verdict where
  kind : VerdictKind := .unchecked
  suspects : SuspectSet := 0
  attribution : Nat := 0
  deviation : Nat := 0
  pending : Option Candidate := none
  agreement : Nat := 0
  lastM : Nat := 0
  lastPeak : Nat := 0
  deriving DecidableEq, Repr

/-- The Load Learning Unit (R76, R83). -/
structure LoadUnit where
  expected : Tbl Nat 10
  verdicts : Tbl Verdict 10
  deriving DecidableEq, Repr

/-! ## Trailer Bus Controller (chapter 5) -/

/-- A tentative placement (R100, R102), to be made or refused by the outcome of its ASSIGN or GROUP_ASSIGN. -/
structure Tentative where
  ref : EntryRef
  nodeId : Word32
  /-- address of a single, base of a group -/
  addr : Nat
  /-- 0 for a single -/
  run : Nat
  /-- same-node reuse of a stale entry (R23 (1b), R24 (1)) -/
  reuse : Bool
  /-- the entry is a victim (R23 (3), (4); R24 (3), (4)) -/
  victim : Bool
  /-- the choice was case (4), so the placement clears used marks (R100) -/
  clearUsed : Bool
  /-- the live single entry that proved to be this group head (R105) -/
  fromSingle : Option SingleId := none
  deriving DecidableEq, Repr

/-- Who wants the outcome of a WRITE (R112). -/
inductive WriteOwner where
  | deferred (link : LinkId) (tag : Byte)
  | posted (number : Nat)
  deriving DecidableEq, Repr

/-- A trailer bus transaction, as a claim names it (Table 5-2, Table 5-4). Table 5-2 and R110 also name a SEGMENT open to
one chain repeater; no rule says when it is asked for, and the part never sends one (DESIGN CHOICE, log 34). -/
inductive Txn where
  | addressReset
  | segmentOpen
  /-- DISCOVER of the search: the leading `len` bits of `bits` (R99) -/
  | search (bits : Word32) (len : Nat)
  /-- ASSIGN or GROUP_ASSIGN of a tentative placement (R103) -/
  | place (t : Tentative)
  | describe (ref : EntryRef) (page : Nat)
  /-- ASSIGN naming 255 to the head of a group entry returned to invalid (R105): head ID, and the address it is sent to -/
  | releaseGroup (nodeId : Word32) (dest : Nat)
  /-- ASSIGN naming 255 to a single entry proved to be a head, with no entry or block free (R105) -/
  | releaseSingle (i : SingleId)
  /-- DISCOVER of an entry's full ID (R107) -/
  | rediscover (ref : EntryRef)
  /-- ASSIGN or GROUP_ASSIGN of a restarted node to its own entry; by the bring-up that found it, or not (R107) -/
  | reassign (ref : EntryRef) (byBringUp : Bool)
  /-- POLL of the chain repeater of a position (R109) -/
  | poll (pos : Pos)
  /-- SEGMENT close to the chain repeater of a position (R110) -/
  | segmentClose (pos : Pos)
  /-- READ of a slot, for a deferred read or a refresh (R111) -/
  | read (ref : EntryRef) (slot : Nat) (owner : Option (LinkId × Byte))
  /-- WRITE of a slot (R112) -/
  | write (ref : EntryRef) (slot : Nat) (value : Word16) (owner : WriteOwner)
  deriving DecidableEq, Repr

/-- The discard mark of a transaction in flight (R98). -/
inductive Discard where
  | kept | busOff | teardown
  deriving DecidableEq, Repr

/-- The transaction in flight (R91, R94). -/
structure InFlight where
  txn : Txn
  /-- the request frame sent, CRC included (R196) -/
  frame : List Byte
  repeated : Bool := false
  discard : Discard := .kept
  /-- ms since the end of the request frame, or of the last member's frame (R94, R111) -/
  waited : Nat := 0
  /-- values received so far from the members of a group (R111) -/
  members : List Word16 := []
  deriving DecidableEq, Repr

/-- An item of the search stack: the leading `len` bits, left-aligned (R99). -/
structure SearchItem where
  bits : Word32
  len : Nat
  deriving DecidableEq, Repr

/-- The Trailer Bus Controller (R91). Claims of classes 1 and 2 are kept in the order made (R96). -/
structure BusController where
  flight : Option InFlight
  class1 : List Txn
  class2 : List Txn
  stack : List SearchItem
  /-- poll timer of the chain repeater of each position: ms that have run (R109) -/
  polls : Tbl (Option Nat) 3
  deriving DecidableEq, Repr

/-! ## Coupling Detector (chapter 6) -/

/-- A running position-1 debounce (R115, R116). -/
structure Debounce where
  candidate : Profile
  length : Nat
  elapsed : Nat := 0
  deriving DecidableEq, Repr

/-- A repeater watch (R119, R121); the defaults are its values when created. -/
structure Watch where
  present : Nat := 0
  absent : Nat := 0
  closed : Bool := false
  held : Bool := false
  deriving DecidableEq, Repr

/-- One function descriptor (R104, Table 10-7). -/
structure SlotDesc where
  kind : FunKind
  inst : Nat
  access : Access
  unit : MeasureUnit
  rangeMin : Word16
  rangeMax : Word16
  deriving DecidableEq, Repr

/-- Page 0 of a descriptor (R104). -/
structure Page0 where
  kind : NodeKind
  count : Nat
  run : Nat
  identLen : Nat
  deriving DecidableEq, Repr

/-- A description under way (R104). -/
structure Description where
  ref : EntryRef
  page0 : Option Page0 := none
  slots : List SlotDesc := []
  ident : List Byte := []
  deriving DecidableEq, Repr

/-- The bring-up in progress (R114, R124). Its stage is the state of the position record. -/
structure BringUp where
  pos : Pos
  /-- ms CH9 has driven without interruption in POWERING (R125) -/
  powering : Nat := 0
  /-- broadcasts still to be sent (R117) -/
  broadcasts : Nat := 0
  /-- entries whose description has ended (R104) -/
  described : List EntryRef := []
  desc : Option Description := none
  /-- trailer idents read from repeaters (R104) -/
  idents : List (SingleId × List Byte) := []
  deriving DecidableEq, Repr

/-- The relearn in progress (R137); the channel awaited is the probe request's. -/
structure Relearn where
  pos : Pos
  incomplete : Bool := false
  deriving DecidableEq, Repr

/-- The Coupling Detector (R114, Table 6-1). -/
structure Detector where
  effective : Profile
  debounce : Option Debounce
  watches : Tbl (Option Watch) 3
  bringUp : Option BringUp
  relearn : Option Relearn
  couplingDemand : Bool
  deriving DecidableEq, Repr

/-! ## Lighting Function Logic (chapter 7) -/

/-- The command records and the fast-flash decision (R142, R147, R154). -/
structure Lighting where
  body : FunctionSet
  brake : FunctionSet
  service : FunctionSet
  grant : Bool
  fast : Bool
  kind0 : VerdictKind
  kind1 : VerdictKind
  deriving DecidableEq, Repr

/-! ## Request Decoder (chapters 8 and 9) -/

/-- A Deferred List entry (R182, Table 9-3), with the frames reserved for its completion (R185). A read has no
value. -/
structure Deferred where
  link : LinkId
  tag : Byte
  number : Nat
  value : Option Word16
  inFlight : Bool := false
  reserved : Nat
  deriving DecidableEq, Repr

/-- A Posted Write Buffer entry (R166). It is IN_FLIGHT exactly while it carries a value and a poster. -/
structure Posted where
  number : Nat
  value : Word16
  poster : Role
  carried : Option (Word16 × Role) := none
  /-- replaced while in flight (R167 (1), R168 (2)) -/
  replaced : Bool := false
  /-- the entry of its slot has become locked out while the WRITE was in flight (R169 (1)) -/
  lockedOut : Bool := false
  deriving DecidableEq, Repr

/-- The Request Decoder's two waiting collections. -/
structure Decoder where
  deferred : List Deferred
  posted : List Posted
  deriving DecidableEq, Repr

/-! ## Master Link Units (chapter 9) -/

/-- What a link carries (R177): BENCH is SERVICE with all BODY rights. -/
inductive LinkRole where
  | body | brake | service | bench
  deriving DecidableEq, Repr

/-- The frames of the part by the identifier they carry (R179); `FrameId.identifier` of Machine/Operands.lean gives it. -/
inductive FrameId where
  | reply | completion | attention
  deriving DecidableEq, Repr

/-- A frame of a transmit buffer. -/
structure TxFrame where
  kind : FrameId
  data : List Byte
  deriving DecidableEq, Repr

/-- An enabled Master Link Unit (R178, Table 9-2). -/
structure Mlu where
  role : LinkRole
  busOff : Bool := false
  txErrors : Nat := 0
  /-- requests as received, in arrival order -/
  queue : List (List Byte) := []
  buffer : List TxFrame := []
  owed : Bool := false
  silenceTimer : Nat := 0
  silent : Bool := false
  pending : EventSet := 0
  interest : EventSet := BitVec.allOnes 16
  deriving DecidableEq, Repr

/-- The three links; a disabled link is `none` and holds nothing (R177). The straps are kept as sampled. -/
structure Links where
  strap1 : Bool
  strap0 : Bool
  a : Option Mlu
  b : Option Mlu
  c : Option Mlu
  deriving DecidableEq, Repr

/-! ## The whole part -/

/-- The state of the part. -/
structure State where
  /-- commands waiting, first in, first out -/
  pending : List Instr
  map : CouplingMap
  matrix : ContactMatrix
  bank : ChannelBank
  load : LoadUnit
  bus : BusController
  det : Detector
  light : Lighting
  dec : Decoder
  links : Links
  /-- the model's own counter of free values used (log 13) -/
  freeCount : Nat
  deriving DecidableEq, Repr

/-- The reasons for a fault: there is none. No behaviour the spec gives stops the part, so no command faults. -/
inductive Fault where
  deriving DecidableEq, Repr

/-- The reasons for a refusal. -/
inductive Refusal where
  /-- Raised by the dispatcher for a command whose meaning is not written yet; safe. No arm raises it now. -/
  | notModelled (mnemonic : String)
  deriving DecidableEq, Repr

/-- The outcome of a command. -/
abbrev Result := Host.Outcome State Fault Refusal

/-- The links as the straps fix them (R177, Table 9-1), every unit at its values of Table 9-2. -/
def Links.ofStraps (strap1 strap0 : Bool) : Links :=
  match strap1, strap0 with
  | false, false => ⟨false, false, some { role := .body }, some { role := .brake }, some { role := .service }⟩
  | false, true => ⟨false, true, some { role := .body }, some { role := .service }, some { role := .brake }⟩
  | true, false => ⟨true, false, some { role := .brake }, some { role := .body }, some { role := .service }⟩
  | true, true => ⟨true, true, some { role := .bench }, none, none⟩

/-- The part right after a power-on reset that samples these straps (R1, R30, R33, R35, R41, R44, R47, R48, R50, R76,
R83, R91, R114, R142, R147, R154, R166, R178). -/
def State.resetWith (strap1 strap0 : Bool) : State where
  pending := []
  map := { positions := Tbl.fill 3 {}, singles := Tbl.fill 48 none, groups := Tbl.fill 6 none }
  matrix := { kaGrounded := false, kbGrounded := false, forced := .auto, active := .none, sampleAge := 0 }
  bank := { channels := Tbl.fill 12 {}, turn := {}, emergency := {}, supply := 0, supplyInside := true, supplyAge := 0,
            probe := none }
  load := { expected := Tbl.fill 10 0, verdicts := Tbl.fill 10 {} }
  bus := { flight := none, class1 := [], class2 := [], stack := [], polls := Tbl.fill 3 none }
  det := { effective := .none, debounce := none, watches := Tbl.fill 3 none, bringUp := none, relearn := none,
           couplingDemand := false }
  light := { body := 0, brake := 0, service := 0, grant := false, fast := false, kind0 := .unchecked,
             kind1 := .unchecked }
  dec := { deferred := [], posted := [] }
  links := Links.ofStraps strap1 strap0
  freeCount := 0

/-- The machine right after reset, with both straps sampled at 0 (log 5). -/
def State.reset : State := State.resetWith false false

end Sys2Proof.Machine
end

