-- ==== Sys2Proof/Machine/Operands.lean ====
section
/-! DEFINITION. The forms of everything that crosses the part's edge as bytes: numbers in byte order (R193), the codes
of Table 10-5, the request frames of Table 10-3, the frames of Table 10-1, the trailer bus frames of Table 10-6 with
their CRC (R196), and the descriptor pages of Table 10-7 (R197). -/

namespace Sys2Proof.Machine

/-! ## Numbers in frames (R193) -/

/-- A number as one byte. -/
def byteOf (n : Nat) : Byte := BitVec.ofNat 8 n

/-- A number as two bytes, high byte first (R193). -/
def bytes2 (n : Nat) : List Byte := [byteOf (n / 256), byteOf n]

/-- A number as three bytes, high byte first (R193). -/
def bytes3 (n : Nat) : List Byte := byteOf (n / 65536) :: bytes2 n

/-- A number as four bytes, high byte first (R193). -/
def bytes4 (n : Nat) : List Byte := bytes2 (n / 65536) ++ bytes2 n

/-- Two bytes, high byte first, as a word (R193). -/
def word16 (hi lo : Byte) : Word16 := hi ++ lo

/-- Four bytes, high byte first, as a word (R193). -/
def word32 (b3 b2 b1 b0 : Byte) : Word32 := b3 ++ b2 ++ b1 ++ b0

/-- A word as two bytes, high byte first. -/
def Word16.bytes (w : Word16) : List Byte := [w.extractLsb' 8 8, w.extractLsb' 0 8]

/-- A word as four bytes, high byte first. -/
def Word32.bytes (w : Word32) : List Byte :=
  [w.extractLsb' 24 8, w.extractLsb' 16 8, w.extractLsb' 8 8, w.extractLsb' 0 8]

/-- A flag as 0 or 1. -/
def bit (b : Bool) : Nat := if b then 1 else 0

/-- The byte at a place of a list of bytes; 0 beyond its end. -/
def byteAt (bs : List Byte) (k : Nat) : Byte := bs.getD k 0

/-! ## Codes (Table 10-5) -/

/-- Reply and completion statuses (Table 10-5). -/
inductive Status where
  | ok | accepted | deferred | done | retry | busy | rights | noFunction | gone | noReply | nodeRefused | tagInUse
  | malformed | dark
  deriving DecidableEq, Repr

/-- Table 10-5 -/
def Status.code : Status → Nat
  | .ok => 0 | .accepted => 1 | .deferred => 2 | .done => 3 | .retry => 4 | .busy => 5 | .rights => 6
  | .noFunction => 7 | .gone => 8 | .noReply => 9 | .nodeRefused => 10 | .tagInUse => 11 | .malformed => 12
  | .dark => 13

/-- Table 10-5 -/
def PosState.code : PosState → Nat
  | .absent => 0 | .powering => 1 | .enumerating => 2 | .measuring => 3 | .online => 4 | .degraded => 5

/-- Table 10-5 -/
def Profile.code : Profile → Nat
  | .none => 0 | .s => 1 | .l => 2 | .d => 3

/-- Table 10-5 -/
def Forced.code : Forced → Nat
  | .auto => 0 | .s => 1 | .l => 2 | .d => 3

/-- The forced setting a PROFILE_FORCE names (R195). -/
def Forced.ofCode (b : Byte) : Option Forced :=
  match b.toNat with
  | 0 => some .auto | 1 => some .s | 2 => some .l | 3 => some .d | _ => none

/-- Table 10-5 -/
def ChanState.code : ChanState → Nat
  | .off => 0 | .drive => 1 | .probeGap => 2 | .probeOn => 3 | .tripped => 4 | .latched => 5 | .thermalOff => 6

/-- Table 10-5 -/
def Demand.code : Demand → Nat
  | .off => 0 | .steady => 1 | .flashTurn => 2 | .flashEmergency => 3

/-- Table 10-5 -/
def DriveMode.code : DriveMode → Nat
  | .steady => 0 | .flash => 1 | .pwm => 2 | .probe => 3

/-- Table 10-5 -/
def VerdictKind.code : VerdictKind → Nat
  | .unchecked => 0 | .none => 1 | .ok => 2 | .lampOut => 3 | .extraLoad => 4

/-- Table 10-5 -/
def LoadClass.code : LoadClass → Nat
  | .none => 0 | .led => 1 | .mixed => 2 | .filament => 3 | .unknown => 4

/-- Table 10-5 -/
def Quality.code : Quality → Nat
  | .good => 0 | .stale => 1 | .failed => 2

/-- Table 10-5 -/
def NodeKind.code : NodeKind → Nat
  | .unknown => 0 | .repeater => 1 | .lampCluster => 2 | .tyreHub => 3 | .axleLoad => 4 | .bodyController => 5
  | .genericSensor => 6

/-- The node kind a descriptor page gives (R197 (1)). -/
def NodeKind.ofCode (b : Byte) : Option NodeKind :=
  match b.toNat with
  | 1 => some .repeater | 2 => some .lampCluster | 3 => some .tyreHub | 4 => some .axleLoad | 5 => some .bodyController
  | 6 => some .genericSensor | _ => none

/-- Table 10-5 -/
def funCode : FunKind → Nat
  | .tyrePressure => 1 | .axleLoad => 2 | .lampStatus => 3 | .liftAxle => 4 | .tailLift => 5 | .bodyTemp => 6
  | .doorState => 7 | .refrigSetpoint => 8 | .curtainTension => 9

/-- The function kind a code names (Table 10-5). -/
def funOfCode (n : Nat) : Option FunKind :=
  match n with
  | 1 => some .tyrePressure | 2 => some .axleLoad | 3 => some .lampStatus | 4 => some .liftAxle | 5 => some .tailLift
  | 6 => some .bodyTemp | 7 => some .doorState | 8 => some .refrigSetpoint | 9 => some .curtainTension | _ => none

/-- Table 10-5 -/
def Access.code : Access → Nat
  | .sensor => 1 | .actuator => 2 | .setting => 3

/-- The access class a code names (Table 10-5). -/
def Access.ofCode (n : Nat) : Option Access :=
  match n with
  | 1 => some .sensor | 2 => some .actuator | 3 => some .setting | _ => none

/-- Table 10-5 -/
def MeasureUnit.code : MeasureUnit → Nat
  | .kPa => 1 | .tenKg => 2 | .tenthDegree => 3 | .mm => 4 | .count => 5 | .state => 6

/-- The unit a code names (Table 10-5). -/
def MeasureUnit.ofCode (n : Nat) : Option MeasureUnit :=
  match n with
  | 1 => some .kPa | 2 => some .tenKg | 3 => some .tenthDegree | 4 => some .mm | 5 => some .count | 6 => some .state
  | _ => none

/-- Position number 1 to 3 (0.7 (8)). -/
def posNumber : Pos → Nat
  | .p1 => 1 | .p2 => 2 | .p3 => 3

/-- The position a number names. -/
def posOfNumber (n : Nat) : Option Pos :=
  match n with
  | 1 => some .p1 | 2 => some .p2 | 3 => some .p3 | _ => none

/-- The entry an index of NODE_READ names: 0 to 47 for N0 to N47, 48 to 53 for G0 to G5 (Table 10-3). -/
def entryOfIndex (n : Nat) : Option EntryRef :=
  if h : n < 48 then some (.single ⟨n, h⟩)
  else if h : n - 48 < 6 then some (.group ⟨n - 48, h⟩)
  else none

/-- The index of NODE_READ that names an entry (Table 10-3). -/
def entryIndex : EntryRef → Nat
  | .single i => i.val
  | .group j => 48 + j.val

/-- The channel of a lamp index: CH0 to CH8, then CH11 (R127). -/
def lampChan (l : LampId) : ChanId :=
  if h : l.val < 9 then ⟨l.val, Nat.lt_trans h (by decide)⟩ else 11

/-- The lamp index of a channel; none for the supply channels CH9 and CH10 (R43). -/
def chanLamp (c : ChanId) : Option LampId :=
  if h : c.val < 9 then some ⟨c.val, Nat.lt_trans h (by decide)⟩ else if c.val = 11 then some 9 else none

/-! ## Requests (Table 10-3, R195) -/

/-- The kinds of request, in the order of Table 10-3. -/
inductive ReqKind where
  | lightingSet | channelStatus | channelClear | tripRecordRead | functionRead | functionWrite | watch | directoryQuery
  | positionRead | nodeRead | pin | quarantine | relearn | mapRebuild | profileForce | freshnessSet | workshopGrant
  | eventExchange | interestSet
  deriving DecidableEq, Repr

/-- The kind code of a request (Table 10-3). -/
def ReqKind.code : ReqKind → Nat
  | .lightingSet => 1 | .channelStatus => 2 | .channelClear => 3 | .tripRecordRead => 4 | .functionRead => 5
  | .functionWrite => 6 | .watch => 7 | .directoryQuery => 8 | .positionRead => 9 | .nodeRead => 10 | .pin => 11
  | .quarantine => 12 | .relearn => 13 | .mapRebuild => 14 | .profileForce => 15 | .freshnessSet => 16
  | .workshopGrant => 17 | .eventExchange => 18 | .interestSet => 19

/-- The kind of a request. -/
def reqKind : Request → ReqKind
  | .lightingSet .. => .lightingSet | .channelStatus .. => .channelStatus | .channelClear .. => .channelClear
  | .tripRecordRead .. => .tripRecordRead | .functionRead .. => .functionRead | .functionWrite .. => .functionWrite
  | .watch .. => .watch | .directoryQuery .. => .directoryQuery | .positionRead .. => .positionRead
  | .nodeRead .. => .nodeRead | .pin .. => .pin | .quarantine .. => .quarantine | .relearn .. => .relearn
  | .mapRebuild => .mapRebuild | .profileForce .. => .profileForce | .freshnessSet .. => .freshnessSet
  | .workshopGrant .. => .workshopGrant | .eventExchange .. => .eventExchange | .interestSet .. => .interestSet

/-- A byte that may hold 0 or 1. -/
def flagOfByte (b : Byte) : Option Bool :=
  match b.toNat with
  | 0 => some false | 1 => some true | _ => none

/-- A position filter of DIRECTORY_QUERY: 0 any, 1 to 3. -/
def posFilter (b : Byte) : Option (Option Pos) :=
  if b.toNat = 0 then some none else (posOfNumber b.toNat).map some

/-- A function kind filter of DIRECTORY_QUERY: 0 any, 1 to 9. -/
def kindFilter (b : Byte) : Option (Option FunKind) :=
  if b.toNat = 0 then some none else (funOfCode b.toNat).map some

/-- An instance filter of DIRECTORY_QUERY: 0 to 15, 0xFF any. -/
def instFilter (b : Byte) : Option (Option Nat) :=
  if b.toNat = 255 then some none else if b.toNat ≤ 15 then some (some b.toNat) else none

/-- The form step of R187 and R195: the request a frame spells, or none where its kind, its length or an unmarked field
is not one Table 10-3 gives. -/
def parseRequest : List Byte → Option Request
  | [k, _] => if k.toNat = 14 then some .mapRebuild else none
  | [k, _, x] =>
    match k.toNat with
    | 2 => some (.channelStatus x)
    | 3 => some (.channelClear x)
    | 5 => some (.functionRead x)
    | 9 => (posOfNumber x.toNat).map .positionRead
    | 10 => (entryOfIndex x.toNat).map .nodeRead
    | 13 => some (.relearn x)
    | 15 => some (.profileForce x)
    | 17 => (flagOfByte x).map .workshopGrant
    | _ => none
  | [k, _, x, y] =>
    match k.toNat with
    | 4 => (flagOfByte y).map (.tripRecordRead x)
    | 11 => (flagOfByte y).map (.pin x)
    | 12 => (flagOfByte y).map (.quarantine x)
    | 18 => some (.eventExchange (word16 x y))
    | 19 => some (.interestSet (word16 x y))
    | _ => none
  | [k, _, x, y, z] =>
    match k.toNat with
    | 6 => some (.functionWrite x (word16 y z))
    | 16 => some (.freshnessSet x (word16 y z))
    | _ => none
  | [k, _, x, y, z, u] =>
    match k.toNat with
    | 1 => some (.lightingSet (word16 x y) (word16 z u))
    | 7 => (flagOfByte y).map fun add => .watch x add (word16 z u)
    | _ => none
  | [k, _, x, y, z, u, v] =>
    if k.toNat = 8 then
      match posFilter x, kindFilter y, instFilter z, flagOfByte u with
      | some p, some f, some i, some ch =>
        if 16 ≤ v.toNat ∧ v.toNat ≤ 127 then some (.directoryQuery p f i ch v.toNat) else none
      | _, _, _, _ => none
    else none
  | _ => none

/-- The bytes from byte 2 of the frame that spells a request (Table 10-3). -/
def requestFields : Request → List Byte
  | .lightingSet named asked => Word16.bytes named ++ Word16.bytes asked
  | .channelStatus c => [c]
  | .channelClear c => [c]
  | .tripRecordRead c clear => [c, byteOf (bit clear)]
  | .functionRead n => [n]
  | .functionWrite n v => n :: Word16.bytes v
  | .watch n add delta => [n, byteOf (bit add)] ++ Word16.bytes delta
  | .directoryQuery p f i ch start =>
    [byteOf ((p.map posNumber).getD 0), byteOf ((f.map funCode).getD 0), byteOf (i.getD 255), byteOf (bit ch),
      byteOf start]
  | .positionRead p => [byteOf (posNumber p)]
  | .nodeRead r => [byteOf (entryIndex r)]
  | .pin n set => [n, byteOf (bit set)]
  | .quarantine n set => [n, byteOf (bit set)]
  | .relearn p => [p]
  | .mapRebuild => []
  | .profileForce s => [s]
  | .freshnessSet n w => n :: Word16.bytes w
  | .workshopGrant on => [byteOf (bit on)]
  | .eventExchange clear => Word16.bytes clear
  | .interestSet set => Word16.bytes set

/-- The frame that spells a request with a tag (Table 10-3). -/
def requestFrame (tag : Byte) (r : Request) : List Byte :=
  byteOf (reqKind r).code :: tag :: requestFields r

/-- The function number a request names, for the kinds that name one (R186 (1)). -/
def requestNumber : Request → Option Nat
  | .functionRead n => some n.toNat
  | .functionWrite n _ => some n.toNat
  | .watch n _ _ => some n.toNat
  | .pin n _ => some n.toNat
  | .quarantine n _ => some n.toNat
  | .freshnessSet n _ => some n.toNat
  | .lightingSet .. | .channelStatus .. | .channelClear .. | .tripRecordRead .. | .directoryQuery .. | .positionRead ..
  | .nodeRead .. | .relearn .. | .mapRebuild | .profileForce .. | .workshopGrant .. | .eventExchange ..
  | .interestSet .. => none

/-- The room a head request needs (R186 (2), Table 10-2 and its Note 2). -/
def ReqKind.room : ReqKind → Nat
  | .lightingSet => 2 | .channelStatus => 10 | .channelClear => 1 | .tripRecordRead => 3 | .functionRead => 8
  | .functionWrite => 2 | .watch => 1 | .directoryQuery => 14 | .positionRead => 16 | .nodeRead => 14 | .pin => 1
  | .quarantine => 1 | .relearn => 1 | .mapRebuild => 1 | .profileForce => 1 | .freshnessSet => 1
  | .workshopGrant => 1 | .eventExchange => 2 | .interestSet => 1

/-! ## Identifiers (R179) -/

/-- The identifier of the requests, master to part (R179 (1)). -/
def requestIdentifier : Nat := 0x6A0

/-- The identifiers of the part's frames (R179 (2) to (4)). -/
def FrameId.identifier : FrameId → Nat
  | .reply => 0x6A1
  | .completion => 0x6A2
  | .attention => 0x6A3

/-- A frame is a request frame: a data frame with the standard identifier of the requests (R179). -/
def isRequest (f : CanFrame) : Bool := f.id = requestIdentifier && !f.extended && !f.remote

/-- A frame of a transmit buffer as the port sends it: a data frame with a standard identifier (R179). -/
def TxFrame.onWire (f : TxFrame) : CanFrame := { id := f.kind.identifier, data := f.data }

/-! ## Frames from the part (Table 10-1, R194) -/

/-- The number of frames a content of n bytes takes (R194). -/
def frameCount (n : Nat) : Nat := if n ≤ 4 then 1 else 1 + n / 5

/-- The first `n` bytes of a content, filled with 0 (R194). -/
def padTo (n : Nat) (bs : List Byte) : List Byte := bs.take n ++ List.replicate (n - bs.length) 0

/-- The later frames of a train: `left` of them, from frame number `k` (Table 10-1). -/
def laterFrames (id : FrameId) (kind tag : Byte) (last : Nat) : Nat → Nat → List Byte → List TxFrame
  | 0, _, _ => []
  | left + 1, k, content =>
    ⟨id, [kind, tag, byteOf (k * 16 + last)] ++ padTo 5 content⟩ ::
      laterFrames id kind tag last left (k + 1) (content.drop 5)

/-- The frames of a reply, reply train or completion (Table 10-1, R194). -/
def contentFrames (id : FrameId) (kind tag : Byte) (st : Status) (content : List Byte) : List TxFrame :=
  let last := frameCount content.length - 1
  ⟨id, [kind, tag, byteOf last, byteOf st.code] ++ padTo 4 content⟩ ::
    laterFrames id kind tag last last 1 (content.drop 4)

/-! ## Trailer bus frames (R196, Table 10-6) -/

/-- One shift of the CRC register (R196 (3)): polynomial x^8 + x^2 + x + 1. -/
def crcShift (r : Byte) : Byte := if r.msb then (r <<< 1) ^^^ 0x07 else r <<< 1

/-- One byte taken into the CRC register (R196 (2), (3)). -/
def crcByte (r b : Byte) : Byte :=
  crcShift (crcShift (crcShift (crcShift (crcShift (crcShift (crcShift (crcShift (r ^^^ b))))))))

/-- The CRC-8 of a run of bytes, from 0xFF (R196). -/
def crc8 (bs : List Byte) : Byte := bs.foldl crcByte 0xFF

/-- A trailer bus frame: address, command, length, payload, CRC (R196). -/
def busFrame (addr cmd : Nat) (payload : List Byte) : List Byte :=
  let body := byteOf addr :: byteOf cmd :: byteOf payload.length :: payload
  body ++ [crc8 body]

/-- The length of the reply payload of a command (Table 10-6). -/
def replyLength (cmd : Nat) : Nat :=
  match cmd with
  | 1 => 5 | 2 => 1 | 3 => 1 | 4 => 8 | 5 => 2 | 6 => 1 | 7 => 1 | 8 => 1 | _ => 0

/-- The payload of a received frame that is valid as a reply to a command (R92 (1) to (3), R196); none where the frame
is a garbled response. -/
def replyPayload (cmd : Nat) (bs : List Byte) : Option (List Byte) :=
  match bs with
  | _addr :: c :: n :: rest =>
    if crc8 bs = 0 ∧ c.toNat = cmd ∧ n.toNat = replyLength cmd ∧ rest.length = n.toNat + 1 then some (rest.take n.toNat)
    else none
  | _ => none

/-! ## Descriptor pages (Table 10-7, R197) -/

/-- A run that a node may head: 0, 2, 4, 8 or 16 (R100, R197 (1)). -/
def runOk (n : Nat) : Bool := n = 0 || n = 2 || n = 4 || n = 8 || n = 16

/-- Page 0, or none where it fails by content (R197 (1), (5)). -/
def decodePage0 (page : List Byte) : Option Page0 :=
  match NodeKind.ofCode (byteAt page 0) with
  | none => none
  | some k =>
    let count := (byteAt page 1).toNat
    let run := (byteAt page 2).toNat
    let identLen := (byteAt page 3).toNat
    if count ≤ 4 ∧ runOk run = true ∧ identLen ≤ 17 then some ⟨k, count, run, identLen⟩ else none

/-- A function page, or none where it fails by content (R197 (3), (4)). -/
def decodeFunctionPage (page : List Byte) : Option SlotDesc :=
  match funOfCode (byteAt page 0).toNat, Access.ofCode (byteAt page 2).toNat, MeasureUnit.ofCode (byteAt page 3).toNat with
  | some k, some a, some u =>
    let inst := (byteAt page 1).toNat
    let lo := word16 (byteAt page 4) (byteAt page 5)
    let hi := word16 (byteAt page 6) (byteAt page 7)
    if inst ≤ 15 ∧ (k = .lampStatus → inst ≤ 11) ∧ lo.toInt ≤ hi.toInt then some ⟨k, inst, a, u, lo, hi⟩ else none
  | _, _, _ => none

end Sys2Proof.Machine
end

