-- ==== Sys2Proof/Machine/Ops.lean ====
section
/-! DEFINITION. The named operations over the parts of State: reading and writing a position, an entry, a slot, a
channel, a link; routing; the passing of time; the frames of a transmit buffer. -/

namespace Sys2Proof.Machine

/-! ## Indices -/

/-- Index of a position. -/
def posIdx : Pos → Fin 3
  | .p1 => 0 | .p2 => 1 | .p3 => 2

/-- The position behind a position (section 6.3). -/
def posBehind : Pos → Option Pos
  | .p1 => some .p2 | .p2 => some .p3 | .p3 => none

/-- The position in front of a position. -/
def posFront : Pos → Option Pos
  | .p1 => none | .p2 => some .p1 | .p3 => some .p2

/-- All positions in order. -/
def allPos : List Pos := [.p1, .p2, .p3]

/-- All links. -/
def allLinks : List LinkId := [.a, .b, .c]

/-- All lamp channels, in probe order (R127). -/
def allLamps : List LampId := [0, 1, 2, 3, 4, 5, 6, 7, 8, 9]

/-- All channels. -/
def allChans : List ChanId := [0, 1, 2, 3, 4, 5, 6, 7, 8, 9, 10, 11]

/-- All single entries, in index order. -/
def allSingles : List SingleId := List.finRange 48

/-- All group entries, in index order. -/
def allGroups : List GroupId := List.finRange 6

/-- All entries, single before group, in index order (Table 5-3). -/
def allEntries : List EntryRef := allSingles.map .single ++ allGroups.map .group

/-! ## Positions -/

/-- A position record. -/
def State.pos (s : State) (p : Pos) : PosRec := s.map.positions.get (posIdx p)

/-- A position record replaced. -/
def State.setPos (s : State) (p : Pos) (r : PosRec) : State :=
  { s with map := { s.map with positions := s.map.positions.set (posIdx p) r } }

/-- A position record changed. -/
def State.modPos (s : State) (p : Pos) (f : PosRec → PosRec) : State := s.setPos p (f (s.pos p))

/-- Live (R2). -/
def PosState.live : PosState → Bool
  | .absent => false
  | .powering | .enumerating | .measuring | .online | .degraded => true

/-- Ready (R2). -/
def PosState.ready : PosState → Bool
  | .online | .degraded => true
  | .absent | .powering | .enumerating | .measuring => false

/-- In bring-up (R131). -/
def PosState.inBringUp : PosState → Bool
  | .powering | .enumerating | .measuring => true
  | .absent | .online | .degraded => false

/-- A position is live (R2). -/
def State.live (s : State) (p : Pos) : Bool := (s.pos p).state.live

/-- A position is ready (R2). -/
def State.ready (s : State) (p : Pos) : Bool := (s.pos p).state.ready

/-- The evaluation suspension (R131): formed from the positions and the relearn, not held. -/
def State.suspended (s : State) : Bool :=
  allPos.any (fun p => (s.pos p).state.inBringUp) || s.det.relearn.isSome

/-! ## Entries and slots -/

/-- An entry of the Node Table; none where it is invalid (R9). -/
def State.entry (s : State) : EntryRef → Option Entry
  | .single i => s.map.singles.get i
  | .group j => s.map.groups.get j

/-- An entry replaced. -/
def State.setEntry (s : State) (ref : EntryRef) (e : Option Entry) : State :=
  match ref with
  | .single i => { s with map := { s.map with singles := s.map.singles.set i e } }
  | .group j => { s with map := { s.map with groups := s.map.groups.set j e } }

/-- A valid entry changed; an invalid one stays as it is. -/
def State.modEntry (s : State) (ref : EntryRef) (f : Entry → Entry) : State :=
  match s.entry ref with
  | some e => s.setEntry ref (some (f e))
  | none => s

/-- The k-th slot of an entry. -/
def State.slot (s : State) (ref : EntryRef) (k : Nat) : Option Slot :=
  (s.entry ref).bind fun e => e.slots[k]?

/-- A slot changed. -/
def State.modSlot (s : State) (ref : EntryRef) (k : Nat) (f : Slot → Slot) : State :=
  s.modEntry ref fun e => { e with slots := e.slots.modify k f }

/-- Every entry of the table changed by one function. -/
def State.mapEntries (s : State) (f : Entry → Entry) : State :=
  { s with map := { s.map with singles := s.map.singles.map (Option.map f), groups := s.map.groups.map (Option.map f) } }

/-- The entries on a position's lists (R4). -/
def PosRec.refs (r : PosRec) : List EntryRef := r.singles.map .single ++ r.groups.map .group

/-- The slot a directory number is bound to: its entry and its place (R26, R27). -/
def State.binding (s : State) (number : Nat) : Option (EntryRef × Nat) :=
  allEntries.findSome? fun ref =>
    match s.entry ref with
    | none => none
    | some e => (e.slots.findIdx? fun sl => sl.number = some number).map fun k => (ref, k)

/-- The sum of a slot's cached values: the value compared for a group (R20, R111). -/
def Slot.total (sl : Slot) : Int := (sl.cache.map BitVec.toInt).foldl (· + ·) 0

/-! ## Contact Matrix (chapter 2) -/

/-- Table 2-2 -/
def decodeProfile (kaGrounded kbGrounded : Bool) : Profile :=
  match kaGrounded, kbGrounded with
  | false, false => .none
  | true, false => .s
  | true, true => .l
  | false, true => .d

/-- The effective code state (R34). -/
def effectiveOf (forced : Forced) (kaGrounded kbGrounded : Bool) : Profile :=
  match forced with
  | .auto => decodeProfile kaGrounded kbGrounded
  | .s => if kaGrounded || kbGrounded then .s else .none
  | .l => if kaGrounded || kbGrounded then .l else .none
  | .d => if kaGrounded || kbGrounded then .d else .none

/-- A contact's reading from its voltage and its previous reading (R33). -/
def readContact (was : Bool) (mv : Nat) : Bool :=
  if mv < Config.groundedBelow then true else if Config.openAbove < mv then false else was

/-- The channels a profile routes (R36, Table 2-3). -/
def routes (p : Profile) (c : ChanId) : Bool :=
  match p with
  | .none => false
  | .s => c.val ≤ 5 || c.val = 7
  | .l => true
  | .d => c.val ≤ 7 || c.val = 9 || c.val = 10

/-- Whether a profile routes the data pair (R36, Table 2-3). -/
def routesData (p : Profile) : Bool :=
  match p with
  | .l | .d => true
  | .none | .s => false

/-- What a contact can carry (Table 2-1): C1 to C12 the channel numbered one less, C13 and C14 the data pair, C15 and
C16 the code contacts. -/
def contactCarries (k : Contact) : ContactUse :=
  if h : k.val < 12 then .channel ⟨k.val, h⟩
  else match k.val with
    | 12 => .dataWire 0
    | 13 => .dataWire 1
    | 14 => .codeKA
    | _ => .codeKB

/-- What a contact is connected to under a profile: what it can carry where that is routed, and else nothing. The code
contacts are sensed in every profile (R32, R36). -/
def contactUse (p : Profile) (k : Contact) : ContactUse :=
  match contactCarries k with
  | .channel c => if routes p c then .channel c else .leftOpen
  | .dataWire w => if routesData p then .dataWire w else .leftOpen
  | .leftOpen => .leftOpen
  | .codeKA => .codeKA
  | .codeKB => .codeKB

/-- What a contact is connected to (R32). -/
def State.contact (s : State) (k : Contact) : ContactUse := contactUse s.matrix.active k

/-- The contact of a channel (Table 2-1, Note 1). -/
def chanContact (c : ChanId) : Contact := ⟨c.val, Nat.lt_trans c.isLt (by decide)⟩

/-- A channel is routed under the active profile (R36). -/
def State.routed (s : State) (c : ChanId) : Bool := routes s.matrix.active c

/-- The data pair is routed (R36). -/
def State.dataRouted (s : State) : Bool := routesData s.matrix.active

/-! ## Channels -/

/-- A channel. -/
def State.chan (s : State) (c : ChanId) : Channel := s.bank.channels.get c

/-- The POWERING count set to 0 when CH9 is not in DRIVE (R125). -/
def BringUp.restart (b : BringUp) : BringUp := { b with powering := 0 }

/-- A channel replaced. A CH9 that is not in DRIVE sets the POWERING count to 0 (R125). -/
def State.putChan (s : State) (c : ChanId) (ch : Channel) : State :=
  { s with
    bank := { s.bank with channels := s.bank.channels.set c ch }
    det := if c = 9 ∧ ch.state ≠ .drive then { s.det with bringUp := s.det.bringUp.map BringUp.restart } else s.det }

/-- The trip threshold of a channel in mA (R43). -/
def tripThreshold (c : ChanId) : Nat :=
  match chanLamp c with
  | some _ => Config.lampTrip
  | none => Config.supplyTrip

/-! ## Links -/

/-- A Master Link Unit; none where the link is disabled (R177). -/
def State.link (s : State) : LinkId → Option Mlu
  | .a => s.links.a
  | .b => s.links.b
  | .c => s.links.c

/-- A Master Link Unit replaced. -/
def State.setLink (s : State) (l : LinkId) (m : Mlu) : State :=
  match l with
  | .a => { s with links := { s.links with a := some m } }
  | .b => { s with links := { s.links with b := some m } }
  | .c => { s with links := { s.links with c := some m } }

/-- An enabled Master Link Unit changed. -/
def State.modLink (s : State) (l : LinkId) (f : Mlu → Mlu) : State :=
  match s.link l with
  | some m => s.setLink l (f m)
  | none => s

/-- The role a link's records, sets and events go by: the BENCH link's is SERVICE (R148, R177). -/
def LinkRole.role : LinkRole → Role
  | .body => .body
  | .brake => .brake
  | .service | .bench => .service

/-- Bit of a role in a set of roles (R193). -/
def roleBit : Role → Nat
  | .body => 0 | .brake => 1 | .service => 2

/-- The role of a link, if it is enabled. -/
def State.linkRole (s : State) (l : LinkId) : Option Role := (s.link l).map fun m => m.role.role

/-- Frames reserved on a link: the completions of its Deferred List entries, and an owed attention (R185). -/
def State.reserved (s : State) (l : LinkId) (m : Mlu) : Nat :=
  ((s.dec.deferred.filter fun d => d.link = l).map (·.reserved)).foldl (· + ·) 0 + bit m.owed

/-- Free room of a transmit buffer (R185). -/
def State.freeRoom (s : State) (l : LinkId) (m : Mlu) : Nat := 16 - m.buffer.length - s.reserved l m

/-- Frames placed at the tail of a transmit buffer; none in bus-off (R184, R189). -/
def State.place (s : State) (l : LinkId) (frames : List TxFrame) : State :=
  s.modLink l fun m => if m.busOff then m else { m with buffer := m.buffer ++ frames }

/-- A reply with its content (R184, R194). -/
def State.reply (s : State) (l : LinkId) (kind tag : Byte) (st : Status) (content : List Byte) : State :=
  s.place l (contentFrames .reply kind tag st content)

/-! ## Time (log 1, 2) -/

/-- A slot after n ms: its cache has aged (R13). -/
def Slot.elapse (n : Nat) (sl : Slot) : Slot := { sl with age := min 65535 (sl.age + n) }

/-- A position after n ms: the coupled second of a live position runs on (R3). -/
def PosRec.elapse (n : Nat) (r : PosRec) : PosRec :=
  if r.state.live then { r with secondMs := r.secondMs + n } else r

/-- The streak timer runs in these states (R53). -/
def ChanState.streakRuns : ChanState → Bool
  | .drive | .probeGap | .probeOn => true
  | .off | .tripped | .latched | .thermalOff => false

/-- A channel after n ms: its timers have run (R46, R49, R52, R53, R57, R59, R60). -/
def Channel.elapse (n : Nat) (ch : Channel) : Channel :=
  { ch with
    backfeedAge := if ch.state = .off then ch.backfeedAge + n else ch.backfeedAge
    streakTimer := if ch.state.streakRuns then min Config.streakLimit (ch.streakTimer + n) else ch.streakTimer
    cooldown := if ch.state = .tripped then min Config.cooldown (ch.cooldown + n) else ch.cooldown
    temperatureAge := ch.temperatureAge + n
    sinceOn := ch.sinceOn + n
    onFor := ch.onFor + n
    sinceOff := if ch.output then ch.sinceOff else ch.sinceOff + n
    sampled := false
    pwmAge := if ch.state = .drive ∧ ch.derated then ch.pwmAge + n else ch.pwmAge
    window := ch.window.map fun w => { w with gap := w.gap + n } }

/-- A flasher after n ms. -/
def Flasher.elapse (n : Nat) (f : Flasher) : Flasher := if f.running then { f with age := f.age + n } else f

/-- A link after n ms: the silence timer stops at its limit (R188). -/
def Mlu.elapse (n : Nat) (m : Mlu) : Mlu := { m with silenceTimer := min Config.silenceLimit (m.silenceTimer + n) }

/-- The POWERING count runs while CH9 is in DRIVE (R125). -/
def BringUp.elapse (n : Nat) (powering driving : Bool) (b : BringUp) : BringUp :=
  if powering && driving then { b with powering := b.powering + n } else b

/-- The part after n ms in which nothing happens but the running of its timers. -/
def State.elapse (n : Nat) (s : State) : State :=
  if n = 0 then s else
  { s with
    map := { positions := s.map.positions.map (PosRec.elapse n)
             singles := s.map.singles.map (Option.map fun e => { e with slots := e.slots.map (Slot.elapse n) })
             groups := s.map.groups.map (Option.map fun e => { e with slots := e.slots.map (Slot.elapse n) }) }
    matrix := { s.matrix with sampleAge := s.matrix.sampleAge + n }
    bank := { s.bank with
      channels := s.bank.channels.map (Channel.elapse n)
      turn := s.bank.turn.elapse n
      emergency := s.bank.emergency.elapse n
      supplyAge := s.bank.supplyAge + n
      probe := s.bank.probe.map fun p => { p with elapsed := p.elapsed + n, gap := p.gap + n } }
    bus := { s.bus with
      flight := s.bus.flight.map fun f => { f with waited := f.waited + n }
      polls := s.bus.polls.map (Option.map (· + n)) }
    det := { s.det with
      debounce := s.det.debounce.map fun d => { d with elapsed := d.elapsed + n }
      bringUp := s.det.bringUp.map fun b =>
        b.elapse n ((s.pos b.pos).state = .powering) ((s.chan 9).state = .drive) }
    links := { s.links with
      a := s.links.a.map (Mlu.elapse n)
      b := s.links.b.map (Mlu.elapse n)
      c := s.links.c.map (Mlu.elapse n) } }

/-- The part once a timer that shows `elapsed` has reached `limit`: what is left of it passes first (log 2). -/
def State.await (s : State) (elapsed limit : Nat) : State := s.elapse (limit - elapsed)

end Sys2Proof.Machine
end

