-- ==== Sys2Proof/Machine/Flags.lean ====
section
/-! DEFINITION. The marks the part keeps and how each is set: sets of roles and events, degraded reasons with the
ready state that follows them (R2, R6), and the pending sets with their attention frames (R190, R185). -/

namespace Sys2Proof.Machine

/-! ## Sets as bits -/

/-- Membership. -/
def hasBit {w : Nat} (s : BitVec w) (i : Nat) : Bool := s.getLsbD i

/-- The set with a member added. -/
def addBit {w : Nat} (s : BitVec w) (i : Nat) : BitVec w := s ||| BitVec.twoPow w i

/-- The set with a member removed. -/
def dropBit {w : Nat} (s : BitVec w) (i : Nat) : BitVec w := s &&& ~~~ BitVec.twoPow w i

/-! ## Degraded reasons (R2, R6) -/

/-- Bit of a reason (Table 10-5). -/
def reasonBit : Reason → Nat
  | .mapFull => 0 | .idConflict => 1 | .probeIncomplete => 2 | .quarantine => 3 | .chainOpen => 4

/-- The state of a record after a change of its reasons: a ready record follows its set, any other keeps its state
(R2). -/
def PosState.follow (st : PosState) (reasons : ReasonSet) : PosState :=
  match st with
  | .online | .degraded => if reasons = 0 then .online else .degraded
  | .absent => .absent
  | .powering => .powering
  | .enumerating => .enumerating
  | .measuring => .measuring

/-- A record with a reason added (R6). -/
def PosRec.addReason (r : PosRec) (x : Reason) : PosRec :=
  let reasons := addBit r.reasons (reasonBit x)
  { r with reasons := reasons, state := r.state.follow reasons }

/-- A record with a reason removed (R6). -/
def PosRec.dropReason (r : PosRec) (x : Reason) : PosRec :=
  let reasons := dropBit r.reasons (reasonBit x)
  { r with reasons := reasons, state := r.state.follow reasons }

/-- A reason added to a position (R6). -/
def State.addReason (s : State) (p : Pos) (x : Reason) : State := s.modPos p fun r => r.addReason x

/-- A reason removed from a position (R6). -/
def State.dropReason (s : State) (p : Pos) (x : Reason) : State := s.modPos p fun r => r.dropReason x

/-! ## Events (R190) -/

/-- The event kinds (Table 9-5). -/
inductive EventKind where
  | coupled | uncoupled | positionReady | lampVerdict | channelTrip | channelLatched | thermal | backfeed
  | nodeQuarantined | mapFull | valueChanged | postedWriteFailed | supplyHold | baselineShift | chainLimit | masterSilent
  deriving DecidableEq, Repr

/-- Bit of an event kind (Table 10-5). -/
def eventBit : EventKind → Nat
  | .coupled => 0 | .uncoupled => 1 | .positionReady => 2 | .lampVerdict => 3 | .channelTrip => 4 | .channelLatched => 5
  | .thermal => 6 | .backfeed => 7 | .nodeQuarantined => 8 | .mapFull => 9 | .valueChanged => 10
  | .postedWriteFailed => 11 | .supplyHold => 12 | .baselineShift => 13 | .chainLimit => 14 | .masterSilent => 15

/-- An event raised at a link: the kind joins the pending set if it is of interest (R190). The attention frame a first
kind brings is placed at the end of the act. -/
def Mlu.raise (m : Mlu) (k : EventKind) : Mlu :=
  if hasBit m.interest (eventBit k) then { m with pending := addBit m.pending (eventBit k) } else m

/-- An event raised for a set of roles: every enabled link whose role is in the set (R190, R177). -/
def State.raiseFor (s : State) (roles : RoleSet) (k : EventKind) : State :=
  let up := fun (m : Mlu) => if hasBit roles (roleBit m.role.role) then m.raise k else m
  { s with links := { s.links with a := s.links.a.map up, b := s.links.b.map up, c := s.links.c.map up } }

/-- An event raised for all roles (Table 9-5). -/
def State.raiseAll (s : State) (k : EventKind) : State := s.raiseFor 7 k

/-- An event raised for one role (Table 9-5). -/
def State.raiseRole (s : State) (r : Role) (k : EventKind) : State := s.raiseFor (addBit 0 (roleBit r)) k

/-! ## Attention frames (R184 (4), R185, R190) -/

/-- The attention frame of a pending set (R194). -/
def attentionFrame (pending : EventSet) : TxFrame := ⟨.attention, Word16.bytes pending⟩

/-- An unsent attention frame is held in the buffer (R185). -/
def Mlu.holdsAttention (m : Mlu) : Bool := m.buffer.any fun f => f.kind = .attention

/-- An attention frame that is due: one held serves; else it is placed where there is free room; else it is owed
(R185). -/
def State.attentionDue (s : State) (l : LinkId) (m : Mlu) : State :=
  if m.holdsAttention then s
  else if 1 ≤ s.freeRoom l m then
    s.setLink l { m with buffer := m.buffer ++ [attentionFrame m.pending], owed := false }
  else s.setLink l { m with owed := true }

/-- The end of an act at one link: an attention frame is due when the act took the pending set from empty to non-empty
and the port is not in bus-off (R190). -/
def State.attend (before : State) (after : State) (l : LinkId) : State :=
  match before.link l, after.link l with
  | some m, some m' => if m.pending = 0 ∧ m'.pending ≠ 0 ∧ m'.busOff = false then after.attentionDue l m' else after
  | _, _ => after

/-- The end of an act: the attention frames it has made due, each carrying the pending set as it now stands (R184 (4),
log 10). -/
def State.finish (before after : State) : State :=
  before.attend (before.attend (before.attend after .a) .b) .c

end Sys2Proof.Machine
end

