-- ==== Sys2Proof/Machine/Channels.lean ====
section
/-! DEFINITION. What one circuit channel does (chapter 3): switching its output, entering its states, taking its
demand, trips, temperature, backfeed counts and check windows. `routed` says whether the active profile routes the
channel, `on` whether its demand wants the output on at this moment (R44). -/

namespace Sys2Proof.Machine

/-- The number of samples of every window (R60, R63, R65). -/
def windowSamples : Nat := 16

/-- The mean of 16 samples, rounded half up (R60, R69). -/
def meanOf (samples : List Nat) : Nat := (samples.foldl (· + ·) 0 + 8) / 16

/-- A channel without a check window that has not had its sixteenth sample (R60). -/
def Channel.dropWindow (ch : Channel) : Channel :=
  { ch with window := ch.window.filter fun w => windowSamples ≤ w.samples.length }

/-- The output switched. From off to on is a switch-on, at which blanking, peak and window schedule restart (R46); from
on to off, the channel notes the time. Either way a window under way is discarded (R60). -/
def Channel.switchTo (on : Bool) (ch : Channel) : Channel :=
  if on = ch.output then ch
  else if on then { ch.dropWindow with output := true, sinceOn := 0, onFor := 0, peak := 0 }
  else { ch.dropWindow with output := false, sinceOff := 0 }

/-- A state entered. Leaving OFF sets both backfeed counts to 0 (R59), leaving DRIVE discards a window under way (R60),
and entering OFF starts the wait for a backfeed check (R59). -/
def Channel.enter (st : ChanState) (ch : Channel) : Channel :=
  let ch := if st = .drive then ch else ch.dropWindow
  { ch with
    state := st
    highCount := if st = .off then ch.highCount else 0
    lowCount := if st = .off then ch.lowCount else 0
    backfeedAge := if st = .off ∧ ch.state ≠ .off then 0 else ch.backfeedAge }

/-- OFF entered, output off. -/
def Channel.toOff (ch : Channel) : Channel := (ch.switchTo false).enter .off

/-- DRIVE entered with the demanded mode, a derating pattern starting with an on-time (R45, R57 (1)). A flashing channel
that enters DRIVE in the middle of an on-phase starts its pattern at that moment, which R57 (2) does not say (DESIGN
CHOICE, log 16). -/
def Channel.toDrive (on : Bool) (ch : Channel) : Channel :=
  { (ch.enter .drive).switchTo on with pwmOn := true, pwmAge := 0 }

/-- PROBE_GAP entered, output off (R62). -/
def Channel.toGap (ch : Channel) : Channel := (ch.switchTo false).enter .probeGap

/-- PROBE_ON entered: a switch-on (R62, R63). -/
def Channel.toProbeOn (ch : Channel) : Channel := (ch.enter .probeOn).switchTo true

/-- The channel takes its demand: DRIVE if it is routed and the demand is not OFF, and OFF otherwise (R45, R52, R54,
R58, R66). -/
def Channel.takeDemand (routed on : Bool) (ch : Channel) : Channel :=
  if routed ∧ ch.demand ≠ .off then ch.toDrive on else ch.toOff

/-- A changed mode of a channel that stays in DRIVE. Under DERATED the pattern starts anew where a flashing on-phase
starts with the change or the old mode had the output off (R57, log 16). -/
def Channel.reMode (wasOn on : Bool) (ch : Channel) : Channel :=
  if ch.derated then
    if ch.demand = .flashEmergency ∨ wasOn = false then { ch.switchTo on with pwmOn := true, pwmAge := 0 }
    else ch.switchTo (on && ch.pwmOn)
  else ch.switchTo on

/-- A changed demand handed to the channel (R45). In PROBE_GAP and PROBE_ON it is taken by the abandonment that
follows (R66). -/
def Channel.acceptDemand (routed wasOn on : Bool) (d : Demand) (ch : Channel) : Channel :=
  let ch := { ch with demand := d }
  match ch.state with
  | .off => ch.takeDemand routed on
  | .drive => if d = .off then ch.toOff else ch.reMode wasOn on
  | .probeGap | .probeOn | .tripped | .latched | .thermalOff => ch

/-- The channel becomes routed: its backfeed checks are counted from now, and an OFF channel takes its demand (R37,
R38, R59). -/
def Channel.connect (on : Bool) (ch : Channel) : Channel :=
  let ch := { ch with backfeedAge := 0 }
  if ch.state = .off then ch.takeDemand true on else ch

/-- The channel becomes unrouted: OFF from every state but THERMAL_OFF, BACKFEED cleared, a TRIPPED channel's cooldown
and streak lost (R38). -/
def Channel.disconnect (ch : Channel) : Channel :=
  let ch := if ch.state = .tripped then { ch with cooldown := 0, streakCount := 0, streakTimer := 0 } else ch
  let ch := if ch.state = .thermalOff then ch else ch.toOff
  { ch with backfeed := false, highCount := 0, lowCount := 0 }

/-- The release of latches and streaks at the teardown of position 1 (R55). -/
def Channel.release (ch : Channel) : Channel :=
  let ch := if ch.state = .latched then ch.toOff else ch
  { ch with streakCount := 0, streakTimer := 0 }

/-! ## Driven modes -/

/-- The driven mode of a channel in DRIVE (R44, R57). -/
def Channel.driveMode (ch : Channel) : DriveMode :=
  if ch.derated then .pwm
  else match ch.demand with
    | .flashTurn | .flashEmergency => .flash
    | .steady | .off => .steady

/-- The start of a flasher on-phase for a channel in DRIVE: a switch-on, and under DERATED the start of the pattern
(R46, R57). -/
def Channel.phaseOn (ch : Channel) : Channel := { ch.switchTo true with pwmOn := true, pwmAge := 0 }

/-- The next on-time or off-time of the derating pattern. Its on-edge is not a switch-on (R46), but the output has not
been on before it (R60 (2)). -/
def Channel.pwmNext (on : Bool) (ch : Channel) : Channel :=
  let next := !ch.pwmOn
  if next && on then { ch with pwmOn := true, pwmAge := 0, output := true, onFor := 0 }
  else { ch.switchTo false with pwmOn := next, pwmAge := 0 }

/-! ## Trips (R51 to R53, R56) -/

/-- A current sample is compared with the threshold in DRIVE and PROBE_ON, 40 ms or more after switch-on (R51). -/
def Channel.trips (threshold : Nat) (ma : Nat) (ch : Channel) : Bool :=
  (ch.state = .drive || ch.state = .probeOn) && Config.blanking ≤ ch.sinceOn && threshold < ma

/-- The trip record captured at a trip (R56, Table 3-3). -/
def Channel.tripRecord (supply : Nat) (ch : Channel) : TripRecord where
  peak := ch.peak
  mean := ch.settledMean
  supply := supply
  temperature := ch.temperature
  mode := if ch.state = .probeOn then .probe else ch.driveMode
  count := ch.streakCount + 1

/-- A trip: TRIPPED for the first three of a streak (R52), LATCHED for the fourth (R53). -/
def Channel.tripOut (supply : Nat) (ch : Channel) : Channel :=
  let record := ch.tripRecord supply
  let ch := { ch with streakCount := ch.streakCount + 1, streakTimer := 0, trip := some record }
  if record.count ≤ 3 then { (ch.switchTo false).enter .tripped with cooldown := 0 }
  else (ch.switchTo false).enter .latched

/-- A LATCHED channel cleared by a master (R54 (2)). -/
def Channel.clear (routed on : Bool) (ch : Channel) : Channel :=
  let ch := { ch with streakCount := 0, streakTimer := 0 }
  if 170 ≤ ch.temperature then ch.enter .thermalOff else ch.takeDemand routed on

/-! ## Temperature (R57, R58) -/

/-- DERATED set: in DRIVE the pattern starts with an on-time; no check window goes on (R57 (1), R60). A flashing channel
derated in the middle of an on-phase starts its pattern at that moment, which R57 (2) does not say (DESIGN CHOICE, log
16). -/
def Channel.derate (ch : Channel) : Channel :=
  { ch.dropWindow with derated := true, pwmOn := true, pwmAge := 0 }

/-- A temperature reading of a channel, and whether it raises THERMAL (R57, R58). -/
def Channel.heat (routed on : Bool) (deg : Int) (ch : Channel) : Channel × Bool :=
  let ch := { ch with temperature := deg, temperatureAge := 0 }
  if 170 ≤ deg ∧ ch.state ≠ .latched ∧ ch.state ≠ .thermalOff then
    ({ (ch.derate.switchTo false).enter .thermalOff with cooldown := 0 }, true)
  else if 150 ≤ deg ∧ ch.derated = false then (ch.derate, true)
  else if deg < 130 ∧ ch.derated then
    let ch := { ch with derated := false }
    match ch.state with
    | .thermalOff => (ch.takeDemand routed on, false)
    | .drive => (ch.switchTo on, false)
    | .off | .probeGap | .probeOn | .tripped | .latched => (ch, false)
  else (ch, false)

/-! ## Backfeed (R59) -/

/-- A backfeed check of a channel, and whether it raises BACKFEED (R59). -/
def Channel.backfeedCheck (supply mv : Nat) (ch : Channel) : Channel × Bool :=
  let ch := { ch with backfeedAge := 0 }
  if supply < 2 * mv then
    let high := min 3 (ch.highCount + 1)
    if high = 3 ∧ ch.backfeed = false then ({ ch with backfeed := true, highCount := 0, lowCount := 0 }, true)
    else ({ ch with highCount := high, lowCount := 0 }, false)
  else if 4 * mv < supply then
    let low := min 3 (ch.lowCount + 1)
    if low = 3 ∧ ch.backfeed then ({ ch with backfeed := false, highCount := 0, lowCount := 0 }, false)
    else ({ ch with lowCount := low, highCount := 0 }, false)
  else ({ ch with highCount := 0, lowCount := 0 }, false)

/-! ## Current samples and check windows (R49, R60) -/

/-- A check window starts at this sample: STEADY, 60 ms after the switch-on and every 300 ms from there; FLASH, 60 ms
into an on-phase throughout which the output has been on; never under DERATED (R60). -/
def Channel.windowStarts (f : Flasher) (ch : Channel) : Bool :=
  ch.state = .drive && !ch.derated &&
    match ch.demand with
    | .steady => Config.windowStart ≤ ch.sinceOn && (ch.sinceOn - Config.windowStart) % Config.windowPeriod = 0
    | .flashTurn | .flashEmergency => f.onPhase && f.age = Config.windowStart && f.age ≤ ch.onFor
    | .off => false

/-- The check window after a sample: one under way takes a sample every 2 ms up to its sixteenth; one that starts takes
its first (R60). -/
def Channel.sampleWindow (f : Flasher) (ma : Nat) (ch : Channel) : Option Window :=
  match ch.window with
  | some w =>
    if w.samples.length < windowSamples ∧ 2 ≤ w.gap then
      some { w with samples := w.samples ++ [ma], gap := 0, peak := ch.peak }
    else some w
  | none =>
    if ch.windowStarts f then some { samples := [ma], gap := 0, supplyOk := true, peak := ch.peak } else none

/-- A sample that does not trip the channel: peak and check window take it (R46, R60). -/
def Channel.sample (f : Flasher) (ma : Nat) (ch : Channel) : Channel :=
  { ch with window := ch.sampleWindow f ma }

end Sys2Proof.Machine
end

