-- ==== Sys2Proof/Machine/Load.lean ====
section
/-! DEFINITION. The Load Learning Unit (chapter 4) and the fast-flash decision that follows its verdicts (R154):
contributions learned from probe outcomes, expected current and tolerance, evaluation, debounce and resets. -/

namespace Sys2Proof.Machine

/-! ## Learning (R70 to R75) -/

/-- A probe outcome (Table 3-5): the inrush peak and the 16 settled samples, as far as it carries them. -/
inductive ProbeOutcome where
  | complete (peak : Nat) (samples : List Nat)
  | settledOnly (samples : List Nat)
  | failed
  deriving DecidableEq, Repr

/-- COMPLETE alone is not incomplete (Table 3-5). -/
def ProbeOutcome.incomplete : ProbeOutcome → Bool
  | .complete .. => false
  | .settledOnly _ | .failed => true

/-- Largest value of a settled or peak contribution (R75). -/
def contributionMax : Nat := 25000

/-- The settled contribution C from the mean S and the baseline E_before (R71). -/
def settledShare (mean eBefore : Nat) : Nat :=
  if mean < eBefore + Config.noiseFloor then 0 else min contributionMax (mean - eBefore)

/-- The peak contribution P from the probe peak Pk and the baseline P_before (R72). -/
def peakShare (peak pBefore : Nat) : Nat :=
  if peak = Config.saturated then contributionMax - pBefore else min contributionMax (peak - pBefore)

/-- The class of a non-zero settled contribution with a peak (R73). -/
def classOf (settled peak : Nat) (saturated : Bool) : LoadClass :=
  if saturated then (if 400 ≤ settled then .filament else .mixed)
  else if 64 ≤ peak * 16 / settled then .filament
  else if peak * 16 / settled ≤ 24 then .led
  else .mixed

/-- The contribution record an outcome writes (R74, Table 4-2). -/
def learn (o : ProbeOutcome) (eBefore pBefore : Nat) : Contribution :=
  match o with
  | .failed => { settled := 0, peak := 0, clamped := false, cls := .unknown }
  | .settledOnly samples =>
    { settled := settledShare (meanOf samples) eBefore, peak := 0, clamped := false, cls := .unknown }
  | .complete pk samples =>
    let c := settledShare (meanOf samples) eBefore
    if c = 0 then { settled := 0, peak := 0, clamped := false, cls := .none }
    else
      let p := peakShare pk pBefore
      let sat := pk = Config.saturated
      { settled := c, peak := p, clamped := sat, cls := classOf c p sat }

/-- BASELINE_SHIFT is raised when the mean lies below the baseline (R71 (1)). -/
def baselineShift (o : ProbeOutcome) (eBefore : Nat) : Bool :=
  match o with
  | .failed => false
  | .settledOnly samples | .complete _ samples => meanOf samples < eBefore

/-- The sum of a field of the committed contributions on a lamp channel over the ready positions a test takes. -/
def State.sumReady (s : State) (l : LampId) (f : Contribution → Nat) (takes : Pos → Bool) : Nat :=
  ((allPos.filter fun p => takes p && s.ready p).map fun p => f ((s.pos p).contrib.get l)).foldl (· + ·) 0

/-- E_before (R70 (1)). -/
def State.eBefore (s : State) (p : Pos) (l : LampId) : Nat := s.sumReady l (·.settled) (· ≠ p)

/-- P_before (R70 (2)). -/
def State.pBefore (s : State) (p : Pos) (l : LampId) : Nat := s.sumReady l (·.peak) (· ≠ p)

/-- A contribution record written: the shadow during a relearn, else the committed one (R75). -/
def PosRec.putContribution (l : LampId) (c : Contribution) (r : PosRec) : PosRec :=
  if r.relearn then { r with shadow := r.shadow.set l c } else { r with contrib := r.contrib.set l c }

/-- The record of an outcome written for a position (R70 to R75). -/
def State.learnFor (s : State) (p : Pos) (l : LampId) (o : ProbeOutcome) : State :=
  let e := s.eBefore p l
  let t := s.modPos p (PosRec.putContribution l (learn o e (s.pBefore p l)))
  if baselineShift o e then t.raiseAll .baselineShift else t

/-! ## Expected current and tolerance (R76, R77) -/

/-- The expected current of every lamp channel takes its value from the ready positions (R76). -/
def State.formExpected (s : State) : State :=
  { s with load := { s.load with
      expected := allLamps.foldl (fun t l => t.set l (s.sumReady l (·.settled) fun _ => true)) s.load.expected } }

/-- The tolerance formed from an expected current (R77). -/
def tolerance (e : Nat) : Nat := max 60 ((e + 8) / 16)

/-! ## Fast-flash decision (R154) -/

/-- A verdict kind handed over for a lamp channel: kept for CH0 and CH1, and the rate decided again (R154). -/
def State.handKind (s : State) (l : LampId) (k : VerdictKind) : State :=
  let light :=
    if l = 0 then { s.light with kind0 := k } else if l = 1 then { s.light with kind1 := k } else s.light
  if l = 0 ∨ l = 1 then
    { s with light := { light with fast := light.kind0 = .lampOut || light.kind1 = .lampOut } }
  else s

/-! ## Resets to UNCHECKED (R87, R88) -/

/-- One verdict record reset to UNCHECKED, its kind handed over where that changes it (R83, R85). -/
def State.resetVerdict (s : State) (l : LampId) : State :=
  let was := (s.load.verdicts.get l).kind
  let t := { s with load := { s.load with verdicts := s.load.verdicts.set l {} } }
  if was = .unchecked then t else t.handKind l .unchecked

/-- The verdict records of some lamp channels reset; LAMP_VERDICT is raised if a kind was other than UNCHECKED (R87,
R88). -/
def State.resetVerdicts (s : State) (lamps : List LampId) : State :=
  let t := lamps.foldl State.resetVerdict s
  if lamps.any fun l => (s.load.verdicts.get l).kind ≠ .unchecked then t.raiseAll .lampVerdict else t

/-! ## Evaluation (R78 to R82) -/

/-- The counted LAMP_STATUS slots of a position for a lamp channel (R80). -/
def State.countedSlots (s : State) (p : Pos) (l : LampId) : List Slot :=
  (s.pos p).refs.flatMap fun ref =>
    match s.entry ref with
    | some e =>
      if e.live && !e.locked then e.slots.filter fun sl => sl.kind = .lampStatus && sl.inst = (lampChan l).val else []
    | none => []

/-- A set of positions as a suspect set (R193). -/
def suspectsOf (ps : List Pos) : SuspectSet := ps.foldl (fun set p => addBit set (posNumber p)) 0

/-- The ready positions a test takes. -/
def State.readyWhere (s : State) (takes : Pos → Bool) : List Pos := allPos.filter fun p => s.ready p && takes p

/-- The current-suspect set of a LAMP_OUT candidate after exoneration (R79 (1), R80). -/
def State.suspects (s : State) (l : LampId) (least : Nat) : List Pos :=
  s.readyWhere fun p =>
    let c := (s.pos p).contrib.get l
    0 < c.settled && least ≤ c.settled &&
      !(c.cls = .led && (s.countedSlots p l).any fun sl => sl.total = 0 && sl.quality = .good)

/-- The positions whose clusters report a dark lamp (R81). -/
def State.darkReports (s : State) (l : LampId) : List Pos :=
  s.readyWhere fun p => (s.countedSlots p l).any fun sl => (sl.quality = .good || sl.quality = .stale) && 0 < sl.total

/-- The candidate of a check window with mean M (R79 to R81). -/
def State.candidate (s : State) (l : LampId) (m : Nat) : Candidate :=
  let e := s.load.expected.get l
  let t := tolerance e
  let dark := s.darkReports l
  if dark ≠ [] then ⟨.lampOut, suspectsOf dark⟩
  else if m + t < e then ⟨.lampOut, suspectsOf (s.suspects l (e - m - t))⟩
  else if e + t < m then ⟨.extraLoad, 0⟩
  else if 0 < e then ⟨.ok, 0⟩
  else ⟨.none, 0⟩

/-- The attribution of a candidate (R82 (1)). -/
def attributionOf (c : Candidate) : Nat :=
  if c.kind = .lampOut then
    (if c.suspects = suspectsOf [.p1] then 1 else if c.suspects = suspectsOf [.p2] then 2
      else if c.suspects = suspectsOf [.p3] then 3 else 0)
  else 0

/-- The deviation figure of a candidate (R82 (2)). -/
def deviationOf (c : Candidate) (e m : Nat) : Nat :=
  match c.kind with
  | .lampOut => e - m
  | .extraLoad => m - e
  | .unchecked | .none | .ok => 0

/-! ## Debounce (R84, R85) -/

/-- The third agreeing evaluation: the verdict takes the candidate (R85). -/
def Verdict.confirm (v : Verdict) (c : Candidate) (attribution deviation : Nat) : Verdict :=
  { v with kind := c.kind, suspects := c.suspects, attribution := attribution, deviation := deviation, pending := none,
           agreement := 0 }

/-- A candidate passes the debounce; the second part says whether it is confirmed (R84). -/
def Verdict.debounce (v : Verdict) (c : Candidate) (attribution deviation : Nat) : Verdict × Bool :=
  if c.kind = v.kind ∧ c.suspects = v.suspects then
    ({ v with pending := none, agreement := 0, attribution := attribution, deviation := deviation }, false)
  else if v.pending = some c ∧ v.agreement = 1 then ({ v with agreement := 2 }, false)
  else if v.pending = some c ∧ v.agreement = 2 then (v.confirm c attribution deviation, true)
  else ({ v with pending := some c, agreement := 1 }, false)

/-- One evaluation of a lamp channel from a check window that is handed on (R78, R84, R85). -/
def State.evaluate (s : State) (l : LampId) (m peak : Nat) : State :=
  let c := s.candidate l m
  let v := { s.load.verdicts.get l with lastM := m, lastPeak := peak }
  let (v', confirmed) := v.debounce c (attributionOf c) (deviationOf c (s.load.expected.get l) m)
  let t := { s with load := { s.load with verdicts := s.load.verdicts.set l v' } }
  if confirmed then (t.raiseAll .lampVerdict).handKind l c.kind else t

end Sys2Proof.Machine
end

