-- ==== Sys2Proof/Machine/Probes.lean ====
section
/-! DEFINITION. Probe requests and what follows their outcomes (sections 3.9, 6.4, 6.6): attempts, postponement,
abandonment, the measuring of a position channel by channel, readiness (R128) and the commit of a relearn (R137). -/

namespace Sys2Proof.Machine

/-! ## Demand at the Bank -/

/-- A demand wants the output on at this moment: STEADY always, FLASH in its flasher's on-phase (R44). -/
def State.wantsOn (s : State) (d : Demand) : Bool :=
  match d with
  | .off => false
  | .steady => true
  | .flashTurn => s.bank.turn.onPhase
  | .flashEmergency => s.bank.emergency.onPhase

/-- The flasher that paces a demand (R47, R48); for the demands that do not flash it is not read. -/
def State.flasherOf (s : State) (d : Demand) : Flasher :=
  match d with
  | .flashEmergency => s.bank.emergency
  | .flashTurn | .off | .steady => s.bank.turn

/-- A channel takes its demand (R45). -/
def State.takeDemand (s : State) (c : ChanId) : State :=
  s.putChan c ((s.chan c).takeDemand (s.routed c) (s.wantsOn (s.chan c).demand))

/-! ## Claims a position makes when it becomes ready -/

/-- A claim made in class 1 (Table 5-3). -/
def State.claim1 (s : State) (t : Txn) : State := { s with bus := { s.bus with class1 := s.bus.class1 ++ [t] } }

/-- A claim made in class 2 (Table 5-3). -/
def State.claim2 (s : State) (t : Txn) : State := { s with bus := { s.bus with class2 := s.bus.class2 ++ [t] } }

/-- The repeater watch of a position replaced (R119). -/
def State.setWatch (s : State) (p : Pos) (w : Option Watch) : State :=
  { s with det := { s.det with watches := s.det.watches.set (posIdx p) w } }

/-- The poll timer of a position's chain repeater set or stopped (R109). -/
def State.setPoll (s : State) (p : Pos) (t : Option Nat) : State :=
  { s with bus := { s.bus with polls := s.bus.polls.set (posIdx p) t } }

/-- A record becomes ready: ONLINE without a reason, DEGRADED with one (R2, R128). -/
def PosRec.becomesReady (r : PosRec) : PosRec := { r with state := if r.reasons = 0 then .online else .degraded }

/-- A bring-up ends with its position ready (R128). -/
def State.becomeReady (s : State) (p : Pos) : State :=
  let s := { s with det := { s.det with bringUp := none } }
  let s := s.modPos p PosRec.becomesReady
  let s := (s.formExpected.resetVerdicts allLamps).raiseAll .positionReady
  match (s.pos p).repeater with
  | some _ => ((s.setWatch p (some {})).claim2 (.segmentClose p)).setPoll p (some 0)
  | none => s

/-- The record at a commit: the shadows become the committed contributions, PROBE_INCOMPLETE follows the outcomes, the
relearn flag is cleared (R8, R137). -/
def PosRec.commit (incomplete : Bool) (r : PosRec) : PosRec :=
  let r := { r with contrib := r.shadow }
  let r := if incomplete then r.addReason .probeIncomplete else r.dropReason .probeIncomplete
  { r with shadow := Tbl.fill 10 {}, relearn := false }

/-- A relearn commits (R8, R137). -/
def State.commitRelearn (s : State) (p : Pos) : State :=
  let s := s.modPos p (PosRec.commit (s.det.relearn.any (·.incomplete)))
  ({ s with det := { s.det with relearn := none } }).formExpected.resetVerdicts allLamps

/-- The last record of a measurement has been written: a relearn commits, a bring-up ends ready (R128, R137). -/
def State.endMeasuring (s : State) (p : Pos) : State :=
  if (s.pos p).relearn then s.commitRelearn p else s.becomeReady p

/-! ## Attempts (R62, R64) -/

/-- The probe request the Bank holds replaced. -/
def State.setProbe (s : State) (q : Option Probe) : State := { s with bank := { s.bank with probe := q } }

/-- A probe attempt can begin on a channel: none of the four conditions of R64 holds. -/
def State.canProbe (s : State) (c : ChanId) : Bool :=
  let ch := s.chan c
  !(c = 2 && ch.demand ≠ .off) && !ch.derated && s.bank.supplyInside &&
    match ch.state with
    | .tripped | .latched | .thermalOff => false
    | .off | .drive | .probeGap | .probeOn => true

/-- An attempt begins from the channel's own state (R62). -/
def State.beginAttempt (s : State) (q : Probe) : State :=
  let c := lampChan q.lamp
  let ch := s.chan c
  let s := s.setProbe (some { q with phase := .attempt, inrush := 0, samples := [], gap := 0, armed := false })
  match ch.state with
  | .off => s.putChan c (if Config.blanking ≤ ch.sinceOff then ch.toProbeOn else ch.toGap)
  | .drive =>
    match ch.demand with
    | .flashTurn | .flashEmergency => if s.wantsOn ch.demand then s else s.putChan c ch.toGap
    | .steady | .off => s.putChan c ch.toGap
  | .probeGap | .probeOn | .tripped | .latched | .thermalOff => s

/-- The conditions of a postponed request tested again; the attempt begins when none holds (R64). -/
def State.testProbe (s : State) : State :=
  match s.bank.probe with
  | some q => if q.phase = .postponed ∧ s.canProbe (lampChan q.lamp) then s.beginAttempt q else s
  | none => s

/-! ## Measuring a position (R127, R137) -/

/-- An incomplete outcome noted: PROBE_INCOMPLETE in a bring-up, for the commit in a relearn (R61, R137). -/
def State.noteOutcome (s : State) (p : Pos) (o : ProbeOutcome) : State :=
  if o.incomplete then
    if (s.pos p).relearn then
      { s with det := { s.det with relearn := s.det.relearn.map fun x => { x with incomplete := true } } }
    else s.addReason p .probeIncomplete
  else s

/-- The lamp channels still to be measured are taken in order: an unrouted one is written at once (R39), one with
BACKFEED fails at once (R61 (1)), any other is handed to the Bank as a request (R61). -/
def State.measure (p : Pos) : List LampId → State → State
  | [], s => s.endMeasuring p
  | l :: rest, s =>
    if s.routed (lampChan l) = false then State.measure p rest (s.modPos p (PosRec.putContribution l {}))
    else if (s.chan (lampChan l)).backfeed then
      State.measure p rest ((s.learnFor p l .failed).noteOutcome p .failed)
    else (s.setProbe (some { lamp := l, pos := p })).testProbe

/-- The request held is resolved: the outcome is written and the next channel taken (R61, R74, R127). -/
def State.handOutcome (s : State) (q : Probe) (o : ProbeOutcome) : State :=
  State.measure q.pos (allLamps.drop (q.lamp.val + 1)) (((s.setProbe none).learnFor q.pos q.lamp o).noteOutcome q.pos o)

/-! ## Expiry and abandonment (R65, R66) -/

/-- The channel can be measured with the settled window alone (R65 (1)). -/
def State.settledOnlyFits (s : State) (c : ChanId) : Bool :=
  let ch := s.chan c
  ch.state = .drive && !ch.derated && (ch.demand = .steady || (c = 2 && ch.demand = .flashEmergency))

/-- A request past its limit with no attempt in progress is resolved by the channel's condition (R65). -/
def State.resolveExpired (s : State) (q : Probe) : State :=
  let q := { q with phase := .settledOnly, expired := true, samples := [], armed := false }
  if s.settledOnlyFits (lampChan q.lamp) then s.setProbe (some q) else s.handOutcome q .failed

/-- An attempt in progress is abandoned: the channel takes its demand, and the request is tested again, or resolved if
its limit has expired (R66). A channel that is no longer in PROBE_GAP or PROBE_ON has acted already. -/
def State.abandonAttempt (s : State) (q : Probe) : State :=
  let c := lampChan q.lamp
  let q := { q with phase := .postponed, samples := [] }
  let s := s.setProbe (some q)
  let s := if (s.chan c).state = .probeGap ∨ (s.chan c).state = .probeOn then s.takeDemand c else s
  if q.expired then s.resolveExpired q else s.testProbe

/-- An event that ends measurement strikes the probe's channel: an attempt is abandoned (R66), a settled-only
measurement fails (R65 (1)), a postponed request is tested again (R64). -/
def State.disturbProbe (s : State) : State :=
  match s.bank.probe with
  | none => s
  | some q =>
    match q.phase with
    | .postponed => s.testProbe
    | .attempt => s.abandonAttempt q
    | .settledOnly => s.handOutcome q .failed

/-- The channel of the request held. -/
def State.probeChan (s : State) : Option ChanId := s.bank.probe.map fun q => lampChan q.lamp

/-- A probe request made for a position is dropped by teardown, without outcome (R67 (3)). -/
def State.dropProbe (s : State) (p : Pos) : State :=
  match s.bank.probe with
  | none => s
  | some q =>
    if q.pos = p then
      let c := lampChan q.lamp
      let s := s.setProbe none
      if (s.chan c).state = .probeGap ∨ (s.chan c).state = .probeOn then s.takeDemand c else s
    else s

/-! ## Samples of a probe (R63, R65) -/

/-- A settled sample is due: one every 2 ms, up to sixteen. -/
def Probe.sampleDue (q : Probe) : Bool := (q.samples.isEmpty || 2 ≤ q.gap) && q.samples.length < windowSamples

/-- A settled sample taken. -/
def Probe.addSample (ma : Nat) (q : Probe) : Probe := { q with samples := q.samples ++ [ma], gap := 0 }

/-- The settled samples of a settled-only measurement may be taken (R65 (1)). -/
def State.settledOnlyOpen (s : State) (q : Probe) : Bool :=
  let ch := s.chan (lampChan q.lamp)
  match ch.demand with
  | .flashEmergency => q.armed && s.bank.emergency.onPhase && Config.windowStart ≤ s.bank.emergency.age
  | .steady | .flashTurn | .off => Config.windowStart ≤ ch.sinceOn

/-- A current sample that did not trip the channel, as the request held takes it (R63, R65). -/
def State.probeSample (s : State) (c : ChanId) (ma : Nat) : State :=
  match s.bank.probe with
  | none => s
  | some q =>
    if lampChan q.lamp ≠ c then s
    else
      match q.phase with
      | .postponed => s
      | .attempt =>
        let ch := s.chan c
        if ch.state = .probeOn then
          let q := if ch.sinceOn ≤ 10 then { q with inrush := max q.inrush ma } else q
          s.setProbe (some (if Config.windowStart ≤ ch.sinceOn ∧ q.sampleDue then q.addSample ma else q))
        else s
      | .settledOnly => if s.settledOnlyOpen q ∧ q.sampleDue then s.setProbe (some (q.addSample ma)) else s

end Sys2Proof.Machine
end

