-- ==== Sys2Proof/Machine/Lighting.lean ====
section
/-! DEFINITION. The Lighting Function Logic (chapter 7): effective states, rights, the demand of every channel, and the
handing of changed demands to the Bank with its flashers (R47, R48, R149). -/

namespace Sys2Proof.Machine

/-! ## Records and effective states (R142 to R144, R148) -/

/-- The strap setting is BENCH (R177). -/
def State.bench (s : State) : Bool := s.links.strap1 && s.links.strap0

/-- The command record of a role (R142). -/
def Lighting.record (l : Lighting) : Role → FunctionSet
  | .body => l.body
  | .brake => l.brake
  | .service => l.service

/-- The command record of a role replaced. -/
def Lighting.setRecord (l : Lighting) (r : Role) (f : FunctionSet) : Lighting :=
  match r with
  | .body => { l with body := f }
  | .brake => { l with brake := f }
  | .service => { l with service := f }

/-- The SERVICE record is counted while the grant is on, and at all times under BENCH (R143, R148). -/
def State.serviceCounted (s : State) : Bool := s.light.grant || s.bench

/-- The effective states of the fixed functions (R143). -/
def State.effective (s : State) : FunctionSet :=
  s.light.body ||| s.light.brake ||| (if s.serviceCounted then s.light.service else 0)

/-- Every fixed function (Table 10-2, functions 0 to 14). -/
def allFunctions : FunctionSet := BitVec.allOnes 15

/-- The fixed functions a link may set (R144, Table 7-2). -/
def lightingRights (r : LinkRole) (grant : Bool) : FunctionSet :=
  match r with
  | .body | .bench => allFunctions
  | .brake => addBit (addBit 0 2) 13
  | .service => if grant then allFunctions else 0

/-! ## Demand (R149 to R153) -/

/-- Demand STEADY where a condition holds. -/
def steadyWhen (b : Bool) : Demand := if b then .steady else .off

/-- The demand of a channel from the effective states and the coupling demand (R150 to R153). -/
def demandOf (eff : FunctionSet) (coupling : Bool) (c : ChanId) : Demand :=
  match c.val with
  | 0 => if hasBit eff 0 || hasBit eff 12 then .flashTurn else .off
  | 1 => if hasBit eff 1 || hasBit eff 12 then .flashTurn else .off
  | 2 => if hasBit eff 13 then .flashEmergency else steadyWhen (hasBit eff 2)
  | 3 => steadyWhen (hasBit eff 3 || hasBit eff 14)
  | 4 => steadyWhen (hasBit eff 4 || hasBit eff 14)
  | 5 => steadyWhen (hasBit eff 5 || hasBit eff 14)
  | 9 => steadyWhen (hasBit eff 9 || coupling)
  | n => steadyWhen (hasBit eff n)

/-- The newly formed demand of a channel. -/
def State.newDemand (s : State) (c : ChanId) : Demand := demandOf s.effective s.det.couplingDemand c

/-! ## Flashers (R47, R48) -/

/-- A flasher starts with an on-phase when it is first wanted, runs on while it is, and is idle when it is not. -/
def Flasher.want (wanted fast : Bool) (f : Flasher) : Flasher :=
  if wanted then (if f.running then f else { running := true, onPhase := true, age := 0, fast := fast }) else {}

/-- The flashers as the newly formed demands want them. -/
def State.stepFlashers (s : State) : State :=
  { s with bank := { s.bank with
      turn := s.bank.turn.want (s.newDemand 0 = .flashTurn || s.newDemand 1 = .flashTurn) s.light.fast
      emergency := s.bank.emergency.want (s.newDemand 2 = .flashEmergency) false } }

/-! ## Handing over (R149, R45) -/

/-- A channel is handed its newly formed demand where that differs from the one it holds (R149). `before` gives the
flasher phase of the old demand. -/
def State.handDemand (before s : State) (c : ChanId) : State :=
  let ch := s.chan c
  let d := before.newDemand c
  if d = ch.demand then s
  else s.putChan c (ch.acceptDemand (s.routed c) (before.wantsOn ch.demand) (s.wantsOn d) d)

/-- The demands formed and handed over in one act; then a probe whose channel's demand changed gives way (R149, R66). -/
def State.formDemand (s : State) : State :=
  let t := allChans.foldl (State.handDemand s) s.stepFlashers
  match s.probeChan with
  | some c => if s.newDemand c = (s.chan c).demand then t else t.disturbProbe
  | none => t

/-- A command record changed, with the effective states and the demand it leads to (R143, R149). -/
def State.setRecord (s : State) (r : Role) (f : FunctionSet) : State :=
  ({ s with light := s.light.setRecord r f }).formDemand

/-- The record of a role as its silence leaves it (R156 to R158). -/
def silencedRecord (r : Role) (f : FunctionSet) : FunctionSet :=
  match r with
  | .body => dropBit (dropBit (dropBit f 0) 1) 12
  | .brake => dropBit (dropBit f 2) 13
  | .service => 0

/-- The coupling demand raised or dropped, with CH9's demand formed again (R130, R149). -/
def State.setCoupling (s : State) (on : Bool) : State :=
  ({ s with det := { s.det with couplingDemand := on } }).formDemand

end Sys2Proof.Machine
end

