-- ==== Sys2Proof/Machine/Bus.lean ====
section
/-! DEFINITION. The Trailer Bus Controller's arbiter and request frames (sections 5.1, 5.2; R95, R96, R113, R196), and
the making and withdrawing of claims (R97). -/

namespace Sys2Proof.Machine

/-! ## Request frames (R95, R196, Table 10-6) -/

/-- Address of the entry a reference names; 0 where it is invalid. -/
def State.addrOf (s : State) (ref : EntryRef) : Nat := ((s.entry ref).map (·.addr)).getD 0

/-- ID of the node of an entry; 0 where it is invalid. A rediscovery that still waits when its group entry is returned to
invalid is so sent as a DISCOVER of ID 0 (DESIGN CHOICE, log 36). -/
def State.idOf (s : State) (ref : EntryRef) : Word32 := ((s.entry ref).map (·.nodeId)).getD 0

/-- The run of an entry: 0 for a single one. -/
def State.runOf (s : State) (ref : EntryRef) : Nat := ((s.entry ref).map (·.run)).getD 0

/-- Where an ASSIGN naming the node of an entry is sent: to 255 while the node is unassigned, and to its present address
while it is not (Table 5-2, Note 1; log 33). -/
def Entry.presentAddr (e : Entry) : Nat := if e.unassigned then 255 else e.addr

/-- The same for the entry a reference names; 255 where it is invalid. -/
def State.presentAddrOf (s : State) (ref : EntryRef) : Nat := ((s.entry ref).map Entry.presentAddr).getD 255

/-- The chain repeater of a position as an entry. -/
def State.repeaterOf (s : State) (p : Pos) : Option EntryRef := (s.pos p).repeater.map .single

/-- The bits of a prefix in a DISCOVER frame: left-aligned, the rest 0 (Table 10-6). -/
def prefixBits (bits : Word32) (len : Nat) : Word32 := bits &&& ~~~ (BitVec.allOnes 32 >>> len)

/-- An ASSIGN of an ID to an address. -/
def assignFrame (dest : Nat) (id : Word32) (addr : Nat) : List Byte := busFrame dest 2 (Word32.bytes id ++ [byteOf addr])

/-- A GROUP_ASSIGN of a head ID to a base and run. -/
def groupAssignFrame (dest : Nat) (id : Word32) (base run : Nat) : List Byte :=
  busFrame dest 3 (Word32.bytes id ++ [byteOf base, byteOf run])

/-- The request frame of a transaction (R95, Table 10-6). -/
def State.requestOf (s : State) (t : Txn) : List Byte :=
  match t with
  | .addressReset => busFrame 0 9 []
  | .segmentOpen => busFrame 0 10 []
  | .search bits len => busFrame 255 1 (byteOf len :: Word32.bytes (prefixBits bits len))
  | .place p =>
    if p.run = 0 then assignFrame 255 p.nodeId p.addr
    else
      match p.fromSingle with
      | none => groupAssignFrame 255 p.nodeId p.addr p.run
      | some i => groupAssignFrame (s.addrOf (.single i)) p.nodeId p.addr p.run
  | .describe ref page => busFrame (s.addrOf ref) 4 [byteOf page]
  | .releaseGroup id dest => assignFrame dest id 255
  | .releaseSingle i => assignFrame (s.addrOf (.single i)) (s.idOf (.single i)) 255
  | .rediscover ref => busFrame 255 1 (32 :: Word32.bytes (s.idOf ref))
  | .reassign ref _ =>
    match ref with
    | .single _ => assignFrame (s.presentAddrOf ref) (s.idOf ref) (s.addrOf ref)
    | .group _ => groupAssignFrame (s.presentAddrOf ref) (s.idOf ref) (s.addrOf ref) (s.runOf ref)
  | .poll p => busFrame ((s.repeaterOf p).elim 0 s.addrOf) 7 []
  | .segmentClose p => busFrame ((s.repeaterOf p).elim 0 s.addrOf) 8 [1]
  | .read ref k _ => busFrame (s.addrOf ref) 5 [byteOf k]
  | .write ref k v _ => busFrame (s.addrOf ref) 6 (byteOf k :: Word16.bytes v)

/-- The command code of a transaction (Table 10-6). -/
def Txn.command : Txn → Nat
  | .addressReset => 9
  | .segmentOpen => 10
  | .search .. | .rediscover _ => 1
  | .place t => if t.run = 0 then 2 else 3
  | .describe .. => 4
  | .releaseGroup .. | .releaseSingle _ => 2
  | .reassign ref _ => match ref with | .single _ => 2 | .group _ => 3
  | .poll _ => 7
  | .segmentClose _ => 8
  | .read .. => 5
  | .write .. => 6

/-- A broadcast expects no reply (R94). -/
def Txn.broadcast : Txn → Bool
  | .addressReset | .segmentOpen => true
  | .search .. | .place _ | .describe .. | .releaseGroup .. | .releaseSingle _ | .rediscover _ | .reassign .. | .poll _
  | .segmentClose _ | .read .. | .write .. => false

/-! ## Refresh (R113) -/

/-- A slot the part refreshes in the background: LAMP_STATUS or watched, of a live entry in service at a ready position
(R113 (1), (2)). -/
def State.refreshed (s : State) (e : Entry) (sl : Slot) : Bool :=
  e.live && !e.locked && s.ready e.pos && (sl.kind = .lampStatus || sl.watch ≠ 0)

/-- A READ of a numbered slot is claimed in the Deferred List (R113 (4)). -/
def State.readClaimed (s : State) (sl : Slot) : Bool :=
  match sl.number with
  | some n => s.dec.deferred.any fun d => d.number = n && d.value.isNone
  | none => false

/-- A slot is due for background refresh while the bus is idle (R113). -/
def State.due (s : State) (e : Entry) (sl : Slot) : Bool :=
  s.refreshed e sl && (sl.window ≤ sl.age || sl.quality = .failed) && !s.readClaimed sl

/-- The due slots of an entry: place and directory number. -/
def State.dueSlots (s : State) (ref : EntryRef) : List (EntryRef × Nat × Option Nat) :=
  match s.entry ref with
  | none => []
  | some e => e.slots.zipIdx.filterMap fun (sl, k) => if s.due e sl then some (ref, k, sl.number) else none

/-- All due slots, single entries before groups, each in list order (Table 5-3). -/
def State.allDue (s : State) : List (EntryRef × Nat × Option Nat) := allEntries.flatMap s.dueSlots

/-- Of two due slots, the one class 6 takes first: the lower number, and a numbered one before one without (Table
5-3). -/
def firstDue (a b : EntryRef × Nat × Option Nat) : EntryRef × Nat × Option Nat :=
  match a.2.2, b.2.2 with
  | some x, some y => if y < x then b else a
  | none, some _ => b
  | some _, none | none, none => a

/-- The slot class 6 grants (Table 5-3). -/
def State.nextRefresh (s : State) : Option (EntryRef × Nat) :=
  match s.allDue with
  | [] => none
  | d :: rest => let f := rest.foldl firstDue d; some (f.1, f.2.1)

/-! ## Grants (R96) -/

/-- The transaction a Deferred List entry claims (R162, R165). -/
def State.deferredTxn (s : State) (d : Deferred) : Option Txn :=
  (s.binding d.number).map fun (ref, k) =>
    match d.value with
    | none => .read ref k (some (d.link, d.tag))
    | some v => .write ref k v (.deferred d.link d.tag)

/-- The first WAITING entry of the Deferred List of one kind, with its transaction (classes 3 and 4). -/
def State.nextDeferred (s : State) (writes : Bool) : Option (Deferred × Txn) :=
  s.dec.deferred.findSome? fun d =>
    if !d.inFlight && d.value.isSome = writes then (s.deferredTxn d).map fun t => (d, t) else none

/-- The head of the Posted Write Buffer with its transaction, while it waits (class 5). -/
def State.nextPosted (s : State) : Option (Posted × Txn) :=
  match s.dec.posted with
  | [] => none
  | p :: _ =>
    if p.carried.isSome then none
    else (s.binding p.number).map fun (ref, k) => (p, .write ref k p.value (.posted p.number))

/-- A transaction sent: its request frame goes out and it is in flight (R94). -/
def State.send (s : State) (t : Txn) : State :=
  { s with bus := { s.bus with flight := some { txn := t, frame := s.requestOf t } } }

/-- A Deferred List entry changed. -/
def State.modDeferred (s : State) (d : Deferred) (f : Deferred → Deferred) : State :=
  { s with dec := { s.dec with
      deferred := s.dec.deferred.map fun x => if x.link = d.link ∧ x.tag = d.tag then f x else x } }

/-- A Posted Write Buffer entry changed. -/
def State.modPosted (s : State) (number : Nat) (f : Posted → Posted) : State :=
  { s with dec := { s.dec with posted := s.dec.posted.map fun x => if x.number = number then f x else x } }

/-- The arbiter grants the first claim present in the order of Table 5-3 (R96); nothing where no claim is present. -/
def State.grant (s : State) : State :=
  match s.bus.class1 with
  | t :: rest => ({ s with bus := { s.bus with class1 := rest } }).send t
  | [] =>
    match s.bus.class2 with
    | t :: rest => ({ s with bus := { s.bus with class2 := rest } }).send t
    | [] =>
      match s.nextDeferred true with
      | some (d, t) => (s.modDeferred d fun x => { x with inFlight := true }).send t
      | none =>
        match s.nextDeferred false with
        | some (d, t) => (s.modDeferred d fun x => { x with inFlight := true }).send t
        | none =>
          match s.nextPosted with
          | some (p, t) =>
            (s.modPosted p.number fun x => { x with carried := some (x.value, x.poster), replaced := false }).send t
          | none =>
            match s.nextRefresh with
            | some (ref, k) => s.send (.read ref k none)
            | none => s

/-- The arbiter at an idle moment: it grants only on an idle bus with the data pair routed (R96, R40). -/
def State.grantIfIdle (s : State) : State :=
  if s.dataRouted && s.bus.flight.isNone then s.grant else s

/-- The end of an act in which claims may have been made: the arbiter, then the attention frames (log 10, 12). -/
def State.settle (before after : State) : State := before.finish after.grantIfIdle

/-! ## Withdrawing claims (R97) -/

/-- A claim toward an entry that lock-out or teardown withdraws; `chain` is the position whose chain repeater the entry
is (R97, R108, R133 (3)). -/
def Txn.toward (ref : EntryRef) (chain : Option Pos) : Txn → Bool
  | .rediscover r => r = ref
  | .reassign r _ => r = ref
  | .poll p => chain = some p
  | .segmentClose p => chain = some p
  | .addressReset | .segmentOpen | .search .. | .place _ | .describe .. | .releaseGroup .. | .releaseSingle _ | .read ..
  | .write .. => false

/-- A claim made by the bring-up (R97). -/
def Txn.byBringUp : Txn → Bool
  | .addressReset | .segmentOpen | .search .. | .place _ | .describe .. | .releaseGroup .. | .releaseSingle _ => true
  | .reassign _ b => b
  | .rediscover _ | .poll _ | .segmentClose _ | .read .. | .write .. => false

/-- Claims of classes 1 and 2 withdrawn by a test. -/
def State.withdraw (s : State) (test : Txn → Bool) : State :=
  { s with bus := { s.bus with class1 := s.bus.class1.filter (!test ·), class2 := s.bus.class2.filter (!test ·) } }

/-- The position whose chain repeater an entry is (R5). -/
def State.chainOf (s : State) (ref : EntryRef) : Option Pos := allPos.find? fun p => s.repeaterOf p = some ref

/-- A REPLY from an entry's node: the strikes become 0 and a waiting rediscovery is withdrawn (R106). -/
def State.clearStrikes (s : State) (ref : EntryRef) : State :=
  (s.modEntry ref fun e => { e with strikes := 0 }).withdraw (· = .rediscover ref)

/-- A REPLY from an entry's node at its address: the node is not unassigned (R93, Table 5-2, Note 1), and the strikes
become 0 (R106). -/
def State.answeredThere (s : State) (ref : EntryRef) : State :=
  (s.modEntry ref fun e => { e with unassigned := false }).clearStrikes ref

end Sys2Proof.Machine
end

