-- ==== Sys2Proof/Machine/Enumerate.lean ====
section
/-! DEFINITION. ENUMERATING (sections 1.3, 1.4, 5.3, 5.4, 6.4): the search, the choice of entry, address and block, the
making of a placement, descriptions, binding, and the choice of the chain repeater. -/

namespace Sys2Proof.Machine

/-! ## Directory numbers (R27) -/

/-- The numbers that slots of valid entries hold (R27). -/
def State.usedNumbers (s : State) : List Nat :=
  allEntries.flatMap fun ref =>
    match s.entry ref with
    | some e => e.slots.filterMap (·.number)
    | none => []

/-- The lowest free number in 16 to 127 (R27 (2)). -/
def State.freeNumber (s : State) : Option Nat :=
  let used := s.usedNumbers
  (List.range' 16 112).find? fun n => !used.contains n

/-- One slot is bound, or finds no number (R27). -/
def State.bindSlot (p : Pos) (s : State) (at_ : EntryRef × Nat) : State :=
  match s.slot at_.1 at_.2 with
  | none => s
  | some sl =>
    if sl.number.isSome then s
    else
      match s.freeNumber with
      | some n => s.modSlot at_.1 at_.2 fun x => { x with number := some n }
      | none => (s.addReason p .mapFull).raiseAll .mapFull

/-- The slots of a position's entries in binding order (R27). -/
def State.slotsOf (s : State) (p : Pos) : List (EntryRef × Nat) :=
  (s.pos p).refs.flatMap fun ref =>
    match s.entry ref with
    | some e => (List.range e.slots.length).map fun k => (ref, k)
    | none => []

/-- Binding at the end of ENUMERATING (R27). -/
def State.bindAll (s : State) (p : Pos) : State := (s.slotsOf p).foldl (State.bindSlot p) s

/-! ## Chain repeater (R5) -/

/-- An entry can be the chain repeater of its position: a repeater, not locked out (R5). -/
def Entry.canChain (e : Entry) : Bool := e.kind = .repeater && !e.locked

/-- Of two single entries the one with the lower node ID. -/
def State.lowerId (s : State) (best : Option SingleId) (i : SingleId) : Option SingleId :=
  match best with
  | none => some i
  | some b => if (s.idOf (.single i)).toNat < (s.idOf (.single b)).toNat then some i else some b

/-- The chain repeater: the repeater with the lowest node ID on the position's list that is not locked out (R5). -/
def State.chooseRepeater (s : State) (p : Pos) : Option SingleId :=
  ((s.pos p).singles.filter fun i => (s.entry (.single i)).any Entry.canChain).foldl s.lowerId none

/-- The ident read from a repeater in this bring-up (R5). -/
def BringUp.identOf (b : BringUp) (i : SingleId) : Option (List Byte) :=
  (b.idents.find? fun x => x.1 = i).map (·.2)

/-! ## Stages (R124 to R127) -/

/-- The bring-up in progress changed. -/
def State.modBringUp (s : State) (f : BringUp → BringUp) : State :=
  { s with det := { s.det with bringUp := s.det.bringUp.map f } }

/-- A stage of a bring-up entered. -/
def PosRec.stage (st : PosState) (r : PosRec) : PosRec := { r with state := st }

/-- MEASURING entered, with the first lamp channel (R127). -/
def State.enterMeasuring (s : State) (p : Pos) : State := (s.modPos p (PosRec.stage .measuring)).measure p allLamps

/-- The end of ENUMERATING: binding, chain repeater and ident, then MEASURING (R126 (3), (4)). -/
def State.endEnumerating (s : State) (b : BringUp) : State :=
  let s := s.bindAll b.pos
  let rep := s.chooseRepeater b.pos
  (s.modPos b.pos fun r => { r with repeater := rep, ident := rep.bind b.identOf }).enterMeasuring b.pos

/-- The next entry to describe: of the position's lists, single before group, not yet described and not locked out
(R104). -/
def State.nextToDescribe (s : State) (b : BringUp) : Option EntryRef :=
  (s.pos b.pos).refs.find? fun ref => !b.described.contains ref && !((s.entry ref).any (·.locked))

/-- The bring-up makes its next claim: the item on top of the search stack, then the next description, then the stage
ends (R99, R104, R126). -/
def State.bringUpNext (s : State) : State :=
  match s.det.bringUp with
  | none => s
  | some b =>
    match s.bus.stack with
    | item :: rest => ({ s with bus := { s.bus with stack := rest } }).claim2 (.search item.bits item.len)
    | [] =>
      match s.nextToDescribe b with
      | some ref => (s.modBringUp fun b => { b with desc := some { ref := ref } }).claim2 (.describe ref 0)
      | none => s.endEnumerating b

/-- ENUMERATING entered with the single item of length 0 on the stack (R99). -/
def State.enterEnumerating (s : State) (p : Pos) : State :=
  let s := s.modPos p (PosRec.stage .enumerating)
  ({ s with bus := { s.bus with stack := [⟨0, 0⟩] } }).bringUpNext

/-- POWERING ends when the 150 ms have been counted and both broadcasts have been sent (R125). -/
def State.tryEndPowering (s : State) : State :=
  match s.det.bringUp with
  | none => s
  | some b =>
    if (s.pos b.pos).state = .powering ∧ Config.poweringTime ≤ b.powering ∧ b.broadcasts = 0 then s.enterEnumerating b.pos
    else s

/-- A reason added to the position under bring-up. -/
def State.bringUpReason (s : State) (x : Reason) : State :=
  match s.det.bringUp with
  | some b => s.addReason b.pos x
  | none => s

/-- A node that is not entered (R25). -/
def State.notEntered (s : State) : State := ((s.bringUpReason .mapFull).raiseAll .mapFull)

/-! ## Choice of entry (R23, R24) -/

/-- The first single entry a test takes. -/
def State.findSingle (s : State) (test : Option Entry → Bool) : Option SingleId :=
  allSingles.find? fun i => test (s.map.singles.get i)

/-- The first group entry a test takes. -/
def State.findGroup (s : State) (test : Option Entry → Bool) : Option GroupId :=
  allGroups.find? fun j => test (s.map.groups.get j)

/-- A valid entry with an ID. -/
def holdsId (id : Word32) (e : Option Entry) : Bool := e.any fun e => e.nodeId = id

/-- A live entry with an ID. -/
def holdsIdLive (id : Word32) (e : Option Entry) : Bool := e.any fun e => e.nodeId = id && e.live

/-- Cases (2), (3) and (4) of R23 and R24 as tests, in order. -/
def invalidEntry (e : Option Entry) : Bool := e.isNone
/-- Case (3): stale, used clear, no pins. -/
def unusedVictim (e : Option Entry) : Bool := e.any fun e => !e.live && !e.used && e.pins = 0
/-- Case (4): stale, no pins. -/
def anyVictim (e : Option Entry) : Bool := e.any fun e => !e.live && e.pins = 0

/-- The entry cases (2) to (4) choose, among the finds of the three tests in order: whether it is a victim and whether
used marks are cleared (R23, R24). -/
def pickEntry {α : Type} (invalid unused any : Option α) : Option (α × Bool × Bool) :=
  match invalid, unused, any with
  | some x, _, _ => some (x, false, false)
  | none, some x, _ => some (x, true, false)
  | none, none, some x => some (x, true, true)
  | none, none, none => none

/-! ## Addresses and blocks (R101, R102) -/

/-- A live single entry holds an address (R22). -/
def State.addressHeld (s : State) (a : Nat) : Bool :=
  allSingles.any fun i => (s.map.singles.get i).any fun e => e.live && e.addr = a

/-- The lowest address in 1 to 95 that no live single entry holds (R101 (2)). -/
def State.lowestAddress (s : State) : Nat :=
  ((List.range' 1 95).find? fun a => !s.addressHeld a).getD 0

/-- A single node's address: a stale entry's preference if it is free, else the lowest free one (R101). -/
def State.chooseAddress (s : State) (preferred : Option Nat) : Nat :=
  match preferred with
  | some a => if s.addressHeld a then s.lowestAddress else a
  | none => s.lowestAddress

/-- A block overlaps no live group block (R102). -/
def State.blockFree (s : State) (base run : Nat) : Bool :=
  !allGroups.any fun j => (s.map.groups.get j).any fun e => e.live && base < e.addr + e.run && e.addr < base + run

/-- The candidate blocks of a run (R102). -/
def blockBases (run : Nat) : List Nat := (List.range (64 / run)).map fun i => 128 + i * run

/-- The block for a head: the preferred base where it starts a free candidate block, else the lowest free one (R102). -/
def State.chooseBlock (s : State) (preferred : Option Nat) (run : Nat) : Option Nat :=
  let free := (blockBases run).filter fun b => s.blockFree b run
  match preferred with
  | some b => if free.contains b then some b else free.head?
  | none => free.head?

/-! ## Restarted nodes (R107) -/

/-- The chain repeater of a ready position restarted: its segment is open again (R119 (2)). -/
def State.watchRestarted (s : State) (ref : EntryRef) : State :=
  match s.chainOf ref with
  | some p => s.setWatch p ((s.det.watches.get (posIdx p)).map fun w => { w with closed := false, present := 0 })
  | none => s

/-- The record of a node found unassigned: the restart count of a single entry grows (R107 (1)). -/
def Entry.restart (ref : EntryRef) (e : Entry) : Entry :=
  { e with
    unassigned := true
    restarts := match ref with
      | .single _ => min 255 (e.restarts + 1)
      | .group _ => e.restarts }

/-- A node found unassigned under its own live entry: strikes 0, the restart count of a single entry grows, and its
re-assignment is claimed unless it is locked out (R107 (1)). -/
def State.restarted (s : State) (ref : EntryRef) (byBringUp : Bool) : State :=
  let s := ((s.clearStrikes ref).modEntry ref (Entry.restart ref)).watchRestarted ref
  if (s.entry ref).any (·.locked) then (if byBringUp then s.bringUpNext else s)
  else s.claim2 (.reassign ref byBringUp)

/-! ## Placement chosen (R100) -/

/-- A single node found by the search (R100 (1), (3), (4); R23). -/
def State.foundSingle (s : State) (id : Word32) : State :=
  if (s.findGroup (holdsIdLive id)).isSome then (s.bringUpReason .idConflict).bringUpNext
  else
    match s.findSingle (holdsId id) with
    | some i =>
      if (s.entry (.single i)).any (·.live) then s.restarted (.single i) true
      else
        s.claim2 (.place { ref := .single i, nodeId := id, addr := s.chooseAddress (some (s.addrOf (.single i))),
                           run := 0, reuse := true, victim := false, clearUsed := false })
    | none =>
      match pickEntry (s.findSingle invalidEntry) (s.findSingle unusedVictim) (s.findSingle anyVictim) with
      | some (i, victim, clear) =>
        s.claim2 (.place { ref := .single i, nodeId := id, addr := s.chooseAddress none, run := 0, reuse := false,
                           victim := victim, clearUsed := clear })
      | none => s.notEntered.bringUpNext

/-- The group entry and block for a head: the block first, then the entry (R24, R102). -/
def State.chooseGroup (s : State) (id : Word32) (run : Nat) (fromSingle : Option SingleId) : Option Tentative :=
  match s.findGroup (holdsId id) with
  | some j =>
    (s.chooseBlock (some (s.addrOf (.group j))) run).map fun base =>
      { ref := .group j, nodeId := id, addr := base, run := run, reuse := true, victim := false, clearUsed := false,
        fromSingle := fromSingle }
  | none =>
    match s.chooseBlock none run with
    | none => none
    | some base =>
      (pickEntry (s.findGroup invalidEntry) (s.findGroup unusedVictim) (s.findGroup anyVictim)).map
        fun (j, victim, clear) =>
          { ref := .group j, nodeId := id, addr := base, run := run, reuse := false, victim := victim,
            clearUsed := clear, fromSingle := fromSingle }

/-- A group head found by the search (R100 (2), (3), (4); R24). -/
def State.foundHead (s : State) (id : Word32) (run : Nat) : State :=
  if (s.findSingle (holdsIdLive id)).isSome then (s.bringUpReason .idConflict).bringUpNext
  else
    match s.findGroup (holdsIdLive id) with
    | some j => s.restarted (.group j) true
    | none =>
      match s.chooseGroup id run none with
      | some t => s.claim2 (.place t)
      | none => s.notEntered.bringUpNext

/-- A node found by the search, with the run its reply carries (R100). -/
def State.found (s : State) (id : Word32) (run : Nat) : State :=
  if run = 0 then s.foundSingle id else s.foundHead id run

/-- A garbled outcome of a search item: split, or an ID conflict at full length (R99 (3), (4)). -/
def State.splitItem (s : State) (bits : Word32) (len : Nat) : State :=
  if len < 32 then
    let one := bits ||| BitVec.twoPow 32 (31 - len)
    ({ s with bus := { s.bus with stack := ⟨bits, len + 1⟩ :: ⟨one, len + 1⟩ :: s.bus.stack } }).bringUpNext
  else (s.bringUpReason .idConflict).bringUpNext

/-- An ID begins with a prefix (R99). -/
def beginsWith (id bits : Word32) (len : Nat) : Bool := prefixBits id len = prefixBits bits len

/-! ## Placement made or refused (R103) -/

/-- An index inserted in its ascending list (R4). -/
def insertAsc {n : Nat} (x : Fin n) : List (Fin n) → List (Fin n)
  | [] => [x]
  | y :: ys => if x < y then x :: y :: ys else if x = y then y :: ys else y :: insertAsc x ys

/-- An entry joins the lists of its position (R4). -/
def PosRec.join (ref : EntryRef) (r : PosRec) : PosRec :=
  match ref with
  | .single i => { r with singles := insertAsc i r.singles }
  | .group j => { r with groups := insertAsc j r.groups }

/-- An entry leaves the lists of its position. -/
def PosRec.leave (ref : EntryRef) (r : PosRec) : PosRec :=
  match ref with
  | .single i => { r with singles := r.singles.filter (· ≠ i) }
  | .group j => { r with groups := r.groups.filter (· ≠ j) }

/-- The used mark cleared on a stale entry (R14). -/
def Entry.clearUsed (e : Entry) : Entry := if e.live then e else { e with used := false }

/-- The used marks of the stale entries of one table cleared (R23 (4), R24 (4)). -/
def State.clearUsed (s : State) (ref : EntryRef) : State :=
  match ref with
  | .single _ => { s with map := { s.map with singles := s.map.singles.map (Option.map Entry.clearUsed) } }
  | .group _ => { s with map := { s.map with groups := s.map.groups.map (Option.map Entry.clearUsed) } }

/-- A slot kept under another run: a member list of the new length filled with 0, no number, and so an empty watch set
and an empty changed-since-read set (R20, R171, log 21). -/
def Slot.reRun (run : Nat) (sl : Slot) : Slot :=
  { sl with number := none, cache := List.replicate run 0, watch := 0, changed := 0 }

/-- The slots of a group entry reused with another run: discarded, but those of a locked-out entry, which is not
described, are kept with a member list of the new length and no number (R20, log 21). -/
def Entry.reRun (run : Nat) (e : Entry) : List Slot :=
  if run = e.run then e.slots
  else if e.locked then e.slots.map (Slot.reRun run)
  else []

/-- The entry as a placement leaves it: a reused entry keeps its record (R10 (2)), any other takes the values of Table
1-4 (R10 (1), (3)). -/
def Tentative.entryFor (t : Tentative) (p : Pos) (old : Option Entry) : Entry :=
  match t.reuse, old with
  | true, some e =>
    { e with live := true, pos := p, addr := t.addr, run := t.run, slots := e.reRun t.run, strikes := 0,
             unassigned := false, used := true }
  | _, _ => { live := true, nodeId := t.nodeId, addr := t.addr, run := t.run, pos := p, used := t.victim }

/-- A single entry that proved to be a group head is returned to invalid (R21). -/
def State.dropSingle (s : State) (p : Pos) (i : Option SingleId) : State :=
  match i with
  | some i => (s.setEntry (.single i) none).modPos p (PosRec.leave (.single i))
  | none => s

/-- The placement is made (R103 (1)). -/
def State.makePlacement (s : State) (p : Pos) (t : Tentative) : State :=
  let s := if t.clearUsed then s.clearUsed t.ref else s
  let e := t.entryFor p (s.entry t.ref)
  let s := (s.setEntry t.ref (some e)).modPos p (PosRec.join t.ref)
  let s := s.dropSingle p t.fromSingle
  if e.locked then s.addReason p .quarantine else s

/-- A single entry without kind and slots, as a failed description leaves it (R11, R105). -/
def Entry.undescribed (e : Entry) : Entry := { e with kind := .unknown, slots := [] }

/-- The outcome of a placement's ASSIGN or GROUP_ASSIGN (R103, R105). -/
def State.placeOutcome (s : State) (t : Tentative) (ack : Bool) : State :=
  match s.det.bringUp with
  | none => s
  | some b =>
    if ack then (s.makePlacement b.pos t).bringUpNext
    else
      let s := s.addReason b.pos .idConflict
      let s := match t.fromSingle with
        | some i => s.modEntry (.single i) Entry.undescribed
        | none => s
      s.bringUpNext

/-! ## Descriptions (R104, R105, R11) -/

/-- The description in progress ends, and the next claim is made. -/
def State.endDescription (s : State) (ref : EntryRef) : State :=
  (s.modBringUp fun b => { b with desc := none, described := ref :: b.described }).bringUpNext

/-- A description fails (R105): a single entry is left without kind and slots; a group entry is returned to invalid and
its head sent ASSIGN naming 255. A rediscovery or re-assignment of that group entry that still waits is not withdrawn
(DESIGN CHOICE, log 36). -/
def State.failDescription (s : State) (ref : EntryRef) : State :=
  match ref with
  | .single _ => (s.modEntry ref Entry.undescribed).endDescription ref
  | .group _ =>
    match s.entry ref, s.det.bringUp with
    | some e, some b =>
      let s := ((s.setEntry ref none).modPos b.pos (PosRec.leave ref))
      (s.modBringUp fun b => { b with desc := none }).claim2 (.releaseGroup e.nodeId e.presentAddr)
    | _, _ => s

/-- A single entry whose page 0 gives a run is handled as a group head (R105). -/
def State.provedHead (s : State) (i : SingleId) (run : Nat) : State :=
  let id := s.idOf (.single i)
  let s := s.modBringUp fun b => { b with desc := none, described := .single i :: b.described }
  match s.chooseGroup id run (some i) with
  | some t => s.claim2 (.place t)
  | none => s.notEntered.claim2 (.releaseSingle i)

/-- The outcome of the ASSIGN of 255 to a single entry that proved to be a head (R105). -/
def State.releaseSingleOutcome (s : State) (i : SingleId) (ack : Bool) : State :=
  match s.det.bringUp with
  | none => s
  | some b =>
    if ack then (s.dropSingle b.pos (some i)).bringUpNext
    else ((s.modEntry (.single i) Entry.undescribed).addReason b.pos .idConflict).bringUpNext

/-- The outcome of the ASSIGN of 255 to the head of a group entry returned to invalid (R105 (4)). -/
def State.releaseGroupOutcome (s : State) (ack : Bool) : State :=
  if ack then s.bringUpNext else (s.bringUpReason .idConflict).bringUpNext

/-- A new slot from its descriptor (R12, Table 1-5). -/
def SlotDesc.newSlot (d : SlotDesc) (run : Nat) : Slot :=
  { kind := d.kind, inst := d.inst, access := d.access, rangeMin := d.rangeMin, rangeMax := d.rangeMax, unit := d.unit,
    cache := List.replicate (max 1 run) 0 }

/-- A kept slot matches a descriptor by function kind and instance (R11 (1)). -/
def SlotDesc.fits (d : SlotDesc) (sl : Slot) : Bool := sl.kind = d.kind && sl.inst = d.inst

/-- A kept slot taken over: access class, range and unit come from the descriptor (R11 (1)). -/
def SlotDesc.takeOver (d : SlotDesc) (sl : Slot) : Slot :=
  { sl with access := d.access, rangeMin := d.rangeMin, rangeMax := d.rangeMax, unit := d.unit }

/-- The slots of a description matched against the kept ones, each at most once (R11). -/
def matchSlots (run : Nat) : List Slot → List SlotDesc → List Slot
  | _, [] => []
  | kept, d :: ds =>
    match kept.find? d.fits with
    | some sl => d.takeOver sl :: matchSlots run (kept.eraseP d.fits) ds
    | none => d.newSlot run :: matchSlots run kept ds

/-- The ident of a described repeater kept for the choice of the chain repeater (R104). -/
def keepIdent (ref : EntryRef) (p0 : Page0) (ident : List Byte) (b : BringUp) : BringUp :=
  match ref with
  | .single i => if p0.identLen = 0 ∨ p0.kind ≠ .repeater then b else { b with idents := (i, ident.take p0.identLen) :: b.idents }
  | .group _ => b

/-- The last page has been read: kind and function list are set (R11, R104). -/
def State.finishDescription (s : State) (d : Description) (p0 : Page0) : State :=
  let s := s.modEntry d.ref fun e => { e with kind := p0.kind, slots := matchSlots e.run e.slots d.slots }
  (s.modBringUp (keepIdent d.ref p0 d.ident)).endDescription d.ref

/-- Function pages of a description still to be read, then ident pages of a repeater (R104). -/
def Page0.lastPages (p0 : Page0) : List Nat :=
  List.range' 1 p0.count ++
    (if p0.kind = .repeater then List.range' 5 ((p0.identLen + 7) / 8) else [])

/-- The page after a page (R104). -/
def Page0.pageAfter (p0 : Page0) (page : Nat) : Option Nat := p0.lastPages.find? fun k => page < k

/-- The description with a page taken in goes on to its next page or ends (R104). -/
def State.descriptionNext (s : State) (d : Description) (p0 : Page0) (page : Nat) : State :=
  match p0.pageAfter page with
  | some k => (s.modBringUp fun b => { b with desc := some d }).claim2 (.describe d.ref k)
  | none => s.finishDescription d p0

/-- Page 0 of a group entry fits its group: member kind, one function, the run assigned (R105, R197 (2)). -/
def groupPage0Ok (p0 : Page0) (run : Nat) : Bool :=
  (p0.kind = .lampCluster || p0.kind = .tyreHub) && p0.count = 1 && p0.run = run

/-- Page 0 taken in (R104, R105). -/
def State.takePage0 (s : State) (d : Description) (page : List Byte) : State :=
  match decodePage0 page with
  | none => s.failDescription d.ref
  | some p0 =>
    let d := { d with page0 := some p0 }
    match d.ref with
    | .single i => if p0.run = 0 then s.descriptionNext d p0 0 else s.provedHead i p0.run
    | .group _ => if groupPage0Ok p0 (s.runOf d.ref) then s.descriptionNext d p0 0 else s.failDescription d.ref

/-- A function page or ident page taken in (R104, R105). -/
def State.takeLaterPage (s : State) (d : Description) (p0 : Page0) (k : Nat) (page : List Byte) : State :=
  if k ≤ 4 then
    match decodeFunctionPage page with
    | none => s.failDescription d.ref
    | some sd => s.descriptionNext { d with slots := d.slots ++ [sd] } p0 k
  else s.descriptionNext { d with ident := d.ident ++ page } p0 k

/-- A descriptor page taken in by the description in progress (R104). -/
def State.takePage (s : State) (k : Nat) (page : List Byte) : State :=
  match s.det.bringUp.bind (·.desc) with
  | none => s
  | some d =>
    match d.page0 with
    | none => s.takePage0 d page
    | some p0 => s.takeLaterPage d p0 k page

end Sys2Proof.Machine
end

