-- ==== Sys2Proof/Machine/Service.lean ====
section
/-! DEFINITION. Work that waits on trailer nodes (chapters 5 and 8): deferred completions (R176, R183), fresh values
(R111, R163), posted writes (R168, R169), strikes, lock-out and release (R17, R106 to R108), and the outcomes of
transactions (R98 to R112, R129). -/

namespace Sys2Proof.Machine

/-! ## Deferred completions (R176, R183) -/

/-- The request kind code of a Deferred List entry (Table 9-3, Table 10-3). -/
def Deferred.kindCode (d : Deferred) : Nat := if d.value.isNone then 5 else 6

/-- A Deferred List entry leaves the list (R183). -/
def State.dropDeferred (s : State) (d : Deferred) : State :=
  { s with dec := { s.dec with deferred := s.dec.deferred.filter fun x => !(x.link = d.link && x.tag = d.tag) } }

/-- A Deferred List entry completed: its completion is placed in its link's buffer and it leaves the list (R176). -/
def State.complete (s : State) (d : Deferred) (st : Status) (content : List Byte) : State :=
  (s.dropDeferred d).place d.link (contentFrames .completion (byteOf d.kindCode) d.tag st content)

/-- The Deferred List entry of a link and tag. -/
def State.findDeferred (s : State) (l : LinkId) (tag : Byte) : Option Deferred :=
  s.dec.deferred.find? fun d => d.link = l && d.tag = tag

/-- The Deferred List entry of a link and tag completed, if it is still there. -/
def State.completeFor (s : State) (owner : Option (LinkId × Byte)) (st : Status) (content : List Byte) : State :=
  match owner with
  | none => s
  | some (l, tag) =>
    match s.findDeferred l tag with
    | some d => s.complete d st content
    | none => s

/-- The completion of a Deferred List entry placed in its link's buffer, without contents (R176, R184). -/
def State.placeCompletion (st : Status) (s : State) (d : Deferred) : State :=
  s.place d.link (contentFrames .completion (byteOf d.kindCode) d.tag st [])

/-- Every Deferred List entry a test takes is completed and leaves the list. Where several of one link are completed by
one lock-out or one teardown no rule names an order among them (R108, R133 (6), R176): they are completed in the order
of the list, which is that of their arrival (DESIGN CHOICE, log 39). -/
def State.completeWhere (s : State) (test : Deferred → Bool) (st : Status) : State :=
  (s.dec.deferred.filter test).foldl (State.placeCompletion st)
    { s with dec := { s.dec with deferred := s.dec.deferred.filter (!test ·) } }

/-- A number is bound to a slot of an entry (R26). -/
def State.bound (s : State) (number : Nat) (ref : EntryRef) : Bool := (s.binding number).any fun b => b.1 = ref

/-! ## Fresh values (R111, R163, R171) -/

/-- The value of a slot as a completion or reply carries it: count and values (Table 10-2). -/
def valueContent (values : List Word16) : List Byte := byteOf values.length :: values.flatMap Word16.bytes

/-- A fresh value in the cache: age 0, quality GOOD (R13, R111 (1)). -/
def Slot.take (values : List Word16) (sl : Slot) : Slot := { sl with cache := values, age := 0, quality := .good }

/-- The change from the last reported value reaches the delta (R111 (2)). -/
def Slot.changedEnough (sl : Slot) : Bool := sl.delta ≤ (sl.total - sl.lastReported.toInt).natAbs

/-- The last reported value that stands for a total: the total where it fits signed 16 bits, else a free value (log
13). -/
def reportedValue (count : Nat) (total : Int) : Word16 :=
  if (BitVec.ofInt 16 total).toInt = total then BitVec.ofInt 16 total else Config.reportedOutside count total

/-- The last reported value of a slot set to its present total; the free-value counter advances where it is free. -/
def State.report (s : State) (ref : EntryRef) (k : Nat) : State :=
  match s.slot ref k with
  | none => s
  | some sl =>
    let t := s.modSlot ref k fun x => { x with lastReported := reportedValue s.freeCount sl.total }
    if (BitVec.ofInt 16 sl.total).toInt = sl.total then t else { t with freeCount := s.freeCount + 1 }

/-- The watch comparison after a fresh value (R111 (2)). -/
def State.compareWatch (s : State) (ref : EntryRef) (k : Nat) : State :=
  match s.slot ref k with
  | none => s
  | some sl =>
    if sl.watch ≠ 0 ∧ sl.changedEnough then
      ((s.report ref k).modSlot ref k fun x => { x with changed := x.changed ||| x.watch }).raiseFor sl.watch .valueChanged
    else s

/-- A role leaves the changed-since-read set of a slot (R171). -/
def State.dropChanged (s : State) (ref : EntryRef) (k : Nat) (r : Option Role) : State :=
  match r with
  | some r => s.modSlot ref k fun x => { x with changed := dropBit x.changed (roleBit r) }
  | none => s

/-- A deferred read answered with the fresh value (R162, R163, R171 (2)). -/
def State.deliver (ref : EntryRef) (k : Nat) (values : List Word16) (s : State) (d : Deferred) : State :=
  (s.complete d .done (valueContent values)).dropChanged ref k (s.linkRole d.link)

/-- A slot takes a fresh value: cache, watch comparison, then every deferred read of the slot (R111, R163). Several
deferred reads of one link are completed in the order of the list, which no rule names (DESIGN CHOICE, log 39). -/
def State.freshValue (s : State) (ref : EntryRef) (k : Nat) (values : List Word16) : State :=
  let s := (s.modSlot ref k (Slot.take values)).compareWatch ref k
  match (s.slot ref k).bind (·.number) with
  | none => s
  | some n => (s.dec.deferred.filter fun d => d.number = n && d.value.isNone).foldl (State.deliver ref k values) s

/-! ## Posted Write Buffer (R168, R169) -/

/-- A posted entry leaves the buffer. -/
def State.dropPosted (s : State) (number : Nat) : State :=
  { s with dec := { s.dec with posted := s.dec.posted.filter fun p => p.number ≠ number } }

/-- POSTED_WRITE_FAILED for a poster unless the write succeeded. -/
def State.postedFailed (s : State) (ok : Bool) (r : Role) : State :=
  if ok then s else s.raiseRole r .postedWriteFailed

/-- A posted entry settled at the outcome of its WRITE (R168, R169 (1)). One whose slot's entry has become locked out in
the meantime does not return to WAITING, a release before the outcome notwithstanding; one that is replaced only after
such a release is taken the same way (DEDUCED, log 35). -/
def State.settlePosted (s : State) (number : Nat) (ok : Bool) : State :=
  match s.dec.posted.find? fun p => p.number = number && p.carried.isSome with
  | none => s
  | some p =>
    let poster := (p.carried.map (·.2)).getD p.poster
    if p.replaced then
      if p.lockedOut then ((s.dropPosted number).postedFailed ok poster).postedFailed false p.poster
      else (s.modPosted number fun x => { x with carried := none, replaced := false }).postedFailed ok poster
    else (s.dropPosted number).postedFailed ok poster

/-- POSTED_WRITE_FAILED for a removed entry: for its poster, and for the poster its WRITE in flight carries (R169). -/
def State.failPosted (s : State) (p : Posted) : State :=
  let s := s.postedFailed false p.poster
  match p.carried with
  | some (_, r) => s.postedFailed false r
  | none => s

/-- Every posted entry a test takes leaves the buffer without a write (R169). -/
def State.removePosted (s : State) (test : Posted → Bool) : State :=
  (s.dec.posted.filter test).foldl State.failPosted
    { s with dec := { s.dec with posted := s.dec.posted.filter (!test ·) } }

/-- The mark of a lock-out on the posted entries for slots of an entry (R169 (1)). -/
def State.markPosted (s : State) (ref : EntryRef) : State :=
  { s with dec := { s.dec with
      posted := s.dec.posted.map fun p => if s.bound p.number ref then { p with lockedOut := true } else p } }

/-! ## Lock-out and release (R17, R108, R174) -/

/-- The lock-out on the entry itself: every slot FAILED (R17, R13 (3)). -/
def Entry.lockOut (e : Entry) : Entry :=
  { e with locked := true, slots := e.slots.map fun sl => { sl with quality := .failed } }

/-- A re-assignment of an entry claimed by the bring-up. -/
def reassignsForBringUp (ref : EntryRef) (t : Txn) : Bool := t = .reassign ref true

/-- Polling of a repeater that is locked out stops (R108 (2), R109). -/
def State.stopPolls (s : State) (chain : Option Pos) : State :=
  match chain with
  | some p => s.setPoll p none
  | none => s

/-- An entry of a live position is locked out, by its third strike or by QUARANTINE (R17, R108). -/
def State.lockOut (s : State) (ref : EntryRef) : State :=
  match s.entry ref with
  | none => s
  | some e =>
    let chain := s.chainOf ref
    let held := s.bus.class2.any (reassignsForBringUp ref)
    let s := ((s.setEntry ref (some e.lockOut)).addReason e.pos .quarantine).raiseAll .nodeQuarantined
    let s := (s.withdraw (Txn.toward ref chain)).stopPolls chain
    let s := s.completeWhere (fun d => !d.inFlight && s.bound d.number ref) .noReply
    let s := (s.removePosted fun p => p.carried.isNone && s.bound p.number ref).markPosted ref
    if held then s.bringUpNext else s

/-- An entry on a position's lists is locked out. -/
def State.anyLocked (s : State) (p : Pos) : Bool := (s.pos p).refs.any fun ref => (s.entry ref).any (·.locked)

/-- A locked-out entry is released (R17). -/
def State.releaseEntry (s : State) (ref : EntryRef) : State :=
  match s.entry ref with
  | none => s
  | some e =>
    let s := s.setEntry ref (some { e with locked := false, strikes := 0 })
    if e.live then
      let s := s.claim2 (.rediscover ref)
      if s.anyLocked e.pos then s else s.dropReason e.pos .quarantine
    else s

/-- A strike on an entry: at the second a rediscovery is claimed, at the third the entry is locked out; an entry locked
out already only counts (R106, R107, R108, log 18). -/
def State.strike (s : State) (ref : EntryRef) : State :=
  match s.entry ref with
  | none => s
  | some e =>
    let n := min 3 (e.strikes + 1)
    let s := s.setEntry ref (some { e with strikes := n })
    if e.locked then s
    else if n = 2 then s.claim2 (.rediscover ref)
    else if n = 3 then s.lockOut ref
    else s

/-! ## SEGMENT close (R129) -/

/-- The closed mark set or cleared with the reason CHAIN_OPEN (R129). -/
def State.closeOutcome (s : State) (p : Pos) (ack : Bool) : State :=
  let w := s.det.watches.get (posIdx p)
  if ack then (s.setWatch p (w.map fun w => { w with closed := true })).dropReason p .chainOpen
  else (s.setWatch p (w.map fun w => { w with closed := false, present := 0 })).addReason p .chainOpen

/-! ## Outcomes (R94, R98) -/

/-- A final outcome that is not a broadcast's: the payloads of a REPLY, or a failure (R94). -/
inductive BusOutcome where
  | reply (payload : List Byte)
  | garbled
  | silence
  deriving DecidableEq, Repr

/-- A REPLY of one answer byte is an ACK or a NAK (Table 10-6, Note 1). -/
inductive Answer where
  | ack | nak | failed
  deriving DecidableEq, Repr

/-- The answer an outcome carries. -/
def BusOutcome.answer : BusOutcome → Answer
  | .reply payload => if byteAt payload 0 = 1 then .ack else .nak
  | .garbled | .silence => .failed

/-- What a DISCOVER of a prefix draws: an ID with its run, or garbled, or silence; a reply that does not fit the prefix
or the runs is garbled (R100). -/
def BusOutcome.discovered (o : BusOutcome) (bits : Word32) (len : Nat) : BusOutcome × Word32 × Nat :=
  match o with
  | .reply payload =>
    let id := word32 (byteAt payload 0) (byteAt payload 1) (byteAt payload 2) (byteAt payload 3)
    let run := (byteAt payload 4).toNat
    if beginsWith id bits len ∧ runOk run then (o, id, run) else (.garbled, 0, 0)
  | .garbled | .silence => (o, 0, 0)

/-- The final outcome of a DISCOVER of the search (R99). -/
def State.searchOutcome (s : State) (bits : Word32) (len : Nat) (o : BusOutcome) : State :=
  match o.discovered bits len with
  | (.reply _, id, run) => s.found id run
  | (.garbled, _, _) => s.splitItem bits len
  | (.silence, _, _) => s.bringUpNext

/-- The final outcome of a rediscovery (R107). -/
def State.rediscoverOutcome (s : State) (ref : EntryRef) (o : BusOutcome) : State :=
  match o.discovered (s.idOf ref) 32 with
  | (.reply _, _, _) => s.restarted ref false
  | (.garbled, _, _) | (.silence, _, _) => s

/-- A restarted chain repeater in service again has a close claimed (R107, R110). -/
def State.closeAfterRestart (s : State) (ref : EntryRef) : State :=
  match s.chainOf ref with
  | some p => if (s.entry ref).any (·.locked) then s else s.claim1 (.segmentClose p)
  | none => s

/-- The final outcome of a re-assignment: on ACK the node has its address again, on NAK it stays as it was (R107). One
that ends without ACK adds no ID_CONFLICT to the position whose search found the node: R107 lists the strike alone
(DESIGN CHOICE, log 38). -/
def State.reassignOutcome (s : State) (ref : EntryRef) (byBringUp : Bool) (o : BusOutcome) : State :=
  let s := match o.answer with
    | .ack => (s.answeredThere ref).closeAfterRestart ref
    | .nak => s.clearStrikes ref
    | .failed => s.strike ref
  if byBringUp then s.bringUpNext else s

/-- The final outcome of a DESCRIBE (R104, R105). -/
def State.describeOutcome (s : State) (ref : EntryRef) (page : Nat) (o : BusOutcome) : State :=
  match o with
  | .reply payload => (s.answeredThere ref).takePage page payload
  | .garbled | .silence => (s.strike ref).failDescription ref

/-- The final outcome of a SEGMENT close (R110, R129). -/
def State.segmentOutcome (s : State) (p : Pos) (o : BusOutcome) : State :=
  match s.repeaterOf p with
  | none => s
  | some ref =>
    match o.answer with
    | .ack => (s.answeredThere ref).closeOutcome p true
    | .nak => (s.answeredThere ref).closeOutcome p false
    | .failed => (s.strike ref).closeOutcome p false

/-- The values of a completed READ, two bytes each in member order (Table 10-6). -/
def readValues : List Byte → List Word16
  | hi :: lo :: rest => word16 hi lo :: readValues rest
  | _ => []

/-- The final outcome of a READ (R111). -/
def State.readOutcome (s : State) (ref : EntryRef) (k : Nat) (owner : Option (LinkId × Byte)) (o : BusOutcome) : State :=
  match o with
  | .reply payload => (s.answeredThere ref).freshValue ref k (readValues payload)
  | .garbled | .silence => (s.strike ref).completeFor owner .noReply []

/-- The cache of a SETTING slot after an acknowledged WRITE (R112 (1), log 22). -/
def State.writeCache (s : State) (ref : EntryRef) (k : Nat) (v : Word16) : State :=
  match s.slot ref k with
  | none => s
  | some sl => if sl.access = .setting then s.freshValue ref k (List.replicate sl.cache.length v) else s

/-- The party that wanted a WRITE hears of its outcome (R112, R168). -/
def State.writeHeard (s : State) (owner : WriteOwner) (v : Word16) (a : Answer) : State :=
  match owner with
  | .deferred l tag =>
    match a with
    | .ack => s.completeFor (some (l, tag)) .done (Word16.bytes v)
    | .nak => s.completeFor (some (l, tag)) .nodeRefused (Word16.bytes v)
    | .failed => s.completeFor (some (l, tag)) .noReply []
  | .posted number => s.settlePosted number (a = .ack)

/-- The final outcome of a WRITE (R112); `heard` is off where the transaction was discarded by bus-off (R98). -/
def State.writeOutcome (s : State) (ref : EntryRef) (k : Nat) (v : Word16) (owner : WriteOwner) (heard : Bool)
    (o : BusOutcome) : State :=
  let s := match o.answer with
    | .ack => (s.answeredThere ref).writeCache ref k v
    | .nak => s.answeredThere ref
    | .failed => s.strike ref
  if heard then s.writeHeard owner v o.answer else s

/-- A repeater is polled: its poll timer runs. It stops at lock-out, and a release does not start it again (R108 (2),
R109). -/
def State.polled (s : State) (p : Pos) : Bool := (s.bus.polls.get (posIdx p)).isSome

/-- The final outcome of a POLL toward the strikes, and its report: present, absent, or none (R109). A repeater whose
polls a lock-out has stopped reports nothing more, the POLL in flight at the lock-out included (R122 (2)). -/
def State.pollStrikes (s : State) (p : Pos) (o : BusOutcome) : State × Option Bool :=
  match s.repeaterOf p, o with
  | none, _ => (s, none)
  | some ref, .reply payload =>
    (s.answeredThere ref, if s.polled p then some (hasBit (byteAt payload 0) 0) else none)
  | some ref, .garbled | some ref, .silence => (s.strike ref, none)

/-- The final outcome of any transaction but a POLL and the broadcasts, as the block that asked for it takes it. -/
def State.applyOutcome (s : State) (t : Txn) (heard : Bool) (o : BusOutcome) : State :=
  match t with
  | .search bits len => s.searchOutcome bits len o
  | .place p => s.placeOutcome p (o.answer = .ack)
  | .describe ref page => s.describeOutcome ref page o
  | .releaseGroup _ _ => s.releaseGroupOutcome (o.answer = .ack)
  | .releaseSingle i => s.releaseSingleOutcome i (o.answer = .ack)
  | .rediscover ref => s.rediscoverOutcome ref o
  | .reassign ref b => s.reassignOutcome ref b o
  | .segmentClose p => s.segmentOutcome p o
  | .read ref k owner => s.readOutcome ref k (if heard then owner else none) o
  | .write ref k v owner => s.writeOutcome ref k v owner heard o
  | .addressReset | .segmentOpen | .poll _ => s

end Sys2Proof.Machine
end

