-- ==== Sys2Proof/Machine/Coupling.lean ====
section
/-! DEFINITION. Coupling detection and teardown (sections 2.3, 6.1 to 6.7): the position-1 debounce, confirmations,
poll reports, teardown of positions, relearn abandonment, Map Rebuild, and the end of a bus transaction. -/

namespace Sys2Proof.Machine

/-! ## Position-1 debounce (R115, R116, R118) -/

/-- A debounce started from the beginning. -/
def State.startDebounce (s : State) (candidate : Profile) (length : Nat) : State :=
  { s with det := { s.det with debounce := some { candidate := candidate, length := length } } }

/-- The debounce idle. -/
def State.stopDebounce (s : State) : State := { s with det := { s.det with debounce := none } }

/-- A change of the effective code state handed to the Detector (R115, R116). -/
def State.codeChange (s : State) (e : Profile) : State :=
  let s := { s with det := { s.det with effective := e } }
  if s.live .p1 then
    if e = s.matrix.active then s.stopDebounce
    else if e = .none then s.startDebounce .none 500
    else s.startDebounce e 200
  else if e = .none then s.stopDebounce
  else s.startDebounce e 200

/-- Position-1 detection starts again from the effective code state as it stands (R118). -/
def State.restartDetection (s : State) : State := s.codeChange s.det.effective

/-! ## Relearn abandoned (R138) -/

/-- The shadows reset and the relearn flag cleared (R138). -/
def PosRec.dropShadow (r : PosRec) : PosRec := { r with shadow := Tbl.fill 10 {}, relearn := false }

/-- A relearn of a position is abandoned: its probe is dropped, its shadows reset, its flag cleared. -/
def State.abandonRelearn (s : State) : State :=
  match s.det.relearn with
  | none => s
  | some x =>
    let s := (s.dropProbe x.pos).modPos x.pos PosRec.dropShadow
    { s with det := { s.det with relearn := none } }

/-! ## Confirmations (R117, R120) -/

/-- A record enters POWERING with its coupled-seconds count at 0 (R3, R117, R120). -/
def PosRec.couple (r : PosRec) : PosRec := { r with state := .powering, coupledSeconds := 0, secondMs := 0 }

/-- A position enters POWERING and its bring-up begins (R117, R120). -/
def State.beginBringUp (s : State) (p : Pos) : State :=
  let s := s.modPos p PosRec.couple
  { s with det := { s.det with bringUp := some { pos := p } } }

/-- A channel connected by a new routing (R37 (1)). -/
def State.connectChan (s : State) (c : ChanId) : State :=
  if s.routed c then s.putChan c ((s.chan c).connect (s.wantsOn (s.chan c).demand)) else s

/-- The Matrix takes the active profile and connects its channels and data pair (R35, R37 (1)). -/
def State.connect (s : State) (p : Profile) : State :=
  allChans.foldl State.connectChan { s with matrix := { s.matrix with active := p } }

/-- Stages whose lines are unrouted are passed at once (R124): without CH9 no POWERING, without the data pair no
ENUMERATING. -/
def State.skipStages (s : State) (p : Pos) : State :=
  if s.routed 9 then s
  else if s.dataRouted then s.enterEnumerating p
  else s.enterMeasuring p

/-- The broadcasts of position 1's bring-up: ADDRESS_RESET is claimed as its first claim (R117 (6)). -/
def State.claimBroadcasts (s : State) : State :=
  if s.dataRouted then (s.modBringUp fun b => { b with broadcasts := 2 }).claim2 .addressReset else s

/-- Coupling of position 1 confirmed under a profile (R117). -/
def State.confirmFirst (s : State) (p : Profile) : State :=
  let s := (s.connect p).beginBringUp .p1
  let s := (s.setCoupling true).raiseAll .coupled
  s.claimBroadcasts.skipStages .p1

/-- Both counts of a watch set to 0 (R119 (4)). -/
def State.resetCounts (s : State) (p : Pos) : State :=
  s.setWatch p ((s.det.watches.get (posIdx p)).map fun w => { w with present := 0, absent := 0 })

/-- Coupling of the position behind `k` confirmed (R120). -/
def State.confirmBehind (s : State) (k q : Pos) : State :=
  (((s.abandonRelearn).beginBringUp q).raiseAll .coupled).resetCounts k

/-! ## Teardown of one position (R133, R88) -/

/-- The teardown of a position affects the verdict of a lamp channel (R88). -/
def State.affects (s : State) (p : Pos) (l : LampId) : Bool :=
  let v := s.load.verdicts.get l
  0 < ((s.pos p).contrib.get l).settled
    || hasBit v.suspects (posNumber p)
    || v.pending.any (fun c => hasBit c.suspects (posNumber p))
    || (s.pos p).refs.any fun ref => (s.entry ref).any fun e =>
        e.slots.any fun sl => sl.kind = .lampStatus && sl.inst = (lampChan l).val

/-- The lamp channels whose verdicts the teardown of a position affects (R88). -/
def State.affected (s : State) (p : Pos) : List LampId := allLamps.filter (s.affects p)

/-- The entry a transaction is sent to (R98). -/
def Txn.target (chain : Pos → Option EntryRef) : Txn → Option EntryRef
  | .describe ref _ => some ref
  | .rediscover ref => some ref
  | .reassign ref _ => some ref
  | .read ref _ _ => some ref
  | .write ref _ _ _ => some ref
  | .poll p => chain p
  | .segmentClose p => chain p
  | .addressReset | .segmentOpen | .search .. | .place _ | .releaseGroup .. | .releaseSingle _ => none

/-- A transaction belongs to a position: it is sent to an entry of it, or made by its bring-up (R98 (1)). -/
def State.txnOf (s : State) (p : Pos) (t : Txn) : Bool :=
  (t.byBringUp && s.det.bringUp.any fun b => b.pos = p)
    || (t.target s.repeaterOf).any fun ref => (s.pos p).refs.contains ref

/-- The transaction in flight marked discarded by teardown where it belongs to the position (R98, R133 (3)). -/
def State.discardFlight (s : State) (p : Pos) : State :=
  { s with bus := { s.bus with
      flight := s.bus.flight.map fun f => if s.txnOf p f.txn then { f with discard := .teardown } else f } }

/-- The bring-up of a position ends (R133 (1)). -/
def State.endBringUp (s : State) (p : Pos) : State :=
  if s.det.bringUp.any fun b => b.pos = p then
    { s with det := { s.det with bringUp := none }, bus := { s.bus with stack := [] } }
  else s

/-- A relearn of a position abandoned by its teardown (R133 (1), R138). -/
def State.endRelearn (s : State) (p : Pos) : State :=
  if s.det.relearn.any fun x => x.pos = p then s.abandonRelearn else s

/-- Every entry on a position's lists becomes stale (R10 (4), R133 (5)). -/
def State.staleEntries (s : State) (p : Pos) : State :=
  (s.pos p).refs.foldl (fun s ref => s.modEntry ref fun e => { e with live := false }) s

/-- A number is bound to a slot of an entry on a position's lists. -/
def State.boundAt (s : State) (p : Pos) (number : Nat) : Bool :=
  (s.binding number).any fun b => (s.pos p).refs.contains b.1

/-- The record as it returns to ABSENT: every field at its ABSENT value but the coupled-seconds count (R1, R3). -/
def PosRec.torn (r : PosRec) : PosRec := { coupledSeconds := r.coupledSeconds }

/-- One position torn down (R133). -/
def State.tearDown (s : State) (p : Pos) : State :=
  let wasReady := s.ready p
  let affected := s.affected p
  let s := s.discardFlight p
  let s := (s.withdraw (s.txnOf p)).endBringUp p
  let s := (s.endRelearn p).dropProbe p
  let s := (s.setPoll p none).setWatch p none
  let s := s.staleEntries p
  let s := s.completeWhere (fun d => s.boundAt p d.number) .gone
  let s := s.removePosted fun x => s.boundAt p x.number
  let s := s.modPos p PosRec.torn
  if wasReady then s.formExpected.resetVerdicts affected else s

/-! ## End of a teardown (R134, R55, R38) -/

/-- Every channel acted on by one function of the channel. -/
def State.eachChan (s : State) (f : Channel → Channel) : State :=
  allChans.foldl (fun s c => s.putChan c (f (s.chan c))) s

/-- The Matrix opens every contact: every channel unrouted, the active profile NONE, and a transaction in flight ended
at once, its outcome discarded (R35, R37 (2), R38, R40). -/
def State.disconnect (s : State) : State :=
  let s := { s with matrix := { s.matrix with active := .none }, bus := { s.bus with flight := none } }
  s.eachChan Channel.disconnect

/-- The end of a teardown from position 1 (R134 (1), R55, R130, R118). -/
def State.endFirst (s : State) : State :=
  (((s.eachChan Channel.release).setCoupling false).disconnect).restartDetection

/-- The positions a teardown from a position takes, highest first (R132). -/
def tornFrom : Pos → List Pos
  | .p1 => [.p3, .p2, .p1]
  | .p2 => [.p3, .p2]
  | .p3 => [.p3]

/-- A teardown from a position, with the acts at its end (R132 to R134). -/
def State.teardown (s : State) (k : Pos) : State :=
  let s := ((tornFrom k).filter fun p => s.live p).foldl State.tearDown s
  let s := match posFront k with
    | none => s.endFirst
    | some front => s.resetCounts front
  s.raiseAll .uncoupled

/-! ## Poll reports (R119 to R121) -/

/-- A report from the repeater of a position with a live position behind it (Table 6-2, R120). -/
def State.reportLive (s : State) (p q : Pos) (w : Watch) (present : Bool) : State :=
  if present then s.setWatch p (some { w with absent := 0 })
  else
    let s := s.setWatch p (some { w with absent := w.absent + 1 })
    if w.absent + 1 = 5 then s.teardown q else s

/-- A report from the repeater of a position with an ABSENT position behind it (Table 6-2, R120). -/
def State.reportAbsent (s : State) (p q : Pos) (w : Watch) (present : Bool) : State :=
  if present then
    let n := if w.closed then w.present + 1 else 0
    let s := s.setWatch p (some { w with present := n, absent := 0 })
    if n = 2 then s.confirmBehind p q else s
  else s.setWatch p (some { w with present := 0 })

/-- A report from the repeater of position 3 (R121). -/
def State.reportLast (s : State) (w : Watch) (present : Bool) : State :=
  if present then
    let n := min 2 (w.present + 1)
    if n = 2 ∧ w.held = false then
      (s.setWatch .p3 (some { w with present := 0, absent := 0, held := true })).raiseAll .chainLimit
    else s.setWatch .p3 (some { w with present := n, absent := 0 })
  else
    let n := min 5 (w.absent + 1)
    if n = 5 ∧ w.held then s.setWatch .p3 (some { w with present := 0, absent := 0, held := false })
    else s.setWatch .p3 (some { w with present := 0, absent := n })

/-- A poll report taken by the Detector (R119, R120, R121). -/
def State.pollReport (s : State) (p : Pos) (present : Bool) : State :=
  match s.det.watches.get (posIdx p) with
  | none => s
  | some w =>
    match posBehind p with
    | none => s.reportLast w present
    | some q => if s.live q then s.reportLive p q w present else s.reportAbsent p q w present

/-! ## The end of a transaction (R94, R98) -/

/-- A POLL's final outcome: the strikes at once, then the report. The arbiter may look at the idle bus before the
Detector takes the report (section 11.3, log 12). -/
def State.pollOutcome (s : State) (p : Pos) (o : BusOutcome) (arbiterFirst : Bool) : State :=
  let (s, report) := s.pollStrikes p o
  let s := if arbiterFirst then s.grantIfIdle else s
  match report with
  | some present => s.pollReport p present
  | none => s

/-- The final outcome of the transaction in flight (R94, R98). -/
def State.endFlight (s : State) (f : InFlight) (o : BusOutcome) (arbiterFirst : Bool) : State :=
  let s := { s with bus := { s.bus with flight := none } }
  if f.discard = .teardown then s
  else
    match f.txn with
    | .poll p => s.pollOutcome p o arbiterFirst
    | t => s.applyOutcome t (f.discard = .kept) o

/-- A failed sending: the first is repeated at once, the second is final (R94). -/
def State.failSending (s : State) (f : InFlight) (o : BusOutcome) : State :=
  if f.repeated then s.endFlight f o false
  else { s with bus := { s.bus with flight := some { f with repeated := true, waited := 0, members := [] } } }

/-! ## Map Rebuild (R31, R139) -/

/-- A stale entry without pins becomes invalid (R31 (1)). -/
def pruned (e : Option Entry) : Option Entry := e.filter fun e => e.live || e.pins ≠ 0

/-- Every unpinned stale entry made invalid; its numbers go with it (R31). -/
def State.prune (s : State) : State :=
  { s with map := { s.map with singles := s.map.singles.map pruned, groups := s.map.groups.map pruned } }

/-- A Map Rebuild (R139 (1) to (3)). -/
def State.rebuild (s : State) : State :=
  let s := if s.live .p1 then s.teardown .p1 else s
  s.prune.restartDetection

end Sys2Proof.Machine
end

