-- ==== Sys2Proof/Machine/Requests.lean ====
section
/-! DEFINITION. Arrival, taking and answering of requests (sections 9.2 to 9.5), and the requests about channels,
lighting, the Map and the links (chapters 3, 6, 7, 9). The requests about numbered functions are in
Machine/Functions.lean. -/

namespace Sys2Proof.Machine

/-! ## Arrival (R181) -/

/-- The silence timer restarts, which also ends any silence (R181, R188). -/
def Mlu.heard (m : Mlu) : Mlu := { m with silenceTimer := 0, silent := false }

/-- A request frame handled at its arrival (R181). -/
def State.arrive (s : State) (l : LinkId) (m : Mlu) (data : List Byte) : State :=
  let s := s.setLink l m.heard
  match data with
  | kind :: tag :: _ =>
    if m.queue.length < 4 then s.setLink l { m.heard with queue := m.queue ++ [data] }
    else if 1 ≤ s.freeRoom l m.heard then s.reply l kind tag .busy []
    else s
  | _ => s

/-- REQUEST_ARRIVAL (R179, R181): a disabled link and a port in bus-off receive nothing (R177, R180), and a frame with
another identifier, an extended one or a remote frame is ignored; a data frame holds at most eight bytes. -/
def execRequestArrival (l : LinkId) (f : CanFrame) (s : State) : Result :=
  match s.link l with
  | none => .next s
  | some m => if m.busOff || !isRequest f then .next s else .next (s.arrive l m (f.data.take 8))

/-! ## Taking the head (R186, R187) -/

/-- The head of a queue leaves it. -/
def State.unqueue (s : State) (l : LinkId) : State := s.modLink l fun m => { m with queue := m.queue.drop 1 }

/-- The request names a number that a Deferred List entry of its own link holds (R186 (1)). -/
def State.interlocked (s : State) (l : LinkId) (r : Request) : Bool :=
  match requestNumber r with
  | some n => s.dec.deferred.any fun d => d.link = l && d.number = n
  | none => false

/-- A head request that can be taken: the link's role, the tag and the request (R186). -/
structure Taken where
  role : LinkRole
  tag : Byte
  req : Request
  deriving DecidableEq, Repr

/-- The head request of a link's queue, if it is well formed, of a kind, and can be taken now (R186, R195). -/
def State.take (s : State) (l : LinkId) (k : ReqKind) : Option Taken :=
  match s.link l with
  | none => none
  | some m =>
    match m.queue with
    | [] => none
    | f :: _ =>
      match parseRequest f with
      | none => none
      | some r =>
        if reqKind r = k ∧ s.interlocked l r = false ∧ k.room ≤ s.freeRoom l m then some ⟨m.role, byteAt f 1, r⟩
        else none

/-- Rights by request kind (R187 (2), Table 9-4). -/
def roleMay (r : LinkRole) (k : ReqKind) : Bool :=
  match k with
  | .lightingSet | .channelStatus | .functionRead | .functionWrite | .watch | .directoryQuery | .positionRead | .pin
  | .eventExchange | .interestSet => true
  | .channelClear | .tripRecordRead => match r with | .brake => false | .body | .service | .bench => true
  | .nodeRead | .quarantine | .relearn | .mapRebuild | .profileForce | .freshnessSet =>
    match r with | .service | .bench => true | .body | .brake => false
  | .workshopGrant => match r with | .body | .bench => true | .brake | .service => false

/-- The answer to a request that its role may not send (R187 (2)). -/
def State.refuseRights (s : State) (l : LinkId) (k : ReqKind) (t : Taken) : State :=
  (s.unqueue l).reply l (byteOf k.code) t.tag .rights []

/-- A head of a kind is taken: nothing while none can be taken; RIGHTS where its role may not send it; otherwise `act`
is carried out on the state without it (R186, R187). -/
def State.serve (s : State) (l : LinkId) (k : ReqKind) (act : Taken → State → State) : State :=
  match s.take l k with
  | none => s
  | some t => if roleMay t.role k then act t (s.unqueue l) else s.refuseRights l k t

/-- The reply of a kind (R184, R194). -/
def State.answer (s : State) (l : LinkId) (k : ReqKind) (tag : Byte) (st : Status) (content : List Byte) : State :=
  s.reply l (byteOf k.code) tag st content

/-- MALFORMED_REQUEST (R195): a head that fails the form step is answered with bytes 0 and 1 as received. -/
def State.serveMalformed (s : State) (l : LinkId) : State :=
  match s.link l with
  | none => s
  | some m =>
    match m.queue with
    | [] => s
    | f :: _ =>
      if parseRequest f = none ∧ 1 ≤ s.freeRoom l m then (s.unqueue l).reply l (byteAt f 0) (byteAt f 1) .malformed []
      else s

/-- MALFORMED_REQUEST (R195). -/
def execMalformedRequest (l : LinkId) (s : State) : Result := .next (s.finish (s.serveMalformed l))

/-! ## LIGHTING_SET (R145, R146) -/

/-- The channels a fixed function acts on (Table 7-1). -/
def functionChans (n : Nat) : List ChanId :=
  match n with
  | 12 => [0, 1]
  | 13 => [2]
  | 14 => [3, 4, 5]
  | n => allChans.filter fun c => c.val = n

/-- A fixed function acts on an unrouted channel (R146). -/
def State.darkFunction (s : State) (n : Nat) : Bool := (functionChans n).any fun c => !s.routed c

/-- The dark set of a named set (R146). -/
def State.darkSet (s : State) (named : FunctionSet) : FunctionSet :=
  (List.range 15).foldl (fun d n => if hasBit named n && s.darkFunction n then addBit d n else d) 0

/-- The two bytes of a function set. -/
def functionBytes (f : FunctionSet) : List Byte := Word16.bytes (f.setWidth 16)

/-- A LIGHTING_SET carried out (R145 (3), R146). -/
def State.lightingCarried (s : State) (l : LinkId) (t : Taken) (named asked : FunctionSet) : State :=
  let r := t.role.role
  let s := s.setRecord r ((s.light.record r &&& ~~~ named) ||| (named &&& asked))
  let dark := s.darkSet named
  s.answer l .lightingSet t.tag (if dark = 0 then .ok else .dark)
    (functionBytes (s.light.record r) ++ functionBytes s.effective ++ functionBytes dark)

/-- LIGHTING_SET (R145): number 15 first, then rights, then whole or not at all. -/
def State.lightingSet (s : State) (l : LinkId) (t : Taken) (named asked : Word16) : State :=
  let names := named.setWidth 15
  let outside := names &&& ~~~ lightingRights t.role s.light.grant
  if hasBit named 15 then s.answer l .lightingSet t.tag .noFunction []
  else if outside ≠ 0 then s.answer l .lightingSet t.tag .rights (functionBytes outside)
  else s.lightingCarried l t names (asked.setWidth 15)

/-- LIGHTING_SET (R145). -/
def execLightingSet (l : LinkId) (s : State) : Result :=
  .next (s.settle (s.serve l .lightingSet fun t s =>
    match t.req with
    | .lightingSet named asked => s.lightingSet l t named asked
    | _ => s))

/-! ## CHANNEL_STATUS (R68, R90) -/

/-- The channel a request names, 0 to 11 (R141). -/
def chanOf (b : Byte) : Option ChanId := if h : b.toNat < 12 then some ⟨b.toNat, h⟩ else none

/-- The rate in force of the turn flasher: that of its running phase, else the rate decided (R47, R154, log 23). -/
def State.rateFast (s : State) : Bool := if s.bank.turn.running then s.bank.turn.fast else s.light.fast

/-- The flasher of a channel is in an on-phase; the channels without a flasher report 0 (log 23). -/
def State.chanOnPhase (s : State) (c : ChanId) : Bool :=
  if c.val ≤ 1 then s.bank.turn.onPhase else if c.val = 2 then s.bank.emergency.onPhase else false

/-- The flags byte of CHANNEL_STATUS (Table 10-2). -/
def State.chanFlags (s : State) (c : ChanId) : Nat :=
  let ch := s.chan c
  bit (s.routed c) + 2 * bit ch.derated + 4 * bit ch.backfeed + 8 * bit s.bank.supplyInside + 16 * bit s.rateFast
    + 32 * bit (s.chanOnPhase c)

/-- The probe condition of a channel and the ms left of the limit (R68 (9)). Without a probe request the ms left are sent
as 0, which no rule gives (DESIGN CHOICE, log 31). -/
def State.probeCondition (s : State) (c : ChanId) : Nat × Nat :=
  match s.bank.probe with
  | none => (0, 0)
  | some q =>
    if lampChan q.lamp = c then
      ((match q.phase with | .postponed => 1 | .attempt => 2 | .settledOnly => 3), Config.probeLimit - q.elapsed)
    else (0, 0)

/-- A temperature in a frame (Table 10-2). -/
def temperatureByte (deg : Int) : Byte := byteOf (deg + 40).toNat

/-- The channel part of CHANNEL_STATUS (R68). -/
def State.chanPart (s : State) (c : ChanId) : List Byte :=
  let ch := s.chan c
  [byteOf c.val, byteOf (s.chanFlags c), byteOf ch.state.code, byteOf ch.demand.code,
    (if ch.state = .drive then byteOf ch.driveMode.code else 0xFF), byteOf ch.streakCount, temperatureByte ch.temperature]
    ++ bytes2 s.bank.supply ++ [byteOf (s.probeCondition c).1] ++ bytes2 (s.probeCondition c).2

/-- A suspect set as a byte (R193). -/
def suspectByte (x : SuspectSet) : Byte := x.setWidth 8

/-- The verdict part of CHANNEL_STATUS (R90 (1), (2)). Without a pending candidate its kind is sent as 0xFF (Table 10-2,
Note 3) and its suspect set as 0, which no rule gives (DESIGN CHOICE, log 31). -/
def State.verdictPart (s : State) (l : LampId) : List Byte :=
  let v := s.load.verdicts.get l
  let e := s.load.expected.get l
  [byteOf v.kind.code, suspectByte v.suspects, byteOf v.attribution] ++ bytes3 v.deviation
    ++ [(v.pending.map fun c => byteOf c.kind.code).getD 0xFF, (v.pending.map fun c => suspectByte c.suspects).getD 0,
      byteOf v.agreement]
    ++ bytes2 v.lastM ++ bytes2 v.lastPeak ++ bytes3 e ++ bytes2 (tolerance e)

/-- The part of one position in CHANNEL_STATUS (R90 (3)). -/
def State.sharePart (s : State) (l : LampId) (p : Pos) : List Byte :=
  let c := (s.pos p).contrib.get l
  byteOf (128 * bit (s.ready p) + 8 * bit c.clamped + c.cls.code) :: (bytes2 c.settled ++ bytes2 c.peak)

/-- The content of a CHANNEL_STATUS reply: for a supply channel 0xFF as verdict kind and 0 from there on (Table 10-2,
Note 3). Its pending kind is 0 too: the note's sentence on the verdict fields is taken before its sentence on the pending
kind without a candidate (DESIGN CHOICE, log 37). -/
def State.statusContent (s : State) (c : ChanId) : List Byte :=
  s.chanPart c ++
    match chanLamp c with
    | some l => s.verdictPart l ++ allPos.flatMap (s.sharePart l)
    | none => 0xFF :: List.replicate 32 0

/-- CHANNEL_STATUS (R68, R141). -/
def State.channelStatus (s : State) (l : LinkId) (tag : Byte) (b : Byte) : State :=
  match chanOf b with
  | none => s.answer l .channelStatus tag .noFunction []
  | some c => s.answer l .channelStatus tag .ok (s.statusContent c)

/-- CHANNEL_STATUS (R68). -/
def execChannelStatus (l : LinkId) (s : State) : Result :=
  .next (s.finish (s.serve l .channelStatus fun t s =>
    match t.req with
    | .channelStatus b => s.channelStatus l t.tag b
    | _ => s))

/-! ## CHANNEL_CLEAR (R54) -/

/-- A LATCHED channel released; then a request postponed on it is tested again (R54 (2), R64). -/
def State.clearChan (s : State) (c : ChanId) : State :=
  let ch := s.chan c
  if ch.state = .latched then
    (s.putChan c (ch.clear (s.routed c) (s.wantsOn ch.demand))).testProbe
  else s

/-- CHANNEL_CLEAR (R54, R141): state and streak count as they stand after the request. -/
def State.channelClear (s : State) (l : LinkId) (tag : Byte) (b : Byte) : State :=
  match chanOf b with
  | none => s.answer l .channelClear tag .noFunction []
  | some c =>
    let s := s.clearChan c
    s.answer l .channelClear tag .ok [byteOf (s.chan c).state.code, byteOf (s.chan c).streakCount]

/-- CHANNEL_CLEAR (R54). -/
def execChannelClear (l : LinkId) (s : State) : Result :=
  .next (s.finish (s.serve l .channelClear fun t s =>
    match t.req with
    | .channelClear b => s.channelClear l t.tag b
    | _ => s))

/-! ## TRIP_RECORD_READ (R56) -/

/-- The content of a trip record (Table 10-2). An empty record is sent as record-present 0 and nine bytes 0, which no rule
gives (DESIGN CHOICE, log 31). -/
def tripContent (r : Option TripRecord) : List Byte :=
  match r with
  | none => List.replicate 10 0
  | some r =>
    [1] ++ bytes2 r.peak ++ bytes2 r.mean ++ bytes2 r.supply
      ++ [temperatureByte r.temperature, byteOf r.mode.code, byteOf r.count]

/-- TRIP_RECORD_READ (R56, R141): the clear option is SERVICE's, and its rights come before the number. -/
def State.tripRecordRead (s : State) (l : LinkId) (t : Taken) (b : Byte) (clear : Bool) : State :=
  if clear ∧ t.role = .body then s.answer l .tripRecordRead t.tag .rights []
  else
    match chanOf b with
    | none => s.answer l .tripRecordRead t.tag .noFunction []
    | some c =>
      let ch := s.chan c
      let s := if clear then s.putChan c { ch with trip := none } else s
      s.answer l .tripRecordRead t.tag .ok (tripContent ch.trip)

/-- TRIP_RECORD_READ (R56). -/
def execTripRecordRead (l : LinkId) (s : State) : Result :=
  .next (s.finish (s.serve l .tripRecordRead fun t s =>
    match t.req with
    | .tripRecordRead b clear => s.tripRecordRead l t b clear
    | _ => s))

/-! ## POSITION_READ (R1, Table 10-2) -/

/-- A list of indices as a number with bit n for index n. -/
def indexBits {n : Nat} (xs : List (Fin n)) : Nat := xs.foldl (fun a i => a ||| 2 ^ i.val) 0

/-- Class and clamped flag of a contribution in four bits (Table 10-2). -/
def Contribution.nibble (c : Contribution) : Nat := c.cls.code + 8 * bit c.clamped

/-- Two lamp channels to a byte, the lower one in the low half. -/
def classBytes (t : Tbl Contribution 10) : List Byte :=
  ([(0, 1), (2, 3), (4, 5), (6, 7), (8, 9)] : List (LampId × LampId)).map fun (a, b) =>
    byteOf ((t.get a).nibble + 16 * (t.get b).nibble)

/-- The content of a POSITION_READ reply (Table 10-2). An ident that is absent or shorter than 17 characters is filled
with 0 at its end, which no rule gives (DESIGN CHOICE, log 31). -/
def State.positionContent (s : State) (p : Pos) : List Byte :=
  let r := s.pos p
  [byteOf r.state.code, byteOf (s.matrix.active.code + 4 * bit r.relearn + 8 * bit s.suspended), r.reasons.setWidth 8]
    ++ bytes2 r.coupledSeconds
    ++ [(r.repeater.map fun i => byteOf i.val).getD 0xFF, byteOf ((r.ident.map List.length).getD 0)]
    ++ padTo 17 (r.ident.getD [])
    ++ bytes2 (indexBits r.singles / 2 ^ 32) ++ bytes4 (indexBits r.singles)
    ++ [byteOf (indexBits r.groups)]
    ++ allLamps.flatMap (fun l => bytes2 (r.contrib.get l).settled)
    ++ allLamps.flatMap (fun l => bytes2 (r.contrib.get l).peak)
    ++ classBytes r.contrib

/-- POSITION_READ (R1). -/
def execPositionRead (l : LinkId) (s : State) : Result :=
  .next (s.finish (s.serve l .positionRead fun t s =>
    match t.req with
    | .positionRead p => s.answer l .positionRead t.tag .ok (s.positionContent p)
    | _ => s))

/-! ## NODE_READ (R9, R19) -/

/-- One slot in a NODE_READ reply (Table 10-2). -/
def slotContent (sl : Slot) : List Byte :=
  [byteOf (funCode sl.kind), byteOf sl.inst, byteOf (16 * sl.access.code + sl.unit.code)] ++ Word16.bytes sl.rangeMin
    ++ Word16.bytes sl.rangeMax ++ [byteOf (sl.number.getD 0), byteOf sl.quality.code] ++ bytes2 sl.window
    ++ [byteOf (sl.watch.toNat + 16 * sl.changed.toNat)] ++ bytes2 sl.delta

/-- The content of a NODE_READ reply: for an invalid entry the flags byte alone (Table 10-2, Note 1). -/
def nodeContent (ref : EntryRef) (e : Option Entry) : List Byte :=
  match e with
  | none => [0]
  | some e =>
    let countOrRun := match ref with | .single _ => e.slots.length | .group _ => e.run
    [byteOf (1 + 2 * bit e.live + 4 * bit e.locked + 8 * bit e.used)] ++ Word32.bytes e.nodeId
      ++ [byteOf e.addr, byteOf (posNumber e.pos), byteOf e.kind.code, byteOf countOrRun, e.pins.setWidth 8,
        byteOf e.strikes, byteOf e.restarts]
      ++ e.slots.flatMap slotContent

/-- NODE_READ (R9). -/
def execNodeRead (l : LinkId) (s : State) : Result :=
  .next (s.finish (s.serve l .nodeRead fun t s =>
    match t.req with
    | .nodeRead ref => s.answer l .nodeRead t.tag .ok (nodeContent ref (s.entry ref))
    | _ => s))

/-! ## RELEARN (R136) -/

/-- A relearn begins (R8, R136 (5)): the first lamp channel is taken at once (R137). -/
def State.startRelearn (s : State) (p : Pos) : State :=
  let s := s.modPos p fun r => { r with shadow := Tbl.fill 10 {}, relearn := true }
  ({ s with det := { s.det with relearn := some { pos := p } } }).measure p allLamps

/-- RELEARN (R136), its role's right given. -/
def State.relearn (s : State) (l : LinkId) (tag : Byte) (b : Byte) : State :=
  match posOfNumber b.toNat with
  | none => s.answer l .relearn tag .malformed []
  | some p =>
    if s.live p = false then s.answer l .relearn tag .gone []
    else if s.suspended then s.answer l .relearn tag .retry []
    else (s.startRelearn p).answer l .relearn tag .ok []

/-- RELEARN (R136). -/
def execRelearn (l : LinkId) (s : State) : Result :=
  .next (s.finish (s.serve l .relearn fun t s =>
    match t.req with
    | .relearn b => s.relearn l t.tag b
    | _ => s))

/-! ## MAP_REBUILD (R139) -/

/-- MAP_REBUILD (R139). -/
def execMapRebuild (l : LinkId) (s : State) : Result :=
  .next (s.settle (s.serve l .mapRebuild fun t s =>
    match t.req with
    | .mapRebuild => s.rebuild.answer l .mapRebuild t.tag .ok []
    | _ => s))

/-! ## PROFILE_FORCE (R41, R42) -/

/-- A changed effective code state made by PROFILE_FORCE (R42): with position 1 live and a profile other than the active
one, every position is torn down at once; otherwise it is handed on like a code change. -/
def State.forcedChange (s : State) (e : Profile) : State :=
  if s.live .p1 ∧ e ≠ s.matrix.active ∧ e ≠ .none then
    ({ s with det := { s.det with effective := e } }).teardown .p1
  else s.codeChange e

/-- The forced setting takes a value, and the effective code state is formed again (R41 (3)). -/
def State.force (s : State) (f : Forced) : State :=
  let s := { s with matrix := { s.matrix with forced := f } }
  let e := effectiveOf f s.matrix.kaGrounded s.matrix.kbGrounded
  if e = s.det.effective then s else s.forcedChange e

/-- The content of a PROFILE_FORCE reply (Table 10-2). -/
def State.profileContent (s : State) : List Byte :=
  let m := s.matrix
  [byteOf m.forced.code, byteOf (bit m.kaGrounded + 2 * bit m.kbGrounded),
    byteOf (decodeProfile m.kaGrounded m.kbGrounded).code, byteOf m.active.code]

/-- PROFILE_FORCE (R41), its role's right given. -/
def State.profileForce (s : State) (l : LinkId) (tag : Byte) (b : Byte) : State :=
  match Forced.ofCode b with
  | none => s.answer l .profileForce tag .malformed []
  | some f => let s := s.force f; s.answer l .profileForce tag .ok s.profileContent

/-- PROFILE_FORCE (R41). -/
def execProfileForce (l : LinkId) (s : State) : Result :=
  .next (s.settle (s.serve l .profileForce fun t s =>
    match t.req with
    | .profileForce b => s.profileForce l t.tag b
    | _ => s))

/-! ## WORKSHOP_GRANT (R147) -/

/-- The grant turned on or off; off clears the SERVICE record (R147). -/
def State.setGrant (s : State) (on : Bool) : State :=
  if on then { s with light := { s.light with grant := true } }
  else ({ s with light := { s.light with grant := false } }).setRecord .service 0

/-- WORKSHOP_GRANT (R147). -/
def execWorkshopGrant (l : LinkId) (s : State) : Result :=
  .next (s.settle (s.serve l .workshopGrant fun t s =>
    match t.req with
    | .workshopGrant on => let s := s.setGrant on; s.answer l .workshopGrant t.tag .ok [byteOf (bit s.light.grant)]
    | _ => s))

/-! ## EVENT_EXCHANGE and INTEREST_SET (R191, R192) -/

/-- The role of a link in EVENT_EXCHANGE (Table 10-2). -/
def LinkRole.code : LinkRole → Nat
  | .body => 0 | .brake => 1 | .service => 2 | .bench => 3

/-- The content of an EVENT_EXCHANGE reply: the sets as the request is taken (R191). -/
def Mlu.exchangeContent (m : Mlu) : List Byte :=
  Word16.bytes m.pending ++ Word16.bytes m.interest ++ [byteOf m.role.code]

/-- EVENT_EXCHANGE (R191). -/
def State.eventExchange (s : State) (l : LinkId) (tag : Byte) (clear : EventSet) : State :=
  match s.link l with
  | none => s
  | some m =>
    (s.setLink l { m with pending := m.pending &&& ~~~ clear }).answer l .eventExchange tag .ok m.exchangeContent

/-- EVENT_EXCHANGE (R191). -/
def execEventExchange (l : LinkId) (s : State) : Result :=
  .next (s.finish (s.serve l .eventExchange fun t s =>
    match t.req with
    | .eventExchange clear => s.eventExchange l t.tag clear
    | _ => s))

/-- INTEREST_SET (R192). -/
def State.interestSet (s : State) (l : LinkId) (tag : Byte) (interest : EventSet) : State :=
  match s.link l with
  | none => s
  | some m =>
    (s.setLink l { m with interest := interest, pending := m.pending &&& interest }).answer l .interestSet tag .ok
      (Word16.bytes interest ++ Word16.bytes (m.pending &&& interest))

/-- INTEREST_SET (R192). -/
def execInterestSet (l : LinkId) (s : State) : Result :=
  .next (s.finish (s.serve l .interestSet fun t s =>
    match t.req with
    | .interestSet interest => s.interestSet l t.tag interest
    | _ => s))

end Sys2Proof.Machine
end

