-- ==== Sys2Proof/Machine/Functions.lean ====
section
/-! DEFINITION. The requests about numbered functions (chapter 8): decoding (R29, R160), reading, writing, watching, the
directory query, pins, quarantine and freshness. -/

namespace Sys2Proof.Machine

/-! ## Decoding (R29, R160, Table 1-9) -/

/-- What a variable number leads to. -/
structure Found where
  ref : EntryRef
  place : Nat
  entry : Entry
  slot : Slot
  deriving DecidableEq, Repr

/-- The slot a number of 16 to 127 is bound to (R26, R29). -/
def State.lookup (s : State) (b : Byte) : Option Found :=
  if b.toNat < 16 ∨ 127 < b.toNat then none
  else
    (s.binding b.toNat).bind fun (ref, k) =>
      match s.entry ref, s.slot ref k with
      | some e, some sl => some ⟨ref, k, e, sl⟩
      | _, _ => none

/-- The used mark of the entry a request names (R14, R160 (4)). -/
def State.markUsed (s : State) (ref : EntryRef) : State := s.modEntry ref fun e => { e with used := true }

/-- The answer of Table 1-9 that ends the handling: GONE or RETRY; none where the request is served. -/
def State.decodeAnswer (s : State) (e : Entry) : Option Status :=
  if e.live = false then some .gone else if s.ready e.pos then none else some .retry

/-- A request on a bound number: used mark, then GONE or RETRY, else `act` is carried out (R160 (4) to (6)). -/
def State.onServed (s : State) (l : LinkId) (k : ReqKind) (tag : Byte) (f : Found) (act : State → State) : State :=
  let s := s.markUsed f.ref
  match s.decodeAnswer f.entry with
  | some st => s.answer l k tag st []
  | none => act s

/-! ## FUNCTION_READ (R161, R162) -/

/-- The content of an OK answer to FUNCTION_READ (Table 10-2). -/
def readContent (sl : Slot) (q : Quality) : List Byte :=
  [byteOf q.code, byteOf sl.unit.code] ++ bytes2 sl.age ++ valueContent sl.cache

/-- A FUNCTION_READ answered from the cache (R161 (1), (2), R171 (1)). -/
def State.readCached (s : State) (l : LinkId) (t : Taken) (f : Found) (q : Quality) : State :=
  (s.dropChanged f.ref f.place (some t.role.role)).answer l .functionRead t.tag .ok (readContent f.slot q)

/-- The frames reserved for the completion of a deferred read (R185, Table 10-2, Note 2). -/
def readReserve (sl : Slot) : Nat := frameCount (1 + 2 * sl.cache.length)

/-- The Deferred List refuses an entry: its tag is in use, or the list or the link's quota is full (R182 (1), (2)). -/
def State.admission (s : State) (l : LinkId) (tag : Byte) : Option Status :=
  if (s.findDeferred l tag).isSome then some .tagInUse
  else if 8 ≤ s.dec.deferred.length ∨ 4 ≤ (s.dec.deferred.filter fun d => d.link = l).length then some .busy
  else none

/-- A request becomes a Deferred List entry and is answered DEFERRED, or is refused (R182). -/
def State.enlist (s : State) (l : LinkId) (k : ReqKind) (d : Deferred) (content : List Byte) : State :=
  match s.admission l d.tag with
  | some st => s.answer l k d.tag st []
  | none =>
    ({ s with dec := { s.dec with deferred := s.dec.deferred ++ [d] } }).answer l k d.tag .deferred content

/-- A served FUNCTION_READ (R161): a locked-out entry answers FAILED, a GOOD slot its cache, any other is deferred. -/
def State.readServed (s : State) (l : LinkId) (t : Taken) (n : Nat) (f : Found) : State :=
  if f.entry.locked then s.readCached l t f .failed
  else if f.slot.quality = .good then s.readCached l t f .good
  else
    s.enlist l .functionRead { link := l, tag := t.tag, number := n, value := none, reserved := readReserve f.slot } []

/-- FUNCTION_READ (R160, R161). -/
def State.functionRead (s : State) (l : LinkId) (t : Taken) (b : Byte) : State :=
  match s.lookup b with
  | none => s.answer l .functionRead t.tag .noFunction []
  | some f => s.onServed l .functionRead t.tag f fun s => s.readServed l t b.toNat f

/-- FUNCTION_READ (R161). -/
def execFunctionRead (l : LinkId) (s : State) : Result :=
  .next (s.settle (s.serve l .functionRead fun t s =>
    match t.req with
    | .functionRead b => s.functionRead l t b
    | _ => s))

/-! ## FUNCTION_WRITE (R164 to R167) -/

/-- A value clamped to a slot's range (R164). -/
def clampValue (sl : Slot) (v : Word16) : Word16 :=
  if v.toInt < sl.rangeMin.toInt then sl.rangeMin else if sl.rangeMax.toInt < v.toInt then sl.rangeMax else v

/-- Rights over writing a slot (Table 8-1). -/
def mayWrite (r : LinkRole) (sl : Slot) : Bool :=
  match sl.access with
  | .sensor => false
  | .actuator =>
    if sl.kind = .liftAxle then (match r with | .brake => true | .body | .service | .bench => false)
    else match r with | .brake => false | .body | .service | .bench => true
  | .setting => match r with | .brake => false | .body | .service | .bench => true

/-- A setting write posted (R167). -/
def State.post (s : State) (l : LinkId) (t : Taken) (n : Nat) (v : Word16) : State :=
  let accept := fun (s : State) => s.answer l .functionWrite t.tag .accepted (Word16.bytes v)
  if s.dec.posted.any fun p => p.number = n then
    accept (s.modPosted n fun p => { p with value := v, poster := t.role.role, replaced := p.carried.isSome })
  else if s.dec.posted.length < 8 then
    accept { s with dec := { s.dec with posted := s.dec.posted ++ [{ number := n, value := v, poster := t.role.role }] } }
  else s.answer l .functionWrite t.tag .busy []

/-- A served FUNCTION_WRITE (R164): GONE for a locked-out entry, deferred for an actuator, posted for a setting. -/
def State.writeServed (s : State) (l : LinkId) (t : Taken) (n : Nat) (f : Found) (v : Word16) : State :=
  if f.entry.locked then s.answer l .functionWrite t.tag .gone []
  else
    let v := clampValue f.slot v
    match f.slot.access with
    | .actuator =>
      s.enlist l .functionWrite { link := l, tag := t.tag, number := n, value := some v, reserved := 1 } (Word16.bytes v)
    | .setting | .sensor => s.post l t n v

/-- FUNCTION_WRITE (R160, R164): the slot's rights come before the used mark. -/
def State.functionWrite (s : State) (l : LinkId) (t : Taken) (b : Byte) (v : Word16) : State :=
  match s.lookup b with
  | none => s.answer l .functionWrite t.tag .noFunction []
  | some f =>
    if mayWrite t.role f.slot then s.onServed l .functionWrite t.tag f fun s => s.writeServed l t b.toNat f v
    else s.answer l .functionWrite t.tag .rights []

/-- FUNCTION_WRITE (R164). -/
def execFunctionWrite (l : LinkId) (s : State) : Result :=
  .next (s.settle (s.serve l .functionWrite fun t s =>
    match t.req with
    | .functionWrite b v => s.functionWrite l t b v
    | _ => s))

/-! ## WATCH (R170) -/

/-- A role joins or leaves a slot's watch set (R170 (1), (2)); a first watcher sets the last reported value to the
cached one. -/
def State.setWatcher (s : State) (f : Found) (r : Role) (add : Bool) : State :=
  if add then
    let s := if f.slot.watch = 0 then s.report f.ref f.place else s
    s.modSlot f.ref f.place fun x => { x with watch := addBit x.watch (roleBit r) }
  else
    s.modSlot f.ref f.place fun x =>
      { x with watch := dropBit x.watch (roleBit r), changed := dropBit x.changed (roleBit r) }

/-- A served WATCH (R170): the delta is set in both operations, 0 taken as 1. -/
def State.watchServed (s : State) (l : LinkId) (t : Taken) (f : Found) (add : Bool) (delta : Word16) : State :=
  let d := max 1 delta.toNat
  let s := (s.setWatcher f t.role.role add).modSlot f.ref f.place fun x => { x with delta := d }
  let watch := ((s.slot f.ref f.place).map (·.watch)).getD 0
  s.answer l .watch t.tag .ok (watch.setWidth 8 :: bytes2 d)

/-- WATCH (R160, R170). -/
def State.watch (s : State) (l : LinkId) (t : Taken) (b : Byte) (add : Bool) (delta : Word16) : State :=
  match s.lookup b with
  | none => s.answer l .watch t.tag .noFunction []
  | some f => s.onServed l .watch t.tag f fun s => s.watchServed l t f add delta

/-- WATCH (R170). -/
def execWatch (l : LinkId) (s : State) : Result :=
  .next (s.settle (s.serve l .watch fun t s =>
    match t.req with
    | .watch b add delta => s.watch l t b add delta
    | _ => s))

/-! ## DIRECTORY_QUERY (R172) -/

/-- The filters of a query. -/
structure Filters where
  pos : Option Pos
  kind : Option FunKind
  inst : Option Nat
  changedOnly : Bool
  deriving DecidableEq, Repr

/-- A slot of an entry passes the filters (R172 (b), (c)). -/
def Filters.pass (f : Filters) (r : Role) (e : Entry) (sl : Slot) : Bool :=
  f.pos.all (· = e.pos) && f.kind.all (· = sl.kind) && f.inst.all (· = sl.inst)
    && (!f.changedOnly || hasBit sl.changed (roleBit r))

/-- The numbers that match a query, in no order (R172 (a) to (c)). -/
def State.matching (s : State) (f : Filters) (r : Role) : List Nat :=
  allEntries.flatMap fun ref =>
    match s.entry ref with
    | none => []
    | some e =>
      if e.live && s.ready e.pos then
        e.slots.filterMap fun sl => if f.pass r e sl then sl.number else none
      else []

/-- The numbers that match, ascending from the start number (R172). -/
def State.listed (s : State) (f : Filters) (r : Role) (start : Nat) : List Nat :=
  let m := s.matching f r
  (List.range' start (128 - start)).filter m.contains

/-- A role leaves the changed-since-read sets of the slots of some numbers (R171 (4), R172). -/
def Slot.dropListed (ns : List Nat) (r : Role) (sl : Slot) : Slot :=
  if sl.number.any ns.contains then { sl with changed := dropBit sl.changed (roleBit r) } else sl

/-- DIRECTORY_QUERY (R172). -/
def State.directoryQuery (s : State) (l : LinkId) (t : Taken) (f : Filters) (start : Nat) : State :=
  let r := t.role.role
  let all := s.listed f r start
  let ns := all.take 64
  let next := (all.drop 64).headD 0
  let s := if f.changedOnly then s.mapEntries fun e => { e with slots := e.slots.map (Slot.dropListed ns r) } else s
  s.answer l .directoryQuery t.tag .ok (byteOf ns.length :: byteOf next :: ns.map byteOf)

/-- DIRECTORY_QUERY (R172). -/
def execDirectoryQuery (l : LinkId) (s : State) : Result :=
  .next (s.finish (s.serve l .directoryQuery fun t s =>
    match t.req with
    | .directoryQuery p k i ch start => s.directoryQuery l t ⟨p, k, i, ch⟩ start
    | _ => s))

/-! ## PIN (R173) -/

/-- The pin set of an entry after a role's request (R173). -/
def Entry.pin (r : Role) (set : Bool) (e : Entry) : Entry :=
  { e with pins := if set then addBit e.pins (roleBit r) else dropBit e.pins (roleBit r) }

/-- The pin made or released, and answered with the set as it then stands (R173 (1), (2)). -/
def State.pinDone (s : State) (l : LinkId) (t : Taken) (f : Found) (set : Bool) (st : Status) : State :=
  let s := s.modEntry f.ref (Entry.pin t.role.role set)
  let pins : RoleSet := ((s.entry f.ref).map Entry.pins).getD 0
  s.answer l .pin t.tag st [pins.setWidth 8]

/-- PIN (R160, R173). -/
def State.pin (s : State) (l : LinkId) (t : Taken) (b : Byte) (set : Bool) : State :=
  match s.lookup b with
  | none => s.answer l .pin t.tag .noFunction []
  | some f =>
    let s := s.markUsed f.ref
    match s.decodeAnswer f.entry with
    | some .gone => s.pinDone l t f set .gone
    | some st => s.answer l .pin t.tag st []
    | none => s.pinDone l t f set .ok

/-- PIN (R173). -/
def execPin (l : LinkId) (s : State) : Result :=
  .next (s.finish (s.serve l .pin fun t s =>
    match t.req with
    | .pin b set => s.pin l t b set
    | _ => s))

/-! ## QUARANTINE (R174) -/

/-- The lock-out of a stale entry set or released (R174 (3)). -/
def State.quarantineStale (s : State) (f : Found) (set : Bool) : State :=
  s.modEntry f.ref fun e => if set then (if e.locked then e else e.lockOut) else
    if e.locked then { e with locked := false, strikes := 0 } else e

/-- The lock-out of an entry in service set or released (R174 (1), (2)). -/
def State.quarantineLive (s : State) (f : Found) (set : Bool) : State :=
  if set = f.entry.locked then s else if set then s.lockOut f.ref else s.releaseEntry f.ref

/-- The answer to QUARANTINE: lock-out and strike count as they then stand. -/
def State.quarantineDone (s : State) (l : LinkId) (t : Taken) (f : Found) (st : Status) : State :=
  let e := s.entry f.ref
  s.answer l .quarantine t.tag st [byteOf (bit (e.any (·.locked))), byteOf ((e.map (·.strikes)).getD 0)]

/-- QUARANTINE (R160, R174), its role's right given. -/
def State.quarantine (s : State) (l : LinkId) (t : Taken) (b : Byte) (set : Bool) : State :=
  match s.lookup b with
  | none => s.answer l .quarantine t.tag .noFunction []
  | some f =>
    let s := s.markUsed f.ref
    match s.decodeAnswer f.entry with
    | some .gone => (s.quarantineStale f set).quarantineDone l t f .gone
    | some st => s.answer l .quarantine t.tag st []
    | none => (s.quarantineLive f set).quarantineDone l t f .ok

/-- QUARANTINE (R174). -/
def execQuarantine (l : LinkId) (s : State) : Result :=
  .next (s.settle (s.serve l .quarantine fun t s =>
    match t.req with
    | .quarantine b set => s.quarantine l t b set
    | _ => s))

/-! ## FRESHNESS_SET (R175) -/

/-- A freshness window clamped to 100 to 60,000 ms (R175). -/
def clampWindow (w : Nat) : Nat := max 100 (min 60000 w)

/-- A window set: a GOOD slot whose age exceeds it becomes STALE at once (R175 (1), R13). -/
def Slot.setWindow (w : Nat) (sl : Slot) : Slot :=
  { sl with window := w, quality := if sl.quality = .good ∧ w < sl.age then .stale else sl.quality }

/-- FRESHNESS_SET (R160, R175), its role's right given. -/
def State.freshnessSet (s : State) (l : LinkId) (t : Taken) (b : Byte) (window : Word16) : State :=
  match s.lookup b with
  | none => s.answer l .freshnessSet t.tag .noFunction []
  | some f =>
    let w := clampWindow window.toNat
    s.onServed l .freshnessSet t.tag f fun s =>
      (s.modSlot f.ref f.place (Slot.setWindow w)).answer l .freshnessSet t.tag .ok (bytes2 w)

/-- FRESHNESS_SET (R175). -/
def execFreshnessSet (l : LinkId) (s : State) : Result :=
  .next (s.settle (s.serve l .freshnessSet fun t s =>
    match t.req with
    | .freshnessSet b w => s.freshnessSet l t b w
    | _ => s))

end Sys2Proof.Machine
end

