-- ==== Sys2Proof/Machine/Ports.lean ====
section
/-! DEFINITION. Power-on reset and the events of the CAN ports: frames transmitted, transmit errors, bus-off and its
recovery, and silence (R30, R179, R180, R185, R188, R189). -/

namespace Sys2Proof.Machine

/-- POWER_ON_RESET (R30, R177): the straps are sampled and every block takes its reset values. The model's own queue of
commands and its free-value counter stand (log 27). -/
def execPowerOnReset (strap1 strap0 : Bool) (s : State) : Result :=
  .next { State.resetWith strap1 strap0 with pending := s.pending, freeCount := s.freeCount }

/-! ## Transmission (R179, R180, R185) -/

/-- The frame a port sends, or attempts again until it succeeds: the head of its transmit buffer (R179). -/
def State.sending (s : State) (l : LinkId) : Option CanFrame :=
  (s.link l).bind fun m => m.buffer.head?.map TxFrame.onWire

/-- The head frame leaves the buffer; the transmit error count falls by 1 (R179, R180). -/
def Mlu.sent (m : Mlu) : Mlu := { m with buffer := m.buffer.drop 1, txErrors := m.txErrors - 1 }

/-- An owed attention frame placed into the freed place (R185, log 11). -/
def Mlu.payOwed (m : Mlu) : Mlu :=
  if m.owed then
    { m with owed := false
             buffer := if m.holdsAttention then m.buffer else m.buffer ++ [attentionFrame m.pending] }
  else m

/-- CAN_FRAME_TRANSMITTED (R179): nothing without a frame in the buffer. -/
def execCanFrameTransmitted (l : LinkId) (s : State) : Result :=
  match s.link l with
  | none => .next s
  | some m => if m.buffer = [] then .next s else .next (s.setLink l m.sent.payOwed)

/-! ## Bus-off (R180, R189) -/

/-- The link a transaction serves through a Deferred List entry. -/
def Txn.ownerLink : Txn → Option LinkId
  | .read _ _ (some (l, _)) => some l
  | .write _ _ _ (.deferred l _) => some l
  | .read _ _ none | .write _ _ _ (.posted _) | .addressReset | .segmentOpen | .search .. | .place _ | .describe ..
  | .releaseGroup .. | .releaseSingle _ | .rediscover _ | .reassign .. | .poll _ | .segmentClose _ => none

/-- A transaction in flight for a flushed entry marked discarded by bus-off; one discarded by teardown stays so (R98,
R189 (3)). -/
def InFlight.busOff (l : LinkId) (f : InFlight) : InFlight :=
  if f.txn.ownerLink = some l ∧ f.discard = .kept then { f with discard := .busOff } else f

/-- A port enters bus-off (R189). -/
def State.enterBusOff (s : State) (l : LinkId) (m : Mlu) : State :=
  let s := s.setLink l { m with busOff := true, queue := [], buffer := [], owed := false }
  { s with
    dec := { s.dec with deferred := s.dec.deferred.filter fun d => d.link ≠ l }
    bus := { s.bus with flight := s.bus.flight.map (InFlight.busOff l) } }

/-- CAN_TRANSMIT_ERROR (R180): nothing while no frame is under way. -/
def execCanTransmitError (l : LinkId) (s : State) : Result :=
  match s.link l with
  | none => .next s
  | some m =>
    if m.buffer = [] then .next s
    else if 255 < m.txErrors + 8 then .next (s.enterBusOff l m)
    else .next (s.setLink l { m with txErrors := m.txErrors + 8 })

/-- BUS_OFF_RECOVERY (R180): the port is active with its error count at 0. -/
def execBusOffRecovery (l : LinkId) (s : State) : Result :=
  match s.link l with
  | none => .next s
  | some m => if m.busOff then .next (s.setLink l { m with busOff := false, txErrors := 0 }) else .next s

/-! ## Silence (R188, R155 to R158) -/

/-- A link becomes silent: its role's record is cleared as the role requires, and MASTER_SILENT is raised for every
other role (R188). -/
def State.fallSilent (s : State) (l : LinkId) (r : Role) : State :=
  ((s.modLink l fun m => { m with silent := true }).setRecord r (silencedRecord r (s.light.record r))).raiseFor
    (dropBit 7 (roleBit r)) .masterSilent

/-- SILENCE_TIMEOUT (R188). -/
def execSilenceTimeout (l : LinkId) (s : State) : Result :=
  match s.link l with
  | none => .next s
  | some m =>
    if m.silent then .next s
    else .next (s.settle ((s.await m.silenceTimer Config.silenceLimit).fallSilent l m.role.role))

end Sys2Proof.Machine
end

