-- ==== Sys2Proof/Machine/Bank.lean ====
section
/-! DEFINITION. The events of the Channel Bank (chapter 3): readings of supply, temperature and current, trips, timers,
flasher and derating phases, backfeed checks, check windows and probes. -/

namespace Sys2Proof.Machine

/-- A sense reading: limited to its top, in steps of 10 (R49, R50, log 9). -/
def quantise (top v : Nat) : Nat := min top v / 10 * 10

/-! ## Supply (R50) -/

/-- A reading is inside the window (R50). -/
def supplyInside (mv : Nat) : Bool := 20000 ≤ mv && mv ≤ 32000

/-- A supply reading as a check window under way takes it (R60 (c)). -/
def Window.supply (inside : Bool) (w : Window) : Window :=
  if w.samples.length < windowSamples then { w with supplyOk := w.supplyOk && inside } else w

/-- A supply reading as a channel takes it. -/
def Channel.supplyRead (inside : Bool) (ch : Channel) : Channel := { ch with window := ch.window.map (Window.supply inside) }

/-- An attempt in progress is abandoned as the supply goes outside (R66 (3)); nothing else is (R65 (1)). -/
def State.supplyLost (s : State) : State :=
  match s.bank.probe with
  | none => s
  | some q => if q.phase = .attempt then s.abandonAttempt q else s

/-- A supply reading (R50). -/
def State.readSupply (s : State) (mv : Nat) : State :=
  let inside := supplyInside mv
  let was := s.bank.supplyInside
  let s := { s with bank := { s.bank with
    channels := s.bank.channels.map (Channel.supplyRead inside), supply := mv, supplyInside := inside, supplyAge := 0 } }
  if was ∧ inside = false then (s.raiseAll .supplyHold).supplyLost
  else if was = false ∧ inside then s.testProbe
  else s

/-- SUPPLY_READING (R50), every 2 ms. -/
def execSupplyReading (mv : Nat) (s : State) : Result :=
  .next (s.settle ((s.await s.bank.supplyAge Config.supplyInterval).readSupply (quantise 40000 mv)))

/-! ## Temperature (R57, R58) -/

/-- A temperature reading of a channel, and what it does to a probe of it (R57, R58, R64, R66). -/
def State.readTemperature (s : State) (c : ChanId) (deg : Int) : State :=
  let ch := s.chan c
  let (ch', raised) := ch.heat (s.routed c) (s.wantsOn ch.demand) deg
  let s := s.putChan c ch'
  let s := if raised then s.raiseAll .thermal else s
  if s.probeChan = some c then
    if (ch'.derated && !ch.derated) || (ch'.state = .thermalOff && ch.state ≠ .thermalOff) then s.disturbProbe
    else s.testProbe
  else s

/-- A temperature limited to what the sense covers (R49 (3), log 9). -/
def clampTemperature (deg : Int) : Int := max (-40) (min 200 deg)

/-- TEMPERATURE_READING (R57), every 10 ms. -/
def execTemperatureReading (c : ChanId) (deg : Int) (s : State) : Result :=
  .next (s.settle ((s.await (s.chan c).temperatureAge Config.temperatureInterval).readTemperature c
    (clampTemperature deg)))

/-! ## Current samples and trips (R49, R51 to R53, R67) -/

/-- A trip of a channel, and what it does to a probe of it (R51 to R53, R67 (1), log 15). -/
def State.tripChan (s : State) (c : ChanId) : State :=
  let ch := s.chan c
  let ch' := ch.tripOut s.bank.supply
  let s := (s.putChan c ch').raiseAll .channelTrip
  let s := if ch'.state = .latched then s.raiseAll .channelLatched else s
  match s.bank.probe with
  | none => s
  | some q =>
    if lampChan q.lamp ≠ c then s
    else if ch.state = .probeOn then s.handOutcome q .failed
    else s.disturbProbe

/-- A current sample of a channel whose output is on: it counts toward the peak since switch-on, then trips the channel
or goes into its windows (R46, R49, R51, R60, R63). A sample that trips and would be the sixteenth of a window trips
first and is not taken into the window: no mean is formed of it (DESIGN CHOICE, log 32). -/
def State.sampleChan (s : State) (c : ChanId) (ma : Nat) : State :=
  let ch := s.chan c
  let ch := { ch with sampled := true, peak := max ch.peak ma }
  if ch.trips (tripThreshold c) ma then (s.putChan c ch).tripChan c
  else (s.putChan c (ch.sample (s.flasherOf ch.demand) ma)).probeSample c ma

/-- CURRENT_SAMPLE (R49, R51): one in each ms from the first after switch-on; none while the output is off. -/
def execCurrentSample (c : ChanId) (ma : Nat) (s : State) : Result :=
  let ch := s.chan c
  if ch.output = false then .next s
  else
    let t := if ch.sampled ∨ ch.sinceOn = 0 then s.elapse 1 else s
    .next (s.settle (t.sampleChan c (quantise 25000 ma)))

/-! ## Timers of a channel (R52, R53) -/

/-- The cooldown over, the channel takes its demand; a request postponed on it is tested again (R52, R64). -/
def State.cooled (s : State) (c : ChanId) : State := (s.takeDemand c).testProbe

/-- TRIP_COOLDOWN_EXPIRY (R52). -/
def execTripCooldownExpiry (c : ChanId) (s : State) : Result :=
  let ch := s.chan c
  if ch.state = .tripped then .next (s.finish ((s.await ch.cooldown Config.cooldown).cooled c)) else .next s

/-- STREAK_TIMER_EXPIRY (R53 (1)). -/
def execStreakTimerExpiry (c : ChanId) (s : State) : Result :=
  let ch := s.chan c
  if ch.state.streakRuns then
    let t := s.await ch.streakTimer Config.streakLimit
    .next (t.putChan c { t.chan c with streakCount := 0, streakTimer := 0 })
  else .next s

/-! ## Flashers (R47, R48) -/

/-- The next phase of a flasher, at a rate. -/
def Flasher.next (fast : Bool) (f : Flasher) : Flasher :=
  { f with onPhase := !f.onPhase, age := 0, fast := fast }

/-- Length of a turn flasher phase (R47). -/
def Flasher.turnLength (f : Flasher) : Nat := if f.fast then 160 else 320

/-- A probe attempt waits on a channel for its flasher's off-phase (R62 (3)). -/
def State.waitsForGap (s : State) (c : ChanId) : Bool :=
  s.bank.probe.any fun q => lampChan q.lamp = c && q.phase = .attempt

/-- A channel as a new phase of its flasher acts on it (R46, R47, R57, R62 (3)). -/
def State.phaseChan (d : Demand) (s : State) (c : ChanId) : State :=
  let ch := s.chan c
  if ch.demand ≠ d then s
  else
    match ch.state with
    | .drive =>
      if s.wantsOn d then s.putChan c ch.phaseOn
      else if s.waitsForGap c then s.putChan c ch.toGap
      else s.putChan c (ch.switchTo false)
    | .probeGap => if s.wantsOn d then s.putChan c ch.toProbeOn else s
    | .off | .probeOn | .tripped | .latched | .thermalOff => s

/-- The turn flasher's phase ends; the next one runs at the rate decided (R47, R154). -/
def State.turnPhase (s : State) : State :=
  let s := { s with bank := { s.bank with turn := s.bank.turn.next s.light.fast } }
  ([0, 1] : List ChanId).foldl (State.phaseChan .flashTurn) s

/-- TURN_FLASHER_PHASE_END (R47). -/
def execTurnFlasherPhaseEnd (s : State) : Result :=
  let f := s.bank.turn
  if f.running then .next (s.finish ((s.await f.age f.turnLength).turnPhase)) else .next s

/-- An on-phase of the emergency flasher starts under a settled-only measurement of CH2: its samples are taken in the
first one, and a further one is a switch-on that fails it (R65 (1)). -/
def State.armSettledOnly (s : State) : State :=
  match s.bank.probe with
  | none => s
  | some q =>
    if q.phase = .settledOnly ∧ q.lamp = 2 ∧ s.bank.emergency.onPhase then
      if q.armed then s.handOutcome q .failed else s.setProbe (some { q with armed := true })
    else s

/-- The emergency flasher's phase ends (R48). -/
def State.emergencyPhase (s : State) : State :=
  let s := { s with bank := { s.bank with emergency := s.bank.emergency.next false } }
  (s.phaseChan .flashEmergency 2).armSettledOnly

/-- EMERGENCY_FLASHER_PHASE_END (R48). -/
def execEmergencyFlasherPhaseEnd (s : State) : Result :=
  let f := s.bank.emergency
  if f.running then .next (s.settle ((s.await f.age 120).emergencyPhase)) else .next s

/-- Length of an on-time or off-time of the derating pattern (R44, R57). -/
def Channel.pwmLength (ch : Channel) : Nat := if ch.pwmOn then 30 else 10

/-- PWM_PHASE_END (R57): while the channel drives under DERATED and its demand wants it on. -/
def execPwmPhaseEnd (c : ChanId) (s : State) : Result :=
  let ch := s.chan c
  let on := s.wantsOn ch.demand
  if ch.state = .drive ∧ ch.derated ∧ on then
    let t := s.await ch.pwmAge ch.pwmLength
    .next (t.putChan c ((t.chan c).pwmNext on))
  else .next s

/-! ## Backfeed (R59, R67 (2)) -/

/-- A backfeed check, and what BACKFEED does to a request held on the channel (R59, R67 (2)). -/
def State.checkBackfeed (s : State) (c : ChanId) (mv : Nat) : State :=
  let (ch, raised) := (s.chan c).backfeedCheck s.bank.supply mv
  let s := s.putChan c ch
  if raised then
    let s := s.raiseAll .backfeed
    match s.bank.probe with
    | none => s
    | some q => if lampChan q.lamp = c then s.handOutcome q .failed else s
  else s

/-- BACKFEED_CHECK (R59), every 300 ms of a routed lamp channel in OFF. -/
def execBackfeedCheck (c : ChanId) (mv : Nat) (s : State) : Result :=
  let ch := s.chan c
  if s.routed c ∧ (chanLamp c).isSome ∧ ch.state = .off then
    .next (s.settle ((s.await ch.backfeedAge Config.backfeedInterval).checkBackfeed c (quantise 40000 mv)))
  else .next s

/-! ## Check windows (R60) -/

/-- A check window is handed on: a lamp channel, no suspension, supply inside throughout, BACKFEED clear (R60). -/
def State.handsOn (s : State) (c : ChanId) (w : Window) : Bool :=
  !s.suspended && w.supplyOk && !(s.chan c).backfeed

/-- A complete check window: the last settled mean, and the window handed on or skipped (R60, R78). -/
def State.windowDone (s : State) (c : ChanId) (w : Window) : State :=
  let m := meanOf w.samples
  let s := s.putChan c { s.chan c with settledMean := m, window := none }
  match chanLamp c with
  | some l => if s.handsOn c w then s.evaluate l m w.peak else s
  | none => s

/-- CHECK_WINDOW_COMPLETE (R60): once the sixteenth sample has been taken. -/
def execCheckWindowComplete (c : ChanId) (s : State) : Result :=
  match (s.chan c).window with
  | none => .next s
  | some w => if w.samples.length = windowSamples then .next (s.finish (s.windowDone c w)) else .next s

/-! ## Probes (R61 to R67) -/

/-- PROBE_GAP_END (R62 (1), (2)): a gap that no flasher ends is over when the output has been off for 40 ms. -/
def execProbeGapEnd (s : State) : Result :=
  match s.bank.probe with
  | none => .next s
  | some q =>
    let c := lampChan q.lamp
    let ch := s.chan c
    if ch.state = .probeGap ∧ (ch.demand = .off ∨ ch.demand = .steady) then
      let t := s.await ch.sinceOff Config.blanking
      .next (t.putChan c (t.chan c).toProbeOn)
    else .next s

/-- The last settled mean formed from the settled samples of a probe (R60, R63, R65). -/
def State.keepMean (s : State) (q : Probe) : State :=
  s.putChan (lampChan q.lamp) { s.chan (lampChan q.lamp) with settledMean := meanOf q.samples }

/-- PROBE_ATTEMPT_COMPLETE (R63): once the sixteenth settled sample has been taken in PROBE_ON. -/
def execProbeAttemptComplete (s : State) : Result :=
  match s.bank.probe with
  | none => .next s
  | some q =>
    let c := lampChan q.lamp
    if q.phase = .attempt ∧ (s.chan c).state = .probeOn ∧ q.samples.length = windowSamples then
      .next (s.settle (((s.keepMean q).takeDemand c).handOutcome q (.complete q.inrush q.samples)))
    else .next s

/-- SETTLED_ONLY_COMPLETE (R65 (1)): once the sixteenth sample has been taken. -/
def execSettledOnlyComplete (s : State) : Result :=
  match s.bank.probe with
  | none => .next s
  | some q =>
    if q.phase = .settledOnly ∧ q.samples.length = windowSamples then
      .next (s.settle ((s.keepMean q).handOutcome q (.settledOnly q.samples)))
    else .next s

/-- The 10 s limit of a request is over: an attempt in progress goes on, any other request is resolved (R65). -/
def State.limitOver (s : State) (q : Probe) : State :=
  if q.phase = .attempt then s.setProbe (some { q with expired := true }) else s.resolveExpired q

/-- PROBE_LIMIT_EXPIRY (R65): once for each request. -/
def execProbeLimitExpiry (s : State) : Result :=
  match s.bank.probe with
  | none => .next s
  | some q =>
    if q.expired then .next s
    else
      let t := s.await q.elapsed Config.probeLimit
      match t.bank.probe with
      | some q => .next (s.settle (t.limitOver q))
      | none => .next t

end Sys2Proof.Machine
end

