-- ==== Sys2Proof/Machine/Events.lean ====
section
/-! DEFINITION. The events of the code contacts, of the coupled positions and of the trailer bus (chapters 1, 2, 5, 6):
code samples, debounce, bring-up timers, cache ages, poll timers, received frames, timeouts and broadcasts. -/

namespace Sys2Proof.Machine

/-! ## Code contacts (R33, R34) -/

/-- A code sample: both contacts read, and a changed effective code state handed on (R33, R34). -/
def State.sampleCode (s : State) (ka kb : Nat) : State :=
  let s := { s with matrix := { s.matrix with
    kaGrounded := readContact s.matrix.kaGrounded ka
    kbGrounded := readContact s.matrix.kbGrounded kb
    sampleAge := 0 } }
  let e := effectiveOf s.matrix.forced s.matrix.kaGrounded s.matrix.kbGrounded
  if e = s.det.effective then s else s.codeChange e

/-- CODE_SAMPLE (R33), every 5 ms. -/
def execCodeSample (ka kb : Nat) (s : State) : Result :=
  .next (s.finish ((s.await s.matrix.sampleAge Config.codeInterval).sampleCode ka kb))

/-- The debounce has run out: a teardown while position 1 is live, else its coupling (R115, R116). -/
def State.debounceOver (s : State) (candidate : Profile) : State :=
  let s := s.stopDebounce
  if s.live .p1 then s.teardown .p1 else if candidate = .none then s else s.confirmFirst candidate

/-- POSITION1_DEBOUNCE_EXPIRY (R115, R116). -/
def execPosition1DebounceExpiry (s : State) : Result :=
  match s.det.debounce with
  | none => .next s
  | some d => .next (s.settle ((s.await d.elapsed d.length).debounceOver d.candidate))

/-! ## Bring-up and time coupled (R125, R3) -/

/-- POWERING_COUNT_EXPIRY (R125): while CH9 drives in POWERING. -/
def execPoweringCountExpiry (s : State) : Result :=
  match s.det.bringUp with
  | none => .next s
  | some b =>
    if (s.pos b.pos).state = .powering ∧ (s.chan 9).state = .drive then
      .next (s.settle ((s.await b.powering Config.poweringTime).tryEndPowering))
    else .next s

/-- COUPLED_SECOND_TICK (R3). -/
def execCoupledSecondTick (p : Pos) (s : State) : Result :=
  if s.live p then
    .next ((s.await (s.pos p).secondMs 1000).modPos p fun r =>
      { r with coupledSeconds := min 65535 (r.coupledSeconds + 1), secondMs := r.secondMs - 1000 })
  else .next s

/-! ## Cache ages and polls (R13, R113, R109, R110) -/

/-- A refreshed slot's age has its freshness window before it, or reaches it on an idle bus that is routed (R113). -/
def State.comesDue (s : State) (e : Entry) (sl : Slot) : Bool :=
  s.refreshed e sl && (sl.age < sl.window || (sl.age = sl.window && s.dataRouted && s.bus.flight.isNone))

/-- CACHE_AGE_EXPIRY (R13, R113): a slot the part refreshes becomes due as its age reaches the freshness window, and is
granted on an idle bus; a GOOD slot becomes STALE as its age exceeds it. -/
def execCacheAgeExpiry (ref : EntryRef) (k : Nat) (s : State) : Result :=
  match s.entry ref, s.slot ref k with
  | some e, some sl =>
    if s.comesDue e sl then .next (s.settle (s.await sl.age sl.window))
    else if sl.quality = .good then
      .next (s.settle ((s.await sl.age (sl.window + 1)).modSlot ref k fun x => { x with quality := .stale }))
    else .next s
  | _, _ => .next s

/-- A POLL of a position's repeater is claimed or in flight (R109). -/
def State.pollOut (s : State) (p : Pos) : Bool :=
  s.bus.class1.contains (.poll p) || s.bus.flight.any fun f => f.txn = .poll p

/-- A poll timer has expired: it is set again, and a POLL is claimed unless the previous one is still out, with a SEGMENT
close after it while CHAIN_OPEN is held (R109, R110). -/
def State.pollExpired (s : State) (p : Pos) : State :=
  let s := s.setPoll p (some 0)
  if s.pollOut p then s
  else
    let s := s.claim1 (.poll p)
    if hasBit (s.pos p).reasons (reasonBit .chainOpen) then s.claim1 (.segmentClose p) else s

/-- POLL_TIMER_EXPIRY (R109). -/
def execPollTimerExpiry (p : Pos) (s : State) : Result :=
  match s.bus.polls.get (posIdx p) with
  | none => .next s
  | some t => .next (s.settle ((s.await t Config.pollInterval).pollExpired p))

/-! ## Frames on the data pair (R92, R94, R111) -/

/-- The number of frames the reply to a transaction takes: one from each member for a READ of a group (R111). -/
def State.replyFrames (s : State) (t : Txn) : Nat :=
  match t with
  | .read ref _ _ => max 1 (s.runOf ref)
  | .write .. | .addressReset | .segmentOpen | .search .. | .place _ | .describe .. | .releaseGroup .. | .releaseSingle _
  | .rediscover _ | .reassign .. | .poll _ | .segmentClose _ => 1

/-- A valid frame taken: the next member of a group READ is awaited, or the REPLY is whole (R94, R111). -/
def State.takeReply (s : State) (f : InFlight) (payload : List Byte) (arbiterFirst : Bool) : State :=
  if s.replyFrames f.txn = 1 then s.endFlight f (.reply payload) arbiterFirst
  else
    let members := f.members ++ readValues payload
    if members.length < s.replyFrames f.txn then
      { s with bus := { s.bus with flight := some { f with members := members, waited := 0 } } }
    else s.endFlight f (.reply (members.flatMap Word16.bytes)) arbiterFirst

/-- A frame received while a transaction awaits its reply (R92, R94). -/
def State.receive (s : State) (f : InFlight) (bytes : List Byte) (arbiterFirst : Bool) : State :=
  match replyPayload f.txn.command bytes with
  | some payload => s.takeReply f payload arbiterFirst
  | none => s.failSending f .garbled

/-- TRAILER_BUS_FRAME_RECEIVED (R92): a frame that no transaction awaits, or that begins after the response timeout, is
ignored. -/
def execTrailerBusFrameReceived (bytes : List Byte) (arbiterFirst : Bool) (s : State) : Result :=
  match s.bus.flight with
  | none => .next s
  | some f =>
    if f.txn.broadcast ∨ Config.responseTimeout < f.waited then .next s
    else .next (s.settle (s.receive f bytes arbiterFirst))

/-- RESPONSE_TIMEOUT (R94). -/
def execResponseTimeout (s : State) : Result :=
  match s.bus.flight with
  | none => .next s
  | some f =>
    if f.txn.broadcast then .next s
    else .next (s.settle ((s.await f.waited Config.responseTimeout).failSending f .silence))

/-- A broadcast frame has been sent: SEGMENT_OPEN is claimed after ADDRESS_RESET, and POWERING may end (R117 (6), R125).
-/
def State.broadcastOver (s : State) (t : Txn) : State :=
  let s := s.modBringUp fun b => { b with broadcasts := b.broadcasts - 1 }
  let s := if t = .addressReset then s.claim2 .segmentOpen else s
  s.tryEndPowering

/-- BROADCAST_SENT (R94). -/
def execBroadcastSent (s : State) : Result :=
  match s.bus.flight with
  | none => .next s
  | some f =>
    if f.txn.broadcast then
      let t := { s with bus := { s.bus with flight := none } }
      .next (s.settle (if f.discard = .kept then t.broadcastOver f.txn else t))
    else .next s

end Sys2Proof.Machine
end

