-- ==== Sys2Proof/Machine/Dispatch.lean ====
section
/-! DEFINITION. The meaning of every command, one arm for each. -/

namespace Sys2Proof.Machine

def exec (i : Instr) (s : State) : Host.Outcome State Fault Refusal :=
  match i with
  | .powerOnReset strap1 strap0 => Sys2Proof.Machine.execPowerOnReset strap1 strap0 s
  | .requestArrival link frame => Sys2Proof.Machine.execRequestArrival link frame s
  | .malformedRequest link => Sys2Proof.Machine.execMalformedRequest link s
  | .lightingSet link => Sys2Proof.Machine.execLightingSet link s
  | .channelStatus link => Sys2Proof.Machine.execChannelStatus link s
  | .channelClear link => Sys2Proof.Machine.execChannelClear link s
  | .tripRecordRead link => Sys2Proof.Machine.execTripRecordRead link s
  | .functionRead link => Sys2Proof.Machine.execFunctionRead link s
  | .functionWrite link => Sys2Proof.Machine.execFunctionWrite link s
  | .watch link => Sys2Proof.Machine.execWatch link s
  | .directoryQuery link => Sys2Proof.Machine.execDirectoryQuery link s
  | .positionRead link => Sys2Proof.Machine.execPositionRead link s
  | .nodeRead link => Sys2Proof.Machine.execNodeRead link s
  | .pin link => Sys2Proof.Machine.execPin link s
  | .quarantine link => Sys2Proof.Machine.execQuarantine link s
  | .relearn link => Sys2Proof.Machine.execRelearn link s
  | .mapRebuild link => Sys2Proof.Machine.execMapRebuild link s
  | .profileForce link => Sys2Proof.Machine.execProfileForce link s
  | .freshnessSet link => Sys2Proof.Machine.execFreshnessSet link s
  | .workshopGrant link => Sys2Proof.Machine.execWorkshopGrant link s
  | .eventExchange link => Sys2Proof.Machine.execEventExchange link s
  | .interestSet link => Sys2Proof.Machine.execInterestSet link s
  | .canFrameTransmitted link => Sys2Proof.Machine.execCanFrameTransmitted link s
  | .canTransmitError link => Sys2Proof.Machine.execCanTransmitError link s
  | .busOffRecovery link => Sys2Proof.Machine.execBusOffRecovery link s
  | .silenceTimeout link => Sys2Proof.Machine.execSilenceTimeout link s
  | .codeSample ka kb => Sys2Proof.Machine.execCodeSample ka kb s
  | .position1DebounceExpiry => Sys2Proof.Machine.execPosition1DebounceExpiry s
  | .supplyReading millivolts => Sys2Proof.Machine.execSupplyReading millivolts s
  | .temperatureReading channel degrees => Sys2Proof.Machine.execTemperatureReading channel degrees s
  | .currentSample channel milliamps => Sys2Proof.Machine.execCurrentSample channel milliamps s
  | .tripCooldownExpiry channel => Sys2Proof.Machine.execTripCooldownExpiry channel s
  | .streakTimerExpiry channel => Sys2Proof.Machine.execStreakTimerExpiry channel s
  | .turnFlasherPhaseEnd => Sys2Proof.Machine.execTurnFlasherPhaseEnd s
  | .emergencyFlasherPhaseEnd => Sys2Proof.Machine.execEmergencyFlasherPhaseEnd s
  | .pwmPhaseEnd channel => Sys2Proof.Machine.execPwmPhaseEnd channel s
  | .backfeedCheck channel millivolts => Sys2Proof.Machine.execBackfeedCheck channel millivolts s
  | .checkWindowComplete channel => Sys2Proof.Machine.execCheckWindowComplete channel s
  | .probeGapEnd => Sys2Proof.Machine.execProbeGapEnd s
  | .probeAttemptComplete => Sys2Proof.Machine.execProbeAttemptComplete s
  | .probeLimitExpiry => Sys2Proof.Machine.execProbeLimitExpiry s
  | .settledOnlyComplete => Sys2Proof.Machine.execSettledOnlyComplete s
  | .poweringCountExpiry => Sys2Proof.Machine.execPoweringCountExpiry s
  | .coupledSecondTick pos => Sys2Proof.Machine.execCoupledSecondTick pos s
  | .cacheAgeExpiry entry slot => Sys2Proof.Machine.execCacheAgeExpiry entry slot s
  | .pollTimerExpiry pos => Sys2Proof.Machine.execPollTimerExpiry pos s
  | .trailerBusFrameReceived frame arbiterFirst => Sys2Proof.Machine.execTrailerBusFrameReceived frame arbiterFirst s
  | .responseTimeout => Sys2Proof.Machine.execResponseTimeout s
  | .broadcastSent => Sys2Proof.Machine.execBroadcastSent s

end Sys2Proof.Machine
end

