-- ==== Sys2Proof/Safety.lean ====
section
/-! DEFINITION. What the statements are about: the bounds the spec sets on the part's collections (R182), the laws of a
channel's output and temperature (R44, R57), of the chain of positions (R123), of the fast-flash decision (R154) and of
the pending sets (R192); requests taken, lock-outs, strikes, teardowns, probe and trailer bus outcomes and the choices of
the search, each said once; and what it means that nothing whose moment has come is outstanding (log 4). -/

namespace Sys2Proof.Machine

/-! ## Bounds (R182) -/

/-- No two entries of a list agree in a key. -/
def distinctBy {α β : Type} [DecidableEq β] (key : α → β) (xs : List α) : Bool := decide (xs.map key).Nodup

/-- The request queue of a link holds at most 4 requests (R182). -/
def queueBounded (m : Option Mlu) : Bool := m.all fun m => m.queue.length ≤ 4

/-- The entries of the Deferred List of one link. -/
def State.deferredOf (s : State) (l : LinkId) : List Deferred := s.dec.deferred.filter fun d => d.link = l

/-- The bounds of R182. -/
def State.bounded (s : State) : Bool :=
  allLinks.all (fun l => queueBounded (s.link l))
    && s.dec.deferred.length ≤ 8
    && allLinks.all (fun l => (s.deferredOf l).length ≤ 4)
    && distinctBy (fun d => (d.link, d.tag)) s.dec.deferred
    && s.dec.posted.length ≤ 8
    && distinctBy (fun p => p.number) s.dec.posted

/-! ## Channels (R44, Table 3-2) -/

/-- The output of a channel is off in OFF, PROBE_GAP, TRIPPED, LATCHED and THERMAL_OFF, and on in PROBE_ON (Table
3-2). -/
def Channel.outputLaw (ch : Channel) : Bool :=
  match ch.state with
  | .off | .probeGap | .tripped | .latched | .thermalOff => !ch.output
  | .probeOn => ch.output
  | .drive => true

/-- The temperature of a channel and its DERATED flag agree: 150 degrees or more sets it, below 130 clears it, and a
channel in THERMAL_OFF has it set (R57, R58). -/
def Channel.heatLaw (ch : Channel) : Bool :=
  (ch.temperature < 150 || ch.derated) && (!ch.derated || 130 ≤ ch.temperature) && (ch.state ≠ .thermalOff || ch.derated)

/-- Every channel keeps both laws. -/
def State.channelsLawful (s : State) : Bool := allChans.all fun c => (s.chan c).outputLaw && (s.chan c).heatLaw

/-! ## The chain of positions (R123) -/

/-- If position 2 or 3 is not ABSENT, the position before it is ONLINE or DEGRADED (R123). -/
def State.chained (s : State) : Bool := (!s.live .p2 || s.ready .p1) && (!s.live .p3 || s.ready .p2)

/-- A repeater watch stands for a ready position (Table 6-1, Note 2), the bring-up in progress for one in bring-up
(R124), and the probe request held for a live one (R61). -/
def State.workPlaced (s : State) : Bool :=
  allPos.all (fun p => (s.det.watches.get (posIdx p)).isNone || s.ready p)
    && s.det.bringUp.all (fun b => (s.pos b.pos).state.inBringUp)
    && s.bank.probe.all (fun q => s.live q.pos)

/-- The chain law with the invariants of the Detector's work that it rests on. -/
def State.chainLaw (s : State) : Bool := s.chained && s.workPlaced

/-! ## The fast-flash decision (R154) and the pending sets (R192) -/

/-- The kinds held for CH0 and CH1 are those of their verdict records, and the rate is fast exactly when one of them is
LAMP_OUT (R154). -/
def State.flashLaw (s : State) : Bool :=
  s.light.kind0 = (s.load.verdicts.get 0).kind && s.light.kind1 = (s.load.verdicts.get 1).kind
    && s.light.fast = (s.light.kind0 = .lampOut || s.light.kind1 = .lampOut)

/-- The pending set of a link never holds a kind outside its interest set (R192). -/
def interestKept (m : Option Mlu) : Bool := m.all fun m => m.pending &&& ~~~ m.interest = 0

/-- The same for every link. -/
def State.interestLaw (s : State) : Bool := interestKept s.links.a && interestKept s.links.b && interestKept s.links.c

/-! ## Requests taken, replies and events, as the statements say them -/

/-- The head of a link's queue is a well-formed request that can be taken now: the link is enabled and not in bus-off, no
Deferred List entry of the link holds the number it names, and the free room suffices (R186). -/
structure Head (s : State) (l : LinkId) (m : Mlu) (f : List Byte) (rest : List (List Byte)) (r : Request) : Prop where
  link : s.link l = some m
  active : m.busOff = false
  queue : m.queue = f :: rest
  form : parseRequest f = some r
  free : s.interlocked l r = false
  room : (reqKind r).room ≤ s.freeRoom l m

/-- A link whose head has left its queue and been answered with one reply or reply train (R184, R187). -/
def Mlu.replied (m : Mlu) (rest : List (List Byte)) (k : ReqKind) (tag : Byte) (st : Status) (content : List Byte) : Mlu :=
  { m with queue := rest, buffer := m.buffer ++ contentFrames .reply (byteOf k.code) tag st content }

/-- A link that differs in its transmit buffer and owed mark alone, and whose buffer has only grown at its tail. -/
def Mlu.grows (m m' : Mlu) : Prop := m' = { m with buffer := m'.buffer, owed := m'.owed } ∧ m.buffer <+: m'.buffer

/-- An event has been raised at every enabled link: its kind is pending wherever it is of interest (R190). -/
def State.told (s t : State) (k : EventKind) : Prop :=
  ∀ l m, s.link l = some m → hasBit m.interest (eventBit k) = true →
    ∃ m', t.link l = some m' ∧ hasBit m'.pending (eventBit k) = true

/-- A link's head answered: the request leaves the queue and its reply joins the transmit buffer (R184, R187). -/
def State.answered (s : State) (l : LinkId) (m : Mlu) (rest : List (List Byte)) (k : ReqKind) (tag : Byte) (st : Status)
    (content : List Byte) : State :=
  s.setLink l (m.replied rest k tag st content)

/-- A variable number names a slot: it is bound to place k of an entry (R26, R29, R160). -/
structure Names (s : State) (b : Byte) (ref : EntryRef) (k : Nat) (e : Entry) (sl : Slot) : Prop where
  low : 16 ≤ b.toNat
  high : b.toNat ≤ 127
  bound : s.binding b.toNat = some (ref, k)
  entry : s.entry ref = some e
  slot : e.slots[k]? = some sl

/-- The entry a request names, marked used (R14), with one slot replaced. -/
def Entry.served (e : Entry) (k : Nat) (sl : Slot) : Entry := { e with used := true, slots := e.slots.set k sl }

/-- What a channel holds apart from its demand, its state and what runs with them. -/
def Channel.held (ch : Channel) : Bool × Bool × Nat × Nat × Option TripRecord × Nat × Int :=
  (ch.derated, ch.backfeed, ch.streakCount, ch.streakTimer, ch.trip, ch.settledMean, ch.temperature)

/-- What demands, probes and the arbiter leave alone: `t` agrees with `s` in the Matrix, the Node Table, which positions
are live, what the channels hold apart from demand and state, the supply, the command records, the Detector's code state
and debounce, what the decoder's collections ask for, and every link but its pending set and the tail of its buffer. -/
structure Undisturbed (s t : State) : Prop where
  pending : t.pending = s.pending
  matrix : t.matrix = s.matrix
  nodes : t.map.singles = s.map.singles ∧ t.map.groups = s.map.groups
  live : ∀ p, t.live p = s.live p
  channels : ∀ c, (t.chan c).held = (s.chan c).held
  supply : t.bank.supply = s.bank.supply ∧ t.bank.supplyInside = s.bank.supplyInside
  records : (∀ r, t.light.record r = s.light.record r) ∧ t.light.grant = s.light.grant
  detector : t.det.effective = s.det.effective ∧ t.det.debounce = s.det.debounce ∧
    t.det.couplingDemand = s.det.couplingDemand
  deferred : t.dec.deferred.map (fun d => (d.link, d.tag, d.number, d.value)) =
    s.dec.deferred.map (fun d => (d.link, d.tag, d.number, d.value))
  posted : t.dec.posted.map (fun p => (p.number, p.value, p.poster)) =
    s.dec.posted.map (fun p => (p.number, p.value, p.poster))
  links : ∀ l, (s.link l = none ∧ t.link l = none) ∨ ∃ m m', s.link l = some m ∧ t.link l = some m' ∧
    m' = { m with pending := m'.pending, buffer := m'.buffer, owed := m'.owed } ∧ m.buffer <+: m'.buffer
  straps : t.links.strap1 = s.links.strap1 ∧ t.links.strap0 = s.links.strap0

/-! ## What links hear -/

/-- What the links have heard: at every enabled link that is not in bus-off the frames placed for it stand at the tail of
its buffer, and a kind is pending if it was, or if it has been raised for the link's role and is of interest (R176, R180,
R190, R192). Nothing else of the links has changed. -/
def State.heard (s t : State) (frames : LinkId → List TxFrame) (raised : Role → EventKind → Prop) : Prop :=
  t.links.strap1 = s.links.strap1 ∧ t.links.strap0 = s.links.strap0 ∧ ∀ l,
    (s.link l = none → t.link l = none) ∧
    ∀ m, s.link l = some m → ∃ pending : EventSet,
      t.link l = some { m with
        pending := pending, buffer := if m.busOff then m.buffer else m.buffer ++ frames l } ∧
      ∀ b, hasBit pending b = true ↔ hasBit m.pending b = true ∨
        ∃ k, eventBit k = b ∧ hasBit m.interest b = true ∧ raised m.role.role k

/-- The frames of a link that complete Deferred List entries, one entry after the other, without contents (R176, R184).
That several entries of a link come in the order of the list is the model's choice (log 39). -/
def completions (st : Status) (ds : List Deferred) (l : LinkId) : List TxFrame :=
  (ds.filter fun d => d.link = l).flatMap fun d =>
    contentFrames .completion (if d.value.isNone then 5 else 6) d.tag st []

/-! ## Teardown (R132 to R134), as the statements say it -/

/-- The live positions that a teardown from a position takes, the highest-numbered first (R132). -/
def State.takes (s : State) (k : Pos) : List Pos := (tornFrom k).filter fun p => s.live p

/-- The Deferred List entries that positions taken one after the other complete, in that order (R133 (6)), and those of
one position in the order of the list (the model's choice, log 39). -/
def State.goneOf (s : State) : List Pos → List Deferred → List Deferred
  | [], _ => []
  | p :: ps, ds => (ds.filter fun d => s.boundAt p d.number) ++ s.goneOf ps (ds.filter fun d => !s.boundAt p d.number)

/-- A transaction is sent to an entry of one of the positions taken, or made by its bring-up (R98, R133 (3)). A position
taken before has no chain repeater any more. -/
def State.ofTaken (s : State) : List Pos → Txn → Bool
  | [], _ => false
  | p :: ps, x => s.txnOf p x || (s.modPos p PosRec.torn).ofTaken ps x

/-- The verdict record of a lamp channel is reset where it concerns a ready position that is taken (R88, R133 (4)). -/
def State.verdictLost (s : State) (ps : List Pos) (l : LampId) : Bool := ps.any fun p => s.ready p && s.affects p l

/-- What a change of a channel's output brings with it (R46): going on, a switch-on, the time since it and the peak start
again, and staying on, neither does; going off, the time is noted, and staying off, it runs on. -/
structure Channel.Switched (ch ch' : Channel) : Prop where
  on : ch.output = false → ch'.output = true → ch'.sinceOn = 0 ∧ ch'.peak = 0
  staysOn : ch.output = true → ch'.output = true → ch'.sinceOn = ch.sinceOn ∧ ch'.peak = ch.peak
  off : ch.output = true → ch'.output = false → ch'.sinceOff = 0
  staysOff : ch.output = false → ch'.output = false → ch'.sinceOff = ch.sinceOff

/-- A channel takes its demand: DRIVE where it is routed and the demand is not OFF, the output on under STEADY and in the
flasher's on-phase, and OFF otherwise (R45, R63, R67). -/
structure Channel.Took (routed on : Bool) (ch ch' : Channel) : Prop where
  demand : ch'.demand = ch.demand
  held : ch'.held = ch.held
  drives : routed = true → ch.demand ≠ .off → ch'.state = .drive ∧ ch'.output = on
  dark : routed = false ∨ ch.demand = .off → ch'.state = .off ∧ ch'.output = false
  switched : ch.Switched ch'

/-- `t` is what a teardown leaves of `s` once it has taken the positions `ps` (R133): each is ABSENT with nothing but its
coupled-seconds count, the entries on its lists are stale, and the work that hung on it is gone. -/
structure TakenDown (ps : List Pos) (s t : State) : Prop where
  rest : t.pending = s.pending ∧ t.matrix = s.matrix ∧ t.freeCount = s.freeCount
  positions : ∀ p, t.pos p = if p ∈ ps then { coupledSeconds := (s.pos p).coupledSeconds } else s.pos p
  entries : ∀ ref, t.entry ref = (s.entry ref).map fun e =>
    { e with live := e.live && !ps.any fun p => (s.pos p).refs.contains ref }
  detector : t.det = { s.det with
    bringUp := s.det.bringUp.filter fun b => b.pos ∉ ps
    relearn := s.det.relearn.filter fun x => x.pos ∉ ps
    watches := t.det.watches }
  watches : ∀ p, t.det.watches.get (posIdx p) = if p ∈ ps then none else s.det.watches.get (posIdx p)
  bank : t.bank = { s.bank with probe := s.bank.probe.filter fun q => q.pos ∉ ps, channels := t.bank.channels }
  channels : ∀ c,
    let probed := (s.chan c).state = .probeGap ∨ (s.chan c).state = .probeOn
    ((∃ q, s.bank.probe = some q ∧ q.pos ∈ ps ∧ lampChan q.lamp = c ∧ probed) →
      (s.chan c).Took (s.routed c) (s.wantsOn (s.chan c).demand) (t.chan c)) ∧
    ((∀ q, s.bank.probe = some q → q.pos ∈ ps → lampChan q.lamp = c → ¬probed) → t.chan c = s.chan c)
  bus : t.bus = { s.bus with
    flight := s.bus.flight.map fun f => if s.ofTaken ps f.txn then { f with discard := .teardown } else f
    class1 := s.bus.class1.filter fun x => !s.ofTaken ps x
    class2 := s.bus.class2.filter fun x => !s.ofTaken ps x
    stack := if (s.det.bringUp.any fun b => b.pos ∈ ps) then [] else s.bus.stack
    polls := t.bus.polls }
  polls : ∀ p, t.bus.polls.get (posIdx p) = if p ∈ ps then none else s.bus.polls.get (posIdx p)
  expected : ∀ l, t.load.expected.get l =
    if ∃ p ∈ ps, s.ready p = true then
      ((allPos.filter fun p => s.ready p && decide (p ∉ ps)).map fun p => ((s.pos p).contrib.get l).settled).sum
    else s.load.expected.get l
  verdicts : ∀ l, t.load.verdicts.get l = if s.verdictLost ps l then {} else s.load.verdicts.get l
  light : t.light = { s.light with kind0 := t.light.kind0, kind1 := t.light.kind1, fast := t.light.fast } ∧
    (s.flashLaw = true → t.flashLaw = true)
  deferred : t.dec.deferred = s.dec.deferred.filter fun d => !ps.any fun p => s.boundAt p d.number
  posted : t.dec.posted = s.dec.posted.filter fun x => !ps.any fun p => s.boundAt p x.number
  heard : s.heard t (completions .gone (s.goneOf ps s.dec.deferred)) fun r k =>
    (k = .lampVerdict ∧ ∃ l, s.verdictLost ps l = true ∧ (s.load.verdicts.get l).kind ≠ .unchecked) ∨
    (k = .postedWriteFailed ∧ ∃ x ∈ s.dec.posted, (∃ p ∈ ps, s.boundAt p x.number = true) ∧
      (x.poster = r ∨ ∃ v, x.carried = some (v, r)))

/-- The end of a teardown from position 1 (R134 (1), R38, R55, R118, R130): every channel is unrouted and OFF but for a
THERMAL_OFF, latches and streaks are released, the coupling demand is dropped, the bus is cut off and detection starts
again from the code state. -/
structure FirstEnded (s t : State) : Prop where
  whole : t = { s with
    matrix := { s.matrix with active := .none }
    bus := { s.bus with flight := none }
    det := { s.det with
      couplingDemand := false
      debounce := if s.det.effective = .none then none else some { candidate := s.det.effective, length := 200 } }
    bank := { s.bank with channels := t.bank.channels, turn := t.bank.turn, emergency := t.bank.emergency } }
  channels : ∀ c, (t.chan c).state = (if (s.chan c).state = .thermalOff then .thermalOff else .off) ∧
    (t.chan c).demand = demandOf s.effective false c ∧
    (t.chan c).held = { s.chan c with backfeed := false, streakCount := 0, streakTimer := 0 }.held

/-- A teardown from a position (R132 to R134): the live positions from it on are taken, the end of the teardown follows,
and UNCOUPLED is raised at every link. The end of one behind another sets both counts of the front position's watch
to 0. -/
def Torn (k : Pos) (s t : State) : Prop :=
  ∃ v w, TakenDown (s.takes k) s v ∧ t = w.raiseAll .uncoupled ∧ match posFront k with
    | none => FirstEnded v w
    | some front => w = v.setWatch front
        ((v.det.watches.get (posIdx front)).map fun x => { x with present := 0, absent := 0 })

/-! ## Lock-outs and strikes, as the statements say them -/

/-- What the lock-out of an entry makes of the part (R17, R106, R108, R169 (1)): its slots are FAILED and its position
carries the reason QUARANTINE, its claims and polls are withdrawn, the deferred requests that wait for it are completed
NO_REPLY, the posted writes that wait leave the buffer with POSTED_WRITE_FAILED, those in flight are marked, and
NODE_QUARANTINED is raised. `e` is the entry as the lock-out finds it. -/
structure LockedOut (s t : State) (ref : EntryRef) (e : Entry) : Prop where
  pending : t.pending = s.pending
  entry : t.entry ref =
    some { e with locked := true, slots := e.slots.map fun sl => { sl with quality := Quality.failed } }
  others : ∀ r, r ≠ ref → t.entry r = s.entry r
  positions : ∀ p, t.pos p = if p = e.pos then
      { s.pos p with
        reasons := addBit (s.pos p).reasons 3, state := if s.ready p then .degraded else (s.pos p).state }
    else s.pos p
  claims : t.bus = { s.bus with
    class1 := s.bus.class1.filter fun x => !x.toward ref (s.chainOf ref)
    class2 := s.bus.class2.filter fun x => !x.toward ref (s.chainOf ref)
    polls := match s.chainOf ref with
      | some p => s.bus.polls.set (posIdx p) none
      | none => s.bus.polls }
  deferred : t.dec.deferred = s.dec.deferred.filter fun d => d.inFlight || !s.bound d.number ref
  posted : t.dec.posted = (s.dec.posted.filter fun x => x.carried.isSome || !s.bound x.number ref).map fun x =>
    if s.bound x.number ref then { x with lockedOut := true } else x
  rest : t.matrix = s.matrix ∧ t.bank = s.bank ∧ t.load = s.load ∧ t.det = s.det ∧ t.light = s.light ∧
    t.freeCount = s.freeCount
  heard : s.heard t (completions .noReply (s.dec.deferred.filter fun d => !d.inFlight && s.bound d.number ref))
    fun r k => k = .nodeQuarantined ∨ (k = .postedWriteFailed ∧
      ∃ x ∈ s.dec.posted, x.carried = none ∧ s.bound x.number ref = true ∧ x.poster = r)

/-- A strike on an entry (R106 to R108): it counts up to three; at the second a rediscovery is claimed, at the third the
entry is locked out, and a re-assignment the bring-up waited for is passed over. A locked-out entry only counts (log
18). -/
def State.struck (s t : State) (ref : EntryRef) (e : Entry) : Prop :=
  let e' := { e with strikes := min 3 (e.strikes + 1) }
  let u := s.setEntry ref (some e')
  (e.locked = true ∨ e.strikes = 0 → t = u) ∧
  (e.locked = false → e.strikes = 1 → t = { u with bus := { u.bus with class2 := u.bus.class2 ++ [Txn.rediscover ref] } }) ∧
  (e.locked = false → 2 ≤ e.strikes → ∃ w, LockedOut s w ref e' ∧
    t = if Txn.reassign ref true ∈ s.bus.class2 then w.bringUpNext else w)

/-! ## Probe outcomes, as the statements say them -/

/-- The record an outcome writes for the channel and position of a probe request, and that no other position learns from
it (R61, R75); a later request is for a later channel of the same position (R127). A relearn's shadow is committed where
the channel is the last one (R8). -/
def OutcomeWritten (s t : State) (q : Probe) (r : Contribution) : Prop :=
  ((s.pos q.pos).relearn = false → (t.pos q.pos).contrib.get q.lamp = r) ∧
  ((s.pos q.pos).relearn = true → (t.pos q.pos).shadow.get q.lamp = r ∨ (t.pos q.pos).contrib.get q.lamp = r) ∧
  (∀ p, p ≠ q.pos → (t.pos p).contrib = (s.pos p).contrib) ∧
  ∀ q', t.bank.probe = some q' → q'.pos = q.pos ∧ q.lamp < q'.lamp

/-- The record of a failed probe (R74 (3)). -/
def failedRecord : Contribution := { settled := 0, peak := 0, clamped := false, cls := .unknown }

/-! ## Probe requests, as the statements say them (R62, R64 to R66) -/

/-- What keeps a probe attempt on a channel from beginning (R64). -/
def State.probeHeld (s : State) (c : ChanId) : Prop :=
  (c = 2 ∧ (s.chan c).demand ≠ .off) ∨ (s.chan c).derated = true ∨ s.bank.supplyInside = false ∨
    (s.chan c).state = .tripped ∨ (s.chan c).state = .latched ∨ (s.chan c).state = .thermalOff

/-- An attempt begins from the channel's own state (R62): an OFF channel goes to PROBE_ON where its output has been off
for 40 ms, and to PROBE_GAP where not; one that drives steadily to PROBE_GAP; one that flashes to PROBE_GAP in the
off-phase of its flasher, and in an on-phase it waits in DRIVE. -/
def AttemptBegun (s t : State) (q : Probe) : Prop :=
  let c := lampChan q.lamp
  let ch := s.chan c
  let ch' := t.chan c
  let enters := fun (st : ChanState) (on : Bool) =>
    ch'.state = st ∧ ch'.output = on ∧ ch'.demand = ch.demand ∧ ch'.held = ch.held ∧ ch.Switched ch'
  let flashes := ch.state = .drive ∧ (ch.demand = .flashTurn ∨ ch.demand = .flashEmergency)
  t = { s with bank := { s.bank with
      probe := some { q with phase := .attempt, inrush := 0, samples := [], gap := 0, armed := false }
      channels := t.bank.channels } } ∧
    (∀ d, d ≠ c → t.chan d = s.chan d) ∧
    (ch.state = .off → 40 ≤ ch.sinceOff → enters .probeOn true) ∧
    (ch.state = .off → ch.sinceOff < 40 → enters .probeGap false) ∧
    (ch.state = .drive → ch.demand = .steady → enters .probeGap false) ∧
    (flashes → s.wantsOn ch.demand = false → enters .probeGap false) ∧
    (flashes → s.wantsOn ch.demand = true → ch' = ch)

/-- A probe request tested again: where it is postponed and nothing holds it back, its attempt begins, and where not,
nothing changes (R64). -/
def ProbeTested (s t : State) (q : Probe) : Prop :=
  (q.phase = .postponed → ¬s.probeHeld (lampChan q.lamp) → AttemptBegun s t q) ∧
    (q.phase ≠ .postponed ∨ s.probeHeld (lampChan q.lamp) → t = s)

/-- A probe request ended with FAILED (R74 (3)): the outcome is written, the channel stays as it is, and no pending kind
is lost. -/
def ProbeFailed (s t : State) (q : Probe) : Prop :=
  OutcomeWritten s t q failedRecord ∧ t.chan (lampChan q.lamp) = s.chan (lampChan q.lamp) ∧
    ∀ l m, s.link l = some m → ∃ m', t.link l = some m' ∧ ∀ b, hasBit m.pending b = true → hasBit m'.pending b = true

/-- A steady or stopped channel, which the settled window alone can measure (R65 (1)). -/
def State.steadyFor (s : State) (q : Probe) : Prop :=
  let ch := s.chan (lampChan q.lamp)
  ch.state = .drive ∧ ch.derated = false ∧ (ch.demand = .steady ∨ q.lamp = 2 ∧ ch.demand = .flashEmergency)

/-- A request past its limit with no attempt in progress is resolved by the channel's condition (R65). -/
def ProbeResolved (s t : State) (q : Probe) : Prop :=
  (s.steadyFor q → t = s.setProbe (some
    { q with phase := .settledOnly, expired := true, samples := [], armed := false })) ∧
  (¬s.steadyFor q → ProbeFailed s t q)

/-- An attempt in progress abandoned (R66): the channel takes its demand at once where it is in PROBE_GAP or PROBE_ON,
and the request is postponed and tested again, or past its limit resolved. -/
def AttemptAbandoned (s t : State) (q : Probe) : Prop :=
  let c := lampChan q.lamp
  let probing := (s.chan c).state = .probeGap ∨ (s.chan c).state = .probeOn
  let q' := { q with phase := ProbePhase.postponed, samples := [] }
  ∃ ch', (probing → (s.chan c).Took (s.routed c) (s.wantsOn (s.chan c).demand) ch') ∧ (¬probing → ch' = s.chan c) ∧
    let v := (s.setProbe (some q')).putChan c ch'
    (q.expired = false → ProbeTested v t q') ∧ (q.expired = true → ProbeResolved v t q')

/-- An event that ends measurement strikes a probe request: a postponed one is tested again (R64), an attempt is
abandoned (R66), and a settled-only measurement fails (R65 (1)). -/
def ProbeStruck (s t : State) (q : Probe) : Prop :=
  (q.phase = .postponed → ProbeTested s t q) ∧ (q.phase = .attempt → AttemptAbandoned s t q) ∧
    (q.phase = .settledOnly → ProbeFailed s t q)

/-! ## Trailer bus outcomes, as the statements say them -/

/-- A command brings a final reply to the transaction in flight: a valid frame in time (R92, R94). -/
def Replies (f : InFlight) (c : Instr) (payload : List Byte) : Prop :=
  ∃ bytes first, c = .trailerBusFrameReceived bytes first ∧ f.waited ≤ 5 ∧ replyPayload f.txn.command bytes = some payload

/-- A command fails a sending of the transaction in flight: a frame that is not valid, or no frame in 5 ms counted from
the grant (R94, log 14). -/
def Fails (f : InFlight) (c : Instr) : Prop :=
  (∃ bytes first, c = .trailerBusFrameReceived bytes first ∧ f.waited ≤ 5 ∧ replyPayload f.txn.command bytes = none) ∨
    c = .responseTimeout ∧ 5 ≤ f.waited

/-- The bus idle, with nothing else changed. -/
def State.idle (s : State) : State := { s with bus := { s.bus with flight := none } }

/-- Claims of class 1 made. -/
def State.claims1 (s : State) (xs : List Txn) : State := { s with bus := { s.bus with class1 := s.bus.class1 ++ xs } }

/-- A claim of class 2 made. -/
def State.claims2 (s : State) (x : Txn) : State := { s with bus := { s.bus with class2 := s.bus.class2 ++ [x] } }

/-- A reply of an entry's node taken: the bus is idle, the strikes are 0 and its rediscovery is withdrawn (R94, R106).
`e` is the entry as the rest of the outcome leaves it. -/
def State.replied (s : State) (ref : EntryRef) (e : Entry) : State :=
  let v := s.setEntry ref (some { e with strikes := 0 })
  { v with bus := { s.bus with
      flight := none
      class1 := s.bus.class1.filter fun x => !decide (x = Txn.rediscover ref)
      class2 := s.bus.class2.filter fun x => !decide (x = Txn.rediscover ref) } }

/-! ## The choices of the search, as the statements say them (R23, R24, R101, R102) -/

/-- A reference names a single entry. -/
def isSingle : EntryRef → Bool
  | .single _ => true
  | .group _ => false

/-- The first index of a table whose entry passes a test. -/
def FirstWith {n : Nat} (entry : Fin n → Option Entry) (test : Option Entry → Prop) (i : Fin n) : Prop :=
  test (entry i) ∧ ∀ k, k < i → ¬test (entry k)

/-- A valid entry with an ID. -/
def HasId (id : Word32) (e : Option Entry) : Prop := ∃ x, e = some x ∧ x.nodeId = id

/-- A live entry with an ID. -/
def HasIdLive (id : Word32) (e : Option Entry) : Prop := ∃ x, e = some x ∧ x.nodeId = id ∧ x.live = true

/-- An entry that may be a victim: stale and without pins, and under `unused` with its used mark clear (R23 (3), (4)). -/
def MayFall (unused : Bool) (e : Option Entry) : Prop :=
  ∃ x, e = some x ∧ x.live = false ∧ x.pins = 0 ∧ (unused = true → x.used = false)

/-- The entry that cases (2) to (4) of R23 and R24 choose: an invalid one, else a victim with its used mark clear, else
any victim, for which used marks are cleared. -/
def Chosen {n : Nat} (entry : Fin n → Option Entry) (i : Fin n) (victim clear : Bool) : Prop :=
  match victim, clear with
  | false, false => FirstWith entry (· = none) i
  | true, false => (∀ k, entry k ≠ none) ∧ FirstWith entry (MayFall true) i
  | true, true => (∀ k, entry k ≠ none ∧ ¬MayFall true (entry k)) ∧ FirstWith entry (MayFall false) i
  | false, true => False

/-- No entry is left to choose: each is live or pinned (R23 (5), R24 (5)). -/
def NoneLeft {n : Nat} (entry : Fin n → Option Entry) : Prop := ∀ k, entry k ≠ none ∧ ¬MayFall false (entry k)

/-- A block that a group of a run may take: a candidate block that overlaps no live group block (R102). -/
def State.freeFor (s : State) (run base : Nat) : Prop :=
  (∃ k, k < 64 / run ∧ base = 128 + k * run) ∧
    ∀ j e, s.entry (.group j) = some e → e.live = true → e.addr + e.run ≤ base ∨ base + run ≤ e.addr

/-- The placement a group head is claimed, or none where no block or no entry is left: its own stale entry with its base
there where that is free, or the entry R24 chooses, and the lowest free block (R24, R102). -/
def State.headPlaced (s : State) (id : Word32) (run : Nat) (fromSingle : Option SingleId) (t : Option Tentative) : Prop :=
  let group := fun j => s.entry (.group j)
  let tentative := fun (j : GroupId) (base : Nat) (reuse victim clear : Bool) => some ({
    ref := .group j, nodeId := id, addr := base, run := run, reuse := reuse, victim := victim, clearUsed := clear,
    fromSingle := fromSingle } : Tentative)
  let lowest := fun base => s.freeFor run base ∧ ∀ n, s.freeFor run n → base ≤ n
  let full := ∀ n, ¬s.freeFor run n
  (∀ j e, FirstWith group (HasId id) j → group j = some e →
    (s.freeFor run e.addr → t = tentative j e.addr true false false) ∧
    (¬s.freeFor run e.addr → ∀ base, lowest base → t = tentative j base true false false) ∧
    (full → t = none)) ∧
  ((∀ j, ¬HasId id (group j)) →
    (∀ j base victim clear, Chosen group j victim clear → lowest base → t = tentative j base false victim clear) ∧
    (full ∨ NoneLeft group → t = none))

/-! ## Promptness (log 4) -/

/-- The command that takes a well-formed request of a kind. -/
def takeCommand (l : LinkId) : ReqKind → Instr
  | .lightingSet => .lightingSet l | .channelStatus => .channelStatus l | .channelClear => .channelClear l
  | .tripRecordRead => .tripRecordRead l | .functionRead => .functionRead l | .functionWrite => .functionWrite l
  | .watch => .watch l | .directoryQuery => .directoryQuery l | .positionRead => .positionRead l
  | .nodeRead => .nodeRead l | .pin => .pin l | .quarantine => .quarantine l | .relearn => .relearn l
  | .mapRebuild => .mapRebuild l | .profileForce => .profileForce l | .freshnessSet => .freshnessSet l
  | .workshopGrant => .workshopGrant l | .eventExchange => .eventExchange l | .interestSet => .interestSet l

/-- The command that takes the head of a link's queue, where it can be taken now (R186). -/
def State.headCommand (s : State) (l : LinkId) : Option Instr :=
  match s.link l with
  | none => none
  | some m =>
    match m.queue with
    | [] => none
    | f :: _ =>
      match parseRequest f with
      | none => if 1 ≤ s.freeRoom l m then some (.malformedRequest l) else none
      | some r => (s.take l (reqKind r)).map fun _ => takeCommand l (reqKind r)

/-- The commands of a list of conditions that hold. -/
def holding (xs : List (Bool × Instr)) : List Instr := xs.filterMap fun x => if x.1 then some x.2 else none

/-- The timer and measurement events of a channel whose moment has come. -/
def State.channelDue (s : State) (c : ChanId) : List Instr :=
  let ch := s.chan c
  holding [
    (ch.window.any fun w => w.samples.length = windowSamples, .checkWindowComplete c),
    (ch.state = .tripped && Config.cooldown ≤ ch.cooldown, .tripCooldownExpiry c),
    (ch.state.streakRuns && Config.streakLimit ≤ ch.streakTimer, .streakTimerExpiry c),
    (ch.state = .drive && ch.derated && s.wantsOn ch.demand && ch.pwmLength ≤ ch.pwmAge, .pwmPhaseEnd c)]

/-- The events of the flashers and of the probe request whose moment has come. -/
def State.bankDue (s : State) : List Instr :=
  let f := s.bank.turn
  let e := s.bank.emergency
  holding [(f.running && f.turnLength ≤ f.age, .turnFlasherPhaseEnd), (e.running && 120 ≤ e.age, .emergencyFlasherPhaseEnd)]
    ++ match s.bank.probe with
      | none => []
      | some q =>
        let ch := s.chan (lampChan q.lamp)
        let full := q.samples.length = windowSamples
        holding [
          (ch.state = .probeGap && (ch.demand = .off || ch.demand = .steady) && Config.blanking ≤ ch.sinceOff,
            .probeGapEnd),
          (q.phase = .attempt && ch.state = .probeOn && full, .probeAttemptComplete),
          (q.phase = .settledOnly && full, .settledOnlyComplete),
          (!q.expired && Config.probeLimit ≤ q.elapsed, .probeLimitExpiry)]

/-- The events of one position whose moment has come. -/
def State.positionDue (s : State) (p : Pos) : List Instr :=
  holding [
    (s.live p && 1000 ≤ (s.pos p).secondMs, .coupledSecondTick p),
    ((s.bus.polls.get (posIdx p)).any fun t => Config.pollInterval ≤ t, .pollTimerExpiry p)]

/-- The cache ages of an entry whose moment has come. -/
def State.cacheDue (s : State) (ref : EntryRef) : List Instr :=
  match s.entry ref with
  | none => []
  | some e => e.slots.zipIdx.filterMap fun (sl, k) =>
      if (s.comesDue e sl && sl.age = sl.window && s.due e sl) || (sl.quality = .good && sl.window < sl.age) then
        some (.cacheAgeExpiry ref k)
      else none

/-- The events of the trailer bus and the Detector whose moment has come. -/
def State.busDue (s : State) : List Instr :=
  holding [
    (s.bus.flight.any fun f => !f.txn.broadcast && Config.responseTimeout ≤ f.waited, .responseTimeout),
    (s.det.debounce.any fun d => d.length ≤ d.elapsed, .position1DebounceExpiry),
    (s.det.bringUp.any fun b => (s.pos b.pos).state = .powering && Config.poweringTime ≤ b.powering && b.broadcasts = 0,
      .poweringCountExpiry)]

/-- The events of a link whose moment has come: its silence, and the taking of its head. -/
def State.linkDue (s : State) (l : LinkId) : List Instr :=
  holding [((s.link l).any fun m => !m.silent && Config.silenceLimit ≤ m.silenceTimer, .silenceTimeout l)]
    ++ (s.headCommand l).toList

/-- Every event of the part's own whose moment has come (log 4). Readings, frames and port events come from outside. -/
def State.dueNow (s : State) : List Instr :=
  s.bankDue ++ allChans.flatMap s.channelDue ++ allPos.flatMap s.positionDue ++ allEntries.flatMap s.cacheDue ++ s.busDue
    ++ allLinks.flatMap s.linkDue

/-- Nothing whose moment has come is outstanding: the condition under which a millisecond passes in the part (R186, 0.5,
log 4). -/
def State.prompt (s : State) : Bool := s.dueNow.isEmpty

end Sys2Proof.Machine
end

