-- ==== Sys2Proof/WellFormed.lean ====
section
/-! DEFINITION. The commands that can occur: the limits the spec sets on what a frame or a sense can carry. -/

namespace Sys2Proof

/-- A CAN data frame holds at most eight bytes (chapter 10, opening). -/
def Request.frameFits (data : List Byte) : Bool := data.length ≤ 8

/-- A frame on a link: a standard identifier has 11 bits (R179), and the data are at most eight bytes. -/
def CanFrame.wf (f : CanFrame) : Bool := (f.extended || f.id < 2 ^ 11) && Request.frameFits f.data

/-- A sense reading lies in 0 to `top` in steps of 10 (R49, R50). -/
def readingFits (top v : Nat) : Bool := v ≤ top && v % 10 == 0

/-- A request whose fields hold values Table 10-3 gives. -/
def Request.wf : Request → Bool
  | .directoryQuery _ _ inst _ start =>
    (match inst with
      | some i => decide (i ≤ 15)
      | none => true) && decide (16 ≤ start ∧ start ≤ 127)
  | .lightingSet .. | .channelStatus .. | .channelClear .. | .tripRecordRead .. | .functionRead .. | .functionWrite ..
  | .watch .. | .positionRead .. | .nodeRead .. | .pin .. | .quarantine .. | .relearn .. | .mapRebuild
  | .profileForce .. | .freshnessSet .. | .workshopGrant .. | .eventExchange .. | .interestSet .. => true

/-- A command that can occur. -/
def Instr.wf : Instr → Bool
  | .requestArrival _ frame => frame.wf
  | .supplyReading mv => readingFits 40000 mv
  | .temperatureReading _ deg => decide (-40 ≤ deg ∧ deg ≤ 200)
  | .currentSample _ ma => readingFits 25000 ma
  | .backfeedCheck _ mv => readingFits 40000 mv
  | .cacheAgeExpiry (.single _) k => decide (k < 4)
  | .cacheAgeExpiry (.group _) k => decide (k < 1)
  | .trailerBusFrameReceived bytes _ => decide (bytes.length ≤ 12)
  | .powerOnReset .. | .malformedRequest .. | .lightingSet .. | .channelStatus .. | .channelClear ..
  | .tripRecordRead .. | .functionRead .. | .functionWrite .. | .watch .. | .directoryQuery .. | .positionRead ..
  | .nodeRead .. | .pin .. | .quarantine .. | .relearn .. | .mapRebuild .. | .profileForce .. | .freshnessSet ..
  | .workshopGrant .. | .eventExchange .. | .interestSet .. | .canFrameTransmitted .. | .canTransmitError ..
  | .busOffRecovery .. | .silenceTimeout .. | .codeSample .. | .position1DebounceExpiry | .tripCooldownExpiry ..
  | .streakTimerExpiry .. | .turnFlasherPhaseEnd | .emergencyFlasherPhaseEnd | .pwmPhaseEnd ..
  | .checkWindowComplete .. | .probeGapEnd | .probeAttemptComplete | .probeLimitExpiry | .settledOnlyComplete
  | .poweringCountExpiry | .coupledSecondTick .. | .pollTimerExpiry .. | .responseTimeout | .broadcastSent => true

end Sys2Proof
end

