-- ==== Sys2Proof/Certificates/Slice0/Obligations.lean ====
section
/-! DEFINITION. The statements for the provers. The rules they follow are those of spec/; a clause that rests on a
choice of the model names its log entry. Throughout, `settle` and `grantIfIdle` in a conclusion stand for the end of the
act as the model places it: the arbiter may grant a claim on an idle bus (log 12), and an attention frame that is due is
placed or owed (log 10, 11). -/

open Sys2Proof Sys2Proof.Machine

/-! ## The machine -/

/-- A step carries out the command at the front of the queue, on the state with the queue's rest. -/
def Obligations.StepRunsFrontCommand : Prop :=
  ∀ (s : State) (c : Instr) (rest : List Instr), s.pending = c :: rest → step s = exec c { s with pending := rest }

/-- On an empty queue a step is one millisecond in which timers run and nothing else happens (the model's choice, log
1): records, verdicts, deferred and posted work and the chain of positions stand, the cache ages, the silence timers and
a cooldown move on. -/
def Obligations.IdleStepIsOneMillisecond : Prop :=
  ∀ s : State, s.pending = [] → ∃ t, step s = .next t ∧ t.pending = [] ∧ t.light = s.light ∧ t.load = s.load ∧
    t.dec = s.dec ∧ (∀ p, (t.pos p).state = (s.pos p).state) ∧
    (∀ ref k sl, s.slot ref k = some sl → t.slot ref k = some { sl with age := min 65535 (sl.age + 1) }) ∧
    (∀ l m, s.link l = some m → t.link l = some { m with silenceTimer := min 1000 (m.silenceTimer + 1) }) ∧
    (∀ c, (s.chan c).state = .tripped → (t.chan c).cooldown = min 1000 ((s.chan c).cooldown + 1))

/-- Every command answers a next state and leaves the queue of waiting commands alone; so does every step. That a
command which cannot occur in the state at hand answers too is the model's choice (log 3), as it is that POWER_ON_RESET
keeps the queue (log 27). -/
def Obligations.EveryCommandAnswersNext : Prop :=
  (∀ (c : Instr) (s : State), ∃ t, exec c s = .next t ∧ t.pending = s.pending) ∧ ∀ s : State, ∃ t, step s = .next t

/-! ## Power-on reset -/

/-- POWER_ON_RESET: every position ABSENT, every entry invalid and every number unbound (R30); contacts open, the
setting AUTO, no profile; every channel OFF without demand, DERATED or BACKFEED, both backfeed counts, streak count and
streak timer 0, trip record empty and last settled mean 0, dark for longer than 40 ms, and no probe request held (R44);
the flashers idle at the normal rate, the supply inside; expected currents 0 and verdicts UNCHECKED; no transaction, no
claim, an empty search stack and no poll timer (R91); no debounce, bring-up, relearn or watch; command records empty,
the grant off, the rate normal; no deferred and no posted work. -/
def Obligations.PowerOnResetState : Prop :=
  ∀ (a b : Bool) (s : State), ∃ t, exec (.powerOnReset a b) s = .next t ∧
    (let unlearned := Tbl.fill 10 ({ settled := 0, peak := 0, clamped := false, cls := .none } : Contribution)
     ∀ p, t.pos p = {
      state := .absent, ident := none, repeater := none, singles := [], groups := [], contrib := unlearned
      shadow := unlearned, relearn := false, reasons := 0, coupledSeconds := 0 }) ∧
    (∀ ref, t.entry ref = none) ∧ (∀ n, t.binding n = none) ∧
    t.matrix.kaGrounded = false ∧ t.matrix.kbGrounded = false ∧ t.matrix.forced = .auto ∧ t.matrix.active = .none ∧
    (∀ c, let ch := t.chan c
      ch.state = .off ∧ ch.demand = .off ∧ ch.output = false ∧ ch.derated = false ∧ ch.backfeed = false ∧
        ch.highCount = 0 ∧ ch.lowCount = 0 ∧ ch.streakCount = 0 ∧ ch.streakTimer = 0 ∧ ch.trip = none ∧
        ch.settledMean = 0 ∧ 40 < ch.sinceOff) ∧
    t.bank.turn.running = false ∧ t.bank.turn.fast = false ∧ t.bank.emergency.running = false ∧
    t.bank.supplyInside = true ∧ t.bank.probe = none ∧
    (∀ l, t.load.expected.get l = 0 ∧ t.load.verdicts.get l = {
      kind := .unchecked, suspects := 0, attribution := 0, deviation := 0, pending := none, agreement := 0, lastM := 0
      lastPeak := 0 }) ∧
    t.bus.flight = none ∧ t.bus.class1 = [] ∧ t.bus.class2 = [] ∧ t.bus.stack = [] ∧
    (∀ p, t.bus.polls.get (posIdx p) = none) ∧
    t.det.effective = .none ∧ t.det.debounce = none ∧ t.det.bringUp = none ∧ t.det.relearn = none ∧
    t.det.couplingDemand = false ∧ (∀ p, t.det.watches.get (posIdx p) = none) ∧
    (∀ r, t.light.record r = 0) ∧ t.light.grant = false ∧ t.light.fast = false ∧ t.light.kind0 = .unchecked ∧
    t.light.kind1 = .unchecked ∧ t.dec.deferred = [] ∧ t.dec.posted = []

/-- The straps fix the roles of the links (Table 9-1), and every enabled link starts at the values of Table 9-2. -/
def Obligations.StrapsFixRoles : Prop :=
  ∀ (a b : Bool) (s : State), ∃ t, exec (.powerOnReset a b) s = .next t ∧
    (t.link .a).map (·.role) = some (match a, b with
      | false, _ => .body | true, false => .brake | true, true => .bench) ∧
    (t.link .b).map (·.role) = (match a, b with
      | false, false => some .brake | false, true => some .service | true, false => some .body | true, true => none) ∧
    (t.link .c).map (·.role) = (match a, b with
      | false, false => some .service | false, true => some .brake | true, false => some .service | true, true => none) ∧
    ∀ l m, t.link l = some m → m.busOff = false ∧ m.txErrors = 0 ∧ m.queue = [] ∧ m.buffer = [] ∧ m.owed = false ∧
      m.silenceTimer = 0 ∧ m.silent = false ∧ m.pending = 0 ∧ m.interest = BitVec.allOnes 16

/-- The laws that every step keeps hold right after reset, whatever the straps. -/
def Obligations.LawsHoldAtReset : Prop :=
  ∀ a b : Bool, (State.resetWith a b).bounded = true ∧ (State.resetWith a b).channelsLawful = true ∧
    (State.resetWith a b).chainLaw = true ∧ (State.resetWith a b).flashLaw = true ∧
    (State.resetWith a b).interestLaw = true

/-! ## Invariants that every step keeps -/

/-- The bounds of R182 on queues, Deferred List and Posted Write Buffer. -/
def Obligations.StepKeepsBounds : Prop :=
  ∀ s t : State, s.bounded = true → step s = .next t → t.bounded = true

/-- Table 3-2: the output of every channel is off in OFF, PROBE_GAP, TRIPPED, LATCHED and THERMAL_OFF and on in
PROBE_ON; and DERATED agrees with the temperature (R57, R58). -/
def Obligations.StepKeepsChannelsLawful : Prop :=
  ∀ s t : State, s.channelsLawful = true → step s = .next t → t.channelsLawful = true

/-- R123: if position 2 or 3 is not ABSENT, the position before it is ONLINE or DEGRADED. The law carries what it rests
on: a repeater watch stands for a ready position, the bring-up in progress for one in bring-up, the probe request held
for a live one. -/
def Obligations.StepKeepsChain : Prop :=
  ∀ s t : State, s.chainLaw = true → step s = .next t → t.chainLaw = true

/-- R154: the rate of the turn flasher is decided fast exactly while the verdict of CH0 or CH1 is LAMP_OUT. -/
def Obligations.StepKeepsFastFlash : Prop :=
  ∀ s t : State, s.flashLaw = true → step s = .next t → t.flashLaw = true

/-- R192: the pending set never holds a kind outside the interest set. -/
def Obligations.StepKeepsInterest : Prop :=
  ∀ s t : State, s.interestLaw = true → step s = .next t → t.interestLaw = true

/-! ## Frames -/

/-- A request's frame reads back as the request, for every well-formed request and every tag (Table 10-3); and a frame
that reads as a request is exactly that request's frame with the tag it carries, the request being well formed: no bit
of a frame is passed over (R187 (1), R195). -/
def Obligations.RequestFramesReadBack : Prop :=
  (∀ (tag : Byte) (r : Request), r.wf = true → parseRequest (requestFrame tag r) = some r) ∧
  ∀ (f : List Byte) (r : Request), parseRequest f = some r → f = requestFrame (byteAt f 1) r ∧ r.wf = true

/-- A trailer bus frame with the reply length of its command is taken as a reply with the payload it was built from, and
its CRC register ends at 0 over the whole frame (R92, R196). -/
def Obligations.BusFrameReadsBack : Prop :=
  ∀ (addr cmd : Nat) (payload : List Byte), cmd < 256 → payload.length = replyLength cmd →
    crc8 (busFrame addr cmd payload) = 0 ∧ replyPayload cmd (busFrame addr cmd payload) = some payload

/-- A content of up to 79 bytes leaves in frames of eight bytes, as many as R194 gives, whose headers carry kind, tag,
frame number, last number and, in the first, the status; the bytes after the headers are the content, filled with 0. -/
def Obligations.ReplyTrainCarriesContent : Prop :=
  ∀ (id : FrameId) (kind tag : Byte) (st : Status) (content : List Byte), content.length ≤ 79 →
    let fs := contentFrames id kind tag st content
    fs.length = (if content.length ≤ 4 then 1 else 1 + content.length / 5) ∧
    (∀ k fr, fs[k]? = some fr → fr.kind = id ∧ fr.data.length = 8 ∧
      fr.data.take 3 = [kind, tag, byteOf (16 * k + (fs.length - 1))]) ∧
    (fs.head?.map fun fr => byteAt fr.data 3) = some (byteOf st.code) ∧
    (fs.head?.map (fun fr => fr.data.drop 4)).getD [] ++ (fs.drop 1).flatMap (fun fr => fr.data.drop 3) =
      content ++ List.replicate (4 + 5 * (fs.length - 1) - content.length) 0

/-! ## Arrival and taking of requests -/

/-- REQUEST_ARRIVAL of a data frame with the standard identifier 0x6A0: the silence timer restarts; a frame of fewer
than two bytes is discarded, a full queue answers BUSY where there is free room, any other request joins the queue. A
frame with another identifier, an extended one or a remote frame is ignored, and does not restart the silence timer. A
disabled link and a port in bus-off receive nothing. -/
def Obligations.RequestArrives : Prop :=
  ∀ (l : LinkId) (f : CanFrame) (s : State), f.data.length ≤ 8 →
    let same := exec (.requestArrival l f) s = .next s
    (s.link l = none → same) ∧
    (f.id ≠ 0x6A0 ∨ f.extended = true ∨ f.remote = true → same) ∧
    ∀ m, s.link l = some m →
      (m.busOff = true → same) ∧
      (m.busOff = false → f.id = 0x6A0 → f.extended = false → f.remote = false →
        let heard := { m with silenceTimer := 0, silent := false }
        let becomes := fun (m' : Mlu) => exec (.requestArrival l f) s = .next (s.setLink l m')
        (f.data.length < 2 → becomes heard) ∧
        (2 ≤ f.data.length → m.queue.length < 4 → becomes { heard with queue := m.queue ++ [f.data] }) ∧
        (2 ≤ f.data.length → 4 ≤ m.queue.length → 1 ≤ s.freeRoom l m → becomes { heard with
          buffer := m.buffer ++ contentFrames .reply (byteAt f.data 0) (byteAt f.data 1) .busy [] }) ∧
        (2 ≤ f.data.length → 4 ≤ m.queue.length → s.freeRoom l m = 0 → becomes heard))

/-- A head that fails the form step is answered MALFORMED with bytes 0 and 1 as received, where one frame has room. A
well-formed head waits while its link's Deferred List entries hold the number it names or its room is not free: the
command that would take it changes nothing. A head that its role may not send (Table 9-4) is answered RIGHTS with no
contents. Nothing else changes in any of these (but that the arbiter may grant a claim on an idle bus). -/
def Obligations.HeadsRefusedOrWaiting : Prop :=
  ∀ (l : LinkId) (s : State) (m : Mlu) (f : List Byte) (rest : List (List Byte)), s.link l = some m →
    m.queue = f :: rest →
    (parseRequest f = none → m.busOff = false →
      (1 ≤ s.freeRoom l m → exec (.malformedRequest l) s = .next (s.setLink l { m with
        queue := rest, buffer := m.buffer ++ contentFrames .reply (byteAt f 0) (byteAt f 1) .malformed [] })) ∧
      (s.freeRoom l m = 0 → exec (.malformedRequest l) s = .next s)) ∧
    ∀ r, parseRequest f = some r →
      ((∃ n d, requestNumber r = some n ∧ d ∈ s.dec.deferred ∧ d.link = l ∧ d.number = n) ∨
          s.freeRoom l m < (reqKind r).room →
        exec (takeCommand l (reqKind r)) s = .next s ∨ exec (takeCommand l (reqKind r)) s = .next s.grantIfIdle) ∧
      (Head s l m f rest r →
        ((m.role = .brake ∧ reqKind r ∈ [ReqKind.channelClear, .tripRecordRead]) ∨
          ((m.role = .body ∨ m.role = .brake) ∧
            reqKind r ∈ [ReqKind.nodeRead, .quarantine, .relearn, .mapRebuild, .profileForce, .freshnessSet]) ∨
          ((m.role = .brake ∨ m.role = .service) ∧ reqKind r = .workshopGrant)) →
        exec (takeCommand l (reqKind r)) s = .next (s.answered l m rest (reqKind r) (byteAt f 1) .rights []) ∨
        exec (takeCommand l (reqKind r)) s =
          .next (s.answered l m rest (reqKind r) (byteAt f 1) .rights []).grantIfIdle)

/-! ## Requests answered from held state -/

/-- CHANNEL_STATUS, POSITION_READ and NODE_READ answer OK with the contents of Table 10-2 and change nothing; a
CHANNEL_STATUS of a number above 11 answers NO_FUNCTION. Every field of the three contents is stated, in the order of
the table. The model's choices: the flasher flags of an idle flasher and of a channel without one (log 23); 0 in the
fields that report nothing, the milliseconds left without a probe request, the pending suspect set without a candidate
and the bytes behind an ident (log 31); and the pending kind of a supply channel (log 37). -/
def Obligations.ReadsAnswerAsTabled : Prop :=
  ∀ (l : LinkId) (s : State) (m : Mlu) (f : List Byte) (rest : List (List Byte)),
    (∀ (b : Byte) (c : ChanId), Head s l m f rest (.channelStatus b) → b.toNat = c.val →
      exec (.channelStatus l) s = .next (s.answered l m rest .channelStatus (byteAt f 1) .ok (s.statusContent c))) ∧
    (∀ b : Byte, Head s l m f rest (.channelStatus b) → 12 ≤ b.toNat →
      exec (.channelStatus l) s = .next (s.answered l m rest .channelStatus (byteAt f 1) .noFunction [])) ∧
    (∀ p, Head s l m f rest (.positionRead p) →
      exec (.positionRead l) s = .next (s.answered l m rest .positionRead (byteAt f 1) .ok (s.positionContent p))) ∧
    (∀ ref, Head s l m f rest (.nodeRead ref) → m.role = .service ∨ m.role = .bench →
      exec (.nodeRead l) s = .next (s.answered l m rest .nodeRead (byteAt f 1) .ok (nodeContent ref (s.entry ref)))) ∧
    (∀ c, (s.statusContent c).length = 45 ∧
      let ch := s.chan c
      let fast := if s.bank.turn.running then s.bank.turn.fast else s.light.fast
      let onPhase := if c = 0 ∨ c = 1 then s.bank.turn.onPhase else if c = 2 then s.bank.emergency.onPhase else false
      ∃ condition left,
        ((∀ q, s.bank.probe = some q → lampChan q.lamp ≠ c) → condition = 0 ∧ left = 0) ∧
        (∀ q, s.bank.probe = some q → lampChan q.lamp = c → left = 10000 - q.elapsed ∧
          condition = match q.phase with | .postponed => 1 | .attempt => 2 | .settledOnly => 3) ∧
        let channel := [byteOf c.val,
            byteOf (bit (s.routed c) + 2 * bit ch.derated + 4 * bit ch.backfeed + 8 * bit s.bank.supplyInside
              + 16 * bit fast + 32 * bit onPhase),
            byteOf ch.state.code, byteOf ch.demand.code,
            if ch.state = .drive then byteOf ch.driveMode.code else 0xFF,
            byteOf ch.streakCount, byteOf (ch.temperature + 40).toNat] ++ bytes2 s.bank.supply ++
          [byteOf condition] ++ bytes2 left
        (c = 9 ∨ c = 10 → s.statusContent c = channel ++ [0xFF] ++ List.replicate 32 0) ∧
        ∀ l, c = lampChan l → ∀ kind suspects,
          ((s.load.verdicts.get l).pending = none → kind = 0xFF ∧ suspects = 0) →
          (∀ x, (s.load.verdicts.get l).pending = some x → kind = byteOf x.kind.code ∧ suspects = x.suspects.setWidth 8) →
          let v := s.load.verdicts.get l
          let e := s.load.expected.get l
          let share := fun (p : Pos) =>
            let x := (s.pos p).contrib.get l
            byteOf (128 * bit (s.ready p) + 8 * bit x.clamped + x.cls.code) :: (bytes2 x.settled ++ bytes2 x.peak)
          s.statusContent c = channel ++ [byteOf v.kind.code, v.suspects.setWidth 8, byteOf v.attribution] ++
            bytes3 v.deviation ++ [kind, suspects, byteOf v.agreement] ++ bytes2 v.lastM ++ bytes2 v.lastPeak ++
            bytes3 e ++ bytes2 (max 60 ((e + 8) / 16)) ++ share .p1 ++ share .p2 ++ share .p3) ∧
    (∀ p, (s.positionContent p).length = 76 ∧
      let r := s.pos p
      let nibble := fun (l : LampId) => (r.contrib.get l).cls.code + 8 * bit (r.contrib.get l).clamped
      ∃ singles groups : Nat, (∀ n, singles.testBit n = true ↔ ∃ i ∈ r.singles, i.val = n) ∧
        (∀ n, groups.testBit n = true ↔ ∃ j ∈ r.groups, j.val = n) ∧
        s.positionContent p = [byteOf r.state.code, byteOf (s.matrix.active.code + 4 * bit r.relearn + 8 * bit s.suspended),
            r.reasons.setWidth 8] ++ bytes2 r.coupledSeconds ++
          [match r.repeater with | some i => byteOf i.val | none => 0xFF,
            byteOf (match r.ident with | some x => x.length | none => 0)] ++
          ((r.ident.getD []) ++ List.replicate 17 0).take 17 ++ bytes2 (singles / 2 ^ 32) ++ bytes4 singles ++
          [byteOf groups] ++ allLamps.flatMap (fun l => bytes2 (r.contrib.get l).settled) ++
          allLamps.flatMap (fun l => bytes2 (r.contrib.get l).peak) ++
          [byteOf (nibble 0 + 16 * nibble 1), byteOf (nibble 2 + 16 * nibble 3), byteOf (nibble 4 + 16 * nibble 5),
            byteOf (nibble 6 + 16 * nibble 7), byteOf (nibble 8 + 16 * nibble 9)]) ∧
    (∀ ref, nodeContent ref none = [0]) ∧
    ∀ ref e, (nodeContent ref (some e)).length = 12 + 14 * e.slots.length ∧
      nodeContent ref (some e) = byteOf (1 + 2 * bit e.live + 4 * bit e.locked + 8 * bit e.used) ::
        (Word32.bytes e.nodeId ++ [byteOf e.addr, byteOf (posNumber e.pos), byteOf e.kind.code,
          byteOf (match ref with | .single _ => e.slots.length | .group _ => e.run), e.pins.setWidth 8,
          byteOf e.strikes, byteOf e.restarts] ++
        e.slots.flatMap fun sl => [byteOf (funCode sl.kind), byteOf sl.inst, byteOf (16 * sl.access.code + sl.unit.code)]
          ++ Word16.bytes sl.rangeMin ++ Word16.bytes sl.rangeMax ++
          [byteOf (match sl.number with | some n => n | none => 0), byteOf sl.quality.code] ++ bytes2 sl.window ++
          [byteOf (sl.watch.toNat + 16 * sl.changed.toNat)] ++ bytes2 sl.delta)

/-- EVENT_EXCHANGE answers with the pending set and the interest set as taken and the link's role, and then removes the
clear set from the pending set. INTEREST_SET sets the interest set, drops every pending kind outside it, and answers
with both sets. -/
def Obligations.EventAndInterestSets : Prop :=
  ∀ (l : LinkId) (s : State) (m : Mlu) (f : List Byte) (rest : List (List Byte)),
    (∀ clear : Word16, Head s l m f rest (.eventExchange clear) → exec (.eventExchange l) s =
      .next (s.answered l { m with pending := m.pending &&& ~~~ clear } rest .eventExchange (byteAt f 1) .ok
        (Word16.bytes m.pending ++ Word16.bytes m.interest ++
          [match m.role with | .body => (0 : Byte) | .brake => 1 | .service => 2 | .bench => 3]))) ∧
    ∀ interest : Word16, Head s l m f rest (.interestSet interest) → exec (.interestSet l) s =
      .next (s.answered l { m with interest := interest, pending := m.pending &&& interest } rest .interestSet
        (byteAt f 1) .ok (Word16.bytes interest ++ Word16.bytes (m.pending &&& interest)))

/-! ## Requests about channels -/

/-- TRIP_RECORD_READ: BODY with the clear option is answered RIGHTS before the number is looked at, a number above 11
NO_FUNCTION; otherwise the record is answered as it stood (an empty one as ten bytes 0, log 31), and the clear option
empties it. CHANNEL_CLEAR releases a LATCHED channel, with its streak at 0 and its trip record kept, to THERMAL_OFF at
170 degrees or more, without THERMAL (log 17), and otherwise to its demand, and tests a postponed probe request again,
on this channel or another (R64, R62), before it answers with the state that results; it changes nothing of a channel in
any other state. -/
def Obligations.TripRecordsAndClears : Prop :=
  ∀ (l : LinkId) (s : State) (m : Mlu) (f : List Byte) (rest : List (List Byte)) (b : Byte), m.role ≠ .brake →
    tripContent none = List.replicate 10 0 ∧
    (∀ clear : Bool, Head s l m f rest (.tripRecordRead b clear) →
      (m.role = .body → clear = true →
        exec (.tripRecordRead l) s = .next (s.answered l m rest .tripRecordRead (byteAt f 1) .rights [])) ∧
      (¬(m.role = .body ∧ clear = true) →
        (12 ≤ b.toNat →
          exec (.tripRecordRead l) s = .next (s.answered l m rest .tripRecordRead (byteAt f 1) .noFunction [])) ∧
        ∀ c : ChanId, b.toNat = c.val → exec (.tripRecordRead l) s =
          .next ((if clear then s.putChan c { s.chan c with trip := none } else s).answered l m rest .tripRecordRead
            (byteAt f 1) .ok (tripContent (s.chan c).trip)))) ∧
    (Head s l m f rest (.channelClear b) →
      (12 ≤ b.toNat →
        exec (.channelClear l) s = .next (s.answered l m rest .channelClear (byteAt f 1) .noFunction [])) ∧
      ∀ c : ChanId, b.toNat = c.val →
        ((s.chan c).state ≠ .latched → exec (.channelClear l) s = .next (s.answered l m rest .channelClear
          (byteAt f 1) .ok [byteOf (s.chan c).state.code, byteOf (s.chan c).streakCount])) ∧
        ((s.chan c).state = .latched →
          let answer := fun (u : State) (ch : Channel) => exec (.channelClear l) s =
            .next (u.answered l m rest .channelClear (byteAt f 1) .ok [byteOf ch.state.code, 0])
          let cleared := { s.chan c with streakCount := 0, streakTimer := 0 }
          ∃ ch, (170 ≤ cleared.temperature → ch.state = .thermalOff ∧ ch.output = cleared.output ∧
              ch.demand = cleared.demand ∧ ch.held = cleared.held) ∧
            (cleared.temperature < 170 → cleared.Took (s.routed c) (s.wantsOn cleared.demand) ch) ∧
            ((∀ q, s.bank.probe = some q → q.phase ≠ .postponed) → answer (s.putChan c ch) ch) ∧
            ∀ q, s.bank.probe = some q → q.phase = .postponed →
              ∃ w, ProbeTested (s.putChan c ch) w q ∧ answer w (w.chan c)))

/-! ## Lighting -/

/-- The demand of every channel as section 7.6 forms it from the effective states and the coupling demand. -/
def Obligations.DemandFollowsEffectiveStates : Prop :=
  ∀ (eff : FunctionSet) (coupling : Bool),
    let on := fun n => hasBit eff n
    let steady := fun (b : Bool) => if b then Demand.steady else Demand.off
    demandOf eff coupling 0 = (if on 0 || on 12 then .flashTurn else .off) ∧
    demandOf eff coupling 1 = (if on 1 || on 12 then .flashTurn else .off) ∧
    demandOf eff coupling 2 = (if on 13 then .flashEmergency else steady (on 2)) ∧
    demandOf eff coupling 3 = steady (on 3 || on 14) ∧
    demandOf eff coupling 4 = steady (on 4 || on 14) ∧
    demandOf eff coupling 5 = steady (on 5 || on 14) ∧
    demandOf eff coupling 6 = steady (on 6) ∧ demandOf eff coupling 7 = steady (on 7) ∧
    demandOf eff coupling 8 = steady (on 8) ∧ demandOf eff coupling 9 = steady (on 9 || coupling) ∧
    demandOf eff coupling 10 = steady (on 10) ∧ demandOf eff coupling 11 = steady (on 11)

/-- A LIGHTING_SET within its sender's rights is carried out whole: each named function takes the state asked for in the
sender's record, every channel holds the demand that follows, and the answer is OK or DARK with record, effective states
and dark set. Other records, the grant, the Matrix, the Node Table and what protects the channels stand. One that names
number 15 is answered NO_FUNCTION, and one that names a function outside its sender's rights RIGHTS with the named
functions outside them; no record changes then. -/
def Obligations.LightingSetDone : Prop :=
  ∀ (l : LinkId) (s : State) (m : Mlu) (f : List Byte) (rest : List (List Byte)) (named asked : Word16),
    Head s l m f rest (.lightingSet named asked) →
    (s.chainLaw = true → named.getLsbD 15 = false →
      (m.role = .brake → ∀ n, n < 15 → named.getLsbD n = true → n = 2 ∨ n = 13) →
      (m.role = .service → s.light.grant = true ∨ ∀ n, n < 15 → named.getLsbD n = false) →
      let names := named.setWidth 15
      let record := (s.light.record m.role.role &&& ~~~ names) ||| (names &&& asked.setWidth 15)
      let u := { s with light := s.light.setRecord m.role.role record }
      let dark := s.darkSet names
      (∀ n, n < 15 → (dark.getLsbD n = true ↔ named.getLsbD n = true ∧ ∃ c ∈ functionChans n, s.routed c = false)) ∧
      ∃ t, exec (.lightingSet l) s = .next t ∧ (∀ c, (t.chan c).demand = demandOf u.effective s.det.couplingDemand c) ∧
        Undisturbed (u.answered l m rest .lightingSet (byteAt f 1) (if dark = 0 then .ok else .dark)
          (functionBytes record ++ functionBytes u.effective ++ functionBytes dark)) t) ∧
    (named.getLsbD 15 = true →
      exec (.lightingSet l) s = .next (s.answered l m rest .lightingSet (byteAt f 1) .noFunction []).grantIfIdle) ∧
    (named.getLsbD 15 = false → ∀ outside : FunctionSet, outside ≠ 0 →
      (∀ n, n < 15 → (outside.getLsbD n = true ↔ named.getLsbD n = true ∧
        ((m.role = .brake ∧ n ≠ 2 ∧ n ≠ 13) ∨ (m.role = .service ∧ s.light.grant = false)))) →
      exec (.lightingSet l) s =
        .next (s.answered l m rest .lightingSet (byteAt f 1) .rights (functionBytes outside)).grantIfIdle)

/-- A LIGHTING_SET within its sender's rights forms the demands. The turn flasher starts with an on-phase, at the rate
decided, where CH0 or CH1 is now to flash and neither did, runs on where it ran, and is idle where neither is to flash;
the emergency flasher does the same for CH2. A channel whose demand does not change is handed nothing. Where it changes,
an OFF channel that is routed enters DRIVE, its output on at once under STEADY and in an on-phase; a driven one whose
demand ends goes to OFF, output off; one that stays in DRIVE takes the new mode with its output, under DERATED by the
pattern, which starts anew with an emergency on-phase and where the old mode had the output off (the model's choice, log
16); any other holds the demand. Output edges restart what R46 says. Then a probe request whose channel's demand changed
is struck: a postponed one tested again (R64), an attempt abandoned (R66), a settled-only measurement failed (R65). `x`
is the part with the demands handed over, `w` the part after the strike; nothing is learned or judged but by that. -/
def Obligations.ChannelsActOnDemand : Prop :=
  ∀ (l : LinkId) (s : State) (m : Mlu) (f : List Byte) (rest : List (List Byte)) (named asked : Word16),
    Head s l m f rest (.lightingSet named asked) → named.getLsbD 15 = false →
    (m.role = .brake → ∀ n, n < 15 → named.getLsbD n = true → n = 2 ∨ n = 13) →
    (m.role = .service → s.light.grant = true ∨ ∀ n, n < 15 → named.getLsbD n = false) →
    let names := named.setWidth 15
    let record := (s.light.record m.role.role &&& ~~~ names) ||| (names &&& asked.setWidth 15)
    let u := { s with light := s.light.setRecord m.role.role record }
    let d := demandOf u.effective s.det.couplingDemand
    let paced := fun (wanted : Prop) (fast : Bool) (f f' : Flasher) =>
      (wanted → f.running = true → f' = f) ∧
      (wanted → f.running = false → f' = { running := true, onPhase := true, age := 0, fast := fast }) ∧
      (¬wanted → f' = {})
    ∃ t w x, exec (.lightingSet l) s = .next t ∧ t.bank = w.bank ∧ t.map = w.map ∧ t.load = w.load ∧
      x.map = s.map ∧ x.load = s.load ∧ x.matrix = s.matrix ∧ x.bank.probe = s.bank.probe ∧
      x.bank.supply = s.bank.supply ∧ x.bank.supplyInside = s.bank.supplyInside ∧
      paced (d 0 = .flashTurn ∨ d 1 = .flashTurn) s.light.fast s.bank.turn x.bank.turn ∧
      paced (d 2 = .flashEmergency) false s.bank.emergency x.bank.emergency ∧
      (∀ c, let ch := s.chan c
        let ch' := x.chan c
        let handed := { ch with demand := d c }
        (d c = ch.demand → ch' = ch) ∧
        (d c ≠ ch.demand →
          (ch.state = .off ∨ ch.state = .drive ∧ d c = .off → handed.Took (s.routed c) (x.wantsOn (d c)) ch') ∧
          (ch.state = .drive → d c ≠ .off →
            ch'.state = .drive ∧ ch'.demand = d c ∧ ch'.held = ch.held ∧ ch.Switched ch' ∧
            let anew := ch.derated = true ∧ (d c = .flashEmergency ∨ s.wantsOn ch.demand = false)
            (ch.derated = false ∨ anew → ch'.output = x.wantsOn (d c)) ∧
            (anew → ch'.pwmOn = true ∧ ch'.pwmAge = 0) ∧
            (ch.derated = true → ¬anew →
              ch'.output = (x.wantsOn (d c) && ch.pwmOn) ∧ ch'.pwmOn = ch.pwmOn ∧ ch'.pwmAge = ch.pwmAge)) ∧
          (ch.state ≠ .off → ch.state ≠ .drive → ch' = handed))) ∧
      ((∀ q, s.bank.probe = some q → d (lampChan q.lamp) = (s.chan (lampChan q.lamp)).demand) → w = x) ∧
      ∀ q, s.bank.probe = some q → d (lampChan q.lamp) ≠ (s.chan (lampChan q.lamp)).demand → ProbeStruck x w q

/-- WORKSHOP_GRANT from BODY or a BENCH link: on sets the grant and nothing else; off clears the SERVICE record and
every channel holds the demand that follows. The reply carries the grant. -/
def Obligations.WorkshopGrantSet : Prop :=
  ∀ (l : LinkId) (s : State) (m : Mlu) (f : List Byte) (rest : List (List Byte)) (on : Bool),
    Head s l m f rest (.workshopGrant on) → m.role = .body ∨ m.role = .bench →
    (on = true → exec (.workshopGrant l) s = .next
      ({ s with light := { s.light with grant := true } }.answered l m rest .workshopGrant (byteAt f 1) .ok
        [1]).grantIfIdle) ∧
    (on = false → s.chainLaw = true →
      let u := { s with light := { s.light with grant := false, service := 0 } }
      ∃ t, exec (.workshopGrant l) s = .next t ∧ (∀ c, (t.chan c).demand = demandOf u.effective s.det.couplingDemand c) ∧
        Undisturbed (u.answered l m rest .workshopGrant (byteAt f 1) .ok [0]) t)

/-! ## Requests about numbered functions -/

/-- A request that names a number: one outside 16 to 127, or bound to no slot, is answered NO_FUNCTION, and nothing
changes; a request on a stale entry is answered GONE and one on a position in bring-up RETRY, its entry then marked
used. -/
def Obligations.NumbersDecoded : Prop :=
  ∀ (l : LinkId) (s : State) (m : Mlu) (f : List Byte) (rest : List (List Byte)) (r : Request) (b : Byte),
    Head s l m f rest r → requestNumber r = some b.toNat → roleMay m.role (reqKind r) = true →
    let reply := fun (u : State) (st : Status) => u.answered l m rest (reqKind r) (byteAt f 1) st []
    let answers := fun (u : State) =>
      exec (takeCommand l (reqKind r)) s = .next u ∨ exec (takeCommand l (reqKind r)) s = .next u.grantIfIdle
    (b.toNat < 16 ∨ 127 < b.toNat ∨ s.binding b.toNat = none → answers (reply s .noFunction)) ∧
    ∀ ref k e sl, Names s b ref k e sl → (reqKind r = .functionWrite → mayWrite m.role sl = true) →
      (e.live = false → reqKind r ≠ .pin → reqKind r ≠ .quarantine →
        answers (reply (s.setEntry ref (some (e.served k sl))) .gone)) ∧
      (e.live = true → s.ready e.pos = false → answers (reply (s.setEntry ref (some (e.served k sl))) .retry))

/-- A served FUNCTION_READ of a GOOD slot, or of a locked-out entry with quality FAILED, is answered from the cache, and
the reader's role leaves the changed-since-read set. One of a slot that is not GOOD is refused TAG_IN_USE where its link
has the tag in the Deferred List, BUSY where the list or the link's four places are full, and else becomes a waiting
entry at the tail, answered DEFERRED. -/
def Obligations.FunctionReadAnswers : Prop :=
  ∀ (l : LinkId) (s : State) (m : Mlu) (f : List Byte) (rest : List (List Byte)) (b : Byte) (ref : EntryRef) (k : Nat)
    (e : Entry) (sl : Slot), Head s l m f rest (.functionRead b) → Names s b ref k e sl → e.live = true →
    s.ready e.pos = true →
    (e.locked = true ∨ sl.quality = .good → exec (.functionRead l) s = .next
      ((s.setEntry ref (some (e.served k { sl with changed := dropBit sl.changed (roleBit m.role.role) }))).answered l m
        rest .functionRead (byteAt f 1) .ok
        ([byteOf (if e.locked then 2 else 0), byteOf sl.unit.code] ++ bytes2 sl.age ++
          byteOf sl.cache.length :: sl.cache.flatMap Word16.bytes)).grantIfIdle) ∧
    (e.locked = false → sl.quality ≠ .good →
      let u := s.setEntry ref (some (e.served k sl))
      let inUse := ∃ d ∈ s.dec.deferred, d.link = l ∧ d.tag = byteAt f 1
      let full := s.dec.deferred.length ≥ 8 ∨ (s.deferredOf l).length ≥ 4
      (inUse → exec (.functionRead l) s =
        .next (u.answered l m rest .functionRead (byteAt f 1) .tagInUse []).grantIfIdle) ∧
      (¬inUse → full → exec (.functionRead l) s =
        .next (u.answered l m rest .functionRead (byteAt f 1) .busy []).grantIfIdle) ∧
      (¬inUse → ¬full → exec (.functionRead l) s = .next
        ({ u with dec := { u.dec with deferred := u.dec.deferred ++ [({
            link := l, tag := byteAt f 1, number := b.toNat, value := none,
            reserved := frameCount (1 + 2 * sl.cache.length) } : Deferred)] } }.answered l m rest .functionRead
          (byteAt f 1) .deferred []).grantIfIdle))

/-- FUNCTION_WRITE without the right over its slot is answered RIGHTS, and the entry is not marked used; with it, a
locked-out entry answers GONE. The write of an actuator in service is deferred with its clamped value, or refused
TAG_IN_USE or BUSY. A setting write is answered ACCEPTED with its clamped value: it replaces value and poster of the
number's posted entry, keeping its place and what is in flight, or joins the tail of a buffer of fewer than eight; else
it is answered BUSY and nothing is posted. -/
def Obligations.FunctionWriteAnswers : Prop :=
  ∀ (l : LinkId) (s : State) (m : Mlu) (f : List Byte) (rest : List (List Byte)) (b : Byte) (v : Word16)
    (ref : EntryRef) (k : Nat) (e : Entry) (sl : Slot), Head s l m f rest (.functionWrite b v) → Names s b ref k e sl →
    let may := (sl.access = .actuator ∧ (sl.kind = .liftAxle ↔ m.role = .brake)) ∨
      (sl.access = .setting ∧ m.role ≠ .brake)
    let value := if v.toInt < sl.rangeMin.toInt then sl.rangeMin
      else if sl.rangeMax.toInt < v.toInt then sl.rangeMax else v
    let u := s.setEntry ref (some (e.served k sl))
    let inUse := ∃ d ∈ s.dec.deferred, d.link = l ∧ d.tag = byteAt f 1
    let full := s.dec.deferred.length ≥ 8 ∨ (s.deferredOf l).length ≥ 4
    (¬may → exec (.functionWrite l) s =
      .next (s.answered l m rest .functionWrite (byteAt f 1) .rights []).grantIfIdle) ∧
    (may → e.live = true → s.ready e.pos = true → e.locked = true → exec (.functionWrite l) s =
      .next (u.answered l m rest .functionWrite (byteAt f 1) .gone []).grantIfIdle) ∧
    (may → sl.access = .actuator → e.live = true → s.ready e.pos = true → e.locked = false →
      (inUse → exec (.functionWrite l) s =
        .next (u.answered l m rest .functionWrite (byteAt f 1) .tagInUse []).grantIfIdle) ∧
      (¬inUse → full → exec (.functionWrite l) s =
        .next (u.answered l m rest .functionWrite (byteAt f 1) .busy []).grantIfIdle) ∧
      (¬inUse → ¬full → exec (.functionWrite l) s = .next
        ({ u with dec := { u.dec with deferred := u.dec.deferred ++ [({
            link := l, tag := byteAt f 1, number := b.toNat, value := some value, reserved := 1 } :
            Deferred)] } }.answered
          l m rest .functionWrite (byteAt f 1) .deferred (Word16.bytes value)).grantIfIdle)) ∧
    (may → sl.access = .setting → e.live = true → s.ready e.pos = true → e.locked = false →
      let accept := fun (posted : List Posted) =>
        ({ u with dec := { u.dec with posted := posted } }.answered l m rest .functionWrite (byteAt f 1) .accepted
          (Word16.bytes value)).grantIfIdle
      ((∃ p ∈ s.dec.posted, p.number = b.toNat) → exec (.functionWrite l) s =
        .next (accept (s.dec.posted.map fun p =>
          if p.number = b.toNat then
            { p with value := value, poster := m.role.role, replaced := p.carried.isSome }
          else p))) ∧
      ((∀ p ∈ s.dec.posted, p.number ≠ b.toNat) → s.dec.posted.length < 8 → exec (.functionWrite l) s =
        .next (accept (s.dec.posted ++ [{ number := b.toNat, value := value, poster := m.role.role }]))) ∧
      ((∀ p ∈ s.dec.posted, p.number ≠ b.toNat) → 8 ≤ s.dec.posted.length → exec (.functionWrite l) s =
        .next (u.answered l m rest .functionWrite (byteAt f 1) .busy []).grantIfIdle))

/-- A served WATCH adds the sender's role to the slot's watch set or takes it out of that and the changed-since-read
set, sets the delta, 0 taken as 1, and answers with both. A first watcher sets the last reported value to the cached
one; where a group's sum lies outside 16 bits that value is open (log 13). -/
def Obligations.WatchSets : Prop :=
  ∀ (l : LinkId) (s : State) (m : Mlu) (f : List Byte) (rest : List (List Byte)) (b : Byte) (add : Bool)
    (delta : Word16) (ref : EntryRef) (k : Nat) (e : Entry) (sl : Slot), Head s l m f rest (.watch b add delta) →
    Names s b ref k e sl → e.live = true → s.ready e.pos = true →
    let role := roleBit m.role.role
    let watch := if add then addBit sl.watch role else dropBit sl.watch role
    let changed := if add then sl.changed else dropBit sl.changed role
    ∃ reported n, exec (.watch l) s = .next
        (({ s with freeCount := n }.setEntry ref (some (e.served k
          { sl with watch := watch, changed := changed, delta := max 1 delta.toNat, lastReported := reported }))).answered
            l m rest .watch (byteAt f 1) .ok (watch.setWidth 8 :: bytes2 (max 1 delta.toNat))).grantIfIdle ∧
      (add = false ∨ sl.watch ≠ 0 → reported = sl.lastReported ∧ n = s.freeCount) ∧
      (add = true → sl.watch = 0 → -32768 ≤ sl.total → sl.total ≤ 32767 →
        reported.toInt = sl.total ∧ n = s.freeCount)

/-- DIRECTORY_QUERY answers OK with the numbers that match, ascending from the start number, the first 64 of them, and
the next one where there are more; with changed-only set the asker's role leaves the changed-since-read set of each
number listed. Nothing else changes. -/
def Obligations.DirectoryQueryLists : Prop :=
  ∀ (l : LinkId) (s : State) (m : Mlu) (f : List Byte) (rest : List (List Byte)) (pos : Option Pos)
    (kind : Option FunKind) (inst : Option Nat) (changedOnly : Bool) (start : Nat),
    Head s l m f rest (.directoryQuery pos kind inst changedOnly start) →
    let role := roleBit m.role.role
    ∃ all : List Nat, all.Pairwise (· < ·) ∧
      (∀ n, n ∈ all ↔ start ≤ n ∧ n ≤ 127 ∧ ∃ ref e sl, s.entry ref = some e ∧ e.live = true ∧ s.ready e.pos = true ∧
        sl ∈ e.slots ∧ sl.number = some n ∧ (∀ p, pos = some p → p = e.pos) ∧ (∀ x, kind = some x → x = sl.kind) ∧
        (∀ i, inst = some i → i = sl.inst) ∧ (changedOnly = true → hasBit sl.changed role = true)) ∧
      let listed := all.take 64
      exec (.directoryQuery l) s = .next
        ((if changedOnly then s.mapEntries fun e => { e with slots := e.slots.map fun sl =>
            if (sl.number.any fun n => listed.contains n) then { sl with changed := dropBit sl.changed role } else sl }
          else s).answered
          l m rest .directoryQuery (byteAt f 1) .ok
          (byteOf listed.length :: byteOf ((all.drop 64).headD 0) :: listed.map byteOf))

/-- PIN adds the sender's role to the pin set of the entry or takes it out, answered OK with the set while the entry is
live and its position ready, and GONE with the set, the change made all the same, while it is stale. FRESHNESS_SET from
SERVICE clamps its window to 100 to 60,000 ms, sets the slot's to it, makes a GOOD slot older than it STALE at once, and
answers OK with it. -/
def Obligations.PinAndFreshnessSet : Prop :=
  ∀ (l : LinkId) (s : State) (m : Mlu) (f : List Byte) (rest : List (List Byte)) (b : Byte) (ref : EntryRef) (k : Nat)
    (e : Entry) (sl : Slot), Names s b ref k e sl →
    (∀ set : Bool, Head s l m f rest (.pin b set) → (e.live = true → s.ready e.pos = true) →
      let role := roleBit m.role.role
      let pins := if set then addBit e.pins role else dropBit e.pins role
      exec (.pin l) s = .next ((s.setEntry ref (some { e with used := true, pins := pins })).answered l m rest .pin
        (byteAt f 1) (if e.live then .ok else .gone) [pins.setWidth 8])) ∧
    ∀ w : Word16, Head s l m f rest (.freshnessSet b w) → m.role = .service ∨ m.role = .bench → e.live = true →
      s.ready e.pos = true →
      let window := if w.toNat < 100 then 100 else if 60000 < w.toNat then 60000 else w.toNat
      let quality := if sl.quality = .good ∧ window < sl.age then .stale else sl.quality
      exec (.freshnessSet l) s = .next
        ((s.setEntry ref (some (e.served k { sl with window := window, quality := quality }))).answered l m rest
          .freshnessSet (byteAt f 1) .ok (bytes2 window)).grantIfIdle

/-! ## The end of an act, and the ports -/

/-- The end of an act: a link whose pending set the act took from empty to non-empty gets one attention frame with that
set, where its buffer holds none and has room, or owes it; a port in bus-off gets none. Nothing else changes. -/
def Obligations.EndOfActAttends : Prop :=
  ∀ before after : State, let t := before.finish after
    t = { after with links := t.links } ∧ t.links.strap1 = after.links.strap1 ∧ t.links.strap0 = after.links.strap0 ∧
    (∀ l, after.link l = none → t.link l = none) ∧
    ∀ l m m', before.link l = some m → after.link l = some m' →
      let holds := ∃ fr ∈ m'.buffer, fr.kind = .attention
      let due := m.pending = 0 ∧ m'.pending ≠ 0 ∧ m'.busOff = false
      (¬due ∨ holds → t.link l = some m') ∧
      (due → ¬holds → 1 ≤ after.freeRoom l m' → t.link l =
        some { m' with buffer := m'.buffer ++ [⟨.attention, Word16.bytes m'.pending⟩], owed := false }) ∧
      (due → ¬holds → after.freeRoom l m' = 0 → t.link l = some { m' with owed := true })

/-- The arbiter grants on an idle bus with the data pair routed, and then the oldest claim of the lowest class: class 1,
class 2, the first waiting deferred write, the first waiting deferred read, the head of the Posted Write Buffer, and the
refresh of a due slot, the one with the lowest number. It changes nothing but what the grant takes and sends: of the two
collections, the granted entry alone is marked, by the link and tag or the number that no other entry has (R182). -/
def Obligations.ArbiterGrantsInOrder : Prop :=
  ∀ s : State, let t := s.grantIfIdle
    let sent := fun (x : Txn) => some ({ txn := x, frame := s.requestOf x } : InFlight)
    let granted := fun (d : Deferred) (x : Txn) => { s with
      bus := { s.bus with flight := sent x }
      dec := { s.dec with deferred := s.dec.deferred.map fun y : Deferred =>
        if y.link = d.link ∧ y.tag = d.tag then { y with inFlight := true } else y } }
    t = { s with bus := t.bus, dec := t.dec } ∧
    ((s.matrix.active = .none ∨ s.matrix.active = .s ∨ s.bus.flight ≠ none) → t = s) ∧
    ((s.matrix.active = .l ∨ s.matrix.active = .d) → s.bus.flight = none →
      (∀ x rest, s.bus.class1 = x :: rest → t = { s with bus := { s.bus with class1 := rest, flight := sent x } }) ∧
      (s.bus.class1 = [] → ∀ x rest, s.bus.class2 = x :: rest →
        t = { s with bus := { s.bus with class2 := rest, flight := sent x } }) ∧
      (s.bus.class1 = [] → s.bus.class2 = [] →
        let waits := fun (write : Bool) (d : Deferred) => d.inFlight = false ∧ d.value.isSome = write
        (∀ front d back v ref k, s.dec.deferred = front ++ d :: back → (∀ x ∈ front, ¬waits true x) →
          d.inFlight = false → d.value = some v → s.binding d.number = some (ref, k) →
          t = granted d (.write ref k v (.deferred d.link d.tag))) ∧
        ((∀ x ∈ s.dec.deferred, ¬waits true x) →
          (∀ front d back ref k, s.dec.deferred = front ++ d :: back → (∀ x ∈ front, ¬waits false x) →
            d.inFlight = false → d.value = none → s.binding d.number = some (ref, k) →
            t = granted d (.read ref k (some (d.link, d.tag)))) ∧
          ((∀ x ∈ s.dec.deferred, ¬waits false x) →
            (∀ p rest ref k, s.dec.posted = p :: rest → p.carried = none → s.binding p.number = some (ref, k) →
              t = { s with
                bus := { s.bus with flight := sent (.write ref k p.value (.posted p.number)) }
                dec := { s.dec with posted := s.dec.posted.map fun y : Posted =>
                  if y.number = p.number then { y with carried := some (y.value, y.poster), replaced := false } else y } }) ∧
            ((∀ p rest, s.dec.posted = p :: rest → p.carried ≠ none) →
              (s.allDue = [] → t = s) ∧
              (∀ ref k rest, s.allDue = (ref, k, none) :: rest → (∀ x ∈ rest, x.2.2 = none) →
                t = { s with bus := { s.bus with flight := sent (.read ref k none) } }) ∧
              ∀ ref k n, (ref, k, some n) ∈ s.allDue → (∀ x ∈ s.allDue, ∀ y, x.2.2 = some y → n < y ∨ x = (ref, k, some n)) →
                t = { s with bus := { s.bus with flight := sent (.read ref k none) } })))))

/-- A port sends the frame at the head of its buffer as a standard data frame: replies and trains with identifier 0x6A1,
completions with 0x6A2, attention frames with 0x6A3. CAN_FRAME_TRANSMITTED takes that frame from the buffer, lowers a
non-zero transmit error count by 1, and places an owed attention frame in the place it frees. CAN_TRANSMIT_ERROR raises
the count by 8 and, past 255, sends the port to bus-off: queue and buffer emptied, its Deferred List entries and its
owed frame gone, its transaction in flight marked. BUS_OFF_RECOVERY makes the port active with count 0. Nothing happens
where there is no frame, or no bus-off (log 3). The model's choices: an owed frame is served by another attention frame
in the buffer (log 11), the count stands in bus-off (log 30), and the recovery comes at its command (log 26). -/
def Obligations.PortEvents : Prop :=
  ∀ (l : LinkId) (s : State),
    (s.link l = none → ∀ c ∈ [Instr.canFrameTransmitted l, .canTransmitError l, .busOffRecovery l], exec c s = .next s) ∧
    ∀ m, s.link l = some m →
      (m.buffer = [] → s.sending l = none ∧ exec (.canFrameTransmitted l) s = .next s ∧
        exec (.canTransmitError l) s = .next s) ∧
      (∀ fr rest, m.buffer = fr :: rest →
        s.sending l = some {
          id := match fr.kind with | .reply => 0x6A1 | .completion => 0x6A2 | .attention => 0x6A3
          extended := false, remote := false, data := fr.data } ∧
        let sent := { m with buffer := rest, txErrors := m.txErrors - 1 }
        let holds := ∃ x ∈ rest, x.kind = .attention
        (m.owed = false → exec (.canFrameTransmitted l) s = .next (s.setLink l sent)) ∧
        (m.owed = true → holds → exec (.canFrameTransmitted l) s = .next (s.setLink l { sent with owed := false })) ∧
        (m.owed = true → ¬holds → exec (.canFrameTransmitted l) s = .next (s.setLink l
          { sent with owed := false, buffer := rest ++ [⟨.attention, Word16.bytes m.pending⟩] }))) ∧
      (m.buffer ≠ [] → m.txErrors + 8 ≤ 255 →
        exec (.canTransmitError l) s = .next (s.setLink l { m with txErrors := m.txErrors + 8 })) ∧
      (m.buffer ≠ [] → 255 < m.txErrors + 8 → exec (.canTransmitError l) s = .next
        ({ s with
            dec := { s.dec with deferred := s.dec.deferred.filter fun d => d.link ≠ l }
            bus := { s.bus with flight := s.bus.flight.map fun f : InFlight =>
              if f.txn.ownerLink = some l ∧ f.discard = Discard.kept then { f with discard := .busOff } else f } }.setLink l
          { m with busOff := true, queue := [], buffer := [], owed := false })) ∧
      (m.busOff = true → exec (.busOffRecovery l) s = .next (s.setLink l { m with busOff := false, txErrors := 0 })) ∧
      (m.busOff = false → exec (.busOffRecovery l) s = .next s)

/-- SILENCE_TIMEOUT at 1,000 ms makes the link silent and clears of its role's record the functions 0, 1 and 12 for
BODY, 2 and 13 for BRAKE, and all for SERVICE; every channel holds the demand that follows, and the links of the other
roles are told. A link that is silent already, or disabled, is left as it is (log 3). -/
def Obligations.SilenceClears : Prop :=
  ∀ (l : LinkId) (s : State), (s.link l = none → exec (.silenceTimeout l) s = .next s) ∧
    ∀ m, s.link l = some m →
      (m.silent = true → exec (.silenceTimeout l) s = .next s) ∧
      (m.silent = false → 1000 ≤ m.silenceTimer → s.chainLaw = true → ∀ record : FunctionSet,
        (∀ n, n < 15 → (record.getLsbD n = true ↔ (s.light.record m.role.role).getLsbD n = true ∧ match m.role with
          | .body => n ≠ 0 ∧ n ≠ 1 ∧ n ≠ 12
          | .brake => n ≠ 2 ∧ n ≠ 13
          | .service | .bench => False)) →
        let u := { s with light := s.light.setRecord m.role.role record }
        ∃ t, exec (.silenceTimeout l) s = .next t ∧
          Undisturbed (u.setLink l { m with silent := true }) t ∧
          (∀ c, (t.chan c).demand = demandOf u.effective s.det.couplingDemand c) ∧
          ∀ j mj, s.link j = some mj → mj.role.role ≠ m.role.role → hasBit mj.interest 15 = true →
            ∃ m', t.link j = some m' ∧ hasBit m'.pending 15 = true)

/-! ## Contacts and readings -/

/-- CODE_SAMPLE reads each contact grounded below 2,000 mV, open above 4,000 mV, and as before between. A changed
effective code state goes to the Detector, whose debounce starts again: 500 ms toward NONE and 200 ms toward another
profile than the active one while position 1 is live, 200 ms toward any profile while it is ABSENT. -/
def Obligations.CodeSampled : Prop :=
  ∀ (ka kb : Nat) (s : State), 5 ≤ s.matrix.sampleAge →
    let read := fun (was : Bool) (mv : Nat) => if mv < 2000 then true else if mv ≤ 4000 then was else false
    let a := read s.matrix.kaGrounded ka
    let b := read s.matrix.kbGrounded kb
    let whenCoupled := fun (p : Profile) => if a || b then p else .none
    let e : Profile := match s.matrix.forced with
      | .auto => match a, b with
        | false, false => .none | true, false => .s | true, true => .l | false, true => .d
      | .s => whenCoupled .s | .l => whenCoupled .l | .d => whenCoupled .d
    let u := { s with matrix := { s.matrix with kaGrounded := a, kbGrounded := b, sampleAge := 0 } }
    let debounce : Option Debounce :=
      if s.live .p1 then
        (if e = s.matrix.active then none else some { candidate := e, length := if e = .none then 500 else 200 })
      else if e = .none then none else some { candidate := e, length := 200 }
    exec (.codeSample ka kb) s = .next
      (if e = s.det.effective then u else { u with det := { s.det with effective := e, debounce := debounce } })

/-- SUPPLY_READING: the reading is held, it is inside from 20,000 to 32,000 mV, and every check window under way takes
it. Going outside raises SUPPLY_HOLD at every link and abandons an attempt in progress: its channel takes its demand and
its request is postponed, or past the 10 s limit resolved (R66, R65). Coming inside tests a postponed request again: the
attempt begins where nothing else holds it back, from the state the channel is in (R64, R62). -/
def Obligations.SupplyRead : Prop :=
  ∀ (mv : Nat) (s : State), (Instr.supplyReading mv).wf = true → 2 ≤ s.bank.supplyAge →
    let inside := decide (20000 ≤ mv ∧ mv ≤ 32000)
    let u := { s with bank := { s.bank with
      supply := mv, supplyInside := inside, supplyAge := 0,
      channels := s.bank.channels.map fun ch : Channel => { ch with window := ch.window.map fun w : Window =>
        if w.samples.length < 16 then { w with supplyOk := w.supplyOk && inside } else w } } }
    (inside = s.bank.supplyInside → exec (.supplyReading mv) s = .next u.grantIfIdle) ∧
    (inside = false → s.bank.supplyInside = true →
      ((∀ q, s.bank.probe = some q → q.phase ≠ .attempt) →
        exec (.supplyReading mv) s = .next (s.settle (u.raiseAll .supplyHold))) ∧
      ∀ q, s.bank.probe = some q → q.phase = .attempt →
        ∃ w, AttemptAbandoned (u.raiseAll .supplyHold) w q ∧ exec (.supplyReading mv) s = .next (s.settle w)) ∧
    (inside = true → s.bank.supplyInside = false →
      ((∀ q, s.bank.probe = some q → q.phase ≠ .postponed) → exec (.supplyReading mv) s = .next u.grantIfIdle) ∧
      ∀ q, s.bank.probe = some q → q.phase = .postponed →
        ∃ w, ProbeTested u w q ∧ exec (.supplyReading mv) s = .next w.grantIfIdle)

/-- TEMPERATURE_READING: from 170 degrees on a channel that is neither LATCHED nor in THERMAL_OFF goes to THERMAL_OFF,
output off, with THERMAL raised; from 150 degrees DERATED is set, with THERMAL raised; below 130 it is cleared, and a
channel in THERMAL_OFF takes its demand, a driven one its output. The setting of DERATED and the entry to THERMAL_OFF
strike a probe request held on the channel: an attempt is abandoned (R66), a settled-only measurement fails (R65); any
other reading has a postponed one tested again, whose attempt begins where DERATED is cleared and nothing else holds it
back (R64). As DERATED is set the derating pattern starts with an on-time: for a flashing channel in the middle of an
on-phase that is the model's choice (log 16). A further reading in THERMAL_OFF raises THERMAL only where DERATED was
clear (the model's reading, log 17). -/
def Obligations.TemperatureRead : Prop :=
  ∀ (c : ChanId) (deg : Int) (s : State), (Instr.temperatureReading c deg).wf = true → 10 ≤ (s.chan c).temperatureAge →
    let ch := s.chan c
    let read := { ch with temperature := deg, temperatureAge := 0 }
    let ends := fun (probed : State → State → Probe → Prop) (v : State) =>
      ((∀ q, s.bank.probe = some q → lampChan q.lamp ≠ c) → exec (.temperatureReading c deg) s = .next (s.settle v)) ∧
      ∀ q, s.bank.probe = some q → lampChan q.lamp = c →
        ∃ w, probed v w q ∧ exec (.temperatureReading c deg) s = .next (s.settle w)
    let stays := deg < 170 ∨ ch.state = .latched ∨ ch.state = .thermalOff
    (170 ≤ deg → ¬stays → ∃ ch', ends ProbeStruck ((s.putChan c ch').raiseAll .thermal) ∧
      ch'.state = .thermalOff ∧ ch'.output = false ∧ ch'.demand = ch.demand ∧ ch.Switched ch' ∧
      ch'.held = { read with derated := true }.held) ∧
    (150 ≤ deg → stays → ch.derated = false → ∃ ch', ends ProbeStruck ((s.putChan c ch').raiseAll .thermal) ∧
      ch'.state = ch.state ∧ ch'.output = ch.output ∧ ch'.demand = ch.demand ∧ ch.Switched ch' ∧ ch'.pwmOn = true ∧
      ch'.pwmAge = 0 ∧ ch'.held = { read with derated := true }.held) ∧
    (150 ≤ deg → stays → ch.derated = true → ends ProbeTested (s.putChan c read)) ∧
    (130 ≤ deg → deg < 150 → ends ProbeTested (s.putChan c read)) ∧
    (deg < 130 → ch.derated = false → ends ProbeTested (s.putChan c read)) ∧
    (deg < 130 → ch.derated = true → ∃ ch', ends ProbeTested (s.putChan c ch') ∧
      let cool := { read with derated := false }
      (ch.state = .thermalOff → cool.Took (s.routed c) (s.wantsOn ch.demand) ch') ∧
      (ch.state = .drive → ch'.state = .drive ∧ ch'.output = s.wantsOn ch.demand ∧ ch'.demand = ch.demand ∧
        ch'.held = cool.held ∧ ch.Switched ch') ∧
      (ch.state ≠ .thermalOff → ch.state ≠ .drive → ch' = cool))

/-- CURRENT_SAMPLE of a channel whose output is on: the peak takes it, a check window takes it or starts with it (one
window at a time, a sample where 2 ms or more have passed, log 25; a flashing channel's 60 ms into an on-phase in which
the output has been on throughout), and it trips the channel where it exceeds 12,000 mA of a lamp channel or 20,000 mA
of CH9 or CH10, in DRIVE or PROBE_ON and 40 ms or more after switch-on: TRIPPED with a trip record for the first three
of a streak, LATCHED for the fourth. A sample that trips goes into no window: a window under way is discarded, and one
that has had its sixteenth sample stands as it is (log 32). On the probed channel the inrush window of an attempt and
the settled windows take a sample; a trip in PROBE_ON or in a settled-only measurement fails the probe, and one before
the gap abandons the attempt (log 15). No sample is taken while the output is off (the command then changes nothing, log
3). -/
def Obligations.CurrentSampled : Prop :=
  ∀ (c : ChanId) (ma : Nat) (s : State), (Instr.currentSample c ma).wf = true →
    ((s.chan c).output = false → exec (.currentSample c ma) s = .next s) ∧
    ((s.chan c).output = true → (s.chan c).sampled = false → 1 ≤ (s.chan c).sinceOn →
      let ch := s.chan c
      let peak := if ch.peak < ma then ma else ch.peak
      let threshold := if c = 9 ∨ c = 10 then 20000 else 12000
      let trips := (ch.state = .drive ∨ ch.state = .probeOn) ∧ 40 ≤ ch.sinceOn ∧ threshold < ma
      let flasher := if ch.demand = .flashEmergency then s.bank.emergency else s.bank.turn
      let starts := ch.state = .drive ∧ ch.derated = false ∧
        ((ch.demand = .steady ∧ 60 ≤ ch.sinceOn ∧ (ch.sinceOn - 60) % 300 = 0) ∨
          ((ch.demand = .flashTurn ∨ ch.demand = .flashEmergency) ∧ flasher.onPhase = true ∧ flasher.age = 60 ∧
            60 ≤ ch.onFor))
      let unprobed := ∀ q, s.bank.probe = some q → lampChan q.lamp ≠ c
      let settled := if ch.demand = .flashEmergency then s.bank.emergency.onPhase = true ∧ 60 ≤ s.bank.emergency.age
        else 60 ≤ ch.sinceOn
      let takes := fun q : Probe => if (q.samples = [] ∨ 2 ≤ q.gap) ∧ q.samples.length < 16 then
        { q with samples := q.samples ++ [ma], gap := 0 } else q
      let inrush := fun q : Probe => if ch.sinceOn ≤ 10 then { q with inrush := max q.inrush ma } else q
      (¬trips → ∃ window,
        let sampled := s.putChan c { ch with sampled := true, peak := peak, window := window }
        let probe := fun q : Probe => exec (.currentSample c ma) s = .next (sampled.setProbe (some q)).grantIfIdle
        (∀ w, ch.window = some w → window = some (if w.samples.length < 16 ∧ 2 ≤ w.gap then
          { w with samples := w.samples ++ [ma], gap := 0, peak := peak } else w)) ∧
        (ch.window = none → starts → window = some { samples := [ma], gap := 0, supplyOk := true, peak := peak }) ∧
        (ch.window = none → ¬starts → window = none) ∧
        (unprobed → exec (.currentSample c ma) s = .next sampled.grantIfIdle) ∧
        ∀ q, s.bank.probe = some q → lampChan q.lamp = c →
          (q.phase = .postponed ∨ q.phase = .attempt ∧ ch.state ≠ .probeOn → probe q) ∧
          (q.phase = .attempt → ch.state = .probeOn → probe (if 60 ≤ ch.sinceOn then takes (inrush q) else inrush q)) ∧
          (q.phase = .settledOnly → ch.demand ≠ .flashEmergency ∨ q.armed = true → settled → probe (takes q)) ∧
          (q.phase = .settledOnly → (ch.demand = .flashEmergency ∧ q.armed = false) ∨ ¬settled → probe q)) ∧
      (trips → ∃ ch', ch'.output = false ∧ ch'.demand = ch.demand ∧
        ch'.held = { ch with
          streakCount := ch.streakCount + 1, streakTimer := 0,
          trip := some {
            peak := peak, mean := ch.settledMean, supply := s.bank.supply, temperature := ch.temperature,
            mode := if ch.state = ChanState.probeOn then .probe else if ch.derated then .pwm
              else if ch.demand = Demand.flashTurn ∨ ch.demand = Demand.flashEmergency then .flash else .steady,
            count := ch.streakCount + 1 } }.held ∧
        (ch.streakCount < 3 → ch'.state = .tripped ∧ ch'.cooldown = 0) ∧ (3 ≤ ch.streakCount → ch'.state = .latched) ∧
        ch'.sinceOff = 0 ∧ (∀ w, ch'.window = some w ↔ ch.window = some w ∧ 16 ≤ w.samples.length) ∧
        let tripped := if ch.streakCount < 3 then (s.putChan c ch').raiseAll .channelTrip
          else ((s.putChan c ch').raiseAll .channelTrip).raiseAll .channelLatched
        (unprobed → exec (.currentSample c ma) s = .next (s.settle tripped)) ∧
        ∀ q, s.bank.probe = some q → lampChan q.lamp = c →
          ∃ t, exec (.currentSample c ma) s = .next (s.settle t) ∧
            (ch.state = .probeOn → ProbeFailed tripped t q) ∧ (ch.state = .drive → ProbeStruck tripped t q)))

/-! ## Timers of the Channel Bank -/

/-- TRIP_COOLDOWN_EXPIRY: after 1,000 ms of TRIPPED the channel takes its demand, and a postponed probe request, on this
channel or another, is tested again: its attempt begins where nothing holds it back any more (R64), from the state its
channel is in (R62). STREAK_TIMER_EXPIRY: after
10,000 ms in DRIVE, PROBE_GAP or PROBE_ON the streak is 0 again. PWM_PHASE_END: while the channel drives derated and its
demand wants it on, an on-time of 30 ms and an off-time of 10 ms alternate, and the output with them, without a
switch-on. In other states of the channel nothing happens (the model's choice, log 3). -/
def Obligations.ChannelTimersEnd : Prop :=
  ∀ (c : ChanId) (s : State), let ch := s.chan c
    (ch.state ≠ .tripped → exec (.tripCooldownExpiry c) s = .next s) ∧
    (ch.state = .tripped → 1000 ≤ ch.cooldown → ∃ ch', ch.Took (s.routed c) (s.wantsOn ch.demand) ch' ∧
      let u := s.putChan c ch'
      ((∀ q, s.bank.probe = some q → q.phase ≠ .postponed) → exec (.tripCooldownExpiry c) s = .next u) ∧
      ∀ q, s.bank.probe = some q → q.phase = .postponed →
        ∃ w, ProbeTested u w q ∧ exec (.tripCooldownExpiry c) s = .next w) ∧
    let streakRuns := ch.state = .drive ∨ ch.state = .probeGap ∨ ch.state = .probeOn
    (¬streakRuns → exec (.streakTimerExpiry c) s = .next s) ∧
    (streakRuns → 10000 ≤ ch.streakTimer →
      exec (.streakTimerExpiry c) s = .next (s.putChan c { ch with streakCount := 0, streakTimer := 0 })) ∧
    let pattern := ch.state = .drive ∧ ch.derated = true ∧ s.wantsOn ch.demand = true
    (¬pattern → exec (.pwmPhaseEnd c) s = .next s) ∧
    (pattern → (if ch.pwmOn then 30 else 10) ≤ ch.pwmAge →
      ∃ ch', exec (.pwmPhaseEnd c) s = .next (s.putChan c ch') ∧ ch'.pwmOn = (!ch.pwmOn) ∧ ch'.output = (!ch.pwmOn) ∧
        ch'.pwmAge = 0 ∧ ch'.sinceOn = ch.sinceOn ∧ ch'.peak = ch.peak ∧ (ch.pwmOn = false → ch'.onFor = 0) ∧
        ch'.state = .drive ∧ ch'.demand = ch.demand ∧ ch'.held = ch.held)

/-- The end of a flasher phase: a turn flasher phase of 160 ms at the fast rate and 320 ms at the normal one gives way
to the next at the rate decided, an emergency phase of 120 ms to the next. A channel that drives on that flasher follows
with its output; one that a probe attempt waits on enters PROBE_GAP with the off-phase and PROBE_ON with the on-phase
after it, and the other channel on the flasher is not affected. Under a settled-only measurement of CH2 the samples are
taken in the first on-phase that starts, and a further one fails it. An idle flasher does nothing (log 3). -/
def Obligations.FlasherPhasesEnd : Prop :=
  ∀ s : State,
    let follows := fun (d : Demand) (on : Bool) (c : ChanId) (ch ch' : Channel) =>
      let waits := ∃ q, s.bank.probe = some q ∧ lampChan q.lamp = c ∧ q.phase = .attempt
      (ch.demand ≠ d ∨ ch.state ≠ .drive ∧ ch.state ≠ .probeGap → ch' = ch) ∧
      (ch.demand = d → ch'.held = ch.held ∧ ch'.demand = d ∧
        (ch.state = .drive → on = true ∨ ¬waits → ch'.state = .drive ∧ ch'.output = on) ∧
        (ch.state = .drive → on = false → waits → ch'.state = .probeGap ∧ ch'.output = false) ∧
        (ch.state = .probeGap → on = true → ch'.state = .probeOn ∧ ch'.output = true ∧
          (ch.output = false → ch'.sinceOn = 0 ∧ ch'.peak = 0)) ∧
        (ch.state = .probeGap → on = false → ch' = ch))
    (s.bank.turn.running = false → exec .turnFlasherPhaseEnd s = .next s) ∧
    (s.bank.emergency.running = false → exec .emergencyFlasherPhaseEnd s = .next s) ∧
    (s.bank.turn.running = true → (if s.bank.turn.fast then 160 else 320) ≤ s.bank.turn.age →
      ∃ b : ChannelBank, exec .turnFlasherPhaseEnd s = .next { s with bank := b } ∧
        b = { s.bank with
          turn := { running := true, onPhase := !s.bank.turn.onPhase, age := 0, fast := s.light.fast }
          channels := b.channels } ∧
        ∀ c, (c ≠ 0 → c ≠ 1 → b.channels.get c = s.chan c) ∧
          (c = 0 ∨ c = 1 → follows .flashTurn (!s.bank.turn.onPhase) c (s.chan c) (b.channels.get c))) ∧
    (s.bank.emergency.running = true → 120 ≤ s.bank.emergency.age →
      let on := !s.bank.emergency.onPhase
      let settles := fun q : Probe => q.lamp = 2 ∧ q.phase = .settledOnly ∧ on = true
      ((∀ q, s.bank.probe = some q → ¬(settles q ∧ q.armed = true)) →
        ∃ b : ChannelBank, exec .emergencyFlasherPhaseEnd s = .next { s with bank := b }.grantIfIdle ∧
          b = { s.bank with
            emergency := { s.bank.emergency with onPhase := on, age := 0, fast := false }
            channels := b.channels
            probe := s.bank.probe.map fun q : Probe =>
              if q.lamp = 2 ∧ q.phase = .settledOnly ∧ on = true then { q with armed := true } else q } ∧
          ∀ c, (c ≠ 2 → b.channels.get c = s.chan c) ∧
            (c = 2 → follows .flashEmergency on c (s.chan c) (b.channels.get c))) ∧
      ∀ q, s.bank.probe = some q → settles q → q.armed = true → s.chainLaw = true →
        ∃ t, exec .emergencyFlasherPhaseEnd s = .next t ∧ OutcomeWritten s t q failedRecord)

/-- BACKFEED_CHECK of a routed lamp channel in OFF, 300 ms after the last: an output above half the supply counts high
and one below a quarter of it low, each ending the other's run, and anything between ends both. The third high in a row
sets BACKFEED and raises it at every link, and fails a probe request held on the channel; the third low in a row clears
it. Elsewhere no check is made (the command then changes nothing, log 3). -/
def Obligations.BackfeedChecked : Prop :=
  ∀ (c : ChanId) (mv : Nat) (s : State), (Instr.backfeedCheck c mv).wf = true →
    let ch := s.chan c
    let checked := s.routed c = true ∧ c ≠ 9 ∧ c ≠ 10 ∧ ch.state = .off
    (¬checked → exec (.backfeedCheck c mv) s = .next s) ∧
    (checked → 300 ≤ ch.backfeedAge →
      let high := s.bank.supply < 2 * mv
      let low := 4 * mv < s.bank.supply
      let put := fun (backfeed : Bool) (h l : Nat) =>
        s.putChan c { ch with backfeedAge := 0, backfeed := backfeed, highCount := h, lowCount := l }
      (high → ch.highCount < 2 ∨ ch.backfeed = true → exec (.backfeedCheck c mv) s =
        .next (put ch.backfeed (min 3 (ch.highCount + 1)) 0).grantIfIdle) ∧
      (high → 2 ≤ ch.highCount → ch.backfeed = false → (∀ q, s.bank.probe = some q → lampChan q.lamp ≠ c) →
        exec (.backfeedCheck c mv) s = .next (s.settle ((put true 0 0).raiseAll .backfeed))) ∧
      (high → 2 ≤ ch.highCount → ch.backfeed = false → ∀ q, s.bank.probe = some q → lampChan q.lamp = c →
        ∃ t, exec (.backfeedCheck c mv) s = .next (s.settle t) ∧ ProbeFailed ((put true 0 0).raiseAll .backfeed) t q) ∧
      (low → ch.lowCount < 2 ∨ ch.backfeed = false → exec (.backfeedCheck c mv) s =
        .next (put ch.backfeed 0 (min 3 (ch.lowCount + 1))).grantIfIdle) ∧
      (low → 2 ≤ ch.lowCount → ch.backfeed = true → exec (.backfeedCheck c mv) s =
        .next (put false 0 0).grantIfIdle) ∧
      (¬high → ¬low → exec (.backfeedCheck c mv) s = .next (put ch.backfeed 0 0).grantIfIdle))

/-! ## Check windows, evaluation and probes -/

/-- A complete check window gives the last settled mean, rounded half up. It is evaluated on a lamp channel without
BACKFEED, with every supply reading inside and no position in bring-up or relearn: the candidate is LAMP_OUT on a dark
report or a mean below the tolerance band, EXTRA_LOAD above it, else OK or NONE by the expected current; it must come
three times in a row to become the verdict, raised at every link. -/
def Obligations.CheckWindowEvaluated : Prop :=
  ∀ (c : ChanId) (s : State) (w : Window), (s.chan c).window = some w → w.samples.length = 16 →
    let mean := (w.samples.sum + 8) / 16
    let u := s.putChan c { s.chan c with settledMean := mean, window := none }
    let taken := w.supplyOk = true ∧ (s.chan c).backfeed = false ∧ s.det.relearn = none ∧
      ∀ p, (s.pos p).state ≠ .powering ∧ (s.pos p).state ≠ .enumerating ∧ (s.pos p).state ≠ .measuring
    (c = 9 ∨ c = 10 ∨ ¬taken → exec (.checkWindowComplete c) s = .next u) ∧
    ∀ l, c = lampChan l → taken →
      let v := { s.load.verdicts.get l with lastM := mean, lastPeak := w.peak }
      let e := s.load.expected.get l
      let t := max 60 ((e + 8) / 16)
      let put := fun (v : Verdict) => { u with load := { u.load with verdicts := u.load.verdicts.set l v } }
      ∃ cand : Candidate,
        (s.darkReports l ≠ [] → cand.kind = .lampOut ∧ ∀ p, hasBit cand.suspects (posNumber p) = true ↔ p ∈ s.darkReports l) ∧
        (s.darkReports l = [] →
          (mean + t < e → cand.kind = .lampOut ∧ ∀ p, hasBit cand.suspects (posNumber p) = true ↔
            s.ready p = true ∧ 0 < ((s.pos p).contrib.get l).settled ∧ e ≤ mean + t + ((s.pos p).contrib.get l).settled ∧
              ¬(((s.pos p).contrib.get l).cls = .led ∧ ∃ sl ∈ s.countedSlots p l, sl.total = 0 ∧ sl.quality = .good)) ∧
          (e + t < mean → cand = ⟨.extraLoad, 0⟩) ∧
          (e ≤ mean + t → mean ≤ e + t → cand = if 0 < e then ⟨.ok, 0⟩ else ⟨.none, 0⟩)) ∧
        let attribution := if cand.kind = .lampOut ∧ cand.suspects = 2 then 1
          else if cand.kind = .lampOut ∧ cand.suspects = 4 then 2
          else if cand.kind = .lampOut ∧ cand.suspects = 8 then 3 else 0
        let deviation := if cand.kind = .lampOut then e - mean else if cand.kind = .extraLoad then mean - e else 0
        let agrees := cand.kind = v.kind ∧ cand.suspects = v.suspects
        (agrees → exec (.checkWindowComplete c) s = .next (put
          { v with pending := none, agreement := 0, attribution := attribution, deviation := deviation })) ∧
        (¬agrees → v.pending = some cand → v.agreement = 1 →
          exec (.checkWindowComplete c) s = .next (put { v with agreement := 2 })) ∧
        (¬agrees → v.pending = some cand → v.agreement = 2 → exec (.checkWindowComplete c) s = .next (s.finish
          (((put { v with
            kind := cand.kind, suspects := cand.suspects, attribution := attribution, deviation := deviation,
            pending := none, agreement := 0 }).raiseAll .lampVerdict).handKind l cand.kind))) ∧
        (¬agrees → v.pending ≠ some cand ∨ v.agreement ≠ 1 ∧ v.agreement ≠ 2 → exec (.checkWindowComplete c) s =
          .next (put { v with pending := some cand, agreement := 1 }))

/-- A probe: the gap of a channel that does not flash ends 40 ms after the output went off, with a switch-on. Sixteen
settled samples complete an attempt or a settled-only measurement: the last settled mean is their mean, the contribution
recorded for the position follows R71 to R74, and the request moves on. After an attempt the channel takes its demand:
OFF, DRIVE with the output staying on and no switch-on, or DRIVE in the flasher's phase; after a settled-only
measurement it drives on as it did. The 10 s limit leaves an attempt in progress, lets a steady drive be measured
settled-only, and fails anything else, the channel left as it is. -/
def Obligations.ProbeMeasured : Prop :=
  ∀ (s : State) (q : Probe), s.bank.probe = some q → s.chainLaw = true →
    let c := lampChan q.lamp
    let ch := s.chan c
    let recorded := fun (t : State) (r : Contribution) => OutcomeWritten s t q r
    let before := s.eBefore q.pos q.lamp
    let mean := (q.samples.sum + 8) / 16
    let share := if mean < before + 40 then 0 else min 25000 (mean - before)
    (ch.state = .probeGap → ch.demand = .off ∨ ch.demand = .steady → 40 ≤ ch.sinceOff →
      ∃ ch', exec .probeGapEnd s = .next (s.putChan c ch') ∧ ch'.state = .probeOn ∧ ch'.output = true ∧
        ch'.demand = ch.demand ∧ ch'.held = ch.held ∧ (ch.output = false → ch'.sinceOn = 0 ∧ ch'.peak = 0)) ∧
    (q.phase = .attempt → ch.state = .probeOn → q.samples.length = 16 →
      let saturated := decide (q.inrush = 25000)
      let peak := if saturated then 25000 - s.pBefore q.pos q.lamp else min 25000 (q.inrush - s.pBefore q.pos q.lamp)
      let cls : LoadClass := if saturated then (if 400 ≤ share then .filament else .mixed)
        else if 64 ≤ peak * 16 / share then .filament else if peak * 16 / share ≤ 24 then .led else .mixed
      ∃ t, exec .probeAttemptComplete s = .next t ∧
        Channel.Took (s.routed c) (s.wantsOn ch.demand) { ch with settledMean := mean } (t.chan c) ∧
        recorded t (if share = 0 then {} else { settled := share, peak := peak, clamped := saturated, cls := cls }) ∧
        (mean < before → s.told t .baselineShift)) ∧
    (q.phase = .settledOnly → q.samples.length = 16 →
      ∃ t, exec .settledOnlyComplete s = .next t ∧ t.chan c = { ch with settledMean := mean } ∧
        recorded t { settled := share, peak := 0, clamped := false, cls := .unknown } ∧
        (mean < before → s.told t .baselineShift)) ∧
    (q.expired = false → 10000 ≤ q.elapsed →
      let steady := ch.state = .drive ∧ ch.derated = false ∧
        (ch.demand = .steady ∨ q.lamp = 2 ∧ ch.demand = .flashEmergency)
      (q.phase = .attempt → exec .probeLimitExpiry s = .next (s.setProbe (some { q with expired := true })).grantIfIdle) ∧
      (q.phase ≠ .attempt → steady → exec .probeLimitExpiry s = .next (s.setProbe (some
        { q with phase := .settledOnly, expired := true, samples := [], armed := false })).grantIfIdle) ∧
      (q.phase ≠ .attempt → ¬steady → ∃ t, exec .probeLimitExpiry s = .next t ∧ t.chan c = ch ∧
        recorded t failedRecord))

/-! ## Timers of the coupled positions -/

/-- COUPLED_SECOND_TICK adds 1 to the count of a live position, up to 65,535, at the end of each full second.
POWERING_COUNT_EXPIRY, and BROADCAST_SENT of a broadcast not discarded, end POWERING once CH9 has driven for 150 ms and
both broadcasts have been sent: ENUMERATING begins, its search claimed; ADDRESS_RESET is followed by SEGMENT open.
Without a live position, a bring-up or a broadcast in flight the commands change nothing (log 3). -/
def Obligations.PoweringEnds : Prop :=
  ∀ s : State,
    (∀ p, s.live p = false → exec (.coupledSecondTick p) s = .next s) ∧
    (∀ p, s.live p = true → 1000 ≤ (s.pos p).secondMs → exec (.coupledSecondTick p) s = .next (s.setPos p
      { s.pos p with
        coupledSeconds := min 65535 ((s.pos p).coupledSeconds + 1), secondMs := (s.pos p).secondMs - 1000 })) ∧
    (s.det.bringUp = none → exec .poweringCountExpiry s = .next s) ∧
    (∀ f, s.bus.flight = some f → f.discard ≠ .kept → f.txn.broadcast = true →
      exec .broadcastSent s = .next { s with bus := { s.bus with flight := none } }.grantIfIdle) ∧
    ((∀ f, s.bus.flight = some f → f.txn.broadcast = false) → exec .broadcastSent s = .next s) ∧
    ∀ b, s.det.bringUp = some b →
      let counts := (s.pos b.pos).state = .powering ∧ (s.chan 9).state = .drive
      let enumerating := fun (u : State) =>
        let v := u.setPos b.pos { u.pos b.pos with state := .enumerating }
        { v with bus := { v.bus with stack := [], class2 := v.bus.class2 ++ [Txn.search 0 0] } }
      let sent := { s with
        bus := { s.bus with flight := none },
        det := { s.det with bringUp := some { b with broadcasts := b.broadcasts - 1 } } }
      (¬counts → exec .poweringCountExpiry s = .next s) ∧
      (counts → 150 ≤ b.powering → b.broadcasts ≠ 0 → exec .poweringCountExpiry s = .next s.grantIfIdle) ∧
      (counts → 150 ≤ b.powering → b.broadcasts = 0 →
        exec .poweringCountExpiry s = .next (enumerating s).grantIfIdle) ∧
      ∀ f, s.bus.flight = some f → f.discard = .kept →
        (f.txn = .addressReset → b.broadcasts = 2 → exec .broadcastSent s =
          .next { sent with bus := { sent.bus with class2 := sent.bus.class2 ++ [Txn.segmentOpen] } }.grantIfIdle) ∧
        (f.txn = .segmentOpen → b.broadcasts = 1 → b.powering < 150 → exec .broadcastSent s = .next sent.grantIfIdle) ∧
        (f.txn = .segmentOpen → b.broadcasts = 1 → 150 ≤ b.powering → (s.pos b.pos).state = .powering →
          exec .broadcastSent s = .next (enumerating sent).grantIfIdle)

/-! ## Cache ages and polls -/

/-- CACHE_AGE_EXPIRY: a GOOD slot whose age exceeds its freshness window becomes STALE; a slot the part refreshes is due
as its age reaches the window, and the arbiter looks at it on an idle bus. POLL_TIMER_EXPIRY sets the timer again and
claims a POLL, with a SEGMENT close after it while CHAIN_OPEN is held, unless the previous POLL is still out. A slot or
a poll timer that is not there changes nothing (log 3). -/
def Obligations.CacheAgesAndPolls : Prop :=
  ∀ s : State,
    (∀ ref k, s.slot ref k = none → exec (.cacheAgeExpiry ref k) s = .next s) ∧
    (∀ ref k e sl, s.entry ref = some e → e.slots[k]? = some sl →
      let refreshed := e.live = true ∧ e.locked = false ∧ s.ready e.pos = true ∧ (sl.kind = .lampStatus ∨ sl.watch ≠ 0)
      (sl.quality = .good → sl.window < sl.age → exec (.cacheAgeExpiry ref k) s = .next
        (s.setEntry ref (some { e with slots := e.slots.set k { sl with quality := .stale } })).grantIfIdle) ∧
      (sl.quality ≠ .good → ¬refreshed ∨ sl.window < sl.age → exec (.cacheAgeExpiry ref k) s = .next s) ∧
      (refreshed → sl.age = sl.window → s.dataRouted = true → s.bus.flight = none →
        exec (.cacheAgeExpiry ref k) s = .next s.grantIfIdle ∧
        ((∀ n, sl.number = some n → ∀ d ∈ s.dec.deferred, d.number = n → d.value.isSome = true) → s.due e sl = true))) ∧
    (∀ p, s.bus.polls.get (posIdx p) = none → exec (.pollTimerExpiry p) s = .next s) ∧
    ∀ p t, s.bus.polls.get (posIdx p) = some t → 100 ≤ t →
      let out := .poll p ∈ s.bus.class1 ∨ ∃ f, s.bus.flight = some f ∧ f.txn = .poll p
      let polls := s.bus.polls.set (posIdx p) (some 0)
      let claims := if hasBit (s.pos p).reasons 4 then [Txn.poll p, .segmentClose p] else [.poll p]
      (out → exec (.pollTimerExpiry p) s = .next { s with bus := { s.bus with polls := polls } }.grantIfIdle) ∧
      (¬out → exec (.pollTimerExpiry p) s =
        .next { s with bus := { s.bus with polls := polls, class1 := s.bus.class1 ++ claims } }.grantIfIdle)

/-! ## Relearn -/

/-- RELEARN from SERVICE: MALFORMED for a number outside 1 to 3, GONE for a position that is not live, RETRY while a
position is in bring-up or a relearn runs. Else it is answered OK and begun: the position's relearn flag is set and its
shadows are at their defaults, and its first lamp channel, where that has no BACKFEED, is handed to the Bank as a probe
request: the attempt begins (R62), or is postponed where something holds it back (R64). Nothing that probes leave alone
changes. -/
def Obligations.RelearnBegins : Prop :=
  ∀ (l : LinkId) (s : State) (m : Mlu) (f : List Byte) (rest : List (List Byte)) (b : Byte),
    Head s l m f rest (.relearn b) → m.role = .service ∨ m.role = .bench →
    let reply := fun (st : Status) => s.answered l m rest .relearn (byteAt f 1) st []
    let suspended := s.det.relearn ≠ none ∨
      ∃ p, (s.pos p).state = .powering ∨ (s.pos p).state = .enumerating ∨ (s.pos p).state = .measuring
    (b.toNat = 0 ∨ 3 < b.toNat → exec (.relearn l) s = .next (reply .malformed)) ∧
    ∀ p, b.toNat = posNumber p →
      (s.live p = false → exec (.relearn l) s = .next (reply .gone)) ∧
      (s.live p = true → suspended → exec (.relearn l) s = .next (reply .retry)) ∧
      (s.live p = true → ¬suspended → ∃ t, exec (.relearn l) s = .next t ∧ Undisturbed (reply .ok) t ∧
        (s.routed 0 = true → (s.chan 0).backfeed = false → t.det.relearn = some { pos := p } ∧
          t.pos p = { s.pos p with shadow := Tbl.fill 10 {}, relearn := true } ∧ (∀ p', p' ≠ p → t.pos p' = s.pos p') ∧
          ∃ v w, v.bank = { s.bank with probe := some { lamp := 0, pos := p } } ∧
            ProbeTested v w { lamp := 0, pos := p } ∧ t.bank = w.bank))

/-! ## Lock-out -/

/-- QUARANTINE from SERVICE: a stale entry's mark is set, its slots FAILED, or released with the strikes at 0, answered
GONE; an entry in service is locked out, or released with a rediscovery claimed and the reason QUARANTINE dropped where
no other entry of the position is locked out, answered OK. A set or release that changes nothing only answers. The
contents are the mark and the strikes as they then stand. A lock-out completes the deferred requests that wait for the
entry NO_REPLY and removes its waiting posted writes with POSTED_WRITE_FAILED. The model's choices: where
the lock-out withdraws the re-assignment the search waits for, the search goes on (log 19), and several requests of one
link are completed in list order (log 39). -/
def Obligations.QuarantineSets : Prop :=
  ∀ (l : LinkId) (s : State) (m : Mlu) (f : List Byte) (rest : List (List Byte)) (b : Byte) (set : Bool)
    (ref : EntryRef) (k : Nat) (e : Entry) (sl : Slot), Head s l m f rest (.quarantine b set) → Names s b ref k e sl →
    m.role = .service ∨ m.role = .bench → s.bounded = true →
    let used := { e with used := true }
    let out := { used with locked := true, slots := e.slots.map fun sl => { sl with quality := Quality.failed } }
    let back := { used with locked := false, strikes := 0 }
    let answers := fun (e' : Entry) (st : Status) (strikes : Nat) =>
      exec (.quarantine l) s = .next ((s.setEntry ref (some e')).answered l m rest .quarantine (byteAt f 1) st
        [byteOf (bit e'.locked), byteOf strikes]).grantIfIdle
    (set = e.locked → e.live = false ∨ s.ready e.pos = true →
      answers used (if e.live then .ok else .gone) e.strikes) ∧
    (set = true → e.locked = false → e.live = false → answers out .gone e.strikes) ∧
    (set = false → e.locked = true → e.live = false → answers back .gone 0) ∧
    (set = true → e.locked = false → e.live = true → s.ready e.pos = true →
      let v := s.setLink l { m with queue := rest }
      ∃ w, LockedOut v w ref used ∧ exec (.quarantine l) s = .next (s.settle
        ((if Txn.reassign ref true ∈ s.bus.class2 then w.bringUpNext else w).answer l .quarantine (byteAt f 1) .ok
          [1, byteOf e.strikes]))) ∧
    (set = false → e.locked = true → e.live = true → s.ready e.pos = true →
      let u := s.setEntry ref (some back)
      let v := { u with bus := { u.bus with class2 := u.bus.class2 ++ [Txn.rediscover ref] } }
      let locked := ∃ r ∈ (s.pos e.pos).refs, r ≠ ref ∧ ∃ x, s.entry r = some x ∧ x.locked = true
      let answer := fun (t : State) =>
        exec (.quarantine l) s = .next (t.answered l m rest .quarantine (byteAt f 1) .ok [0, 0]).grantIfIdle
      (locked → answer v) ∧ (¬locked → answer (v.dropReason e.pos .quarantine)))

/-! ## Sendings that fail -/

/-- A garbled frame, or the response timeout 5 ms after the grant (log 14), is a failed sending of the transaction
awaited: the first is repeated at once, the second is final. A READ, a WRITE or a POLL that fails strikes the entry it
was sent to and completes its deferred request NO_REPLY; a posted WRITE that fails leaves the buffer and is reported to
its poster, unless it was replaced: then it waits again, or where its entry has become locked out in the meantime it is
removed and its newer poster told as well, a release before the outcome notwithstanding (log 35). A transaction
discarded by bus-off only strikes, one discarded by a teardown ends without effect. Frames and timeouts while no reply
is awaited are ignored (log 3). A locked-out entry only counts its strikes (log 18), a lock-out that withdraws the
re-assignment the search waits for lets it go on (log 19), and what a lock-out completes on one link is completed in
list order (log 39). -/
def Obligations.SendingsFail : Prop :=
  ∀ (s : State) (bytes : List Byte) (first : Bool),
    ((∀ f, s.bus.flight = some f → f.txn.broadcast = true) →
      exec (.trailerBusFrameReceived bytes first) s = .next s ∧ exec .responseTimeout s = .next s) ∧
    ∀ f, s.bus.flight = some f → f.txn.broadcast = false →
      (5 < f.waited → exec (.trailerBusFrameReceived bytes first) s = .next s) ∧
      ∀ c : Instr, Fails f c →
        (f.repeated = false → exec c s =
          .next { s with bus := { s.bus with flight := some { f with repeated := true, waited := 0, members := [] } } }) ∧
        (f.repeated = true → f.discard = .teardown → exec c s = .next s.idle.grantIfIdle) ∧
        (f.repeated = true → f.discard ≠ .teardown → s.bounded = true → ∀ ref e, s.entry ref = some e →
          let ends := fun (x : State → State) => ∃ v, State.struck s.idle v ref e ∧ exec c s = .next (s.settle (x v))
          (∀ k, f.txn = .read ref k none → ends id) ∧
          (∀ k owner, f.txn = .read ref k owner → f.discard = .busOff → ends id) ∧
          (∀ k x owner, f.txn = .write ref k x owner → f.discard = .busOff → ends id) ∧
          (∀ p, f.txn = .poll p → s.repeaterOf p = some ref → ends id) ∧
          (f.discard = .kept →
            (∀ k d, f.txn = .read ref k (some (d.link, d.tag)) → d ∈ s.dec.deferred → d.inFlight = true →
              ends fun v => v.complete d .noReply []) ∧
            (∀ k x d, f.txn = .write ref k x (.deferred d.link d.tag) → d ∈ s.dec.deferred → d.inFlight = true →
              ends fun v => v.complete d .noReply []) ∧
            ∀ k x p poster, f.txn = .write ref k x (.posted p.number) → p ∈ s.dec.posted →
              p.carried = some (x, poster) →
              (p.replaced = false → ends fun v => (v.dropPosted p.number).raiseRole poster .postedWriteFailed) ∧
              (p.replaced = true → s.binding p.number = some (ref, k) →
                let out := p.lockedOut = true ∨ e.locked = false ∧ 2 ≤ e.strikes
                (¬out → ends fun v => (v.modPosted p.number fun y =>
                  { y with carried := none, replaced := false }).raiseRole poster .postedWriteFailed) ∧
                (out → ends fun v =>
                  ((v.dropPosted p.number).raiseRole poster .postedWriteFailed).raiseRole p.poster .postedWriteFailed))))

/-! ## Replies on the trailer bus -/

/-- A valid reply in time clears the strikes of the entry asked and withdraws its rediscovery. A group READ awaits a
frame of each member; the value or values then refresh the slot, the watchers hear of a change that reaches the delta,
and every deferred read of the slot is completed DONE with them, its reader's role leaving the changed-since-read set. A
WRITE completes DONE or NODE_REFUSED, or settles its posted entry, with POSTED_WRITE_FAILED on NAK: one that was replaced
waits again, or is removed with its newer poster told where its entry has become locked out in the meantime (log 35). An
acknowledged setting takes the value written, every member of a group alike (log 22), and the deferred reads that wait
for the slot are completed with it (R163). A transaction discarded by bus-off is applied to the entry in the same way
and completes nothing of its own (R98). The model's choices besides: the deferred reads are completed in list order (log
39), a node that answers at its address is no longer unassigned (log 33), and where a sum lies outside 16 bits the last
reported value is open (log 13). -/
def Obligations.RepliesApplied : Prop :=
  ∀ (s : State) (f : InFlight) (bytes payload : List Byte) (first : Bool) (ref : EntryRef) (e : Entry) (k : Nat)
    (sl : Slot), s.bus.flight = some f → f.waited ≤ 5 → f.discard ≠ .teardown →
    replyPayload f.txn.command bytes = some payload → s.bounded = true → s.entry ref = some e → e.slots[k]? = some sl →
    let c := Instr.trailerBusFrameReceived bytes first
    let cleared := fun (e' : Entry) (n : Nat) =>
      let v := { s with freeCount := n }.setEntry ref (some { e' with strikes := 0, unassigned := false })
      { v with bus := { s.bus with
          flight := none
          class1 := s.bus.class1.filter fun x => !decide (x = Txn.rediscover ref)
          class2 := s.bus.class2.filter fun x => !decide (x = Txn.rediscover ref) } }
    let quiet := cleared e s.freeCount
    let sum := fun (values : List Word16) => (values.map BitVec.toInt).foldl (· + ·) 0
    let enough := fun (values : List Word16) =>
      sl.watch ≠ 0 ∧ sl.delta ≤ (sum values - sl.lastReported.toInt).natAbs
    let fresh := fun (values : List Word16) (reported : Word16) (changed : RoleSet) =>
      { sl with cache := values, age := 0, quality := Quality.good, lastReported := reported, changed := changed }
    let put := fun (values : List Word16) (reported : Word16) (changed : RoleSet) (n : Nat) =>
      cleared { e with slots := e.slots.set k (fresh values reported changed) } n
    let refreshed := fun (values : List Word16) (v : State) =>
      (¬enough values ∧ v = put values sl.lastReported sl.changed s.freeCount) ∨
      (enough values ∧ ∃ reported n,
        v = (put values reported (sl.changed ||| sl.watch) n).raiseFor sl.watch .valueChanged ∧
        (-32768 ≤ sum values → sum values ≤ 32767 → reported.toInt = sum values ∧ n = s.freeCount))
    let reads := s.dec.deferred.filter fun d => some d.number = sl.number ∧ d.value = none
    let written := fun (x : Word16) (v : State) => ∃ v', refreshed (List.replicate sl.cache.length x) v' ∧
      v = reads.foldl (State.deliver ref k (List.replicate sl.cache.length x)) v'
    (∀ owner hi lo, f.txn = .read ref k owner → payload = [hi, lo] →
      let awaiting := { f with members := f.members ++ [word16 hi lo], waited := 0 }
      (f.members.length + 1 < e.run → exec c s = .next { s with bus := { s.bus with flight := some awaiting } }) ∧
      (e.run ≤ 1 ∨ f.members.length + 1 = e.run →
        let values := if e.run ≤ 1 then [word16 hi lo] else f.members ++ [word16 hi lo]
        ∃ v, refreshed values v ∧ exec c s = .next (s.settle (reads.foldl (State.deliver ref k values) v)))) ∧
    (∀ x owner a, f.txn = .write ref k x owner → payload = [a] → f.discard = .busOff →
      (a ≠ 1 ∨ sl.access ≠ .setting → exec c s = .next (s.settle quiet)) ∧
      (a = 1 → sl.access = .setting → ∃ v, written x v ∧ exec c s = .next (s.settle v))) ∧
    (∀ x d a, f.txn = .write ref k x (.deferred d.link d.tag) → payload = [a] → d ∈ s.dec.deferred →
      f.discard = .kept → a ≠ 1 ∨ sl.access ≠ .setting →
      exec c s = .next (s.settle (quiet.complete d (if a = 1 then .done else .nodeRefused) (Word16.bytes x)))) ∧
    (∀ x p poster a, f.txn = .write ref k x (.posted p.number) → payload = [a] → p ∈ s.dec.posted →
      p.carried = some (x, poster) → f.discard = .kept → p.replaced = false →
      (a ≠ 1 → exec c s = .next (s.settle ((quiet.dropPosted p.number).raiseRole poster .postedWriteFailed))) ∧
      (a = 1 → sl.access = .setting → ∃ v, written x v ∧ exec c s = .next (s.settle (v.dropPosted p.number)))) ∧
    (∀ x p poster a, f.txn = .write ref k x (.posted p.number) → payload = [a] → p ∈ s.dec.posted →
      p.carried = some (x, poster) → f.discard = .kept → p.replaced = true →
      let settled := fun (v : State) => if p.lockedOut then v.dropPosted p.number else
        v.modPosted p.number fun y => { y with carried := none, replaced := false }
      let told := fun (v : State) => if p.lockedOut then v.raiseRole p.poster .postedWriteFailed else v
      (a ≠ 1 → exec c s = .next (s.settle (told ((settled quiet).raiseRole poster .postedWriteFailed)))) ∧
      (a = 1 → sl.access = .setting → ∃ v, written x v ∧ exec c s = .next (s.settle (told (settled v))))) ∧
    ∀ (v : State) (d : Deferred) (m : Mlu), v.link d.link = some m → m.busOff = false →
      (∀ (st : Status) (content : List Byte),
        let frames := contentFrames .completion (if d.value.isNone then 5 else 6) d.tag st content
        let left := v.dec.deferred.filter fun y => !(y.link = d.link && y.tag = d.tag)
        v.complete d st content =
          { v with dec := { v.dec with deferred := left } }.setLink d.link { m with buffer := m.buffer ++ frames }) ∧
      ∀ (values : List Word16) (e' : Entry) (sl' : Slot), v.entry ref = some e' → e'.slots[k]? = some sl' →
        State.deliver ref k values v d =
          (v.complete d .done (byteOf values.length :: values.flatMap Word16.bytes)).setEntry ref (some { e' with
            slots := e'.slots.set k { sl' with changed := dropBit sl'.changed (roleBit m.role.role) } })

/-- A POLL reply from the chain repeater of a position that is polled is a report: present or absent. One whose polls a
lock-out has stopped reports nothing more. With a live position behind, the fifth absent report in a row tears that
down with those behind it; with none behind, the second present one in a row from a closed segment couples it: POWERING,
its coupled seconds at 0, a relearn abandoned. Behind position 3 the second present one raises CHAIN_LIMIT, once until
five absent ones. The model's choices: the arbiter may look at the idle bus before or after the report (log 12), a
repeater that answers is no longer unassigned (log 33), and what a teardown completes on one link is completed in list
order (log 39). -/
def Obligations.PollReportsCounted : Prop :=
  ∀ (s : State) (f : InFlight) (bytes : List Byte) (a : Byte) (first : Bool) (p : Pos) (ref : EntryRef) (e : Entry)
    (w : Watch), s.bus.flight = some f → f.txn = .poll p → f.waited ≤ 5 → f.discard ≠ .teardown →
    replyPayload 7 bytes = some [a] → s.repeaterOf p = some ref → s.entry ref = some e →
    s.det.watches.get (posIdx p) = some w →
    let polled := s.bus.polls.get (posIdx p) ≠ none
    let c := Instr.trailerBusFrameReceived bytes first
    let present := hasBit a 0
    let v := s.setEntry ref (some { e with strikes := 0, unassigned := false })
    let u := { v with bus := { s.bus with
      flight := none
      class1 := s.bus.class1.filter fun x => !decide (x = Txn.rediscover ref)
      class2 := s.bus.class2.filter fun x => !decide (x = Txn.rediscover ref) } }
    let seen := if first then u.grantIfIdle else u
    let put := fun (w' : Watch) => { seen with det := { seen.det with watches := seen.det.watches.set (posIdx p) (some w') } }
    (¬polled → exec c s = .next (s.settle seen)) ∧
    (polled → ∀ q, posBehind p = some q → s.live q = true →
      (present = true → exec c s = .next (s.settle (put { w with absent := 0 }))) ∧
      (present = false → w.absent ≠ 4 → exec c s = .next (s.settle (put { w with absent := w.absent + 1 }))) ∧
      (present = false → w.absent = 4 →
        ∃ t, Torn q (put { w with absent := 5 }) t ∧ exec c s = .next (s.settle t))) ∧
    (polled → ∀ q, posBehind p = some q → s.live q = false →
      (present = false → exec c s = .next (s.settle (put { w with present := 0 }))) ∧
      (present = true → w.closed = false → exec c s = .next (s.settle (put { w with present := 0, absent := 0 }))) ∧
      (present = true → w.closed = true → w.present ≠ 1 →
        exec c s = .next (s.settle (put { w with present := w.present + 1, absent := 0 }))) ∧
      (present = true → w.closed = true → w.present = 1 → ∃ t, exec c s = .next t ∧ s.told t .coupled ∧
        (t.pos q).state = .powering ∧ (t.pos q).coupledSeconds = 0 ∧ t.det.bringUp = some { pos := q } ∧
        t.det.relearn = none ∧ t.det.watches.get (posIdx p) = some { w with present := 0, absent := 0 } ∧
        t.matrix = s.matrix)) ∧
    (polled → p = .p3 →
      let n := min 2 (w.present + 1)
      let k := min 5 (w.absent + 1)
      (present = true → n = 2 → w.held = false → exec c s = .next (s.settle
        ((put { w with present := 0, absent := 0, held := true }).raiseAll .chainLimit))) ∧
      (present = true → n ≠ 2 ∨ w.held = true →
        exec c s = .next (s.settle (put { w with present := n, absent := 0 }))) ∧
      (present = false → k = 5 → w.held = true →
        exec c s = .next (s.settle (put { w with present := 0, absent := 0, held := false }))) ∧
      (present = false → k ≠ 5 ∨ w.held = false →
        exec c s = .next (s.settle (put { w with present := 0, absent := k }))))

/-! ## Position 1 -/

/-- What the contacts are connected to (Table 2-1, Table 2-3): a channel to the contact numbered one more where the
active profile routes it, each wire of the data pair to its own under L and D, the code contacts in every profile, and
every other contact to nothing. -/
def Obligations.ContactsRouted : Prop :=
  ∀ (s : State) (k : Contact),
    let p := s.matrix.active
    let routed := fun c : ChanId => match p with
      | .none => False
      | .s => c.val ≤ 5 ∨ c.val = 7
      | .l => True
      | .d => c.val ≤ 7 ∨ c.val = 9 ∨ c.val = 10
    let carriesChannel := k.val ≤ 11
    let ofPair := k.val = 12 ∨ k.val = 13
    (∀ c, s.contact k = .channel c ↔ k.val = c.val ∧ routed c) ∧
    (∀ w, s.contact k = .dataWire w ↔ k.val = 12 + w.val ∧ (p = .l ∨ p = .d)) ∧
    (s.contact k = .codeKA ↔ k.val = 14) ∧ (s.contact k = .codeKB ↔ k.val = 15) ∧
    (s.contact k = .leftOpen ↔ carriesChannel ∧ (∀ c, k.val = c.val → ¬routed c) ∨ ofPair ∧ p ≠ .l ∧ p ≠ .d)

/-- POSITION1_DEBOUNCE_EXPIRY changes nothing without a debounce (log 3). With position 1 live it tears everything down.
With it ABSENT a code of no profile ends the matter, and a profile couples it: the Matrix takes the profile, COUPLED is
raised, the coupling demand is on and every channel has its demand. Under L or D the position is POWERING, the
broadcasts are claimed, ADDRESS_RESET first, and a channel that was OFF drives exactly where it is routed and wanted.
Under S, without CH9 and the data pair, the stages before MEASURING are passed at once. Several deferred requests of one
link that a teardown completes are completed in list order (the model's choice, log 39). -/
def Obligations.DebounceEnds : Prop :=
  ∀ s : State, s.chainLaw = true →
    let c := Instr.position1DebounceExpiry
    (s.det.debounce = none → exec c s = .next s) ∧
    ∀ d, s.det.debounce = some d → d.length ≤ d.elapsed →
      let v := { s with det := { s.det with debounce := none } }
      (s.live .p1 = true → ∃ u, Torn .p1 v u ∧ exec c s = .next (s.settle u)) ∧
      (s.live .p1 = false → d.candidate = .none → exec c s = .next v.grantIfIdle) ∧
      (s.live .p1 = false → d.candidate ≠ .none → ∃ t, exec c s = .next t ∧ s.told t .coupled ∧
        t.matrix = { s.matrix with active := d.candidate } ∧ t.det.debounce = none ∧ t.det.couplingDemand = true ∧
        (∀ ch, (t.chan ch).demand = demandOf s.effective true ch) ∧
        (d.candidate = .s →
          (t.pos .p1).state = .measuring ∨ (t.pos .p1).state = .online ∨ (t.pos .p1).state = .degraded) ∧
        (d.candidate ≠ .s →
          t.pos .p1 = { s.pos .p1 with state := .powering, coupledSeconds := 0, secondMs := 0 } ∧
          t.det.bringUp = some { pos := .p1, broadcasts := 2 } ∧
          (s.bus.flight = none → s.bus.class1 = [] → s.bus.class2 = [] →
            t.bus.flight = some { txn := .addressReset, frame := busFrame 0 9 [] }) ∧
          ∀ ch, (s.chan ch).state = .off → ((t.chan ch).state = .drive ↔
            routes d.candidate ch = true ∧ demandOf s.effective true ch ≠ .off)))

/-- MAP_REBUILD from SERVICE tears down a live position 1, invalidates every stale entry without pins, starts detection
again and answers OK. PROFILE_FORCE answers MALFORMED for a setting it has not; else the setting is taken and the
effective code formed again. Where that changes, a live position 1 is torn down at once if the new code is a profile
other than the active one; otherwise detection takes it as it takes a code change. The reply shows the contacts and
profiles as they then stand. The model's choices: a change to no profile is handed on like a code change (log
30), and what a teardown completes on one link is completed in list order (log 39). -/
def Obligations.RebuildAndForce : Prop :=
  ∀ (l : LinkId) (s : State) (m : Mlu) (f : List Byte) (rest : List (List Byte)) (r : Request),
    Head s l m f rest r → m.role = .service ∨ m.role = .bench → s.chainLaw = true →
    let v := s.setLink l { m with queue := rest }
    let tag := byteAt f 1
    let prune := fun (u : State) =>
      let keep := fun (e : Option Entry) => e.filter fun e => e.live || e.pins ≠ 0
      let code := u.det.effective
      let debounce := if code = .none then none else some ({ candidate := code, length := 200 } : Debounce)
      { u with
        map := { u.map with singles := u.map.singles.map keep, groups := u.map.groups.map keep }
        det := { u.det with debounce := debounce } }
    (r = .mapRebuild →
      (s.live .p1 = false →
        exec (.mapRebuild l) s = .next (s.settle ((prune v).answer l .mapRebuild tag .ok []))) ∧
      (s.live .p1 = true → ∃ u, Torn .p1 v u ∧
        exec (.mapRebuild l) s = .next (s.settle ((prune u).answer l .mapRebuild tag .ok [])))) ∧
    ∀ b, r = .profileForce b →
      (4 ≤ b.toNat → exec (.profileForce l) s = .next (s.settle (v.answer l .profileForce tag .malformed []))) ∧
      ∀ x : Forced, b.toNat = (match x with | .auto => 0 | .s => 1 | .l => 2 | .d => 3) →
        let e := effectiveOf x s.matrix.kaGrounded s.matrix.kbGrounded
        let forced := { v with matrix := { v.matrix with forced := x } }
        let coded := fun (debounce : Option Debounce) =>
          { forced with det := { forced.det with effective := e, debounce := debounce } }
        let content := fun (active : Profile) =>
          [byteOf x.code, byteOf (bit s.matrix.kaGrounded + 2 * bit s.matrix.kbGrounded),
            byteOf (decodeProfile s.matrix.kaGrounded s.matrix.kbGrounded).code, byteOf active.code]
        let done := fun (u : State) (active : Profile) =>
          exec (.profileForce l) s = .next (s.settle (u.answer l .profileForce tag .ok (content active)))
        (e = s.det.effective → done forced s.matrix.active) ∧
        (e ≠ s.det.effective → e = s.matrix.active → s.live .p1 = true → done (coded none) s.matrix.active) ∧
        (e ≠ s.det.effective → e ≠ s.matrix.active → s.live .p1 = true → e = .none →
          done (coded (some { candidate := e, length := 500 })) s.matrix.active) ∧
        (e ≠ s.det.effective → s.live .p1 = false →
          done (coded (if e = .none then none else some { candidate := e, length := 200 })) s.matrix.active) ∧
        (e ≠ s.det.effective → e ≠ s.matrix.active → s.live .p1 = true → e ≠ .none →
          ∃ u, Torn .p1 (coded s.det.debounce) u ∧ done u .none)

/-! ## The search -/

/-- While a position enumerates, the final silence of a DISCOVER ends its item; a garbled one, or at once a reply that
does not fit the prefix or the runs (log 29), splits it, the 0-branch asked next and the 1-branch kept, or is a conflict
at full length. A single node that a live group holds as its head ID is a conflict. Any other new one is claimed an
ASSIGN: to its own stale entry and its address there where free, or to the entry R23 chooses, victims included, and the
lowest free address; with no entry left it is not entered, MAP_FULL is raised and the search goes on. -/
def Obligations.SearchPlaces : Prop :=
  ∀ (s : State) (f : InFlight) (c : Instr) (b : BringUp) (bits : Word32) (len : Nat), s.bus.flight = some f →
    f.txn = .search bits len → f.discard = .kept → s.det.bringUp = some b → len ≤ 32 →
    let goesOn := fun (u : State) => exec c s = .next (s.settle u.bringUpNext)
    let claims := fun (stack : List SearchItem) (x : Txn) =>
      exec c s = .next { s.idle.claims2 x with bus := { (s.idle.claims2 x).bus with stack := stack } }.grantIfIdle
    let splits := (len < 32 → claims (⟨bits ||| BitVec.twoPow 32 (31 - len), len + 1⟩ :: s.bus.stack)
        (.search bits (len + 1))) ∧
      (len = 32 → goesOn (s.idle.addReason b.pos .idConflict))
    (f.repeated = true → c = .responseTimeout → 5 ≤ f.waited → goesOn s.idle) ∧
    (f.repeated = true → Fails f c → c ≠ .responseTimeout → splits) ∧
    ∀ a3 a2 a1 a0 run, Replies f c [a3, a2, a1, a0, run] →
      let id := word32 a3 a2 a1 a0
      let fits := (∀ n, n < len → id.getLsbD (31 - n) = bits.getLsbD (31 - n)) ∧
        (run = 0 ∨ run = 2 ∨ run = 4 ∨ run = 8 ∨ run = 16)
      let single := fun i => s.entry (.single i)
      let liveGroup := ∃ j, HasIdLive id (s.entry (.group j))
      let held := fun n => ∃ i e, s.entry (.single i) = some e ∧ e.live = true ∧ e.addr = n
      let lowest := fun n => 1 ≤ n ∧ n ≤ 95 ∧ ¬held n ∧ ∀ k, 1 ≤ k → k < n → held k
      let place := fun (i : SingleId) (n : Nat) (reuse victim clear : Bool) => claims s.bus.stack (.place
        { ref := .single i, nodeId := id, addr := n, run := 0, reuse := reuse, victim := victim, clearUsed := clear })
      (¬fits → splits) ∧
      (fits → run = 0 → liveGroup → goesOn (s.idle.addReason b.pos .idConflict)) ∧
      (fits → run = 0 → ¬liveGroup →
        (∀ i e n, FirstWith single (HasId id) i → single i = some e → e.live = false →
          (e.addr = n ∧ ¬held n) ∨ (held e.addr ∧ lowest n) → place i n true false false) ∧
        ((∀ i, ¬HasId id (single i)) →
          (∀ i n victim clear, Chosen single i victim clear → lowest n → place i n false victim clear) ∧
          (NoneLeft single → goesOn ((s.idle.addReason b.pos .mapFull).raiseAll .mapFull))))

/-- A group head found by the search: one that a live single entry holds is a conflict; any other new one is claimed a
GROUP_ASSIGN to the entry and the block that R24 and R102 choose, or with no block or no entry left is not entered,
MAP_FULL is raised and the search goes on. -/
def Obligations.GroupHeadsPlaced : Prop :=
  ∀ (s : State) (f : InFlight) (c : Instr) (b : BringUp) (bits : Word32) (len : Nat) (a3 a2 a1 a0 run : Byte),
    s.bus.flight = some f → f.txn = .search bits len → f.discard = .kept → s.det.bringUp = some b → len ≤ 32 →
    Replies f c [a3, a2, a1, a0, run] → run = 2 ∨ run = 4 ∨ run = 8 ∨ run = 16 →
    let id := word32 a3 a2 a1 a0
    (∀ n, n < len → id.getLsbD (31 - n) = bits.getLsbD (31 - n)) →
    let goesOn := fun (u : State) => exec c s = .next (s.settle u.bringUpNext)
    ((∃ i, HasIdLive id (s.entry (.single i))) → goesOn (s.idle.addReason b.pos .idConflict)) ∧
    ((∀ i, ¬HasIdLive id (s.entry (.single i))) → (∀ j, ¬HasIdLive id (s.entry (.group j))) →
      ∃ t, s.headPlaced id run.toNat none t ∧
        (∀ x, t = some x → exec c s = .next (s.idle.claims2 (.place x)).grantIfIdle) ∧
        (t = none → goesOn ((s.idle.addReason b.pos .mapFull).raiseAll .mapFull)))

/-- The outcome of an ASSIGN or GROUP_ASSIGN. On ACK the placement is made: a reused entry keeps its record and is live
and used at its new address with strikes 0, its slots kept under the same run, and under another run discarded, or kept
without number, watchers and values while it is locked out (log 21), when QUARANTINE is added; any other entry is new,
marked used if it was a victim. Case (4) clears the used marks of the other stale entries of its table (log 28), a
single entry that proved to be a head becomes invalid, and the entry joins its ascending list. Anything else than an ACK
is a conflict, and such a single entry is left without kind and slots. The release of a head to 255 ends likewise. The
model's choices: a group entry that is new has neither kind nor slot until it is described (log 20), and a node placed
under its stale entry is no longer unassigned there (log 33). -/
def Obligations.PlacementsMade : Prop :=
  ∀ (s : State) (f : InFlight) (c : Instr) (b : BringUp), s.bus.flight = some f → f.discard = .kept →
    s.det.bringUp = some b →
    let goesOn := fun (u : State) => exec c s = .next (s.settle u.bringUpNext)
    let refused := f.repeated = true ∧ Fails f c ∨ ∃ a, a ≠ 1 ∧ Replies f c [a]
    let conflict := s.idle.addReason b.pos .idConflict
    let undescribed := fun i : SingleId => conflict.setEntry (.single i)
      ((s.entry (.single i)).map fun e => { e with kind := NodeKind.unknown, slots := [] })
    (∀ id base, f.txn = .releaseGroup id base → (Replies f c [1] → goesOn s.idle) ∧ (refused → goesOn conflict)) ∧
    (∀ i, f.txn = .releaseSingle i → (refused → goesOn (undescribed i)) ∧
      (Replies f c [1] → goesOn ((s.idle.setEntry (.single i) none).setPos b.pos
        { s.pos b.pos with singles := (s.pos b.pos).singles.filter (· ≠ i) }))) ∧
    ∀ t, f.txn = .place t →
      (refused → (t.fromSingle = none → goesOn conflict) ∧ ∀ i, t.fromSingle = some i → goesOn (undescribed i)) ∧
      (Replies f c [1] → (∀ i, t.fromSingle = some i → t.ref ≠ .single i) → ∃ v, goesOn v ∧
        v = { s.idle with map := v.map } ∧ (∀ p, p ≠ b.pos → v.pos p = s.pos p) ∧
        (∀ e, t.reuse = true → s.entry t.ref = some e → v.entry t.ref = some { e with
          live := true, pos := b.pos, addr := t.addr, run := t.run, strikes := 0, unassigned := false, used := true
          slots := if t.run = e.run then e.slots else if e.locked then e.slots.map fun sl =>
            { sl with number := none, cache := List.replicate t.run 0, watch := 0, changed := 0 } else [] }) ∧
        (t.reuse = false ∨ s.entry t.ref = none → v.entry t.ref = some
          { live := true, nodeId := t.nodeId, addr := t.addr, run := t.run, pos := b.pos, used := t.victim }) ∧
        (∀ i, t.fromSingle = some i → v.entry (.single i) = none) ∧
        (∀ r, r ≠ t.ref → (∀ i, t.fromSingle = some i → r ≠ .single i) → v.entry r =
          if t.clearUsed = true ∧ isSingle r = isSingle t.ref then
            (s.entry r).map fun e => if e.live then e else { e with used := false } else s.entry r) ∧
        ∃ singles groups, v.pos b.pos =
            (let r : PosRec := { s.pos b.pos with singles := singles, groups := groups }
             if t.reuse = true ∧ (s.entry t.ref).any (·.locked) = true then r.addReason .quarantine else r) ∧
          (∀ i, i ∈ singles ↔ (t.ref = .single i ∨ i ∈ (s.pos b.pos).singles) ∧ t.fromSingle ≠ some i) ∧
          (∀ j, j ∈ groups ↔ t.ref = .group j ∨ j ∈ (s.pos b.pos).groups) ∧
          ((s.pos b.pos).singles.Pairwise (· < ·) → singles.Pairwise (· < ·)) ∧
          ((s.pos b.pos).groups.Pairwise (· < ·) → groups.Pairwise (· < ·)))

/-! ## Descriptions -/

/-- A DESCRIBE page of the description in progress. Page 0 and the function pages must be lawful, and page 0 of a group
must be that of its group; a description then asks for the function pages and, of a repeater, the ident pages, and ends
with the kind set and the slots formed: a kept slot of the same kind and instance is taken over, each at most once, and
any other is new. A page that fails by content, or a DESCRIBE that fails, leaves a single entry without kind and slots
and returns a group entry to invalid, with its head released. A single entry with a run is placed as a group head. The
model's choices: what still waits for a group entry that is returned to invalid stays as it is (log 36), the release
goes to 255 while the node is unassigned and else to its address, and a node that answers is no longer unassigned (log
33), the strike of a DESCRIBE that fails only counts on an entry that is locked out (log 18), and what a lock-out
completes on one link is completed in list order (log 39). -/
def Obligations.NodesDescribed : Prop :=
  ∀ (s : State) (f : InFlight) (c : Instr) (b : BringUp) (d : Description) (page : Nat) (e : Entry),
    s.bus.flight = some f → f.txn = .describe d.ref page → f.discard = .kept → s.det.bringUp = some b →
    b.desc = some d → s.entry d.ref = some e →
    let next := fun (u : State) => exec c s = .next (s.settle u)
    let with_ := fun (u : State) (b' : BringUp) => { u with det := { u.det with bringUp := some b' } }
    let ended := { b with desc := none, described := d.ref :: b.described }
    let failed := fun (u : State) (e : Entry) => match d.ref with
      | .single _ =>
        (with_ (u.setEntry d.ref (some { e with kind := .unknown, slots := [] })) ended).bringUpNext
      | .group j =>
        (with_ ((u.setEntry d.ref none).setPos b.pos
            { u.pos b.pos with groups := (u.pos b.pos).groups.filter (· ≠ j) }) { b with desc := none }).claims2
          (.releaseGroup e.nodeId (if e.unassigned then 255 else e.addr))
    let v := s.replied d.ref { e with unassigned := false }
    let fails := next (failed v { e with strikes := 0, unassigned := false })
    let goesOn := fun (d' : Description) (p0 : Page0) (k : Nat) =>
      let ident := p0.kind = .repeater ∧ 8 * (max k 4 - 4) < p0.identLen
      (k < p0.count → next ((with_ v { b with desc := some d' }).claims2 (.describe d.ref (k + 1)))) ∧
      (p0.count ≤ k → ident → next ((with_ v { b with desc := some d' }).claims2 (.describe d.ref (max k 4 + 1)))) ∧
      (p0.count ≤ k → ¬ident → ∃ slots : List Slot, slots.length = d'.slots.length ∧
        (∀ n x, d'.slots[n]? = some x →
          let kept := e.slots.filter fun sl => sl.kind = x.kind ∧ sl.inst = x.inst
          let before := (d'.slots.take n).countP fun y => y.kind = x.kind ∧ y.inst = x.inst
          slots[n]? = some (match kept[before]? with
            | some sl => { sl with access := x.access, rangeMin := x.rangeMin, rangeMax := x.rangeMax, unit := x.unit }
            | none => {
                kind := x.kind, inst := x.inst, access := x.access, rangeMin := x.rangeMin, rangeMax := x.rangeMax
                unit := x.unit, cache := List.replicate (max 1 e.run) 0 })) ∧
        next (with_ (s.replied d.ref { e with unassigned := false, kind := p0.kind, slots := slots }) { ended with
          idents := match d.ref with
            | .single i => if p0.kind = .repeater ∧ p0.identLen ≠ 0 then (i, d'.ident.take p0.identLen) :: b.idents
                else b.idents
            | .group _ => b.idents }).bringUpNext)
    (f.repeated = true → Fails f c → s.bounded = true → Txn.reassign d.ref true ∉ s.bus.class2 →
      ∃ w e', State.struck s.idle w d.ref e ∧ w.entry d.ref = some e' ∧ next (failed w e')) ∧
    ∀ payload, Replies f c payload →
      let at_ := fun n => (byteAt payload n).toNat
      (d.page0 = none →
        let lawful := 1 ≤ at_ 0 ∧ at_ 0 ≤ 6 ∧ at_ 1 ≤ 4 ∧ at_ 2 ∈ [0, 2, 4, 8, 16] ∧ at_ 3 ≤ 17
        (¬lawful → fails) ∧
        (lawful → ∀ kind : NodeKind, kind.code = at_ 0 →
          let p0 : Page0 := ⟨kind, at_ 1, at_ 2, at_ 3⟩
          (∀ i, d.ref = .single i → at_ 2 = 0 → goesOn { d with page0 := some p0 } p0 0) ∧
          (∀ i, d.ref = .single i → at_ 2 ≠ 0 → ∃ t, (with_ v ended).headPlaced e.nodeId (at_ 2) (some i) t ∧
            (∀ x, t = some x → next ((with_ v ended).claims2 (.place x))) ∧
            (t = none → next ((((with_ v ended).addReason b.pos .mapFull).raiseAll .mapFull).claims2
              (.releaseSingle i)))) ∧
          (∀ j, d.ref = .group j →
            let ofGroup := (kind = .lampCluster ∨ kind = .tyreHub) ∧ at_ 1 = 1 ∧ at_ 2 = e.run
            (ofGroup → goesOn { d with page0 := some p0 } p0 0) ∧ (¬ofGroup → fails)))) ∧
      ∀ p0, d.page0 = some p0 → p0.count ≤ 4 →
        let lo := word16 (byteAt payload 4) (byteAt payload 5)
        let hi := word16 (byteAt payload 6) (byteAt payload 7)
        let lawful := 1 ≤ at_ 0 ∧ at_ 0 ≤ 9 ∧ at_ 1 ≤ 15 ∧ (at_ 0 = 3 → at_ 1 ≤ 11) ∧ 1 ≤ at_ 2 ∧ at_ 2 ≤ 3 ∧
          1 ≤ at_ 3 ∧ at_ 3 ≤ 6 ∧ lo.toInt ≤ hi.toInt
        (page ≤ 4 → ¬lawful → fails) ∧
        (page ≤ 4 → lawful → ∀ x : SlotDesc, funCode x.kind = at_ 0 → x.inst = at_ 1 → x.access.code = at_ 2 →
          x.unit.code = at_ 3 → x.rangeMin = lo → x.rangeMax = hi →
          goesOn { d with slots := d.slots ++ [x] } p0 page) ∧
        (4 < page → goesOn { d with ident := d.ident ++ payload } p0 page)

/-- What a bring-up does next in ENUMERATING: it asks for the item on top of the search stack, then describes the next
entry of its lists that is neither described nor locked out, and then ends the stage. Its slots without a number take
the lowest free numbers in the order of its lists, and where the numbers run out MAP_FULL is added and raised; the chain
repeater is the repeater with the lowest node ID that is not locked out, and the ident the one read from it; then the
lamp channels are measured. -/
def Obligations.BringUpGoesOn : Prop :=
  ∀ (s : State) (b : BringUp), s.det.bringUp = some b →
    let refs := (s.pos b.pos).refs
    let passed := fun ref => ref ∈ b.described ∨ ∃ e, s.entry ref = some e ∧ e.locked = true
    (∀ item rest, s.bus.stack = item :: rest → s.bringUpNext =
      { s.claims2 (.search item.bits item.len) with
        bus := { (s.claims2 (.search item.bits item.len)).bus with stack := rest } }) ∧
    (∀ front ref back, s.bus.stack = [] → refs = front ++ ref :: back → (∀ r ∈ front, passed r) → ¬passed ref →
      s.bringUpNext = { s with det := { s.det with bringUp := some { b with desc := some { ref := ref } } } }.claims2
        (.describe ref 0)) ∧
    (s.bus.stack = [] → (∀ r ∈ refs, passed r) →
      let held := fun n => ∃ ref e sl, s.entry ref = some e ∧ sl ∈ e.slots ∧ sl.number = some n
      ∃ (free : List Nat) (want : List (EntryRef × Nat)) (t : State),
        free.Pairwise (· < ·) ∧ (∀ n, n ∈ free ↔ 16 ≤ n ∧ n ≤ 127 ∧ ¬held n) ∧
        want = (refs.flatMap fun ref => (List.range (((s.entry ref).map fun e => e.slots.length).getD 0)).filterMap
          fun k => if (s.slot ref k).any (fun sl => sl.number.isNone) then some (ref, k) else none).eraseDups ∧
        (∀ ref k, (ref, k) ∉ want → t.slot ref k = s.slot ref k) ∧
        (∀ (n : Nat) ref k sl, want[n]? = some (ref, k) → s.slot ref k = some sl →
          t.slot ref k = some { sl with number := free[n]? }) ∧
        (∀ ref e, s.entry ref = some e → ∃ slots, t.entry ref = some { e with slots := slots }) ∧
        (let u := if want.length ≤ free.length then s else (s.addReason b.pos .mapFull).raiseAll .mapFull
         t = { u with map := { u.map with singles := t.map.singles, groups := t.map.groups } }) ∧
        ∃ rep ident,
          let mayChain := fun (i : SingleId) (e : Entry) => i ∈ (s.pos b.pos).singles ∧ s.entry (.single i) = some e ∧
            e.kind = .repeater ∧ e.locked = false
          (rep = none → ident = none ∧ ∀ i e, ¬mayChain i e) ∧
          (∀ i, rep = some i → ∃ e, mayChain i e ∧ (∀ j x, mayChain j x → e.nodeId.toNat ≤ x.nodeId.toNat) ∧
            (∀ front x back, b.idents = front ++ (i, x) :: back → (∀ y ∈ front, y.1 ≠ i) → ident = some x) ∧
            ((∀ y ∈ b.idents, y.1 ≠ i) → ident = none)) ∧
          s.bringUpNext = (t.setPos b.pos
            { t.pos b.pos with state := .measuring, repeater := rep, ident := ident }).measure b.pos allLamps)

/-! ## Chain repeaters and restarted nodes -/

/-- The outcome of a SEGMENT close: an ACK sets the closed mark and removes CHAIN_OPEN; anything else clears the mark,
sets the present count to 0 and adds CHAIN_OPEN. A reply clears the repeater's strikes, silence and a garbled frame add
one. A ready position is ONLINE without a reason and DEGRADED with one. The model's choices: a locked-out entry only
counts its strikes (log 18), a lock-out that withdraws the re-assignment the search waits for lets it go on (log 19),
what a lock-out completes on one link is completed in list order (log 39), and a repeater that answers is no longer
unassigned (log 33). -/
def Obligations.SegmentCloseSettled : Prop :=
  ∀ (s : State) (f : InFlight) (c : Instr) (p : Pos) (ref : EntryRef) (e : Entry), s.bus.flight = some f →
    f.txn = .segmentClose p → f.discard = .kept → s.repeaterOf p = some ref → s.entry ref = some e →
    let closed := fun (v : State) (ack : Bool) =>
      let watch := (v.det.watches.get (posIdx p)).map fun w =>
        if ack then { w with closed := true } else { w with closed := false, present := 0 }
      let reasons := if ack then dropBit (v.pos p).reasons 4 else addBit (v.pos p).reasons 4
      let state := if v.ready p then (if reasons = 0 then .online else .degraded) else (v.pos p).state
      { v with det := { v.det with watches := v.det.watches.set (posIdx p) watch } }.setPos p
        { v.pos p with reasons := reasons, state := state }
    (∀ a, Replies f c [a] →
      exec c s = .next (s.settle (closed (s.replied ref { e with unassigned := false }) (a = 1)))) ∧
    (f.repeated = true → Fails f c → s.bounded = true →
      ∃ v, State.struck s.idle v ref e ∧ exec c s = .next (s.settle (closed v false)))

/-- A node found unassigned under its own live entry, by a rediscovery or by the search: its strikes are 0, the restart
count of a single entry grows by 1 up to 255, its segment counts as open again if it is a chain repeater, and its
re-assignment is claimed unless it is locked out. A rediscovery without a fitting reply changes nothing. The ACK of a
re-assignment clears the strikes and has a chain repeater in service close its segment again, a NAK clears the strikes,
a failure strikes; the search goes on after its own. The model's choices: the re-assignment goes to 255 while the node
is unassigned, and to its address once it has answered there (log 33); a valid reply that does not fit ends a
rediscovery at once, without the repetition (log 29); a locked-out entry only counts its strikes (log 18), and a
lock-out that withdraws the re-assignment the search waits for lets it go on (log 19); what a lock-out completes on one
link is completed in list order (log 39); and a re-assignment of the search that ends without ACK adds no ID_CONFLICT
(log 38). -/
def Obligations.RestartsReassigned : Prop :=
  ∀ (s : State) (f : InFlight) (c : Instr) (ref : EntryRef) (e : Entry), s.bus.flight = some f → f.discard = .kept →
    s.entry ref = some e →
    let next := fun (u : State) => exec c s = .next (s.settle u)
    let back :=
      let v := s.replied ref (match ref with
        | .single _ => { e with unassigned := true, restarts := min 255 (e.restarts + 1) }
        | .group _ => { e with unassigned := true })
      match s.chainOf ref with
      | some p =>
        let watch := (v.det.watches.get (posIdx p)).map fun w : Watch => { w with closed := false, present := 0 }
        { v with det := { v.det with watches := v.det.watches.set (posIdx p) watch } }
      | none => v
    let found := fun (byBringUp : Bool) =>
      if e.locked then (if byBringUp then back.bringUpNext else back) else back.claims2 (.reassign ref byBringUp)
    let run := fun (a : Byte) => a = 0 ∨ a = 2 ∨ a = 4 ∨ a = 8 ∨ a = 16
    (∀ byBringUp, s.requestOf (.reassign ref byBringUp) =
      let dest := if e.unassigned then 255 else e.addr
      match ref with
      | .single _ => busFrame dest 2 (Word32.bytes e.nodeId ++ [byteOf e.addr])
      | .group _ => busFrame dest 3 (Word32.bytes e.nodeId ++ [byteOf e.addr, byteOf e.run])) ∧
    (f.txn = .rediscover ref →
      (∀ a3 a2 a1 a0 a, Replies f c [a3, a2, a1, a0, a] →
        (word32 a3 a2 a1 a0 = e.nodeId ∧ run a → next (found false)) ∧
        (¬(word32 a3 a2 a1 a0 = e.nodeId ∧ run a) → next s.idle)) ∧
      (f.repeated = true → Fails f c → next s.idle)) ∧
    (∀ bits len a3 a2 a1 a0 a, f.txn = .search bits len → len ≤ 32 → e.live = true →
      Replies f c [a3, a2, a1, a0, a] → run a → word32 a3 a2 a1 a0 = e.nodeId →
      (∀ n, n < len → e.nodeId.getLsbD (31 - n) = bits.getLsbD (31 - n)) →
      ((∃ i, ref = .single i ∧ a = 0 ∧ FirstWith (fun i => s.entry (.single i)) (HasId e.nodeId) i ∧
          ∀ j, ¬HasIdLive e.nodeId (s.entry (.group j))) ∨
        ∃ j, ref = .group j ∧ a ≠ 0 ∧ FirstWith (fun j => s.entry (.group j)) (HasIdLive e.nodeId) j ∧
          ∀ i, ¬HasIdLive e.nodeId (s.entry (.single i))) →
      next (found true)) ∧
    ∀ byBringUp, f.txn = .reassign ref byBringUp →
      let after := fun (u : State) => next (if byBringUp then u.bringUpNext else u)
      (∀ a, Replies f c [a] → a ≠ 1 → after (s.replied ref e)) ∧
      (Replies f c [1] →
        let v := s.replied ref { e with unassigned := false }
        after (match s.chainOf ref with
          | some p => if e.locked then v else v.claims1 [.segmentClose p]
          | none => v)) ∧
      (f.repeated = true → Fails f c → s.bounded = true → ∃ v, State.struck s.idle v ref e ∧ after v)

/-! ## Becoming ready, and the commit of a relearn -/

/-- The outcome of the last lamp channel that is routed ends the measuring; the unrouted ones after it are written with
the values of ABSENT. A position in bring-up becomes ready: ONLINE without a reason and DEGRADED with one,
PROBE_INCOMPLETE among them where the outcome is incomplete; a chain repeater gets a watch, a SEGMENT close and a poll
timer; POSITION_READY is raised. A relearn commits: its shadows become the contributions, PROBE_INCOMPLETE follows its
outcomes. Either way the expected currents are the sums over the ready positions and every verdict is UNCHECKED, the
slow rate with them. -/
def Obligations.MeasuringEnds : Prop :=
  ∀ (s : State) (q : Probe) (c : Instr) (incomplete : Bool), s.bank.probe = some q → s.flashLaw = true →
    let ch := s.chan (lampChan q.lamp)
    let steady := ch.state = .drive ∧ ch.derated = false ∧
      (ch.demand = .steady ∨ q.lamp = 2 ∧ ch.demand = .flashEmergency)
    (c = .probeAttemptComplete ∧ q.phase = .attempt ∧ ch.state = .probeOn ∧ q.samples.length = 16 ∧ incomplete = false ∨
      c = .settledOnlyComplete ∧ q.phase = .settledOnly ∧ q.samples.length = 16 ∧ incomplete = true ∨
      c = .probeLimitExpiry ∧ q.expired = false ∧ 10000 ≤ q.elapsed ∧ q.phase ≠ .attempt ∧ ¬steady ∧
        incomplete = true) →
    (∀ l, q.lamp < l → s.routed (lampChan l) = false) →
    let p := q.pos
    let old := s.pos p
    let learned := fun (was now : Tbl Contribution 10) => (∀ l, q.lamp < l → now.get l = {}) ∧
      ∀ l, l < q.lamp → now.get l = was.get l
    let judged := fun (t : State) => (∀ l, t.load.verdicts.get l = {}) ∧ t.light.fast = false ∧
      (∀ l, t.load.expected.get l = ((allPos.filter fun x => t.ready x).map fun x =>
        ((t.pos x).contrib.get l).settled).sum) ∧
      ((∃ l, (s.load.verdicts.get l).kind ≠ .unchecked) → s.told t .lampVerdict) ∧ t.bank.probe = none ∧
      t.map.singles = s.map.singles ∧ t.map.groups = s.map.groups ∧ ∀ x, x ≠ p → t.pos x = s.pos x
    let state := fun (reasons : ReasonSet) => if reasons = 0 then PosState.online else .degraded
    (old.relearn = false → ∃ t, exec c s = .next (s.settle t) ∧ judged t ∧ s.told t .positionReady ∧
      (let reasons := if incomplete then addBit old.reasons 2 else old.reasons
       ∃ contrib, learned old.contrib contrib ∧
        t.pos p = { old with contrib := contrib, reasons := reasons, state := state reasons }) ∧
      t.det = { s.det with
        bringUp := none
        watches := if old.repeater = none then s.det.watches else s.det.watches.set (posIdx p) (some {}) } ∧
      t.bus = { s.bus with
        class2 := if old.repeater = none then s.bus.class2 else s.bus.class2 ++ [.segmentClose p]
        polls := if old.repeater = none then s.bus.polls else s.bus.polls.set (posIdx p) (some 0) }) ∧
    (old.relearn = true → s.ready p = true → ∀ x, s.det.relearn = some x →
      ∃ t, exec c s = .next (s.settle t) ∧ judged t ∧ t.bus = s.bus ∧ t.det = { s.det with relearn := none } ∧
      let short := incomplete || x.incomplete
      let reasons := if short then addBit old.reasons 2 else dropBit old.reasons 2
      ∃ contrib, learned old.shadow contrib ∧ t.pos p = { old with
        contrib := contrib, shadow := Tbl.fill 10 {}, relearn := false, reasons := reasons, state := state reasons })
end

