-- ==== Sys2Proof/Laws/State.lean ====
section
/-! SUPPORT. One lemma per field per update of State: what each named update leaves as it was, so that no proof unfolds a
record update. -/

namespace Sys2Proof.Machine

@[simp] theorem State.setPos_pending (s : State) (p : Pos) (r : PosRec) : (s.setPos p r).pending = s.pending := rfl
@[simp] theorem State.setPos_matrix (s : State) (p : Pos) (r : PosRec) : (s.setPos p r).matrix = s.matrix := rfl
@[simp] theorem State.setPos_bank (s : State) (p : Pos) (r : PosRec) : (s.setPos p r).bank = s.bank := rfl
@[simp] theorem State.setPos_load (s : State) (p : Pos) (r : PosRec) : (s.setPos p r).load = s.load := rfl
@[simp] theorem State.setPos_bus (s : State) (p : Pos) (r : PosRec) : (s.setPos p r).bus = s.bus := rfl
@[simp] theorem State.setPos_det (s : State) (p : Pos) (r : PosRec) : (s.setPos p r).det = s.det := rfl
@[simp] theorem State.setPos_light (s : State) (p : Pos) (r : PosRec) : (s.setPos p r).light = s.light := rfl
@[simp] theorem State.setPos_dec (s : State) (p : Pos) (r : PosRec) : (s.setPos p r).dec = s.dec := rfl
@[simp] theorem State.setPos_links (s : State) (p : Pos) (r : PosRec) : (s.setPos p r).links = s.links := rfl
@[simp] theorem State.setPos_freeCount (s : State) (p : Pos) (r : PosRec) : (s.setPos p r).freeCount = s.freeCount := rfl

@[simp] theorem State.modPos_pending (s : State) (p : Pos) (f : PosRec → PosRec) : (s.modPos p f).pending = s.pending := rfl
@[simp] theorem State.modPos_matrix (s : State) (p : Pos) (f : PosRec → PosRec) : (s.modPos p f).matrix = s.matrix := rfl
@[simp] theorem State.modPos_bank (s : State) (p : Pos) (f : PosRec → PosRec) : (s.modPos p f).bank = s.bank := rfl
@[simp] theorem State.modPos_load (s : State) (p : Pos) (f : PosRec → PosRec) : (s.modPos p f).load = s.load := rfl
@[simp] theorem State.modPos_bus (s : State) (p : Pos) (f : PosRec → PosRec) : (s.modPos p f).bus = s.bus := rfl
@[simp] theorem State.modPos_det (s : State) (p : Pos) (f : PosRec → PosRec) : (s.modPos p f).det = s.det := rfl
@[simp] theorem State.modPos_light (s : State) (p : Pos) (f : PosRec → PosRec) : (s.modPos p f).light = s.light := rfl
@[simp] theorem State.modPos_dec (s : State) (p : Pos) (f : PosRec → PosRec) : (s.modPos p f).dec = s.dec := rfl
@[simp] theorem State.modPos_links (s : State) (p : Pos) (f : PosRec → PosRec) : (s.modPos p f).links = s.links := rfl
@[simp] theorem State.modPos_freeCount (s : State) (p : Pos) (f : PosRec → PosRec) : (s.modPos p f).freeCount = s.freeCount := rfl

@[simp] theorem State.setEntry_pending (s : State) (ref : EntryRef) (e : Option Entry) : (s.setEntry ref e).pending = s.pending := by cases ref <;> rfl
@[simp] theorem State.setEntry_matrix (s : State) (ref : EntryRef) (e : Option Entry) : (s.setEntry ref e).matrix = s.matrix := by cases ref <;> rfl
@[simp] theorem State.setEntry_bank (s : State) (ref : EntryRef) (e : Option Entry) : (s.setEntry ref e).bank = s.bank := by cases ref <;> rfl
@[simp] theorem State.setEntry_load (s : State) (ref : EntryRef) (e : Option Entry) : (s.setEntry ref e).load = s.load := by cases ref <;> rfl
@[simp] theorem State.setEntry_bus (s : State) (ref : EntryRef) (e : Option Entry) : (s.setEntry ref e).bus = s.bus := by cases ref <;> rfl
@[simp] theorem State.setEntry_det (s : State) (ref : EntryRef) (e : Option Entry) : (s.setEntry ref e).det = s.det := by cases ref <;> rfl
@[simp] theorem State.setEntry_light (s : State) (ref : EntryRef) (e : Option Entry) : (s.setEntry ref e).light = s.light := by cases ref <;> rfl
@[simp] theorem State.setEntry_dec (s : State) (ref : EntryRef) (e : Option Entry) : (s.setEntry ref e).dec = s.dec := by cases ref <;> rfl
@[simp] theorem State.setEntry_links (s : State) (ref : EntryRef) (e : Option Entry) : (s.setEntry ref e).links = s.links := by cases ref <;> rfl
@[simp] theorem State.setEntry_freeCount (s : State) (ref : EntryRef) (e : Option Entry) : (s.setEntry ref e).freeCount = s.freeCount := by cases ref <;> rfl

@[simp] theorem State.mapEntries_pending (s : State) (f : Entry → Entry) : (s.mapEntries f).pending = s.pending := rfl
@[simp] theorem State.mapEntries_matrix (s : State) (f : Entry → Entry) : (s.mapEntries f).matrix = s.matrix := rfl
@[simp] theorem State.mapEntries_bank (s : State) (f : Entry → Entry) : (s.mapEntries f).bank = s.bank := rfl
@[simp] theorem State.mapEntries_load (s : State) (f : Entry → Entry) : (s.mapEntries f).load = s.load := rfl
@[simp] theorem State.mapEntries_bus (s : State) (f : Entry → Entry) : (s.mapEntries f).bus = s.bus := rfl
@[simp] theorem State.mapEntries_det (s : State) (f : Entry → Entry) : (s.mapEntries f).det = s.det := rfl
@[simp] theorem State.mapEntries_light (s : State) (f : Entry → Entry) : (s.mapEntries f).light = s.light := rfl
@[simp] theorem State.mapEntries_dec (s : State) (f : Entry → Entry) : (s.mapEntries f).dec = s.dec := rfl
@[simp] theorem State.mapEntries_links (s : State) (f : Entry → Entry) : (s.mapEntries f).links = s.links := rfl
@[simp] theorem State.mapEntries_freeCount (s : State) (f : Entry → Entry) : (s.mapEntries f).freeCount = s.freeCount := rfl

@[simp] theorem State.putChan_pending (s : State) (c : ChanId) (ch : Channel) : (s.putChan c ch).pending = s.pending := rfl
@[simp] theorem State.putChan_map (s : State) (c : ChanId) (ch : Channel) : (s.putChan c ch).map = s.map := rfl
@[simp] theorem State.putChan_matrix (s : State) (c : ChanId) (ch : Channel) : (s.putChan c ch).matrix = s.matrix := rfl
@[simp] theorem State.putChan_load (s : State) (c : ChanId) (ch : Channel) : (s.putChan c ch).load = s.load := rfl
@[simp] theorem State.putChan_bus (s : State) (c : ChanId) (ch : Channel) : (s.putChan c ch).bus = s.bus := rfl
@[simp] theorem State.putChan_light (s : State) (c : ChanId) (ch : Channel) : (s.putChan c ch).light = s.light := rfl
@[simp] theorem State.putChan_dec (s : State) (c : ChanId) (ch : Channel) : (s.putChan c ch).dec = s.dec := rfl
@[simp] theorem State.putChan_links (s : State) (c : ChanId) (ch : Channel) : (s.putChan c ch).links = s.links := rfl
@[simp] theorem State.putChan_freeCount (s : State) (c : ChanId) (ch : Channel) : (s.putChan c ch).freeCount = s.freeCount := rfl

@[simp] theorem State.setLink_pending (s : State) (l : LinkId) (m : Mlu) : (s.setLink l m).pending = s.pending := by cases l <;> rfl
@[simp] theorem State.setLink_map (s : State) (l : LinkId) (m : Mlu) : (s.setLink l m).map = s.map := by cases l <;> rfl
@[simp] theorem State.setLink_matrix (s : State) (l : LinkId) (m : Mlu) : (s.setLink l m).matrix = s.matrix := by cases l <;> rfl
@[simp] theorem State.setLink_bank (s : State) (l : LinkId) (m : Mlu) : (s.setLink l m).bank = s.bank := by cases l <;> rfl
@[simp] theorem State.setLink_load (s : State) (l : LinkId) (m : Mlu) : (s.setLink l m).load = s.load := by cases l <;> rfl
@[simp] theorem State.setLink_bus (s : State) (l : LinkId) (m : Mlu) : (s.setLink l m).bus = s.bus := by cases l <;> rfl
@[simp] theorem State.setLink_det (s : State) (l : LinkId) (m : Mlu) : (s.setLink l m).det = s.det := by cases l <;> rfl
@[simp] theorem State.setLink_light (s : State) (l : LinkId) (m : Mlu) : (s.setLink l m).light = s.light := by cases l <;> rfl
@[simp] theorem State.setLink_dec (s : State) (l : LinkId) (m : Mlu) : (s.setLink l m).dec = s.dec := by cases l <;> rfl
@[simp] theorem State.setLink_freeCount (s : State) (l : LinkId) (m : Mlu) : (s.setLink l m).freeCount = s.freeCount := by cases l <;> rfl

@[simp] theorem State.raiseFor_pending (s : State) (roles : RoleSet) (k : EventKind) : (s.raiseFor roles k).pending = s.pending := rfl
@[simp] theorem State.raiseFor_map (s : State) (roles : RoleSet) (k : EventKind) : (s.raiseFor roles k).map = s.map := rfl
@[simp] theorem State.raiseFor_matrix (s : State) (roles : RoleSet) (k : EventKind) : (s.raiseFor roles k).matrix = s.matrix := rfl
@[simp] theorem State.raiseFor_bank (s : State) (roles : RoleSet) (k : EventKind) : (s.raiseFor roles k).bank = s.bank := rfl
@[simp] theorem State.raiseFor_load (s : State) (roles : RoleSet) (k : EventKind) : (s.raiseFor roles k).load = s.load := rfl
@[simp] theorem State.raiseFor_bus (s : State) (roles : RoleSet) (k : EventKind) : (s.raiseFor roles k).bus = s.bus := rfl
@[simp] theorem State.raiseFor_det (s : State) (roles : RoleSet) (k : EventKind) : (s.raiseFor roles k).det = s.det := rfl
@[simp] theorem State.raiseFor_light (s : State) (roles : RoleSet) (k : EventKind) : (s.raiseFor roles k).light = s.light := rfl
@[simp] theorem State.raiseFor_dec (s : State) (roles : RoleSet) (k : EventKind) : (s.raiseFor roles k).dec = s.dec := rfl
@[simp] theorem State.raiseFor_freeCount (s : State) (roles : RoleSet) (k : EventKind) : (s.raiseFor roles k).freeCount = s.freeCount := rfl

@[simp] theorem State.raiseAll_pending (s : State) (k : EventKind) : (s.raiseAll k).pending = s.pending := rfl
@[simp] theorem State.raiseAll_map (s : State) (k : EventKind) : (s.raiseAll k).map = s.map := rfl
@[simp] theorem State.raiseAll_matrix (s : State) (k : EventKind) : (s.raiseAll k).matrix = s.matrix := rfl
@[simp] theorem State.raiseAll_bank (s : State) (k : EventKind) : (s.raiseAll k).bank = s.bank := rfl
@[simp] theorem State.raiseAll_load (s : State) (k : EventKind) : (s.raiseAll k).load = s.load := rfl
@[simp] theorem State.raiseAll_bus (s : State) (k : EventKind) : (s.raiseAll k).bus = s.bus := rfl
@[simp] theorem State.raiseAll_det (s : State) (k : EventKind) : (s.raiseAll k).det = s.det := rfl
@[simp] theorem State.raiseAll_light (s : State) (k : EventKind) : (s.raiseAll k).light = s.light := rfl
@[simp] theorem State.raiseAll_dec (s : State) (k : EventKind) : (s.raiseAll k).dec = s.dec := rfl
@[simp] theorem State.raiseAll_freeCount (s : State) (k : EventKind) : (s.raiseAll k).freeCount = s.freeCount := rfl

@[simp] theorem State.raiseRole_pending (s : State) (r : Role) (k : EventKind) : (s.raiseRole r k).pending = s.pending := rfl
@[simp] theorem State.raiseRole_map (s : State) (r : Role) (k : EventKind) : (s.raiseRole r k).map = s.map := rfl
@[simp] theorem State.raiseRole_matrix (s : State) (r : Role) (k : EventKind) : (s.raiseRole r k).matrix = s.matrix := rfl
@[simp] theorem State.raiseRole_bank (s : State) (r : Role) (k : EventKind) : (s.raiseRole r k).bank = s.bank := rfl
@[simp] theorem State.raiseRole_load (s : State) (r : Role) (k : EventKind) : (s.raiseRole r k).load = s.load := rfl
@[simp] theorem State.raiseRole_bus (s : State) (r : Role) (k : EventKind) : (s.raiseRole r k).bus = s.bus := rfl
@[simp] theorem State.raiseRole_det (s : State) (r : Role) (k : EventKind) : (s.raiseRole r k).det = s.det := rfl
@[simp] theorem State.raiseRole_light (s : State) (r : Role) (k : EventKind) : (s.raiseRole r k).light = s.light := rfl
@[simp] theorem State.raiseRole_dec (s : State) (r : Role) (k : EventKind) : (s.raiseRole r k).dec = s.dec := rfl
@[simp] theorem State.raiseRole_freeCount (s : State) (r : Role) (k : EventKind) : (s.raiseRole r k).freeCount = s.freeCount := rfl

@[simp] theorem State.setProbe_pending (s : State) (q : Option Probe) : (s.setProbe q).pending = s.pending := rfl
@[simp] theorem State.setProbe_map (s : State) (q : Option Probe) : (s.setProbe q).map = s.map := rfl
@[simp] theorem State.setProbe_matrix (s : State) (q : Option Probe) : (s.setProbe q).matrix = s.matrix := rfl
@[simp] theorem State.setProbe_load (s : State) (q : Option Probe) : (s.setProbe q).load = s.load := rfl
@[simp] theorem State.setProbe_bus (s : State) (q : Option Probe) : (s.setProbe q).bus = s.bus := rfl
@[simp] theorem State.setProbe_det (s : State) (q : Option Probe) : (s.setProbe q).det = s.det := rfl
@[simp] theorem State.setProbe_light (s : State) (q : Option Probe) : (s.setProbe q).light = s.light := rfl
@[simp] theorem State.setProbe_dec (s : State) (q : Option Probe) : (s.setProbe q).dec = s.dec := rfl
@[simp] theorem State.setProbe_links (s : State) (q : Option Probe) : (s.setProbe q).links = s.links := rfl
@[simp] theorem State.setProbe_freeCount (s : State) (q : Option Probe) : (s.setProbe q).freeCount = s.freeCount := rfl

@[simp] theorem State.setWatch_pending (s : State) (p : Pos) (w : Option Watch) : (s.setWatch p w).pending = s.pending := rfl
@[simp] theorem State.setWatch_map (s : State) (p : Pos) (w : Option Watch) : (s.setWatch p w).map = s.map := rfl
@[simp] theorem State.setWatch_matrix (s : State) (p : Pos) (w : Option Watch) : (s.setWatch p w).matrix = s.matrix := rfl
@[simp] theorem State.setWatch_bank (s : State) (p : Pos) (w : Option Watch) : (s.setWatch p w).bank = s.bank := rfl
@[simp] theorem State.setWatch_load (s : State) (p : Pos) (w : Option Watch) : (s.setWatch p w).load = s.load := rfl
@[simp] theorem State.setWatch_bus (s : State) (p : Pos) (w : Option Watch) : (s.setWatch p w).bus = s.bus := rfl
@[simp] theorem State.setWatch_light (s : State) (p : Pos) (w : Option Watch) : (s.setWatch p w).light = s.light := rfl
@[simp] theorem State.setWatch_dec (s : State) (p : Pos) (w : Option Watch) : (s.setWatch p w).dec = s.dec := rfl
@[simp] theorem State.setWatch_links (s : State) (p : Pos) (w : Option Watch) : (s.setWatch p w).links = s.links := rfl
@[simp] theorem State.setWatch_freeCount (s : State) (p : Pos) (w : Option Watch) : (s.setWatch p w).freeCount = s.freeCount := rfl

@[simp] theorem State.setPoll_pending (s : State) (p : Pos) (t : Option Nat) : (s.setPoll p t).pending = s.pending := rfl
@[simp] theorem State.setPoll_map (s : State) (p : Pos) (t : Option Nat) : (s.setPoll p t).map = s.map := rfl
@[simp] theorem State.setPoll_matrix (s : State) (p : Pos) (t : Option Nat) : (s.setPoll p t).matrix = s.matrix := rfl
@[simp] theorem State.setPoll_bank (s : State) (p : Pos) (t : Option Nat) : (s.setPoll p t).bank = s.bank := rfl
@[simp] theorem State.setPoll_load (s : State) (p : Pos) (t : Option Nat) : (s.setPoll p t).load = s.load := rfl
@[simp] theorem State.setPoll_det (s : State) (p : Pos) (t : Option Nat) : (s.setPoll p t).det = s.det := rfl
@[simp] theorem State.setPoll_light (s : State) (p : Pos) (t : Option Nat) : (s.setPoll p t).light = s.light := rfl
@[simp] theorem State.setPoll_dec (s : State) (p : Pos) (t : Option Nat) : (s.setPoll p t).dec = s.dec := rfl
@[simp] theorem State.setPoll_links (s : State) (p : Pos) (t : Option Nat) : (s.setPoll p t).links = s.links := rfl
@[simp] theorem State.setPoll_freeCount (s : State) (p : Pos) (t : Option Nat) : (s.setPoll p t).freeCount = s.freeCount := rfl

@[simp] theorem State.claim1_pending (s : State) (t : Txn) : (s.claim1 t).pending = s.pending := rfl
@[simp] theorem State.claim1_map (s : State) (t : Txn) : (s.claim1 t).map = s.map := rfl
@[simp] theorem State.claim1_matrix (s : State) (t : Txn) : (s.claim1 t).matrix = s.matrix := rfl
@[simp] theorem State.claim1_bank (s : State) (t : Txn) : (s.claim1 t).bank = s.bank := rfl
@[simp] theorem State.claim1_load (s : State) (t : Txn) : (s.claim1 t).load = s.load := rfl
@[simp] theorem State.claim1_det (s : State) (t : Txn) : (s.claim1 t).det = s.det := rfl
@[simp] theorem State.claim1_light (s : State) (t : Txn) : (s.claim1 t).light = s.light := rfl
@[simp] theorem State.claim1_dec (s : State) (t : Txn) : (s.claim1 t).dec = s.dec := rfl
@[simp] theorem State.claim1_links (s : State) (t : Txn) : (s.claim1 t).links = s.links := rfl
@[simp] theorem State.claim1_freeCount (s : State) (t : Txn) : (s.claim1 t).freeCount = s.freeCount := rfl

@[simp] theorem State.claim2_pending (s : State) (t : Txn) : (s.claim2 t).pending = s.pending := rfl
@[simp] theorem State.claim2_map (s : State) (t : Txn) : (s.claim2 t).map = s.map := rfl
@[simp] theorem State.claim2_matrix (s : State) (t : Txn) : (s.claim2 t).matrix = s.matrix := rfl
@[simp] theorem State.claim2_bank (s : State) (t : Txn) : (s.claim2 t).bank = s.bank := rfl
@[simp] theorem State.claim2_load (s : State) (t : Txn) : (s.claim2 t).load = s.load := rfl
@[simp] theorem State.claim2_det (s : State) (t : Txn) : (s.claim2 t).det = s.det := rfl
@[simp] theorem State.claim2_light (s : State) (t : Txn) : (s.claim2 t).light = s.light := rfl
@[simp] theorem State.claim2_dec (s : State) (t : Txn) : (s.claim2 t).dec = s.dec := rfl
@[simp] theorem State.claim2_links (s : State) (t : Txn) : (s.claim2 t).links = s.links := rfl
@[simp] theorem State.claim2_freeCount (s : State) (t : Txn) : (s.claim2 t).freeCount = s.freeCount := rfl

@[simp] theorem State.send_pending (s : State) (t : Txn) : (s.send t).pending = s.pending := rfl
@[simp] theorem State.send_map (s : State) (t : Txn) : (s.send t).map = s.map := rfl
@[simp] theorem State.send_matrix (s : State) (t : Txn) : (s.send t).matrix = s.matrix := rfl
@[simp] theorem State.send_bank (s : State) (t : Txn) : (s.send t).bank = s.bank := rfl
@[simp] theorem State.send_load (s : State) (t : Txn) : (s.send t).load = s.load := rfl
@[simp] theorem State.send_det (s : State) (t : Txn) : (s.send t).det = s.det := rfl
@[simp] theorem State.send_light (s : State) (t : Txn) : (s.send t).light = s.light := rfl
@[simp] theorem State.send_dec (s : State) (t : Txn) : (s.send t).dec = s.dec := rfl
@[simp] theorem State.send_links (s : State) (t : Txn) : (s.send t).links = s.links := rfl
@[simp] theorem State.send_freeCount (s : State) (t : Txn) : (s.send t).freeCount = s.freeCount := rfl

@[simp] theorem State.withdraw_pending (s : State) (test : Txn → Bool) : (s.withdraw test).pending = s.pending := rfl
@[simp] theorem State.withdraw_map (s : State) (test : Txn → Bool) : (s.withdraw test).map = s.map := rfl
@[simp] theorem State.withdraw_matrix (s : State) (test : Txn → Bool) : (s.withdraw test).matrix = s.matrix := rfl
@[simp] theorem State.withdraw_bank (s : State) (test : Txn → Bool) : (s.withdraw test).bank = s.bank := rfl
@[simp] theorem State.withdraw_load (s : State) (test : Txn → Bool) : (s.withdraw test).load = s.load := rfl
@[simp] theorem State.withdraw_det (s : State) (test : Txn → Bool) : (s.withdraw test).det = s.det := rfl
@[simp] theorem State.withdraw_light (s : State) (test : Txn → Bool) : (s.withdraw test).light = s.light := rfl
@[simp] theorem State.withdraw_dec (s : State) (test : Txn → Bool) : (s.withdraw test).dec = s.dec := rfl
@[simp] theorem State.withdraw_links (s : State) (test : Txn → Bool) : (s.withdraw test).links = s.links := rfl
@[simp] theorem State.withdraw_freeCount (s : State) (test : Txn → Bool) : (s.withdraw test).freeCount = s.freeCount := rfl

@[simp] theorem State.modDeferred_pending (s : State) (d : Deferred) (f : Deferred → Deferred) : (s.modDeferred d f).pending = s.pending := rfl
@[simp] theorem State.modDeferred_map (s : State) (d : Deferred) (f : Deferred → Deferred) : (s.modDeferred d f).map = s.map := rfl
@[simp] theorem State.modDeferred_matrix (s : State) (d : Deferred) (f : Deferred → Deferred) : (s.modDeferred d f).matrix = s.matrix := rfl
@[simp] theorem State.modDeferred_bank (s : State) (d : Deferred) (f : Deferred → Deferred) : (s.modDeferred d f).bank = s.bank := rfl
@[simp] theorem State.modDeferred_load (s : State) (d : Deferred) (f : Deferred → Deferred) : (s.modDeferred d f).load = s.load := rfl
@[simp] theorem State.modDeferred_bus (s : State) (d : Deferred) (f : Deferred → Deferred) : (s.modDeferred d f).bus = s.bus := rfl
@[simp] theorem State.modDeferred_det (s : State) (d : Deferred) (f : Deferred → Deferred) : (s.modDeferred d f).det = s.det := rfl
@[simp] theorem State.modDeferred_light (s : State) (d : Deferred) (f : Deferred → Deferred) : (s.modDeferred d f).light = s.light := rfl
@[simp] theorem State.modDeferred_links (s : State) (d : Deferred) (f : Deferred → Deferred) : (s.modDeferred d f).links = s.links := rfl
@[simp] theorem State.modDeferred_freeCount (s : State) (d : Deferred) (f : Deferred → Deferred) : (s.modDeferred d f).freeCount = s.freeCount := rfl

@[simp] theorem State.modPosted_pending (s : State) (n : Nat) (f : Posted → Posted) : (s.modPosted n f).pending = s.pending := rfl
@[simp] theorem State.modPosted_map (s : State) (n : Nat) (f : Posted → Posted) : (s.modPosted n f).map = s.map := rfl
@[simp] theorem State.modPosted_matrix (s : State) (n : Nat) (f : Posted → Posted) : (s.modPosted n f).matrix = s.matrix := rfl
@[simp] theorem State.modPosted_bank (s : State) (n : Nat) (f : Posted → Posted) : (s.modPosted n f).bank = s.bank := rfl
@[simp] theorem State.modPosted_load (s : State) (n : Nat) (f : Posted → Posted) : (s.modPosted n f).load = s.load := rfl
@[simp] theorem State.modPosted_bus (s : State) (n : Nat) (f : Posted → Posted) : (s.modPosted n f).bus = s.bus := rfl
@[simp] theorem State.modPosted_det (s : State) (n : Nat) (f : Posted → Posted) : (s.modPosted n f).det = s.det := rfl
@[simp] theorem State.modPosted_light (s : State) (n : Nat) (f : Posted → Posted) : (s.modPosted n f).light = s.light := rfl
@[simp] theorem State.modPosted_links (s : State) (n : Nat) (f : Posted → Posted) : (s.modPosted n f).links = s.links := rfl
@[simp] theorem State.modPosted_freeCount (s : State) (n : Nat) (f : Posted → Posted) : (s.modPosted n f).freeCount = s.freeCount := rfl

@[simp] theorem State.dropDeferred_pending (s : State) (d : Deferred) : (s.dropDeferred d).pending = s.pending := rfl
@[simp] theorem State.dropDeferred_map (s : State) (d : Deferred) : (s.dropDeferred d).map = s.map := rfl
@[simp] theorem State.dropDeferred_matrix (s : State) (d : Deferred) : (s.dropDeferred d).matrix = s.matrix := rfl
@[simp] theorem State.dropDeferred_bank (s : State) (d : Deferred) : (s.dropDeferred d).bank = s.bank := rfl
@[simp] theorem State.dropDeferred_load (s : State) (d : Deferred) : (s.dropDeferred d).load = s.load := rfl
@[simp] theorem State.dropDeferred_bus (s : State) (d : Deferred) : (s.dropDeferred d).bus = s.bus := rfl
@[simp] theorem State.dropDeferred_det (s : State) (d : Deferred) : (s.dropDeferred d).det = s.det := rfl
@[simp] theorem State.dropDeferred_light (s : State) (d : Deferred) : (s.dropDeferred d).light = s.light := rfl
@[simp] theorem State.dropDeferred_links (s : State) (d : Deferred) : (s.dropDeferred d).links = s.links := rfl
@[simp] theorem State.dropDeferred_freeCount (s : State) (d : Deferred) : (s.dropDeferred d).freeCount = s.freeCount := rfl

@[simp] theorem State.dropPosted_pending (s : State) (n : Nat) : (s.dropPosted n).pending = s.pending := rfl
@[simp] theorem State.dropPosted_map (s : State) (n : Nat) : (s.dropPosted n).map = s.map := rfl
@[simp] theorem State.dropPosted_matrix (s : State) (n : Nat) : (s.dropPosted n).matrix = s.matrix := rfl
@[simp] theorem State.dropPosted_bank (s : State) (n : Nat) : (s.dropPosted n).bank = s.bank := rfl
@[simp] theorem State.dropPosted_load (s : State) (n : Nat) : (s.dropPosted n).load = s.load := rfl
@[simp] theorem State.dropPosted_bus (s : State) (n : Nat) : (s.dropPosted n).bus = s.bus := rfl
@[simp] theorem State.dropPosted_det (s : State) (n : Nat) : (s.dropPosted n).det = s.det := rfl
@[simp] theorem State.dropPosted_light (s : State) (n : Nat) : (s.dropPosted n).light = s.light := rfl
@[simp] theorem State.dropPosted_links (s : State) (n : Nat) : (s.dropPosted n).links = s.links := rfl
@[simp] theorem State.dropPosted_freeCount (s : State) (n : Nat) : (s.dropPosted n).freeCount = s.freeCount := rfl

@[simp] theorem State.modBringUp_pending (s : State) (f : BringUp → BringUp) : (s.modBringUp f).pending = s.pending := rfl
@[simp] theorem State.modBringUp_map (s : State) (f : BringUp → BringUp) : (s.modBringUp f).map = s.map := rfl
@[simp] theorem State.modBringUp_matrix (s : State) (f : BringUp → BringUp) : (s.modBringUp f).matrix = s.matrix := rfl
@[simp] theorem State.modBringUp_bank (s : State) (f : BringUp → BringUp) : (s.modBringUp f).bank = s.bank := rfl
@[simp] theorem State.modBringUp_load (s : State) (f : BringUp → BringUp) : (s.modBringUp f).load = s.load := rfl
@[simp] theorem State.modBringUp_bus (s : State) (f : BringUp → BringUp) : (s.modBringUp f).bus = s.bus := rfl
@[simp] theorem State.modBringUp_light (s : State) (f : BringUp → BringUp) : (s.modBringUp f).light = s.light := rfl
@[simp] theorem State.modBringUp_dec (s : State) (f : BringUp → BringUp) : (s.modBringUp f).dec = s.dec := rfl
@[simp] theorem State.modBringUp_links (s : State) (f : BringUp → BringUp) : (s.modBringUp f).links = s.links := rfl
@[simp] theorem State.modBringUp_freeCount (s : State) (f : BringUp → BringUp) : (s.modBringUp f).freeCount = s.freeCount := rfl

@[simp] theorem State.stopDebounce_pending (s : State) : (s.stopDebounce).pending = s.pending := rfl
@[simp] theorem State.stopDebounce_map (s : State) : (s.stopDebounce).map = s.map := rfl
@[simp] theorem State.stopDebounce_matrix (s : State) : (s.stopDebounce).matrix = s.matrix := rfl
@[simp] theorem State.stopDebounce_bank (s : State) : (s.stopDebounce).bank = s.bank := rfl
@[simp] theorem State.stopDebounce_load (s : State) : (s.stopDebounce).load = s.load := rfl
@[simp] theorem State.stopDebounce_bus (s : State) : (s.stopDebounce).bus = s.bus := rfl
@[simp] theorem State.stopDebounce_light (s : State) : (s.stopDebounce).light = s.light := rfl
@[simp] theorem State.stopDebounce_dec (s : State) : (s.stopDebounce).dec = s.dec := rfl
@[simp] theorem State.stopDebounce_links (s : State) : (s.stopDebounce).links = s.links := rfl
@[simp] theorem State.stopDebounce_freeCount (s : State) : (s.stopDebounce).freeCount = s.freeCount := rfl

@[simp] theorem State.startDebounce_pending (s : State) (e : Profile) (n : Nat) : (s.startDebounce e n).pending = s.pending := rfl
@[simp] theorem State.startDebounce_map (s : State) (e : Profile) (n : Nat) : (s.startDebounce e n).map = s.map := rfl
@[simp] theorem State.startDebounce_matrix (s : State) (e : Profile) (n : Nat) : (s.startDebounce e n).matrix = s.matrix := rfl
@[simp] theorem State.startDebounce_bank (s : State) (e : Profile) (n : Nat) : (s.startDebounce e n).bank = s.bank := rfl
@[simp] theorem State.startDebounce_load (s : State) (e : Profile) (n : Nat) : (s.startDebounce e n).load = s.load := rfl
@[simp] theorem State.startDebounce_bus (s : State) (e : Profile) (n : Nat) : (s.startDebounce e n).bus = s.bus := rfl
@[simp] theorem State.startDebounce_light (s : State) (e : Profile) (n : Nat) : (s.startDebounce e n).light = s.light := rfl
@[simp] theorem State.startDebounce_dec (s : State) (e : Profile) (n : Nat) : (s.startDebounce e n).dec = s.dec := rfl
@[simp] theorem State.startDebounce_links (s : State) (e : Profile) (n : Nat) : (s.startDebounce e n).links = s.links := rfl
@[simp] theorem State.startDebounce_freeCount (s : State) (e : Profile) (n : Nat) : (s.startDebounce e n).freeCount = s.freeCount := rfl

@[simp] theorem State.formExpected_pending (s : State) : (s.formExpected).pending = s.pending := rfl
@[simp] theorem State.formExpected_map (s : State) : (s.formExpected).map = s.map := rfl
@[simp] theorem State.formExpected_matrix (s : State) : (s.formExpected).matrix = s.matrix := rfl
@[simp] theorem State.formExpected_bank (s : State) : (s.formExpected).bank = s.bank := rfl
@[simp] theorem State.formExpected_bus (s : State) : (s.formExpected).bus = s.bus := rfl
@[simp] theorem State.formExpected_det (s : State) : (s.formExpected).det = s.det := rfl
@[simp] theorem State.formExpected_light (s : State) : (s.formExpected).light = s.light := rfl
@[simp] theorem State.formExpected_dec (s : State) : (s.formExpected).dec = s.dec := rfl
@[simp] theorem State.formExpected_links (s : State) : (s.formExpected).links = s.links := rfl
@[simp] theorem State.formExpected_freeCount (s : State) : (s.formExpected).freeCount = s.freeCount := rfl

@[simp] theorem State.stepFlashers_pending (s : State) : (s.stepFlashers).pending = s.pending := rfl
@[simp] theorem State.stepFlashers_map (s : State) : (s.stepFlashers).map = s.map := rfl
@[simp] theorem State.stepFlashers_matrix (s : State) : (s.stepFlashers).matrix = s.matrix := rfl
@[simp] theorem State.stepFlashers_load (s : State) : (s.stepFlashers).load = s.load := rfl
@[simp] theorem State.stepFlashers_bus (s : State) : (s.stepFlashers).bus = s.bus := rfl
@[simp] theorem State.stepFlashers_det (s : State) : (s.stepFlashers).det = s.det := rfl
@[simp] theorem State.stepFlashers_light (s : State) : (s.stepFlashers).light = s.light := rfl
@[simp] theorem State.stepFlashers_dec (s : State) : (s.stepFlashers).dec = s.dec := rfl
@[simp] theorem State.stepFlashers_links (s : State) : (s.stepFlashers).links = s.links := rfl
@[simp] theorem State.stepFlashers_freeCount (s : State) : (s.stepFlashers).freeCount = s.freeCount := rfl

@[simp] theorem State.withPending_map (s : State) (q : List Instr) : (s.withPending q).map = s.map := rfl
@[simp] theorem State.withPending_matrix (s : State) (q : List Instr) : (s.withPending q).matrix = s.matrix := rfl
@[simp] theorem State.withPending_bank (s : State) (q : List Instr) : (s.withPending q).bank = s.bank := rfl
@[simp] theorem State.withPending_load (s : State) (q : List Instr) : (s.withPending q).load = s.load := rfl
@[simp] theorem State.withPending_bus (s : State) (q : List Instr) : (s.withPending q).bus = s.bus := rfl
@[simp] theorem State.withPending_det (s : State) (q : List Instr) : (s.withPending q).det = s.det := rfl
@[simp] theorem State.withPending_light (s : State) (q : List Instr) : (s.withPending q).light = s.light := rfl
@[simp] theorem State.withPending_dec (s : State) (q : List Instr) : (s.withPending q).dec = s.dec := rfl
@[simp] theorem State.withPending_links (s : State) (q : List Instr) : (s.withPending q).links = s.links := rfl
@[simp] theorem State.withPending_freeCount (s : State) (q : List Instr) : (s.withPending q).freeCount = s.freeCount := rfl

end Sys2Proof.Machine
end

