-- ==== Sys2Proof/Laws/Ops.lean ====
section
/-! SUPPORT. What reading gives after writing, for tables, positions, entries, channels and links; and what the shared
operations on links and on time do. -/

namespace Sys2Proof

/-! ## Tables -/

@[simp] theorem Tbl.get_set_self {α : Type} {n : Nat} (t : Tbl α n) (i : Fin n) (x : α) : (t.set i x).get i = x := by
  simp [Tbl.get, Tbl.set]

theorem Tbl.get_set_of_ne {α : Type} {n : Nat} (t : Tbl α n) {i j : Fin n} (x : α) (h : i ≠ j) :
    (t.set i x).get j = t.get j := by
  have h' : i.val ≠ j.val := fun e => h (Fin.ext e)
  simp [Tbl.get, Tbl.set, h']

theorem Tbl.get_set {α : Type} {n : Nat} (t : Tbl α n) (i j : Fin n) (x : α) :
    (t.set i x).get j = if i = j then x else t.get j := by
  by_cases h : i = j
  · subst h; simp
  · simp [h, Tbl.get_set_of_ne]

@[simp] theorem Tbl.get_map {α β : Type} {n : Nat} (f : α → β) (t : Tbl α n) (i : Fin n) :
    (t.map f).get i = f (t.get i) := by
  simp [Tbl.get, Tbl.map]

@[simp] theorem Tbl.get_fill {α : Type} {n : Nat} (x : α) (i : Fin n) : (Tbl.fill n x).get i = x := by
  simp [Tbl.get, Tbl.fill]

namespace Machine

/-! ## Positions -/

theorem posIdx_injective {p q : Pos} (h : posIdx p = posIdx q) : p = q := by
  cases p <;> cases q <;> first | rfl | (simp [posIdx] at h)

theorem State.pos_setPos (s : State) (p q : Pos) (r : PosRec) : (s.setPos p r).pos q = if p = q then r else s.pos q := by
  by_cases h : p = q
  · subst h; simp [State.pos, State.setPos]
  · have : posIdx p ≠ posIdx q := fun e => h (posIdx_injective e)
    simp [State.pos, State.setPos, h, Tbl.get_set_of_ne _ _ this]

@[simp] theorem State.pos_setPos_self (s : State) (p : Pos) (r : PosRec) : (s.setPos p r).pos p = r := by
  simp [State.pos_setPos]

theorem State.pos_modPos (s : State) (p q : Pos) (f : PosRec → PosRec) :
    (s.modPos p f).pos q = if p = q then f (s.pos p) else s.pos q := State.pos_setPos s p q _

theorem State.pos_of_map {s t : State} (h : t.map = s.map) (p : Pos) : t.pos p = s.pos p := by
  simp [State.pos, h]

theorem State.entry_of_map {s t : State} (h : t.map = s.map) (ref : EntryRef) : t.entry ref = s.entry ref := by
  cases ref <;> simp [State.entry, h]

/-! ## Contacts (R32) -/

/-- A contact carries a channel exactly where it is that channel's contact and the profile routes the channel. -/
theorem contactUse_channel (p : Profile) (k : Contact) (c : ChanId) :
    contactUse p k = .channel c ↔ k = chanContact c ∧ routes p c = true := by
  revert k c; cases p <;> decide

/-- A contact carries a data wire exactly where it is that wire's contact and the profile routes the data pair. -/
theorem contactUse_dataWire (p : Profile) (k : Contact) (w : Fin 2) :
    contactUse p k = .dataWire w ↔ k.val = 12 + w.val ∧ routesData p = true := by
  revert k w; cases p <;> decide

/-! ## Channels -/

theorem State.chan_putChan (s : State) (c d : ChanId) (ch : Channel) :
    (s.putChan c ch).chan d = if c = d then ch else s.chan d := Tbl.get_set _ _ _ _

@[simp] theorem State.chan_putChan_self (s : State) (c : ChanId) (ch : Channel) : (s.putChan c ch).chan c = ch := by
  simp [State.chan_putChan]

theorem State.chan_of_bank {s t : State} (h : t.bank.channels = s.bank.channels) (c : ChanId) : t.chan c = s.chan c := by
  simp [State.chan, h]

@[simp] theorem State.probe_putChan (s : State) (c : ChanId) (ch : Channel) : (s.putChan c ch).bank.probe = s.bank.probe :=
  rfl

@[simp] theorem State.turn_putChan (s : State) (c : ChanId) (ch : Channel) : (s.putChan c ch).bank.turn = s.bank.turn :=
  rfl

@[simp] theorem State.emergency_putChan (s : State) (c : ChanId) (ch : Channel) :
    (s.putChan c ch).bank.emergency = s.bank.emergency := rfl

@[simp] theorem State.chan_setProbe (s : State) (q : Option Probe) (c : ChanId) : (s.setProbe q).chan c = s.chan c := rfl

@[simp] theorem State.probe_setProbe (s : State) (q : Option Probe) : (s.setProbe q).bank.probe = q := rfl

/-! ## Links -/

theorem State.link_setLink (s : State) (l k : LinkId) (m : Mlu) :
    (s.setLink l m).link k = if l = k then some m else s.link k := by
  cases l <;> cases k <;> simp [State.setLink, State.link]

@[simp] theorem State.link_setLink_self (s : State) (l : LinkId) (m : Mlu) : (s.setLink l m).link l = some m := by
  simp [State.link_setLink]

theorem State.link_of_links {s t : State} (h : t.links = s.links) (l : LinkId) : t.link l = s.link l := by
  cases l <;> simp [State.link, h]

@[simp] theorem State.setLink_setLink (s : State) (l : LinkId) (m m' : Mlu) : (s.setLink l m).setLink l m' = s.setLink l m' := by
  cases l <;> rfl

theorem State.setLink_self {s : State} {l : LinkId} {m : Mlu} (h : s.link l = some m) : s.setLink l m = s := by
  obtain ⟨_, _, _, _, _, _, _, _, _, ⟨s1, s0, a, b, c⟩, _⟩ := s
  cases l <;> simp_all [State.setLink, State.link]

/-- Frames placed on an active link join its buffer at the tail (R184). -/
theorem State.place_active {s : State} {l : LinkId} {m : Mlu} (h : s.link l = some m) (ha : m.busOff = false)
    (fs : List TxFrame) : s.place l fs = s.setLink l { m with buffer := m.buffer ++ fs } := by
  simp [State.place, State.modLink, h, ha]

/-- An event raised on a link, as the link takes it (R190). -/
theorem State.link_raiseFor (s : State) (roles : RoleSet) (k : EventKind) (l : LinkId) :
    (s.raiseFor roles k).link l =
      (s.link l).map fun m => if hasBit roles (roleBit m.role.role) then m.raise k else m := by
  cases l <;> rfl

/-- An attention frame is due at no link whose pending set the act has left alone (R190 (4)). -/
theorem State.attend_of_pending {before after : State} {l : LinkId}
    (h : (after.link l).map (·.pending) = (before.link l).map (·.pending)) : before.attend after l = after := by
  unfold State.attend
  split
  · rename_i m m' hm hm'
    have : m'.pending = m.pending := by simpa [hm, hm'] using h
    split
    · rename_i hc; exact absurd hc.1 (by rw [← this]; exact hc.2.1)
    · rfl
  · rfl

/-- The end of an act that raises nothing adds nothing. -/
theorem State.finish_of_pending {before after : State}
    (h : ∀ l, (after.link l).map (·.pending) = (before.link l).map (·.pending)) : before.finish after = after := by
  unfold State.finish
  rw [State.attend_of_pending (h .a), State.attend_of_pending (h .b), State.attend_of_pending (h .c)]

/-! ## Time -/

@[simp] theorem State.elapse_zero (s : State) : s.elapse 0 = s := by simp [State.elapse]

/-- A timer that has run out is awaited for no time (log 2). -/
theorem State.await_of_le {s : State} {elapsed limit : Nat} (h : limit ≤ elapsed) : s.await elapsed limit = s := by
  simp [State.await, Nat.sub_eq_zero_of_le h]

end Machine

end Sys2Proof
end

