-- ==== Sys2Proof/Laws/Channels.lean ====
section
/-! SUPPORT. Every operation on one channel keeps the laws of its output and its temperature (Table 3-2, R57, R58). -/

namespace Sys2Proof.Machine

/-- Both laws of a channel. -/
def Channel.Lawful (ch : Channel) : Prop := ch.outputLaw = true ∧ ch.heatLaw = true

/-- The law of the output, said of a state and an output. -/
def outputOk (st : ChanState) (out : Bool) : Bool :=
  match st with
  | .off | .probeGap | .tripped | .latched | .thermalOff => !out
  | .probeOn => out
  | .drive => true

theorem Channel.lawful_iff (ch : Channel) : ch.Lawful ↔
    outputOk ch.state ch.output = true ∧ (ch.temperature < 150 ∨ ch.derated = true) ∧
      (ch.derated = true → 130 ≤ ch.temperature) ∧ (ch.state = .thermalOff → ch.derated = true) := by
  unfold Channel.Lawful Channel.outputLaw Channel.heatLaw outputOk
  cases ch.state <;> cases ch.output <;> cases ch.derated <;> simp

/-! What the two basic moves of a channel do to the fields the laws read. -/

@[simp] theorem Channel.switchTo_state (on : Bool) (ch : Channel) : (ch.switchTo on).state = ch.state := by
  unfold Channel.switchTo Channel.dropWindow; split <;> (try split) <;> rfl
@[simp] theorem Channel.switchTo_output (on : Bool) (ch : Channel) : (ch.switchTo on).output = on := by
  unfold Channel.switchTo Channel.dropWindow; split
  · exact (by assumption : on = ch.output).symm
  · split
    · simp_all
    · simp_all
@[simp] theorem Channel.switchTo_derated (on : Bool) (ch : Channel) : (ch.switchTo on).derated = ch.derated := by
  unfold Channel.switchTo Channel.dropWindow; split <;> (try split) <;> rfl
@[simp] theorem Channel.switchTo_temperature (on : Bool) (ch : Channel) :
    (ch.switchTo on).temperature = ch.temperature := by
  unfold Channel.switchTo Channel.dropWindow; split <;> (try split) <;> rfl
@[simp] theorem Channel.switchTo_demand (on : Bool) (ch : Channel) : (ch.switchTo on).demand = ch.demand := by
  unfold Channel.switchTo Channel.dropWindow; split <;> (try split) <;> rfl
@[simp] theorem Channel.enter_state (st : ChanState) (ch : Channel) : (ch.enter st).state = st := rfl
@[simp] theorem Channel.enter_output (st : ChanState) (ch : Channel) : (ch.enter st).output = ch.output := by
  unfold Channel.enter Channel.dropWindow; split <;> rfl
@[simp] theorem Channel.enter_derated (st : ChanState) (ch : Channel) : (ch.enter st).derated = ch.derated := by
  unfold Channel.enter Channel.dropWindow; split <;> rfl
@[simp] theorem Channel.enter_temperature (st : ChanState) (ch : Channel) :
    (ch.enter st).temperature = ch.temperature := by
  unfold Channel.enter Channel.dropWindow; split <;> rfl
@[simp] theorem Channel.enter_demand (st : ChanState) (ch : Channel) : (ch.enter st).demand = ch.demand := by
  unfold Channel.enter Channel.dropWindow; split <;> rfl
@[simp] theorem Channel.dropWindow_state (ch : Channel) : ch.dropWindow.state = ch.state := rfl
@[simp] theorem Channel.dropWindow_output (ch : Channel) : ch.dropWindow.output = ch.output := rfl
@[simp] theorem Channel.dropWindow_temperature (ch : Channel) : ch.dropWindow.temperature = ch.temperature := rfl
@[simp] theorem Channel.dropWindow_demand (ch : Channel) : ch.dropWindow.demand = ch.demand := rfl

/-! The entries into the states keep the laws. -/

theorem Channel.lawful_toOff {ch : Channel} (h : ch.Lawful) : ch.toOff.Lawful := by
  rw [Channel.lawful_iff] at *; simp_all [Channel.toOff, outputOk]
theorem Channel.lawful_toDrive {ch : Channel} (h : ch.Lawful) (on : Bool) : (ch.toDrive on).Lawful := by
  rw [Channel.lawful_iff] at *; simp_all [Channel.toDrive, outputOk]
theorem Channel.lawful_toGap {ch : Channel} (h : ch.Lawful) : ch.toGap.Lawful := by
  rw [Channel.lawful_iff] at *; simp_all [Channel.toGap, outputOk]
theorem Channel.lawful_toProbeOn {ch : Channel} (h : ch.Lawful) : ch.toProbeOn.Lawful := by
  rw [Channel.lawful_iff] at *; simp_all [Channel.toProbeOn, outputOk]
theorem Channel.lawful_takeDemand {ch : Channel} (h : ch.Lawful) (r on : Bool) : (ch.takeDemand r on).Lawful := by
  unfold Channel.takeDemand; split
  · exact Channel.lawful_toDrive h on
  · exact Channel.lawful_toOff h

/-- A channel that drives may have any output. -/
theorem Channel.lawful_of_drive {ch ch' : Channel} (h : ch.Lawful) (hs : ch.state = .drive) (hs' : ch'.state = .drive)
    (hd : ch'.derated = ch.derated) (ht : ch'.temperature = ch.temperature) : ch'.Lawful := by
  rw [Channel.lawful_iff] at *; simp_all [outputOk]

/-- The laws read four fields only. -/
theorem Channel.lawful_of_fields {ch ch' : Channel} (h : ch.Lawful) (hs : ch'.state = ch.state)
    (ho : ch'.output = ch.output) (hd : ch'.derated = ch.derated) (ht : ch'.temperature = ch.temperature) : ch'.Lawful := by
  rw [Channel.lawful_iff] at *; simp_all

theorem Channel.lawful_acceptDemand {ch : Channel} (h : ch.Lawful) (r w on : Bool) (d : Demand) :
    (ch.acceptDemand r w on d).Lawful := by
  have h' : ({ ch with demand := d } : Channel).Lawful := Channel.lawful_of_fields h rfl rfl rfl rfl
  unfold Channel.acceptDemand
  simp only
  split
  · exact Channel.lawful_takeDemand h' r on
  · rename_i hs
    split
    · exact Channel.lawful_toOff h'
    · refine Channel.lawful_of_drive h' hs ?_ ?_ ?_ <;>
        (unfold Channel.reMode; split <;> (try split) <;> simp [hs])
  all_goals exact h'

theorem Channel.lawful_connect {ch : Channel} (h : ch.Lawful) (on : Bool) : (ch.connect on).Lawful := by
  have h' : ({ ch with backfeedAge := 0 } : Channel).Lawful := Channel.lawful_of_fields h rfl rfl rfl rfl
  unfold Channel.connect; simp only; split
  · exact Channel.lawful_takeDemand h' true on
  · exact h'

theorem Channel.lawful_disconnect {ch : Channel} (h : ch.Lawful) : ch.disconnect.Lawful := by
  unfold Channel.disconnect
  simp only
  split <;> split <;>
    first
      | exact Channel.lawful_of_fields h rfl rfl rfl rfl
      | (refine Channel.lawful_of_fields (Channel.lawful_toOff (ch := _) ?_) rfl rfl rfl rfl
         first | exact h | exact Channel.lawful_of_fields h rfl rfl rfl rfl)

theorem Channel.lawful_release {ch : Channel} (h : ch.Lawful) : ch.release.Lawful := by
  unfold Channel.release; simp only; split
  · exact Channel.lawful_of_fields (Channel.lawful_toOff h) rfl rfl rfl rfl
  · exact Channel.lawful_of_fields h rfl rfl rfl rfl

theorem Channel.lawful_phaseOn {ch : Channel} (h : ch.Lawful) (hs : ch.state = .drive) : ch.phaseOn.Lawful :=
  Channel.lawful_of_drive h hs (by simp [Channel.phaseOn, hs]) (by simp [Channel.phaseOn]) (by simp [Channel.phaseOn])

theorem Channel.lawful_pwmNext {ch : Channel} (h : ch.Lawful) (hs : ch.state = .drive) (on : Bool) :
    (ch.pwmNext on).Lawful := by
  refine Channel.lawful_of_drive h hs ?_ ?_ ?_ <;> (unfold Channel.pwmNext; simp only; split <;> simp [hs])

theorem Channel.lawful_tripOut {ch : Channel} (h : ch.Lawful) (supply : Nat) : (ch.tripOut supply).Lawful := by
  unfold Channel.tripOut; simp only; split <;>
    (rw [Channel.lawful_iff] at *; simp_all [outputOk])

theorem Channel.lawful_clear {ch : Channel} (h : ch.Lawful) (hs : ch.state = .latched) (r on : Bool) :
    (ch.clear r on).Lawful := by
  have h' : ({ ch with streakCount := 0, streakTimer := 0 } : Channel).Lawful := Channel.lawful_of_fields h rfl rfl rfl rfl
  unfold Channel.clear; simp only; split
  · rename_i hc
    rw [Channel.lawful_iff] at *
    obtain ⟨ho, hd, ht, -⟩ := h
    rw [hs] at ho
    have hder : ch.derated = true := hd.resolve_left (by omega)
    exact ⟨by simpa [outputOk] using ho, Or.inr (by simpa using hder), fun _ => by simpa using ht hder,
      fun _ => by simpa using hder⟩
  · exact Channel.lawful_takeDemand h' r on

theorem Channel.lawful_heat {ch : Channel} (h : ch.Lawful) (r on : Bool) (deg : Int) : (ch.heat r on deg).1.Lawful := by
  unfold Channel.heat
  simp only
  rw [Channel.lawful_iff] at h
  obtain ⟨ho, -, -, hth⟩ := h
  split
  · rename_i hc
    rw [Channel.lawful_iff]
    simp [outputOk, Channel.derate]
    omega
  · rename_i hc
    split
    · rw [Channel.lawful_iff]
      simp_all [Channel.derate]
      omega
    · rename_i hc2
      split
      · rename_i hc3
        have base : ∀ st, st ≠ .thermalOff → outputOk st ch.output = true → ch.state = st →
            Channel.Lawful { ch with temperature := deg, temperatureAge := 0, derated := false } := by
          intro st hne hst hcs
          rw [Channel.lawful_iff]
          simp_all
          omega
        split
        · rename_i hs
          have hs' : ch.state = .thermalOff := hs
          unfold Channel.takeDemand
          split
          · rw [Channel.lawful_iff]; simp [outputOk, Channel.toDrive]; omega
          · rw [Channel.lawful_iff]; simp [outputOk, Channel.toOff]; omega
        · rename_i hs
          have hs' : ch.state = .drive := hs
          rw [Channel.lawful_iff]; simp [outputOk, hs']; omega
        all_goals
          rename_i hs
          exact base _ (by simp) (by rw [← (show ch.state = _ from hs)]; exact ho) hs
      · rename_i hc3
        rw [Channel.lawful_iff]
        refine ⟨ho, ?_, ?_, hth⟩
        · by_cases hd : ch.derated = true
          · exact Or.inr hd
          · exact Or.inl (by simp_all)
        · intro hd
          simp_all

theorem Channel.lawful_backfeedCheck {ch : Channel} (h : ch.Lawful) (supply mv : Nat) :
    (ch.backfeedCheck supply mv).1.Lawful := by
  unfold Channel.backfeedCheck
  simp only
  repeat' split
  all_goals exact Channel.lawful_of_fields h rfl rfl rfl rfl

theorem Channel.lawful_elapse {ch : Channel} (h : ch.Lawful) (n : Nat) : (ch.elapse n).Lawful :=
  Channel.lawful_of_fields h rfl rfl rfl rfl

end Sys2Proof.Machine
end

