-- ==== Sys2Proof/Laws/Keeps.lean ====
section
/-! SUPPORT. The laws of the whole part (Safety), and that the operations of Machine/Flags, Load, Probes and Lighting keep
them. `Keeps s₀ s` says that `s`, reached inside an act that began at `s₀`, has the command queue of `s₀` and every law
that `s₀` has; each lemma says that one more operation leaves it so. -/

namespace Sys2Proof.Machine

/-- The laws of `s₀` hold in `s`, and the command queue is the same. -/
structure Keeps (s₀ s : State) : Prop where
  pending : s.pending = s₀.pending
  bounded : s₀.bounded = true → s.bounded = true
  channels : s₀.channelsLawful = true → s.channelsLawful = true
  chain : s₀.chainLaw = true → s.chainLaw = true
  flash : s₀.flashLaw = true → s.flashLaw = true
  interest : s₀.interestLaw = true → s.interestLaw = true

theorem Keeps.refl (s : State) : Keeps s s := ⟨rfl, id, id, id, id, id⟩

/-- One step more, law by law. -/
theorem Keeps.step {s₀ s t : State} (h : Keeps s₀ s) (hp : t.pending = s.pending)
    (hb : s.bounded = true → t.bounded = true) (hc : s.channelsLawful = true → t.channelsLawful = true)
    (hch : s₀.chainLaw = true → s.chainLaw = true → t.chainLaw = true)
    (hf : s.flashLaw = true → t.flashLaw = true) (hi : s.interestLaw = true → t.interestLaw = true) : Keeps s₀ t :=
  ⟨hp.trans h.pending, hb ∘ h.bounded, hc ∘ h.channels, fun x => hch x (h.chain x), hf ∘ h.flash, hi ∘ h.interest⟩

theorem Keeps.trans {s₀ s t : State} (h : Keeps s₀ s) (h' : Keeps s t) : Keeps s₀ t :=
  h.step h'.pending h'.bounded h'.channels (fun _ => h'.chain) h'.flash h'.interest

/-! ## Each law reads only some of the state -/

theorem bounded_iff {s : State} : s.bounded = true ↔
    (∀ l m, s.link l = some m → m.queue.length ≤ 4) ∧ s.dec.deferred.length ≤ 8 ∧
    (∀ l, (s.deferredOf l).length ≤ 4) ∧ (s.dec.deferred.map fun d => (d.link, d.tag)).Nodup ∧
    s.dec.posted.length ≤ 8 ∧ (s.dec.posted.map (·.number)).Nodup := by
  have hq : ∀ l, queueBounded (s.link l) = true ↔ ∀ m, s.link l = some m → m.queue.length ≤ 4 := by
    intro l
    cases s.link l <;> simp [queueBounded]
  unfold State.bounded
  simp only [Bool.and_eq_true, allLinks, List.all_cons, List.all_nil, and_true, hq, decide_eq_true_eq, distinctBy]
  constructor
  · rintro ⟨⟨⟨⟨⟨⟨a, b, c⟩, d⟩, e, f, g⟩, h⟩, i⟩, j⟩
    exact ⟨fun l => by cases l <;> assumption, d, fun l => by cases l <;> assumption, h, i, j⟩
  · rintro ⟨a, d, e, h, i, j⟩
    exact ⟨⟨⟨⟨⟨⟨a _, a _, a _⟩, d⟩, e _, e _, e _⟩, h⟩, i⟩, j⟩

theorem bounded_of {s t : State} (hd : t.dec = s.dec)
    (hl : ∀ l, (t.link l).map (·.queue) = (s.link l).map (·.queue)) (h : s.bounded = true) : t.bounded = true := by
  rw [bounded_iff] at *
  simp only [State.deferredOf, hd]
  refine ⟨fun l m hm => ?_, h.2⟩
  have := hl l
  rw [hm] at this
  cases hs : s.link l with
  | none => simp [hs] at this
  | some m' =>
    simp [hs] at this
    rw [this]
    exact h.1 l m' hs

theorem channels_of {s t : State} (h : t.bank.channels = s.bank.channels) : t.channelsLawful = s.channelsLawful := by
  unfold State.channelsLawful State.chan
  rw [h]

theorem channelsLawful_iff {s : State} : s.channelsLawful = true ↔ ∀ c, (s.chan c).Lawful := by
  unfold State.channelsLawful Channel.Lawful
  simp only [List.all_eq_true, Bool.and_eq_true]
  constructor
  · intro h c
    exact h c (by revert c; decide)
  · intro h c _
    exact h c

theorem flash_of {s t : State} (hv : t.load.verdicts = s.load.verdicts) (hl : t.light.kind0 = s.light.kind0)
    (hl1 : t.light.kind1 = s.light.kind1) (hf : t.light.fast = s.light.fast) : t.flashLaw = s.flashLaw := by
  unfold State.flashLaw
  rw [hv, hl, hl1, hf]

theorem interest_of {s t : State} (h : t.links = s.links) : t.interestLaw = s.interestLaw := by
  unfold State.interestLaw
  rw [h]

theorem interestLaw_iff {s : State} : s.interestLaw = true ↔ ∀ l, interestKept (s.link l) = true := by
  unfold State.interestLaw State.link
  constructor
  · intro h l
    cases l <;> simp_all
  · intro h
    simp only [Bool.and_eq_true]
    exact ⟨⟨h .a, h .b⟩, h .c⟩

/-- The chain law reads the classes of the position states, which watches stand, and two positions. -/
theorem chain_of {s t : State} (hl : ∀ p, t.live p = s.live p) (hr : ∀ p, t.ready p = s.ready p)
    (hb : ∀ p, (t.pos p).state.inBringUp = (s.pos p).state.inBringUp)
    (hw : ∀ p, (t.det.watches.get (posIdx p)).isNone = (s.det.watches.get (posIdx p)).isNone)
    (hu : t.det.bringUp.map (·.pos) = s.det.bringUp.map (·.pos))
    (hq : t.bank.probe.map (·.pos) = s.bank.probe.map (·.pos)) : t.chainLaw = s.chainLaw := by
  have hu' : t.det.bringUp.all (fun b => (t.pos b.pos).state.inBringUp) =
      s.det.bringUp.all (fun b => (s.pos b.pos).state.inBringUp) := by
    cases ht : t.det.bringUp <;> cases hs : s.det.bringUp <;> simp_all
  have hq' : t.bank.probe.all (fun q => t.live q.pos) = s.bank.probe.all (fun q => s.live q.pos) := by
    cases ht : t.bank.probe <;> cases hs : s.bank.probe <;> simp_all
  unfold State.chainLaw State.chained State.workPlaced
  rw [hu', hq']
  simp only [hl, hr, hw]

theorem chain_iff {s : State} : s.chainLaw = true ↔
    (s.live .p2 = true → s.ready .p1 = true) ∧ (s.live .p3 = true → s.ready .p2 = true) ∧
    (∀ p, (s.det.watches.get (posIdx p)).isSome = true → s.ready p = true) ∧
    (∀ b, s.det.bringUp = some b → (s.pos b.pos).state.inBringUp = true) ∧
    (∀ q, s.bank.probe = some q → s.live q.pos = true) := by
  have hw : ∀ p, (((s.det.watches.get (posIdx p)).isNone || s.ready p) = true ↔
      ((s.det.watches.get (posIdx p)).isSome = true → s.ready p = true)) := by
    intro p
    cases s.det.watches.get (posIdx p) <;> simp
  unfold State.chainLaw State.chained State.workPlaced
  simp only [Bool.and_eq_true, allPos, List.all_cons, List.all_nil, hw, and_true, Option.all_eq_true]
  constructor
  · rintro ⟨⟨h1, h2⟩, ⟨⟨h3, h4, h5⟩, h6⟩, h7⟩
    refine ⟨?_, ?_, ?_, h6, h7⟩
    · intro h; simpa [h] using h1
    · intro h; simpa [h] using h2
    · intro p; cases p <;> assumption
  · rintro ⟨h1, h2, h3, h6, h7⟩
    refine ⟨⟨?_, ?_⟩, ⟨⟨h3 .p1, h3 .p2, h3 .p3⟩, h6⟩, h7⟩
    · cases hl : s.live .p2 <;> simp_all
    · cases hl : s.live .p3 <;> simp_all

/-- A step that leaves alone everything the laws read. -/
theorem Keeps.same {s₀ s t : State} (h : Keeps s₀ s) (hp : t.pending = s.pending := by rfl) (hd : t.dec = s.dec := by rfl)
    (hl : t.links = s.links := by rfl) (hc : t.bank.channels = s.bank.channels := by rfl)
    (hq : t.bank.probe = s.bank.probe := by rfl) (hpos : t.map.positions = s.map.positions := by rfl)
    (hw : t.det.watches = s.det.watches := by rfl) (hb : t.det.bringUp = s.det.bringUp := by rfl)
    (hv : t.load.verdicts = s.load.verdicts := by rfl) (h0 : t.light.kind0 = s.light.kind0 := by rfl)
    (h1 : t.light.kind1 = s.light.kind1 := by rfl) (hf : t.light.fast = s.light.fast := by rfl) : Keeps s₀ t := by
  have hpp : ∀ p, t.pos p = s.pos p := fun p => by simp [State.pos, hpos]
  have hch : t.chainLaw = s.chainLaw :=
    chain_of (fun p => by simp only [State.live, hpp]) (fun p => by simp only [State.ready, hpp]) (fun p => by rw [hpp])
      (fun p => by rw [hw]) (by rw [hb]) (by rw [hq])
  refine h.step hp (bounded_of hd fun l => by rw [State.link_of_links hl]) ?_ (fun _ => ?_) ?_ ?_
  · rw [channels_of hc]; exact id
  · rw [hch]; exact id
  · rw [flash_of hv h0 h1 hf]; exact id
  · rw [interest_of hl]; exact id

theorem keeps_foldl {α : Type} {s₀ : State} {f : State → α → State} (hf : ∀ s x, Keeps s₀ s → Keeps s₀ (f s x)) :
    ∀ (xs : List α) {s : State}, Keeps s₀ s → Keeps s₀ (xs.foldl f s)
  | [], _, h => h
  | x :: xs, _, h => keeps_foldl hf xs (hf _ x h)

/-! ## Positions and entries -/

/-- A position record replaced by one whose state is of the same class. -/
theorem keeps_setPos {s₀ s : State} (h : Keeps s₀ s) (p : Pos) {r : PosRec} (hl : r.state.live = (s.pos p).state.live)
    (hr : r.state.ready = (s.pos p).state.ready) (hb : r.state.inBringUp = (s.pos p).state.inBringUp) :
    Keeps s₀ (s.setPos p r) := by
  have key : ∀ q, ((s.setPos p r).pos q).state.live = (s.pos q).state.live ∧
      ((s.setPos p r).pos q).state.ready = (s.pos q).state.ready ∧
      ((s.setPos p r).pos q).state.inBringUp = (s.pos q).state.inBringUp := by
    intro q
    rw [State.pos_setPos]
    split
    · rename_i e; subst e; exact ⟨hl, hr, hb⟩
    · exact ⟨rfl, rfl, rfl⟩
  refine h.step rfl id id (fun _ => ?_) id id
  rw [chain_of (t := s.setPos p r) (fun q => (key q).1) (fun q => (key q).2.1) (fun q => (key q).2.2) (fun _ => rfl) rfl
    rfl]
  exact id

theorem keeps_modPos {s₀ s : State} (h : Keeps s₀ s) (p : Pos) {f : PosRec → PosRec}
    (hf : ∀ r, (f r).state = r.state := by intro r; rfl) : Keeps s₀ (s.modPos p f) :=
  keeps_setPos h p (by rw [hf]) (by rw [hf]) (by rw [hf])

theorem follow_live (st : PosState) (x : ReasonSet) : (st.follow x).live = st.live := by
  cases st <;> simp only [PosState.follow] <;> first | rfl | (split <;> rfl)
theorem follow_ready (st : PosState) (x : ReasonSet) : (st.follow x).ready = st.ready := by
  cases st <;> simp only [PosState.follow] <;> first | rfl | (split <;> rfl)
theorem follow_inBringUp (st : PosState) (x : ReasonSet) : (st.follow x).inBringUp = st.inBringUp := by
  cases st <;> simp only [PosState.follow] <;> first | rfl | (split <;> rfl)

theorem keeps_addReason {s₀ s : State} (h : Keeps s₀ s) (p : Pos) (x : Reason) : Keeps s₀ (s.addReason p x) :=
  keeps_setPos h p (follow_live ..) (follow_ready ..) (follow_inBringUp ..)

theorem keeps_dropReason {s₀ s : State} (h : Keeps s₀ s) (p : Pos) (x : Reason) : Keeps s₀ (s.dropReason p x) :=
  keeps_setPos h p (follow_live ..) (follow_ready ..) (follow_inBringUp ..)

theorem keeps_setEntry {s₀ s : State} (h : Keeps s₀ s) (ref : EntryRef) (e : Option Entry) :
    Keeps s₀ (s.setEntry ref e) := by
  cases ref <;> exact h.same

theorem keeps_modEntry {s₀ s : State} (h : Keeps s₀ s) (ref : EntryRef) (f : Entry → Entry) :
    Keeps s₀ (s.modEntry ref f) := by
  unfold State.modEntry
  split
  · exact keeps_setEntry h _ _
  · exact h

theorem keeps_modSlot {s₀ s : State} (h : Keeps s₀ s) (ref : EntryRef) (k : Nat) (f : Slot → Slot) :
    Keeps s₀ (s.modSlot ref k f) := keeps_modEntry h _ _

theorem keeps_mapEntries {s₀ s : State} (h : Keeps s₀ s) (f : Entry → Entry) : Keeps s₀ (s.mapEntries f) := h.same

/-! ## Channels, probe request, watches, claims -/

theorem keeps_putChan {s₀ s : State} (h : Keeps s₀ s) (c : ChanId) {ch : Channel}
    (hch : (s.chan c).Lawful → ch.Lawful) : Keeps s₀ (s.putChan c ch) := by
  refine h.step rfl id ?_ (fun _ => ?_) id id
  · rw [channelsLawful_iff, channelsLawful_iff]
    intro hs d
    rw [State.chan_putChan]
    split
    · exact hch (hs c)
    · exact hs d
  · rw [chain_of (s := s) (t := s.putChan c ch) (fun _ => rfl) (fun _ => rfl) (fun _ => rfl)
      (fun p => by simp only [State.putChan]; split <;> rfl)
      (by simp only [State.putChan]; split <;> cases s.det.bringUp <;> rfl) rfl]
    exact id

theorem keeps_dropProbeRequest {s₀ s : State} (h : Keeps s₀ s) : Keeps s₀ (s.setProbe none) := by
  refine h.step rfl id id (fun _ => ?_) id id
  rw [chain_iff, chain_iff]
  rintro ⟨a, b, c, d, -⟩
  exact ⟨a, b, c, d, fun q hq => by simp at hq⟩

theorem keeps_setProbe {s₀ s : State} (h : Keeps s₀ s) {q : Probe} (hq : s₀.chainLaw = true → s.live q.pos = true) :
    Keeps s₀ (s.setProbe (some q)) := by
  refine h.step rfl id id (fun h₀ => ?_) id id
  rw [chain_iff, chain_iff]
  rintro ⟨a, b, c, d, -⟩
  refine ⟨a, b, c, d, fun q' hq' => ?_⟩
  simp at hq'
  subst hq'
  exact hq h₀

/-- The position of the probe request held is live, in an act that began under the chain law. -/
theorem Keeps.probe_live {s₀ s : State} (h : Keeps s₀ s) {q : Probe} (hq : s.bank.probe = some q) :
    s₀.chainLaw = true → s.live q.pos = true := fun h₀ => (chain_iff.1 (h.chain h₀)).2.2.2.2 q hq

theorem keeps_claim1 {s₀ s : State} (h : Keeps s₀ s) (t : Txn) : Keeps s₀ (s.claim1 t) := h.same
theorem keeps_claim2 {s₀ s : State} (h : Keeps s₀ s) (t : Txn) : Keeps s₀ (s.claim2 t) := h.same
theorem keeps_setPoll {s₀ s : State} (h : Keeps s₀ s) (p : Pos) (t : Option Nat) : Keeps s₀ (s.setPoll p t) := h.same
theorem keeps_withdraw {s₀ s : State} (h : Keeps s₀ s) (f : Txn → Bool) : Keeps s₀ (s.withdraw f) := h.same
theorem keeps_send {s₀ s : State} (h : Keeps s₀ s) (t : Txn) : Keeps s₀ (s.send t) := h.same

/-- A watch replaced: the position is ready wherever the new watch stands. -/
theorem keeps_setWatch {s₀ s : State} (h : Keeps s₀ s) (p : Pos) {w : Option Watch}
    (hw : s₀.chainLaw = true → w.isSome = true → s.ready p = true) : Keeps s₀ (s.setWatch p w) := by
  refine h.step rfl id id (fun h₀ => ?_) id id
  rw [chain_iff, chain_iff]
  rintro ⟨a, b, c, d, e⟩
  refine ⟨a, b, fun q hq => ?_, d, e⟩
  simp only [State.setWatch, Tbl.get_set] at hq
  split at hq
  · rename_i he
    have := posIdx_injective he
    subst this
    exact hw h₀ hq
  · exact c q hq

/-- A standing watch is of a ready position, in an act that began under the chain law. -/
theorem Keeps.watch_ready {s₀ s : State} (h : Keeps s₀ s) {p : Pos}
    (hw : (s.det.watches.get (posIdx p)).isSome = true) : s₀.chainLaw = true → s.ready p = true :=
  fun h₀ => (chain_iff.1 (h.chain h₀)).2.2.1 p hw

theorem keeps_mapWatch {s₀ s : State} (h : Keeps s₀ s) (p : Pos) (f : Watch → Watch) :
    Keeps s₀ (s.setWatch p ((s.det.watches.get (posIdx p)).map f)) :=
  keeps_setWatch h p fun h₀ hs => h.watch_ready (by simpa using hs) h₀

/-! ## Links -/

theorem interestKept_some (m : Mlu) : interestKept (some m) = true ↔ m.pending &&& ~~~ m.interest = 0 := by
  simp [interestKept]

theorem keeps_setLink {s₀ s : State} (h : Keeps s₀ s) (l : LinkId) {m m' : Mlu} (hm : s.link l = some m)
    (hq : m.queue.length ≤ 4 → m'.queue.length ≤ 4 := by exact id)
    (hi : m.pending &&& ~~~ m.interest = 0 → m'.pending &&& ~~~ m'.interest = 0 := by exact id) :
    Keeps s₀ (s.setLink l m') := by
  refine h.step (by simp) ?_ (by rw [channels_of (s := s) (t := s.setLink l m') (by cases l <;> rfl)]; exact id)
    (fun _ => ?_) ?_ ?_
  · rw [bounded_iff, bounded_iff]
    simp only [State.deferredOf, State.setLink_dec]
    refine fun hs => ⟨fun k n hn => ?_, hs.2⟩
    rw [State.link_setLink] at hn
    split at hn
    · simp at hn
      subst hn
      exact hq (hs.1 l m hm)
    · exact hs.1 k n hn
  · rw [chain_of (s := s) (t := s.setLink l m') (fun p => by cases l <;> rfl) (fun p => by cases l <;> rfl)
      (fun p => by cases l <;> rfl) (fun p => by cases l <;> rfl) (by cases l <;> rfl) (by cases l <;> rfl)]
    exact id
  · rw [flash_of (s := s) (t := s.setLink l m') (by cases l <;> rfl) (by cases l <;> rfl) (by cases l <;> rfl)
      (by cases l <;> rfl)]
    exact id
  · rw [interestLaw_iff, interestLaw_iff]
    intro hs k
    rw [State.link_setLink]
    split
    · rename_i e; subst e
      have := hs l
      rw [hm, interestKept_some] at this
      rw [interestKept_some]
      exact hi this
    · exact hs k

theorem keeps_place {s₀ s : State} (h : Keeps s₀ s) (l : LinkId) (fs : List TxFrame) : Keeps s₀ (s.place l fs) := by
  unfold State.place State.modLink
  split
  · rename_i m hm
    by_cases hb : m.busOff = true
    · simp only [hb, if_true]
      rw [State.setLink_self hm]; exact h
    · simp only [hb]
      exact keeps_setLink h l hm
  · exact h

theorem keeps_reply {s₀ s : State} (h : Keeps s₀ s) (l : LinkId) (k t : Byte) (st : Status) (c : List Byte) :
    Keeps s₀ (s.reply l k t st c) := keeps_place h _ _

theorem Mlu.raise_queue (m : Mlu) (k : EventKind) : (m.raise k).queue = m.queue := by
  unfold Mlu.raise; split <;> rfl

theorem addBit_within {pending interest : EventSet} {i : Nat} (h : pending &&& ~~~ interest = 0)
    (hi : hasBit interest i = true) : addBit pending i &&& ~~~ interest = 0 := by
  apply BitVec.eq_of_getLsbD_eq
  intro j hj
  have := congrArg (fun x => BitVec.getLsbD x j) h
  simp only [BitVec.getLsbD_and, BitVec.getLsbD_not, hj, decide_true, Bool.true_and] at this
  simp only [addBit, BitVec.getLsbD_and, BitVec.getLsbD_or, BitVec.getLsbD_not, hj, decide_true, Bool.true_and,
    BitVec.getLsbD_twoPow]
  by_cases hij : i = j
  · subst hij
    simp only [hasBit] at hi
    simp [hi]
  · simpa [hij] using this

theorem Mlu.raise_interest (m : Mlu) (k : EventKind) (h : m.pending &&& ~~~ m.interest = 0) :
    (m.raise k).pending &&& ~~~ (m.raise k).interest = 0 := by
  unfold Mlu.raise
  split
  · exact addBit_within h (by assumption)
  · exact h

theorem keeps_raiseFor {s₀ s : State} (h : Keeps s₀ s) (roles : RoleSet) (k : EventKind) :
    Keeps s₀ (s.raiseFor roles k) := by
  refine h.step rfl ?_ id (fun _ => id) id ?_
  · refine bounded_of (t := s.raiseFor roles k) rfl ?_
    · intro l
      rw [State.link_raiseFor]
      cases s.link l with
      | none => rfl
      | some m => simp only [Option.map_some]; split <;> simp [Mlu.raise_queue]
  · rw [interestLaw_iff, interestLaw_iff]
    intro hs l
    rw [State.link_raiseFor]
    have := hs l
    cases hl : s.link l with
    | none => rfl
    | some m =>
      rw [hl, interestKept_some] at this
      simp only [Option.map_some, interestKept_some]
      split
      · exact Mlu.raise_interest m k this
      · exact this

theorem keeps_raiseAll {s₀ s : State} (h : Keeps s₀ s) (k : EventKind) : Keeps s₀ (s.raiseAll k) := keeps_raiseFor h _ _
theorem keeps_raiseRole {s₀ s : State} (h : Keeps s₀ s) (r : Role) (k : EventKind) : Keeps s₀ (s.raiseRole r k) :=
  keeps_raiseFor h _ _

theorem keeps_attend {s₀ before after : State} (h : Keeps s₀ after) (l : LinkId) : Keeps s₀ (before.attend after l) := by
  unfold State.attend
  split
  · rename_i m m' _ hm'
    split
    · unfold State.attentionDue
      split
      · exact h
      · split <;> exact keeps_setLink h l hm'
    · exact h
  · exact h

theorem keeps_finish {s₀ before after : State} (h : Keeps s₀ after) : Keeps s₀ (before.finish after) :=
  keeps_attend (keeps_attend (keeps_attend h _) _) _

end Sys2Proof.Machine
end

