-- ==== Sys2Proof/Laws/KeepsBank.lean ====
section
/-! SUPPORT. The operations of Machine/Load, Machine/Probes and Machine/Lighting keep the laws of the part
(Laws/Keeps.lean). -/

namespace Sys2Proof.Machine

/-! ## Load Learning Unit -/

/-- A step that touches nothing the laws read but verdicts and the fast-flash decision. -/
theorem Keeps.judged {s₀ s t : State} (h : Keeps s₀ s) (hf : s.flashLaw = true → t.flashLaw = true)
    (hp : t.pending = s.pending := by rfl) (hd : t.dec = s.dec := by rfl)
    (hl : t.links = s.links := by rfl) (hb : t.bank = s.bank := by rfl) (hm : t.map = s.map := by rfl)
    (hdet : t.det = s.det := by rfl) : Keeps s₀ t := by
  have hpp : ∀ p, t.pos p = s.pos p := fun p => by simp [State.pos, hm]
  have hch : t.chainLaw = s.chainLaw :=
    chain_of (fun p => by simp only [State.live, hpp]) (fun p => by simp only [State.ready, hpp]) (fun p => by rw [hpp])
      (fun p => by rw [hdet]) (by rw [hdet]) (by rw [hb])
  refine h.step hp (bounded_of hd fun l => by rw [State.link_of_links hl]) ?_ (fun _ => ?_) hf ?_
  · rw [channels_of (by rw [hb])]; exact id
  · rw [hch]; exact id
  · rw [interest_of hl]; exact id

theorem flashLaw_iff {s : State} : s.flashLaw = true ↔
    s.light.kind0 = (s.load.verdicts.get 0).kind ∧ s.light.kind1 = (s.load.verdicts.get 1).kind ∧
    (s.light.fast = true ↔ (s.light.kind0 = .lampOut ∨ s.light.kind1 = .lampOut)) := by
  unfold State.flashLaw
  simp only [Bool.and_eq_true, decide_eq_true_eq, and_assoc]
  refine and_congr_right fun _ => and_congr_right fun _ => ?_
  cases s.light.fast <;> simp

/-- A verdict record replaced. -/
def State.setVerdict (s : State) (l : LampId) (v : Verdict) : State :=
  { s with load := { s.load with verdicts := s.load.verdicts.set l v } }

theorem flash_setVerdict {s : State} (l : LampId) (v : Verdict) (hk : v.kind = (s.load.verdicts.get l).kind)
    (h : s.flashLaw = true) : (s.setVerdict l v).flashLaw = true := by
  rw [flashLaw_iff] at *
  simp only [State.setVerdict, Tbl.get_set]
  refine ⟨?_, ?_, h.2.2⟩
  · split
    · rename_i e; subst e; rw [hk]; exact h.1
    · exact h.1
  · split
    · rename_i e; subst e; rw [hk]; exact h.2.1
    · exact h.2.1

theorem flash_handVerdict {s : State} (l : LampId) (v : Verdict) (h : s.flashLaw = true) :
    ((s.setVerdict l v).handKind l v.kind).flashLaw = true := by
  rw [flashLaw_iff] at *
  obtain ⟨hk0, hk1, hf⟩ := h
  unfold State.handKind
  by_cases h0 : l = 0
  · subst h0
    simp [State.setVerdict, Tbl.get_set, hk1]
  · by_cases h1 : l = 1
    · subst h1
      simp [State.setVerdict, Tbl.get_set, hk0]
    · simp only [h0, h1, or_self, if_false, State.setVerdict, Tbl.get_set]
      exact ⟨hk0, hk1, hf⟩

theorem handKind_pending (s : State) (l : LampId) (k : VerdictKind) : (s.handKind l k).pending = s.pending := by
  unfold State.handKind; dsimp only; split <;> rfl
theorem handKind_dec (s : State) (l : LampId) (k : VerdictKind) : (s.handKind l k).dec = s.dec := by
  unfold State.handKind; dsimp only; split <;> rfl
theorem handKind_links (s : State) (l : LampId) (k : VerdictKind) : (s.handKind l k).links = s.links := by
  unfold State.handKind; dsimp only; split <;> rfl
theorem handKind_bank (s : State) (l : LampId) (k : VerdictKind) : (s.handKind l k).bank = s.bank := by
  unfold State.handKind; dsimp only; split <;> rfl
theorem handKind_map (s : State) (l : LampId) (k : VerdictKind) : (s.handKind l k).map = s.map := by
  unfold State.handKind; dsimp only; split <;> rfl
theorem handKind_det (s : State) (l : LampId) (k : VerdictKind) : (s.handKind l k).det = s.det := by
  unfold State.handKind; dsimp only; split <;> rfl

theorem keeps_handVerdict {s₀ s : State} (h : Keeps s₀ s) (l : LampId) (v : Verdict) :
    Keeps s₀ ((s.setVerdict l v).handKind l v.kind) :=
  h.judged (flash_handVerdict l v) (handKind_pending ..) (handKind_dec ..) (handKind_links ..) (handKind_bank ..)
    (handKind_map ..) (handKind_det ..)

theorem keeps_resetVerdict {s₀ s : State} (h : Keeps s₀ s) (l : LampId) : Keeps s₀ (s.resetVerdict l) := by
  unfold State.resetVerdict
  dsimp only
  split
  · rename_i e
    exact h.judged (flash_setVerdict l {} e.symm)
  · exact keeps_handVerdict h l {}

theorem keeps_resetVerdicts {s₀ s : State} (h : Keeps s₀ s) (ls : List LampId) : Keeps s₀ (s.resetVerdicts ls) := by
  have := keeps_foldl (f := State.resetVerdict) (fun _ x hs => keeps_resetVerdict hs x) ls h
  unfold State.resetVerdicts
  dsimp only
  split
  · exact keeps_raiseAll this _
  · exact this

/-- What every step of a fold leaves alone, the fold leaves alone. -/
theorem foldl_keep {α β : Type} (g : State → β) {f : State → α → State} (hf : ∀ s x, g (f s x) = g s) :
    ∀ (xs : List α) (s : State), g (xs.foldl f s) = g s
  | [], _ => rfl
  | x :: xs, s => (foldl_keep g hf xs (f s x)).trans (hf s x)

theorem resetVerdict_map (s : State) (l : LampId) : (s.resetVerdict l).map = s.map := by
  unfold State.resetVerdict; dsimp only; split
  · rfl
  · exact handKind_map ..
theorem resetVerdict_det (s : State) (l : LampId) : (s.resetVerdict l).det = s.det := by
  unfold State.resetVerdict; dsimp only; split
  · rfl
  · exact handKind_det ..
theorem resetVerdict_bank (s : State) (l : LampId) : (s.resetVerdict l).bank = s.bank := by
  unfold State.resetVerdict; dsimp only; split
  · rfl
  · exact handKind_bank ..

theorem resetVerdicts_map (s : State) (ls : List LampId) : (s.resetVerdicts ls).map = s.map := by
  have := foldl_keep (·.map) (fun s x => resetVerdict_map s x) ls s
  unfold State.resetVerdicts; dsimp only; split
  · exact this
  · exact this
theorem resetVerdicts_det (s : State) (ls : List LampId) : (s.resetVerdicts ls).det = s.det := by
  have := foldl_keep (·.det) (fun s x => resetVerdict_det s x) ls s
  unfold State.resetVerdicts; dsimp only; split
  · exact this
  · exact this
theorem resetVerdicts_bank (s : State) (ls : List LampId) : (s.resetVerdicts ls).bank = s.bank := by
  have := foldl_keep (·.bank) (fun s x => resetVerdict_bank s x) ls s
  unfold State.resetVerdicts; dsimp only; split
  · exact this
  · exact this

theorem keeps_formExpected {s₀ s : State} (h : Keeps s₀ s) : Keeps s₀ s.formExpected := h.same

theorem putContribution_state (l : LampId) (c : Contribution) (r : PosRec) :
    (PosRec.putContribution l c r).state = r.state := by
  unfold PosRec.putContribution; split <;> rfl

theorem keeps_putContribution {s₀ s : State} (h : Keeps s₀ s) (p : Pos) (l : LampId) (c : Contribution) :
    Keeps s₀ (s.modPos p (PosRec.putContribution l c)) := keeps_modPos h p fun r => putContribution_state l c r

theorem keeps_learnFor {s₀ s : State} (h : Keeps s₀ s) (p : Pos) (l : LampId) (o : ProbeOutcome) :
    Keeps s₀ (s.learnFor p l o) := by
  unfold State.learnFor
  dsimp only
  split
  · exact keeps_raiseAll (keeps_putContribution h p l _) _
  · exact keeps_putContribution h p l _

theorem debounce_kind (v : Verdict) (c : Candidate) (a d : Nat) :
    ((v.debounce c a d).2 = true → (v.debounce c a d).1.kind = c.kind) ∧
    ((v.debounce c a d).2 = false → (v.debounce c a d).1.kind = v.kind) := by
  unfold Verdict.debounce
  split
  · simp
  · split
    · simp
    · split
      · simp [Verdict.confirm]
      · simp

theorem keeps_evaluate {s₀ s : State} (h : Keeps s₀ s) (l : LampId) (m peak : Nat) : Keeps s₀ (s.evaluate l m peak) := by
  have key := debounce_kind { s.load.verdicts.get l with lastM := m, lastPeak := peak } (s.candidate l m)
    (attributionOf (s.candidate l m)) (deviationOf (s.candidate l m) (s.load.expected.get l) m)
  unfold State.evaluate
  dsimp only
  generalize hr : Verdict.debounce _ _ _ _ = r at key ⊢
  obtain ⟨v', confirmed⟩ := r
  cases confirmed with
  | false => exact h.judged (flash_setVerdict l v' (key.2 rfl))
  | true =>
    have hk := key.1 rfl
    simp only at hk
    dsimp only
    rw [if_pos rfl, ← hk]
    exact (keeps_handVerdict (keeps_raiseAll h .lampVerdict) l v')

/-! ## Liveness of positions -/

theorem live_of_map {s t : State} (h : t.map.positions = s.map.positions) (p : Pos) : t.live p = s.live p := by
  simp [State.live, State.pos, h]

theorem live_modPos {s : State} (p q : Pos) {f : PosRec → PosRec} (hf : ∀ r, (f r).state.live = r.state.live) :
    (s.modPos q f).live p = s.live p := by
  unfold State.live
  rw [State.pos_modPos]
  split
  · rename_i e; subst e; exact hf _
  · rfl

theorem live_learnFor (s : State) (p q : Pos) (l : LampId) (o : ProbeOutcome) :
    (s.learnFor q l o).live p = s.live p := by
  have key := live_modPos (s := s) p q
    (fun r => by rw [putContribution_state l (learn o (s.eBefore q l) (s.pBefore q l)) r])
  unfold State.learnFor
  dsimp only
  split
  · exact key
  · exact key

theorem live_noteOutcome (s : State) (p q : Pos) (o : ProbeOutcome) : (s.noteOutcome q o).live p = s.live p := by
  unfold State.noteOutcome
  split
  · split
    · rfl
    · exact live_modPos p q fun r => follow_live ..
  · rfl

/-! ## Probes -/

theorem keeps_takeDemand {s₀ s : State} (h : Keeps s₀ s) (c : ChanId) : Keeps s₀ (s.takeDemand c) :=
  keeps_putChan h c fun hc => Channel.lawful_takeDemand hc _ _

/-- The bring-up in progress ends. -/
theorem keeps_endOfBringUp {s₀ s : State} (h : Keeps s₀ s) :
    Keeps s₀ { s with det := { s.det with bringUp := none } } := by
  refine h.step rfl id id (fun _ => ?_) id id
  rw [chain_iff, chain_iff]
  rintro ⟨a, b, c, -, e⟩
  exact ⟨a, b, c, fun q hq => by simp at hq, e⟩

theorem becomesReady_ready (r : PosRec) : r.becomesReady.state.ready = true := by
  unfold PosRec.becomesReady; dsimp only; split <;> rfl
theorem becomesReady_live (r : PosRec) : r.becomesReady.state.live = true := by
  unfold PosRec.becomesReady; dsimp only; split <;> rfl

theorem ready_becomesReady (s : State) (p q : Pos) :
    (s.modPos p PosRec.becomesReady).ready q = (decide (p = q) || s.ready q) := by
  unfold State.ready
  rw [State.pos_modPos]
  split <;> simp_all [becomesReady_ready]

/-- A live position becomes ready while no bring-up is in progress. -/
theorem keeps_becomesReady {s₀ s : State} (h : Keeps s₀ s) (p : Pos) (hb : s.det.bringUp = none)
    (hl : s₀.chainLaw = true → s.live p = true) : Keeps s₀ (s.modPos p PosRec.becomesReady) := by
  refine h.step rfl id id (fun h₀ => ?_) id id
  rw [chain_iff, chain_iff]
  rintro ⟨a, b, c, -, e⟩
  have hlive : ∀ q, (s.modPos p PosRec.becomesReady).live q = s.live q := by
    intro q
    unfold State.live
    rw [State.pos_modPos]
    split
    · rename_i he; subst he; rw [becomesReady_live]; exact (hl h₀).symm
    · rfl
  simp only [hlive, ready_becomesReady, Bool.or_eq_true]
  refine ⟨fun x => .inr (a x), fun x => .inr (b x), fun q hq => .inr (c q hq),
    fun q hq => by simp [hb] at hq, e⟩

theorem keeps_becomeReady {s₀ s : State} (h : Keeps s₀ s) (p : Pos) (hl : s₀.chainLaw = true → s.live p = true) :
    Keeps s₀ (s.becomeReady p) := by
  have h3 := keeps_raiseAll (keeps_resetVerdicts (keeps_formExpected (keeps_becomesReady (keeps_endOfBringUp h) p rfl hl))
    allLamps) .positionReady
  unfold State.becomeReady
  dsimp only
  split
  · refine keeps_setPoll (keeps_claim2 (keeps_setWatch h3 p fun _ _ => ?_) _) _ _
    have hm : ∀ x : State, ((x.formExpected.resetVerdicts allLamps).raiseAll .positionReady).map = x.map := by
      intro x
      exact (resetVerdicts_map x.formExpected allLamps).trans rfl
    unfold State.ready
    rw [State.pos_of_map (hm _)]
    exact (ready_becomesReady _ p p).trans (by simp)
  · exact h3

theorem keeps_commitRelearn {s₀ s : State} (h : Keeps s₀ s) (p : Pos) : Keeps s₀ (s.commitRelearn p) := by
  have h1 : Keeps s₀ (s.modPos p (PosRec.commit (s.det.relearn.any (·.incomplete)))) := by
    refine keeps_setPos h p ?_ ?_ ?_ <;> unfold PosRec.commit <;> dsimp only <;> split
    · exact follow_live ..
    · exact follow_live ..
    · exact follow_ready ..
    · exact follow_ready ..
    · exact follow_inBringUp ..
    · exact follow_inBringUp ..
  exact keeps_resetVerdicts (keeps_formExpected h1.same) _

theorem keeps_endMeasuring {s₀ s : State} (h : Keeps s₀ s) (p : Pos) (hl : s₀.chainLaw = true → s.live p = true) :
    Keeps s₀ (s.endMeasuring p) := by
  unfold State.endMeasuring
  split
  · exact keeps_commitRelearn h p
  · exact keeps_becomeReady h p hl

theorem keeps_beginAttempt {s₀ s : State} (h : Keeps s₀ s) (q : Probe) (hq : s₀.chainLaw = true → s.live q.pos = true) :
    Keeps s₀ (s.beginAttempt q) := by
  have h1 : Keeps s₀ (s.setProbe
      (some { q with phase := .attempt, inrush := 0, samples := [], gap := 0, armed := false })) := keeps_setProbe h hq
  have hc : ∀ c, State.chan (s.setProbe
      (some { q with phase := .attempt, inrush := 0, samples := [], gap := 0, armed := false })) c = s.chan c :=
    fun _ => rfl
  unfold State.beginAttempt
  dsimp only
  split
  · refine keeps_putChan h1 _ fun hch => ?_
    split
    · exact Channel.lawful_toProbeOn hch
    · exact Channel.lawful_toGap hch
  · split
    · split
      · exact h1
      · exact keeps_putChan h1 _ fun hch => Channel.lawful_toGap hch
    · split
      · exact h1
      · exact keeps_putChan h1 _ fun hch => Channel.lawful_toGap hch
    · exact keeps_putChan h1 _ fun hch => Channel.lawful_toGap hch
    · exact keeps_putChan h1 _ fun hch => Channel.lawful_toGap hch
  all_goals exact h1

theorem keeps_testProbe {s₀ s : State} (h : Keeps s₀ s) : Keeps s₀ s.testProbe := by
  unfold State.testProbe
  split
  · rename_i q hq
    split
    · exact keeps_beginAttempt h q (h.probe_live hq)
    · exact h
  · exact h

theorem keeps_noteOutcome {s₀ s : State} (h : Keeps s₀ s) (p : Pos) (o : ProbeOutcome) :
    Keeps s₀ (s.noteOutcome p o) := by
  unfold State.noteOutcome
  split
  · split
    · exact h.same
    · exact keeps_addReason h p _
  · exact h

theorem keeps_measure {s₀ : State} (p : Pos) : ∀ (ls : List LampId) {s : State}, Keeps s₀ s →
    (s₀.chainLaw = true → s.live p = true) → Keeps s₀ (s.measure p ls)
  | [], _, h, hl => keeps_endMeasuring h p hl
  | l :: rest, s, h, hl => by
    unfold State.measure
    split
    · refine keeps_measure p rest (keeps_putContribution h p l {}) fun h₀ => ?_
      rw [live_modPos p p fun r => by rw [putContribution_state]]
      exact hl h₀
    · split
      · refine keeps_measure p rest (keeps_noteOutcome (keeps_learnFor h p l .failed) p .failed) fun h₀ => ?_
        rw [live_noteOutcome, live_learnFor]
        exact hl h₀
      · exact keeps_testProbe (keeps_setProbe h hl)

theorem keeps_handOutcome {s₀ s : State} (h : Keeps s₀ s) (q : Probe) (o : ProbeOutcome)
    (hq : s₀.chainLaw = true → s.live q.pos = true) : Keeps s₀ (s.handOutcome q o) := by
  refine keeps_measure q.pos _ (keeps_noteOutcome (keeps_learnFor (keeps_dropProbeRequest h) q.pos q.lamp o) q.pos o)
    fun h₀ => ?_
  rw [live_noteOutcome, live_learnFor]
  exact hq h₀

theorem keeps_resolveExpired {s₀ s : State} (h : Keeps s₀ s) (q : Probe)
    (hq : s₀.chainLaw = true → s.live q.pos = true) : Keeps s₀ (s.resolveExpired q) := by
  unfold State.resolveExpired
  dsimp only
  split
  · exact keeps_setProbe h hq
  · exact keeps_handOutcome h _ _ hq

theorem live_takeDemand (s : State) (c : ChanId) (p : Pos) : (s.takeDemand c).live p = s.live p := rfl

theorem keeps_abandonAttempt {s₀ s : State} (h : Keeps s₀ s) (q : Probe)
    (hq : s₀.chainLaw = true → s.live q.pos = true) : Keeps s₀ (s.abandonAttempt q) := by
  have h1 : Keeps s₀ (s.setProbe (some { q with phase := .postponed, samples := [] })) := keeps_setProbe h hq
  unfold State.abandonAttempt
  dsimp only
  split
  · split
    · exact keeps_resolveExpired (keeps_takeDemand h1 _) _ hq
    · exact keeps_resolveExpired h1 _ hq
  · split
    · exact keeps_testProbe (keeps_takeDemand h1 _)
    · exact keeps_testProbe h1

theorem keeps_disturbProbe {s₀ s : State} (h : Keeps s₀ s) : Keeps s₀ s.disturbProbe := by
  unfold State.disturbProbe
  split
  · exact h
  · rename_i q hq
    split
    · exact keeps_testProbe h
    · exact keeps_abandonAttempt h q (h.probe_live hq)
    · exact keeps_handOutcome h q _ (h.probe_live hq)

theorem keeps_dropProbe {s₀ s : State} (h : Keeps s₀ s) (p : Pos) : Keeps s₀ (s.dropProbe p) := by
  unfold State.dropProbe
  split
  · exact h
  · split
    · dsimp only
      split
      · exact keeps_takeDemand (keeps_dropProbeRequest h) _
      · exact keeps_dropProbeRequest h
    · exact h

theorem keeps_probeSample {s₀ s : State} (h : Keeps s₀ s) (c : ChanId) (ma : Nat) : Keeps s₀ (s.probeSample c ma) := by
  unfold State.probeSample
  split
  · exact h
  · rename_i q hq
    have hl := h.probe_live hq
    split
    · exact h
    · split
      · exact h
      · dsimp only
        split
        · refine keeps_setProbe h fun h₀ => ?_
          split <;> split <;> exact hl h₀
        · exact h
      · split
        · exact keeps_setProbe h hl
        · exact h

/-! ## Lighting -/

theorem keeps_stepFlashers {s₀ s : State} (h : Keeps s₀ s) : Keeps s₀ s.stepFlashers := h.same

theorem keeps_handDemand {s₀ before s : State} (h : Keeps s₀ s) (c : ChanId) : Keeps s₀ (State.handDemand before s c) := by
  unfold State.handDemand
  dsimp only
  split
  · exact h
  · exact keeps_putChan h c fun hch => Channel.lawful_acceptDemand hch _ _ _ _

theorem keeps_formDemand {s₀ s : State} (h : Keeps s₀ s) : Keeps s₀ s.formDemand := by
  have h1 := keeps_foldl (f := State.handDemand s) (fun _ c hs => keeps_handDemand hs c) allChans (keeps_stepFlashers h)
  unfold State.formDemand
  dsimp only
  split
  · split
    · exact h1
    · exact keeps_disturbProbe h1
  · exact h1

theorem keeps_setRecord {s₀ s : State} (h : Keeps s₀ s) (r : Role) (f : FunctionSet) : Keeps s₀ (s.setRecord r f) := by
  have h1 : Keeps s₀ { s with light := s.light.setRecord r f } := by cases r <;> exact h.same
  exact keeps_formDemand h1

theorem keeps_setCoupling {s₀ s : State} (h : Keeps s₀ s) (on : Bool) : Keeps s₀ (s.setCoupling on) :=
  keeps_formDemand h.same

end Sys2Proof.Machine
end

