-- ==== Sys2Proof/Laws/KeepsBus.lean ====
section
/-! SUPPORT. The operations of Machine/Bus, Machine/Enumerate and Machine/Service keep the laws of the part
(Laws/Keeps.lean). -/

namespace Sys2Proof.Machine

/-! ## The Deferred List and the Posted Write Buffer -/

/-- A step that changes the two collections of the Request Decoder alone. -/
theorem Keeps.decoded {s₀ s : State} (h : Keeps s₀ s) {d : Decoder}
    (hd : s.bounded = true → State.bounded { s with dec := d } = true) : Keeps s₀ { s with dec := d } :=
  h.step rfl hd id (fun _ => id) id id

theorem bounded_deferred {s : State} {d : Decoder} (hp : d.posted = s.dec.posted)
    (hl : (d.deferred.map fun x => (x.link, x.tag)).Sublist (s.dec.deferred.map fun x => (x.link, x.tag)))
    (h : s.bounded = true) : State.bounded { s with dec := d } = true := by
  rw [bounded_iff] at *
  obtain ⟨a, b, c, e, f, g⟩ := h
  have hlen : ∀ (l : LinkId) (xs : List Deferred), (xs.filter fun x => x.link = l).length =
      ((xs.map fun x => (x.link, x.tag)).filter fun k => k.1 = l).length := by
    intro l xs
    rw [List.filter_map, List.length_map]
    rfl
  refine ⟨a, ?_, fun l => ?_, e.sublist hl, by rw [hp]; exact f, by rw [hp]; exact g⟩
  · have := hl.length_le
    simp only [List.length_map] at this
    exact Nat.le_trans this b
  · have hc := c l
    unfold State.deferredOf at *
    rw [hlen] at *
    exact Nat.le_trans (hl.filter _).length_le hc

theorem bounded_posted {s : State} {d : Decoder} (hp : d.deferred = s.dec.deferred)
    (hl : (d.posted.map (·.number)).Sublist (s.dec.posted.map (·.number)))
    (h : s.bounded = true) : State.bounded { s with dec := d } = true := by
  rw [bounded_iff] at *
  obtain ⟨a, b, c, e, f, g⟩ := h
  unfold State.deferredOf at *
  refine ⟨a, by rw [hp]; exact b, by simp only [hp]; exact c, by rw [hp]; exact e, ?_, g.sublist hl⟩
  have := hl.length_le
  simp only [List.length_map] at this
  exact Nat.le_trans this f

theorem keeps_modDeferred {s₀ s : State} (h : Keeps s₀ s) (d : Deferred) (f : Deferred → Deferred)
    (hf : ∀ x, ((f x).link, (f x).tag) = (x.link, x.tag)) : Keeps s₀ (s.modDeferred d f) := by
  refine h.decoded (bounded_deferred rfl ?_)
  dsimp only
  rw [List.map_map]
  refine (List.map_congr_left fun x _ => ?_) ▸ List.Sublist.refl _
  simp only [Function.comp_apply]
  split
  · exact (hf x).symm
  · rfl

theorem keeps_modPosted {s₀ s : State} (h : Keeps s₀ s) (n : Nat) (f : Posted → Posted)
    (hf : ∀ x, (f x).number = x.number) : Keeps s₀ (s.modPosted n f) := by
  refine h.decoded (bounded_posted rfl ?_)
  dsimp only
  rw [List.map_map]
  refine (List.map_congr_left fun x _ => ?_) ▸ List.Sublist.refl _
  simp only [Function.comp_apply]
  split
  · exact (hf x).symm
  · rfl

theorem keeps_dropDeferred {s₀ s : State} (h : Keeps s₀ s) (d : Deferred) : Keeps s₀ (s.dropDeferred d) :=
  h.decoded (bounded_deferred rfl (List.filter_sublist.map _))

theorem keeps_dropPosted {s₀ s : State} (h : Keeps s₀ s) (n : Nat) : Keeps s₀ (s.dropPosted n) :=
  h.decoded (bounded_posted rfl (List.filter_sublist.map _))

theorem keeps_complete {s₀ s : State} (h : Keeps s₀ s) (d : Deferred) (st : Status) (c : List Byte) :
    Keeps s₀ (s.complete d st c) := keeps_place (keeps_dropDeferred h d) _ _

theorem keeps_completeFor {s₀ s : State} (h : Keeps s₀ s) (o : Option (LinkId × Byte)) (st : Status) (c : List Byte) :
    Keeps s₀ (s.completeFor o st c) := by
  unfold State.completeFor
  split
  · exact h
  · split
    · exact keeps_complete h _ _ _
    · exact h

theorem keeps_placeCompletion {s₀ s : State} (h : Keeps s₀ s) (st : Status) (d : Deferred) :
    Keeps s₀ (s.placeCompletion st d) := keeps_place h _ _

theorem keeps_completeWhere {s₀ s : State} (h : Keeps s₀ s) (f : Deferred → Bool) (st : Status) :
    Keeps s₀ (s.completeWhere f st) :=
  keeps_foldl (fun _ d hs => keeps_placeCompletion hs st d) _ (h.decoded (bounded_deferred rfl (List.filter_sublist.map _)))

theorem keeps_postedFailed {s₀ s : State} (h : Keeps s₀ s) (ok : Bool) (r : Role) : Keeps s₀ (s.postedFailed ok r) := by
  unfold State.postedFailed
  split
  · exact h
  · exact keeps_raiseRole h _ _

theorem keeps_settlePosted {s₀ s : State} (h : Keeps s₀ s) (n : Nat) (ok : Bool) : Keeps s₀ (s.settlePosted n ok) := by
  unfold State.settlePosted
  split
  · exact h
  · dsimp only
    split
    · split
      · exact keeps_postedFailed (keeps_postedFailed (keeps_dropPosted h n) _ _) _ _
      · exact keeps_postedFailed (keeps_modPosted h n _ (by intro _; rfl)) _ _
    · exact keeps_postedFailed (keeps_dropPosted h n) _ _

theorem keeps_failPosted {s₀ s : State} (h : Keeps s₀ s) (p : Posted) : Keeps s₀ (s.failPosted p) := by
  unfold State.failPosted
  dsimp only
  split
  · exact keeps_postedFailed (keeps_postedFailed h _ _) _ _
  · exact keeps_postedFailed h _ _

theorem keeps_removePosted {s₀ s : State} (h : Keeps s₀ s) (f : Posted → Bool) : Keeps s₀ (s.removePosted f) :=
  keeps_foldl (fun _ p hs => keeps_failPosted hs p) _ (h.decoded (bounded_posted rfl (List.filter_sublist.map _)))

theorem keeps_markPosted {s₀ s : State} (h : Keeps s₀ s) (ref : EntryRef) : Keeps s₀ (s.markPosted ref) := by
  refine h.decoded (bounded_posted rfl ?_)
  dsimp only
  rw [List.map_map]
  refine (List.map_congr_left fun x _ => ?_) ▸ List.Sublist.refl _
  simp only [Function.comp_apply]
  split <;> rfl

/-! ## The arbiter -/

theorem keeps_grant {s₀ s : State} (h : Keeps s₀ s) : Keeps s₀ s.grant := by
  unfold State.grant
  split
  · exact keeps_send h.same _
  · split
    · exact keeps_send h.same _
    · split
      · exact keeps_send (keeps_modDeferred h _ _ (by intro _; rfl)) _
      · split
        · exact keeps_send (keeps_modDeferred h _ _ (by intro _; rfl)) _
        · split
          · exact keeps_send (keeps_modPosted h _ _ (by intro _; rfl)) _
          · split
            · exact keeps_send h _
            · exact h

theorem keeps_grantIfIdle {s₀ s : State} (h : Keeps s₀ s) : Keeps s₀ s.grantIfIdle := by
  unfold State.grantIfIdle
  split
  · exact keeps_grant h
  · exact h

theorem keeps_settle {s₀ before s : State} (h : Keeps s₀ s) : Keeps s₀ (before.settle s) :=
  keeps_finish (keeps_grantIfIdle h)

theorem keeps_clearStrikes {s₀ s : State} (h : Keeps s₀ s) (ref : EntryRef) : Keeps s₀ (s.clearStrikes ref) :=
  keeps_withdraw (keeps_modEntry h _ _) _

theorem keeps_answeredThere {s₀ s : State} (h : Keeps s₀ s) (ref : EntryRef) : Keeps s₀ (s.answeredThere ref) :=
  keeps_clearStrikes (keeps_modEntry h _ _) _

/-! ## Stages of a bring-up -/

/-- The bring-up in progress changed, its position kept. -/
theorem keeps_modBringUp {s₀ s : State} (h : Keeps s₀ s) (f : BringUp → BringUp) (hf : ∀ b, (f b).pos = b.pos) :
    Keeps s₀ (s.modBringUp f) := by
  refine h.step rfl id id (fun _ => ?_) id id
  rw [chain_of (s := s) (t := s.modBringUp f) (by intro _; rfl) (by intro _; rfl) (by intro _; rfl) (by intro _; rfl) (by
    unfold State.modBringUp
    cases s.det.bringUp with
    | none => rfl
    | some b => simp [hf]) rfl]
  exact id

/-- The position of the bring-up in progress is in bring-up, in an act that began under the chain law. -/
theorem Keeps.bringUp_pos {s₀ s : State} (h : Keeps s₀ s) {b : BringUp} (hb : s.det.bringUp = some b) :
    s₀.chainLaw = true → (s.pos b.pos).state.inBringUp = true := fun h₀ => (chain_iff.1 (h.chain h₀)).2.2.2.1 b hb

theorem live_of_inBringUp {st : PosState} (h : st.inBringUp = true) : st.live = true := by cases st <;> simp_all [PosState.inBringUp, PosState.live]
theorem not_ready_of_inBringUp {st : PosState} (h : st.inBringUp = true) : st.ready = false := by
  cases st <;> simp_all [PosState.inBringUp, PosState.ready]

/-- A position in bring-up goes to another stage of it. -/
theorem keeps_stage {s₀ s : State} (h : Keeps s₀ s) (p : Pos) (st : PosState) (hst : st.inBringUp = true)
    (hp : s₀.chainLaw = true → (s.pos p).state.inBringUp = true) : Keeps s₀ (s.modPos p (PosRec.stage st)) := by
  refine h.step rfl id id (fun h₀ => ?_) id id
  have key : ∀ q, ((s.modPos p (PosRec.stage st)).pos q).state.inBringUp = (s.pos q).state.inBringUp ∧
      (s.modPos p (PosRec.stage st)).live q = s.live q ∧ (s.modPos p (PosRec.stage st)).ready q = s.ready q := by
    intro q
    unfold State.live State.ready
    rw [State.pos_modPos]
    split
    · rename_i e; subst e
      have hp' := hp h₀
      simp only [PosRec.stage]
      rw [hst, hp', live_of_inBringUp hst, live_of_inBringUp hp', not_ready_of_inBringUp hst,
        not_ready_of_inBringUp hp']
      exact ⟨rfl, rfl, rfl⟩
    · exact ⟨rfl, rfl, rfl⟩
  rw [chain_of (fun q => (key q).2.1) (fun q => (key q).2.2) (fun q => (key q).1) (fun _ => rfl) rfl rfl]
  exact id

theorem live_stage (s : State) (p : Pos) (st : PosState) (hst : st.inBringUp = true) :
    (s.modPos p (PosRec.stage st)).live p = true := by
  unfold State.live
  rw [State.pos_modPos, if_pos rfl]
  exact live_of_inBringUp hst

theorem keeps_enterMeasuring {s₀ s : State} (h : Keeps s₀ s) (p : Pos)
    (hp : s₀.chainLaw = true → (s.pos p).state.inBringUp = true) : Keeps s₀ (s.enterMeasuring p) :=
  keeps_measure p _ (keeps_stage h p .measuring rfl hp) fun _ => live_stage s p .measuring rfl

theorem keeps_bindSlot {s₀ s : State} (h : Keeps s₀ s) (p : Pos) (x : EntryRef × Nat) : Keeps s₀ (State.bindSlot p s x) := by
  unfold State.bindSlot
  split
  · exact h
  · split
    · exact h
    · split
      · exact keeps_modSlot h _ _ _
      · exact keeps_raiseAll (keeps_addReason h _ _) _

theorem inBringUp_addReason (s : State) (p q : Pos) (x : Reason) :
    ((s.addReason p x).pos q).state.inBringUp = (s.pos q).state.inBringUp := by
  unfold State.addReason
  rw [State.pos_modPos]
  split
  · rename_i e; subst e; exact follow_inBringUp ..
  · rfl

theorem setEntry_positions (s : State) (ref : EntryRef) (e : Option Entry) :
    (s.setEntry ref e).map.positions = s.map.positions := by cases ref <;> rfl
theorem modEntry_positions (s : State) (ref : EntryRef) (f : Entry → Entry) :
    (s.modEntry ref f).map.positions = s.map.positions := by
  unfold State.modEntry
  split
  · exact setEntry_positions ..
  · rfl
theorem pos_of_positions {s t : State} (h : t.map.positions = s.map.positions) (p : Pos) : t.pos p = s.pos p := by
  simp [State.pos, h]

theorem inBringUp_bindSlot (s : State) (p q : Pos) (x : EntryRef × Nat) :
    ((State.bindSlot p s x).pos q).state.inBringUp = (s.pos q).state.inBringUp := by
  unfold State.bindSlot
  split
  · rfl
  · split
    · rfl
    · split
      · rw [State.modSlot, pos_of_positions (modEntry_positions ..)]
      · exact inBringUp_addReason ..

theorem keeps_bindAll {s₀ s : State} (h : Keeps s₀ s) (p : Pos) : Keeps s₀ (s.bindAll p) :=
  keeps_foldl (fun _ x hs => keeps_bindSlot hs p x) _ h

theorem inBringUp_bindAll (s : State) (p q : Pos) :
    ((s.bindAll p).pos q).state.inBringUp = (s.pos q).state.inBringUp :=
  foldl_keep (fun t => (t.pos q).state.inBringUp) (fun s x => inBringUp_bindSlot s p q x) _ s

theorem keeps_endEnumerating {s₀ s : State} (h : Keeps s₀ s) (b : BringUp)
    (hp : s₀.chainLaw = true → (s.pos b.pos).state.inBringUp = true) : Keeps s₀ (s.endEnumerating b) := by
  unfold State.endEnumerating
  refine keeps_enterMeasuring (keeps_modPos (keeps_bindAll h _) _ (by intro _; rfl)) _ fun h₀ => ?_
  rw [State.pos_modPos, if_pos rfl]
  dsimp only
  rw [inBringUp_bindAll]
  exact hp h₀

theorem keeps_bringUpNext {s₀ s : State} (h : Keeps s₀ s) : Keeps s₀ s.bringUpNext := by
  unfold State.bringUpNext
  split
  · exact h
  · rename_i b hb
    split
    · exact keeps_claim2 h.same _
    · split
      · exact keeps_claim2 (keeps_modBringUp h _ (by intro _; rfl)) _
      · exact keeps_endEnumerating h b (h.bringUp_pos hb)

theorem keeps_enterEnumerating {s₀ s : State} (h : Keeps s₀ s) (p : Pos)
    (hp : s₀.chainLaw = true → (s.pos p).state.inBringUp = true) : Keeps s₀ (s.enterEnumerating p) := by
  unfold State.enterEnumerating
  exact keeps_bringUpNext (Keeps.same (s := s.modPos p (PosRec.stage .enumerating)) (keeps_stage h p _ rfl hp))

theorem keeps_tryEndPowering {s₀ s : State} (h : Keeps s₀ s) : Keeps s₀ s.tryEndPowering := by
  unfold State.tryEndPowering
  split
  · exact h
  · rename_i b hb
    split
    · exact keeps_enterEnumerating h _ (h.bringUp_pos hb)
    · exact h

theorem keeps_bringUpReason {s₀ s : State} (h : Keeps s₀ s) (x : Reason) : Keeps s₀ (s.bringUpReason x) := by
  unfold State.bringUpReason
  split
  · exact keeps_addReason h _ _
  · exact h

theorem keeps_notEntered {s₀ s : State} (h : Keeps s₀ s) : Keeps s₀ s.notEntered :=
  keeps_raiseAll (keeps_bringUpReason h _) _

/-! ## The search and its placements -/

theorem keeps_watchRestarted {s₀ s : State} (h : Keeps s₀ s) (ref : EntryRef) : Keeps s₀ (s.watchRestarted ref) := by
  unfold State.watchRestarted
  split
  · exact keeps_mapWatch h _ _
  · exact h

theorem keeps_restarted {s₀ s : State} (h : Keeps s₀ s) (ref : EntryRef) (b : Bool) : Keeps s₀ (s.restarted ref b) := by
  have h1 := keeps_watchRestarted (keeps_modEntry (keeps_clearStrikes h ref) ref (Entry.restart ref)) ref
  unfold State.restarted
  dsimp only
  split
  · split
    · exact keeps_bringUpNext h1
    · exact h1
  · exact keeps_claim2 h1 _

theorem keeps_foundSingle {s₀ s : State} (h : Keeps s₀ s) (id : Word32) : Keeps s₀ (s.foundSingle id) := by
  unfold State.foundSingle
  split
  · exact keeps_bringUpNext (keeps_bringUpReason h _)
  · split
    · split
      · exact keeps_restarted h _ _
      · exact keeps_claim2 h _
    · split
      · exact keeps_claim2 h _
      · exact keeps_bringUpNext (keeps_notEntered h)

theorem keeps_foundHead {s₀ s : State} (h : Keeps s₀ s) (id : Word32) (run : Nat) : Keeps s₀ (s.foundHead id run) := by
  unfold State.foundHead
  split
  · exact keeps_bringUpNext (keeps_bringUpReason h _)
  · split
    · exact keeps_restarted h _ _
    · split
      · exact keeps_claim2 h _
      · exact keeps_bringUpNext (keeps_notEntered h)

theorem keeps_found {s₀ s : State} (h : Keeps s₀ s) (id : Word32) (run : Nat) : Keeps s₀ (s.found id run) := by
  unfold State.found
  split
  · exact keeps_foundSingle h _
  · exact keeps_foundHead h _ _

theorem keeps_splitItem {s₀ s : State} (h : Keeps s₀ s) (bits : Word32) (len : Nat) : Keeps s₀ (s.splitItem bits len) := by
  unfold State.splitItem
  split
  · exact keeps_bringUpNext h.same
  · exact keeps_bringUpNext (keeps_bringUpReason h _)

theorem keeps_clearUsed {s₀ s : State} (h : Keeps s₀ s) (ref : EntryRef) : Keeps s₀ (s.clearUsed ref) := by
  unfold State.clearUsed
  cases ref <;> exact h.same

theorem keeps_join {s₀ s : State} (h : Keeps s₀ s) (p : Pos) (ref : EntryRef) : Keeps s₀ (s.modPos p (PosRec.join ref)) :=
  keeps_modPos h p fun _ => by cases ref <;> rfl
theorem keeps_leave {s₀ s : State} (h : Keeps s₀ s) (p : Pos) (ref : EntryRef) :
    Keeps s₀ (s.modPos p (PosRec.leave ref)) := keeps_modPos h p fun _ => by cases ref <;> rfl

theorem keeps_dropSingle {s₀ s : State} (h : Keeps s₀ s) (p : Pos) (i : Option SingleId) :
    Keeps s₀ (s.dropSingle p i) := by
  unfold State.dropSingle
  split
  · exact keeps_leave (keeps_setEntry h _ _) _ _
  · exact h

theorem keeps_makePlacement {s₀ s : State} (h : Keeps s₀ s) (p : Pos) (t : Tentative) :
    Keeps s₀ (s.makePlacement p t) := by
  have key : ∀ x, Keeps s₀ x → Keeps s₀
      (if (t.entryFor p (x.entry t.ref)).locked then
        (((x.setEntry t.ref (some (t.entryFor p (x.entry t.ref)))).modPos p (PosRec.join t.ref)).dropSingle p
          t.fromSingle).addReason p .quarantine
      else ((x.setEntry t.ref (some (t.entryFor p (x.entry t.ref)))).modPos p (PosRec.join t.ref)).dropSingle p
        t.fromSingle) := by
    intro x hx
    have h1 := keeps_dropSingle (keeps_join (keeps_setEntry hx t.ref (some (t.entryFor p (x.entry t.ref)))) p t.ref) p
      t.fromSingle
    split
    · exact keeps_addReason h1 _ _
    · exact h1
  unfold State.makePlacement
  dsimp only
  split
  · exact key _ (keeps_clearUsed h _)
  · exact key _ h

theorem keeps_placeOutcome {s₀ s : State} (h : Keeps s₀ s) (t : Tentative) (ack : Bool) :
    Keeps s₀ (s.placeOutcome t ack) := by
  unfold State.placeOutcome
  split
  · exact h
  · split
    · exact keeps_bringUpNext (keeps_makePlacement h _ _)
    · dsimp only
      split
      · exact keeps_bringUpNext (keeps_modEntry (keeps_addReason h _ _) _ _)
      · exact keeps_bringUpNext (keeps_addReason h _ _)

/-! ## Descriptions -/

theorem keeps_endDescription {s₀ s : State} (h : Keeps s₀ s) (ref : EntryRef) : Keeps s₀ (s.endDescription ref) :=
  keeps_bringUpNext (keeps_modBringUp h _ (by intro _; rfl))

theorem keeps_failDescription {s₀ s : State} (h : Keeps s₀ s) (ref : EntryRef) : Keeps s₀ (s.failDescription ref) := by
  unfold State.failDescription
  split
  · exact keeps_endDescription (keeps_modEntry h _ _) _
  · split
    · exact keeps_claim2 (keeps_modBringUp (keeps_leave (keeps_setEntry h _ _) _ _) _ (by intro _; rfl)) _
    · exact h

theorem keeps_provedHead {s₀ s : State} (h : Keeps s₀ s) (i : SingleId) (run : Nat) : Keeps s₀ (s.provedHead i run) := by
  have h1 : Keeps s₀ (s.modBringUp fun b => { b with desc := none, described := .single i :: b.described }) :=
    keeps_modBringUp h _ fun _ => rfl
  unfold State.provedHead
  dsimp only
  split
  · exact keeps_claim2 h1 _
  · exact keeps_claim2 (keeps_notEntered h1) _

theorem keeps_releaseSingleOutcome {s₀ s : State} (h : Keeps s₀ s) (i : SingleId) (ack : Bool) :
    Keeps s₀ (s.releaseSingleOutcome i ack) := by
  unfold State.releaseSingleOutcome
  split
  · exact h
  · split
    · exact keeps_bringUpNext (keeps_dropSingle h _ _)
    · exact keeps_bringUpNext (keeps_addReason (keeps_modEntry h _ _) _ _)

theorem keeps_releaseGroupOutcome {s₀ s : State} (h : Keeps s₀ s) (ack : Bool) : Keeps s₀ (s.releaseGroupOutcome ack) := by
  unfold State.releaseGroupOutcome
  split
  · exact keeps_bringUpNext h
  · exact keeps_bringUpNext (keeps_bringUpReason h _)

theorem keepIdent_pos (ref : EntryRef) (p0 : Page0) (ident : List Byte) (b : BringUp) :
    (keepIdent ref p0 ident b).pos = b.pos := by
  unfold keepIdent
  cases ref
  · dsimp only; split <;> rfl
  · rfl

theorem keeps_finishDescription {s₀ s : State} (h : Keeps s₀ s) (d : Description) (p0 : Page0) :
    Keeps s₀ (s.finishDescription d p0) :=
  keeps_endDescription (keeps_modBringUp (keeps_modEntry h _ _) _ fun b => keepIdent_pos _ _ _ b) _

theorem keeps_descriptionNext {s₀ s : State} (h : Keeps s₀ s) (d : Description) (p0 : Page0) (k : Nat) :
    Keeps s₀ (s.descriptionNext d p0 k) := by
  unfold State.descriptionNext
  split
  · exact keeps_claim2 (keeps_modBringUp h _ (by intro _; rfl)) _
  · exact keeps_finishDescription h _ _

theorem keeps_takePage0 {s₀ s : State} (h : Keeps s₀ s) (d : Description) (page : List Byte) :
    Keeps s₀ (s.takePage0 d page) := by
  unfold State.takePage0
  split
  · exact keeps_failDescription h _
  · dsimp only
    split
    · split
      · exact keeps_descriptionNext h _ _ _
      · exact keeps_provedHead h _ _
    · split
      · exact keeps_descriptionNext h _ _ _
      · exact keeps_failDescription h _

theorem keeps_takeLaterPage {s₀ s : State} (h : Keeps s₀ s) (d : Description) (p0 : Page0) (k : Nat) (page : List Byte) :
    Keeps s₀ (s.takeLaterPage d p0 k page) := by
  unfold State.takeLaterPage
  split
  · split
    · exact keeps_failDescription h _
    · exact keeps_descriptionNext h _ _ _
  · exact keeps_descriptionNext h _ _ _

theorem keeps_takePage {s₀ s : State} (h : Keeps s₀ s) (k : Nat) (page : List Byte) : Keeps s₀ (s.takePage k page) := by
  unfold State.takePage
  split
  · exact h
  · split
    · exact keeps_takePage0 h _ _
    · exact keeps_takeLaterPage h _ _ _ _

/-! ## Fresh values -/

theorem keeps_report {s₀ s : State} (h : Keeps s₀ s) (ref : EntryRef) (k : Nat) : Keeps s₀ (s.report ref k) := by
  unfold State.report
  split
  · exact h
  · dsimp only
    split
    · exact keeps_modSlot h _ _ _
    · exact Keeps.same (keeps_modSlot h ref k _)

theorem keeps_compareWatch {s₀ s : State} (h : Keeps s₀ s) (ref : EntryRef) (k : Nat) :
    Keeps s₀ (s.compareWatch ref k) := by
  unfold State.compareWatch
  split
  · exact h
  · split
    · exact keeps_raiseFor (keeps_modSlot (keeps_report h _ _) _ _ _) _ _
    · exact h

theorem keeps_dropChanged {s₀ s : State} (h : Keeps s₀ s) (ref : EntryRef) (k : Nat) (r : Option Role) :
    Keeps s₀ (s.dropChanged ref k r) := by
  unfold State.dropChanged
  split
  · exact keeps_modSlot h _ _ _
  · exact h

theorem keeps_freshValue {s₀ s : State} (h : Keeps s₀ s) (ref : EntryRef) (k : Nat) (vs : List Word16) :
    Keeps s₀ (s.freshValue ref k vs) := by
  have h1 := keeps_compareWatch (keeps_modSlot h ref k (Slot.take vs)) ref k
  unfold State.freshValue
  dsimp only
  split
  · exact h1
  · exact keeps_foldl (fun _ d hs => keeps_dropChanged (keeps_complete hs d _ _) _ _ _) _ h1

/-! ## Lock-out, release, strikes -/

theorem keeps_stopPolls {s₀ s : State} (h : Keeps s₀ s) (c : Option Pos) : Keeps s₀ (s.stopPolls c) := by
  unfold State.stopPolls
  split
  · exact keeps_setPoll h _ _
  · exact h

theorem keeps_lockedWork {s₀ s : State} (h : Keeps s₀ s) (ref : EntryRef) :
    Keeps s₀ ((s.removePosted fun p => p.carried.isNone && s.bound p.number ref).markPosted ref) :=
  keeps_markPosted (keeps_removePosted h _) ref

theorem keeps_lockOut {s₀ s : State} (h : Keeps s₀ s) (ref : EntryRef) : Keeps s₀ (s.lockOut ref) := by
  unfold State.lockOut
  split
  · exact h
  · rename_i e _
    have h1 := keeps_lockedWork (keeps_completeWhere (keeps_stopPolls (keeps_withdraw (keeps_raiseAll
      (keeps_addReason (keeps_setEntry h ref (some e.lockOut)) e.pos .quarantine) .nodeQuarantined)
        (Txn.toward ref (s.chainOf ref))) (s.chainOf ref)) (fun d => !d.inFlight &&
          State.bound (State.stopPolls (State.withdraw (((s.setEntry ref (some e.lockOut)).addReason e.pos
            .quarantine).raiseAll .nodeQuarantined) (Txn.toward ref (s.chainOf ref))) (s.chainOf ref)) d.number ref)
              .noReply) ref
    dsimp only
    split
    · exact keeps_bringUpNext h1
    · exact h1

theorem keeps_releaseEntry {s₀ s : State} (h : Keeps s₀ s) (ref : EntryRef) : Keeps s₀ (s.releaseEntry ref) := by
  unfold State.releaseEntry
  split
  · exact h
  · dsimp only
    split
    · split
      · exact keeps_claim2 (keeps_setEntry h _ _) _
      · exact keeps_dropReason (keeps_claim2 (keeps_setEntry h _ _) _) _ _
    · exact keeps_setEntry h _ _

theorem keeps_strike {s₀ s : State} (h : Keeps s₀ s) (ref : EntryRef) : Keeps s₀ (s.strike ref) := by
  unfold State.strike
  split
  · exact h
  · rename_i e _
    have h1 := keeps_setEntry h ref (some { e with strikes := min 3 (e.strikes + 1) })
    dsimp only
    split
    · exact h1
    · split
      · exact keeps_claim2 h1 _
      · split
        · exact keeps_lockOut h1 _
        · exact h1

/-! ## Outcomes -/

theorem keeps_closeOutcome {s₀ s : State} (h : Keeps s₀ s) (p : Pos) (ack : Bool) : Keeps s₀ (s.closeOutcome p ack) := by
  unfold State.closeOutcome
  dsimp only
  split
  · exact keeps_dropReason (keeps_mapWatch h _ _) _ _
  · exact keeps_addReason (keeps_mapWatch h _ _) _ _

theorem keeps_applyOutcome {s₀ s : State} (h : Keeps s₀ s) (t : Txn) (heard : Bool) (o : BusOutcome) :
    Keeps s₀ (s.applyOutcome t heard o) := by
  unfold State.applyOutcome
  split
  · unfold State.searchOutcome
    split
    · exact keeps_found h _ _
    · exact keeps_splitItem h _ _
    · exact keeps_bringUpNext h
  · exact keeps_placeOutcome h _ _
  · unfold State.describeOutcome
    split
    · exact keeps_takePage (keeps_answeredThere h _) _ _
    · exact keeps_failDescription (keeps_strike h _) _
    · exact keeps_failDescription (keeps_strike h _) _
  · exact keeps_releaseGroupOutcome h _
  · exact keeps_releaseSingleOutcome h _ _
  · unfold State.rediscoverOutcome
    split
    · exact keeps_restarted h _ _
    · exact h
    · exact h
  · rename_i ref b
    have key : ∀ x, Keeps s₀ x → Keeps s₀ (if b then x.bringUpNext else x) := by
      intro x hx; split
      · exact keeps_bringUpNext hx
      · exact hx
    have kc : ∀ x, Keeps s₀ x → Keeps s₀ (x.closeAfterRestart ref) := by
      intro x hx; unfold State.closeAfterRestart; split
      · split
        · exact hx
        · exact keeps_claim1 hx _
      · exact hx
    unfold State.reassignOutcome
    dsimp only
    refine key _ ?_
    split
    · exact kc _ (keeps_answeredThere h _)
    · exact keeps_clearStrikes h _
    · exact keeps_strike h _
  · unfold State.segmentOutcome
    split
    · exact h
    · split
      · exact keeps_closeOutcome (keeps_answeredThere h _) _ _
      · exact keeps_closeOutcome (keeps_answeredThere h _) _ _
      · exact keeps_closeOutcome (keeps_strike h _) _ _
  · unfold State.readOutcome
    split
    · exact keeps_freshValue (keeps_answeredThere h _) _ _ _
    · exact keeps_completeFor (keeps_strike h _) _ _ _
    · exact keeps_completeFor (keeps_strike h _) _ _ _
  · rename_i ref k v owner
    have kh : ∀ x, Keeps s₀ x → Keeps s₀ (if heard then x.writeHeard owner v o.answer else x) := by
      intro x hx
      split
      · unfold State.writeHeard
        split
        · split <;> exact keeps_completeFor hx _ _ _
        · exact keeps_settlePosted hx _ _
      · exact hx
    have kc : ∀ x, Keeps s₀ x → Keeps s₀ (x.writeCache ref k v) := by
      intro x hx
      unfold State.writeCache
      split
      · exact hx
      · split
        · exact keeps_freshValue hx _ _ _
        · exact hx
    unfold State.writeOutcome
    dsimp only
    refine kh _ ?_
    split
    · exact kc _ (keeps_answeredThere h _)
    · exact keeps_answeredThere h _
    · exact keeps_strike h _
  all_goals exact h

end Sys2Proof.Machine
end

