-- ==== Sys2Proof/Laws/KeepsCoupling.lean ====
section
/-! SUPPORT. The operations of Machine/Coupling keep the laws of the part (Laws/Keeps.lean): detection, confirmation,
teardown of positions, poll reports, and the end of a transaction. -/

namespace Sys2Proof.Machine

/-! ## Detection -/

theorem keeps_startDebounce {s₀ s : State} (h : Keeps s₀ s) (c : Profile) (n : Nat) : Keeps s₀ (s.startDebounce c n) :=
  h.same
theorem keeps_stopDebounce {s₀ s : State} (h : Keeps s₀ s) : Keeps s₀ s.stopDebounce := h.same

theorem keeps_codeChange {s₀ s : State} (h : Keeps s₀ s) (e : Profile) : Keeps s₀ (s.codeChange e) := by
  have h1 : Keeps s₀ { s with det := { s.det with effective := e } } := h.same
  unfold State.codeChange
  dsimp only
  split
  · split
    · exact keeps_stopDebounce h1
    · split
      · exact keeps_startDebounce h1 _ _
      · exact keeps_startDebounce h1 _ _
  · split
    · exact keeps_stopDebounce h1
    · exact keeps_startDebounce h1 _ _

theorem keeps_restartDetection {s₀ s : State} (h : Keeps s₀ s) : Keeps s₀ s.restartDetection := keeps_codeChange h _

theorem keeps_abandonRelearn {s₀ s : State} (h : Keeps s₀ s) : Keeps s₀ s.abandonRelearn := by
  unfold State.abandonRelearn
  split
  · exact h
  · rename_i x _
    exact Keeps.same (s := (s.dropProbe x.pos).modPos x.pos PosRec.dropShadow)
      (keeps_modPos (keeps_dropProbe h _) _)

/-! ## Confirmations -/

/-- A bring-up begins at a position that is not live and whose front position, if it has one, is ready. -/
theorem keeps_beginBringUp {s₀ s : State} (h : Keeps s₀ s) (p : Pos) (hp : s₀.chainLaw = true → s.live p = false)
    (hf : s₀.chainLaw = true → ∀ f, posFront p = some f → s.ready f = true) : Keeps s₀ (s.beginBringUp p) := by
  refine h.step rfl id id (fun h₀ => ?_) id id
  have hpos : ∀ q, (s.beginBringUp p).pos q =
      if p = q then (s.pos p).couple else s.pos q := fun q => State.pos_modPos s p q _
  have hl : ∀ q, (s.beginBringUp p).live q = (decide (p = q) || s.live q) := by
    intro q
    unfold State.live
    rw [hpos]
    split <;> simp_all [PosState.live, PosRec.couple]
  have hr : ∀ q, (s.beginBringUp p).ready q = (!decide (p = q) && s.ready q) := by
    intro q
    unfold State.ready
    rw [hpos]
    split <;> simp_all [PosState.ready, PosRec.couple]
  have lr : ∀ q, s.ready q = true → s.live q = true := by
    intro q
    unfold State.ready State.live
    cases (s.pos q).state <;> simp [PosState.ready, PosState.live]
  have hp' := hp h₀
  have hf' := hf h₀
  rw [chain_iff, chain_iff]
  rintro ⟨a, b, c, -, e⟩
  have hne : ∀ q, s.ready q = true → p ≠ q := by
    rintro q hq rfl
    rw [lr p hq] at hp'
    cases hp'
  have h2 : s.live .p1 = false → s.live .p2 = false := fun x => by
    cases y : s.live .p2
    · rfl
    · rw [lr _ (a y)] at x; cases x
  have h3 : s.live .p2 = false → s.live .p3 = false := fun x => by
    cases y : s.live .p3
    · rfl
    · rw [lr _ (b y)] at x; cases x
  refine ⟨?_, ?_, fun q hq => ?_, fun x hx => ?_, fun q hq => ?_⟩
  · rw [hl, hr]
    cases p <;> simp_all [posFront]
  · rw [hl, hr]
    cases p <;> simp_all [posFront]
  · rw [hr]
    have := c q hq
    simp [hne q this, this]
  · change some ({ pos := p } : BringUp) = some x at hx
    cases hx
    rw [hpos, if_pos rfl]
    rfl
  · rw [hl]
    simp [e q hq]

theorem keeps_connectChan {s₀ s : State} (h : Keeps s₀ s) (c : ChanId) : Keeps s₀ (s.connectChan c) := by
  unfold State.connectChan
  split
  · exact keeps_putChan h c fun hc => Channel.lawful_connect hc _
  · exact h

theorem keeps_connect {s₀ s : State} (h : Keeps s₀ s) (p : Profile) : Keeps s₀ (s.connect p) :=
  keeps_foldl (fun _ c hs => keeps_connectChan hs c) _ h.same

theorem keeps_skipStages {s₀ s : State} (h : Keeps s₀ s) (p : Pos)
    (hp : s₀.chainLaw = true → (s.pos p).state.inBringUp = true) : Keeps s₀ (s.skipStages p) := by
  unfold State.skipStages
  split
  · exact h
  · split
    · exact keeps_enterEnumerating h p hp
    · exact keeps_enterMeasuring h p hp

theorem keeps_claimBroadcasts {s₀ s : State} (h : Keeps s₀ s) : Keeps s₀ s.claimBroadcasts := by
  unfold State.claimBroadcasts
  split
  · exact keeps_claim2 (keeps_modBringUp h _ (by intro _; rfl)) _
  · exact h

theorem putChan_map (s : State) (c : ChanId) (ch : Channel) : (s.putChan c ch).map = s.map := rfl
theorem putChan_probe (s : State) (c : ChanId) (ch : Channel) : (s.putChan c ch).bank.probe = s.bank.probe := rfl

theorem handDemand_map (before s : State) (c : ChanId) : (State.handDemand before s c).map = s.map := by
  unfold State.handDemand; dsimp only; split <;> rfl
theorem connectChan_map (s : State) (c : ChanId) : (s.connectChan c).map = s.map := by
  unfold State.connectChan; split <;> rfl
theorem connectChan_probe (s : State) (c : ChanId) : (s.connectChan c).bank.probe = s.bank.probe := by
  unfold State.connectChan; split <;> rfl

/-- Without a probe request held, forming the demand changes nothing of the Coupling Map. -/
theorem formDemand_map {s : State} (h : s.bank.probe = none) : s.formDemand.map = s.map := by
  have hc : s.probeChan = none := by unfold State.probeChan; rw [h]; rfl
  unfold State.formDemand
  rw [hc]
  exact foldl_keep (·.map) (fun x c => handDemand_map s x c) allChans s.stepFlashers

theorem claimBroadcasts_map (s : State) : s.claimBroadcasts.map = s.map := by
  unfold State.claimBroadcasts; split <;> rfl

/-- Where position 1 is not live, no probe request is held. -/
theorem probe_of_absent {s : State} (hc : s.chainLaw = true) (h1 : s.live .p1 = false) : s.bank.probe = none := by
  have lr : ∀ q, s.ready q = true → s.live q = true := by
    intro q
    unfold State.ready State.live
    cases (s.pos q).state <;> simp [PosState.ready, PosState.live]
  obtain ⟨a, b, -, -, e⟩ := chain_iff.1 hc
  cases hq : s.bank.probe with
  | none => rfl
  | some q =>
    have hl := e q hq
    have h2 : s.live .p2 = true → False := fun x => by have := lr _ (a x); rw [h1] at this; cases this
    have h3 : s.live .p3 = true → False := fun x => h2 (lr _ (b x))
    cases hp : q.pos <;> rw [hp] at hl
    · rw [h1] at hl; cases hl
    · exact (h2 hl).elim
    · exact (h3 hl).elim

theorem keeps_confirmFirst {s₀ s : State} (h : Keeps s₀ s) (p : Profile)
    (hp : s₀.chainLaw = true → s.live .p1 = false) : Keeps s₀ (s.confirmFirst p) := by
  have hcm : (s.connect p).map = s.map := foldl_keep (·.map) (fun x c => connectChan_map x c) _ _
  have hcp : (s.connect p).bank.probe = s.bank.probe := foldl_keep (·.bank.probe) (fun x c => connectChan_probe x c) _ _
  have h1 : Keeps s₀ ((s.connect p).beginBringUp .p1) :=
    keeps_beginBringUp (keeps_connect h p) .p1
      (fun h₀ => by rw [live_of_map (s := s) (by rw [hcm])]; exact hp h₀) (fun _ f hf => by cases hf)
  unfold State.confirmFirst
  refine keeps_skipStages (keeps_claimBroadcasts (keeps_raiseAll (keeps_setCoupling h1 true) _)) .p1 fun h₀ => ?_
  have hn : s.bank.probe = none := probe_of_absent (h.chain h₀) (hp h₀)
  have hm : (State.setCoupling ((s.connect p).beginBringUp .p1) true).map = ((s.connect p).beginBringUp .p1).map :=
    formDemand_map (hcp.trans hn)
  rw [State.pos_of_map (claimBroadcasts_map _), State.raiseAll, State.pos_of_map (State.raiseFor_map ..),
    State.pos_of_map hm]
  rw [show ((s.connect p).beginBringUp .p1).pos .p1 = ((s.connect p).modPos .p1 PosRec.couple).pos .p1 from rfl,
    State.pos_modPos, if_pos rfl]
  rfl

theorem keeps_resetCounts {s₀ s : State} (h : Keeps s₀ s) (p : Pos) : Keeps s₀ (s.resetCounts p) := keeps_mapWatch h _ _

theorem dropProbe_map (s : State) (p : Pos) : (s.dropProbe p).map = s.map := by
  unfold State.dropProbe
  split
  · rfl
  · split
    · dsimp only; split <;> rfl
    · rfl

theorem abandonRelearn_state (s : State) (q : Pos) : (s.abandonRelearn.pos q).state = (s.pos q).state := by
  unfold State.abandonRelearn
  split
  · rfl
  · rename_i x _
    have hm : ∀ r, (s.dropProbe x.pos).pos r = s.pos r := fun r => State.pos_of_map (dropProbe_map ..) r
    refine (congrArg PosRec.state (State.pos_modPos (s.dropProbe x.pos) x.pos q PosRec.dropShadow)).trans ?_
    rw [hm, hm]
    split
    · rename_i e; subst e; rfl
    · rfl

theorem keeps_confirmBehind {s₀ s : State} (h : Keeps s₀ s) (k q : Pos) (hk : posFront q = some k)
    (hq : s₀.chainLaw = true → s.live q = false) (hr : s₀.chainLaw = true → s.ready k = true) :
    Keeps s₀ (s.confirmBehind k q) := by
  refine keeps_resetCounts (keeps_raiseAll (keeps_beginBringUp (keeps_abandonRelearn h) q (fun h₀ => ?_)
    fun h₀ f hf => ?_) _) k
  · unfold State.live; rw [abandonRelearn_state]; exact hq h₀
  · rw [hk] at hf
    cases hf
    unfold State.ready; rw [abandonRelearn_state]; exact hr h₀

/-! ## Teardown -/

/-- Nothing of the Detector's or the Bank's work stands at a position. -/
def State.idleAt (s : State) (p : Pos) : Prop :=
  s.det.watches.get (posIdx p) = none ∧ (∀ b, s.det.bringUp = some b → b.pos ≠ p) ∧
    (∀ q, s.bank.probe = some q → q.pos ≠ p)

theorem idleAt_of {s t : State} {p : Pos} (hd : t.det = s.det) (hb : t.bank = s.bank) (h : s.idleAt p) : t.idleAt p := by
  unfold State.idleAt
  rw [hd, hb]
  exact h

/-- A position with nothing at it and nothing live behind it returns to ABSENT. -/
theorem keeps_torn {s₀ s : State} (h : Keeps s₀ s) (p : Pos) (hi : s₀.chainLaw = true → s.idleAt p)
    (hb : s₀.chainLaw = true → ∀ q, posBehind p = some q → s.live q = false) : Keeps s₀ (s.modPos p PosRec.torn) := by
  refine h.step rfl id id (fun h₀ => ?_) id id
  obtain ⟨i1, i2, i3⟩ := hi h₀
  have hb' := hb h₀
  have hl : ∀ q, (s.modPos p PosRec.torn).live q = (!decide (p = q) && s.live q) := by
    intro q
    unfold State.live
    rw [State.pos_modPos]
    split <;> simp_all [PosRec.torn, PosState.live]
  have hr : ∀ q, (s.modPos p PosRec.torn).ready q = (!decide (p = q) && s.ready q) := by
    intro q
    unfold State.ready
    rw [State.pos_modPos]
    split <;> simp_all [PosRec.torn, PosState.ready]
  rw [chain_iff, chain_iff]
  rintro ⟨a, b, c, d, e⟩
  refine ⟨?_, ?_, fun q hq => ?_, fun x hx => ?_, fun q hq => ?_⟩
  · rw [hl, hr]
    cases p <;> simp_all [posBehind]
  · rw [hl, hr]
    cases p <;> simp_all [posBehind]
  · rw [hr]
    have hne : p ≠ q := by
      rintro rfl
      rw [State.modPos_det, i1] at hq
      cases hq
    simp [hne, c q hq]
  · rw [State.pos_modPos, if_neg (Ne.symm (i2 x hx))]
    exact d x hx
  · rw [hl]
    simp [Ne.symm (i3 q hq), e q hq]

theorem keeps_endBringUp {s₀ s : State} (h : Keeps s₀ s) (p : Pos) : Keeps s₀ (s.endBringUp p) := by
  unfold State.endBringUp
  split
  · exact Keeps.same (s := { s with det := { s.det with bringUp := none } }) (keeps_endOfBringUp h)
  · exact h

theorem keeps_endRelearn {s₀ s : State} (h : Keeps s₀ s) (p : Pos) : Keeps s₀ (s.endRelearn p) := by
  unfold State.endRelearn
  split
  · exact keeps_abandonRelearn h
  · exact h

theorem keeps_staleEntries {s₀ s : State} (h : Keeps s₀ s) (p : Pos) : Keeps s₀ (s.staleEntries p) :=
  keeps_foldl (fun _ _ hs => keeps_modEntry hs _ _) _ h

/-! What the parts of a teardown leave alone. -/

theorem setLink_keep {β : Type} (g : State → β) (hg : ∀ (s : State) (x : Links), g { s with links := x } = g s) (s : State)
    (l : LinkId) (m : Mlu) : g (s.setLink l m) = g s := by
  cases l <;> exact hg s _
theorem place_keep {β : Type} (g : State → β) (hg : ∀ (s : State) (x : Links), g { s with links := x } = g s) (s : State)
    (l : LinkId) (fs : List TxFrame) : g (s.place l fs) = g s := by
  unfold State.place State.modLink
  split
  · exact setLink_keep g hg s l _
  · rfl
theorem complete_keep {β : Type} (g : State → β) (hg : ∀ (s : State) (x : Links), g { s with links := x } = g s)
    (hd : ∀ (s : State) (x : Decoder), g { s with dec := x } = g s) (s : State) (d : Deferred) (st : Status)
    (c : List Byte) : g (s.complete d st c) = g s := (place_keep g hg _ _ _).trans (hd s _)
theorem failPosted_keep {β : Type} (g : State → β) (hg : ∀ (s : State) (x : Links), g { s with links := x } = g s)
    (s : State) (p : Posted) : g (s.failPosted p) = g s := by
  unfold State.failPosted
  dsimp only
  split
  · exact (hg _ _).trans (hg _ _)
  · exact hg _ _

theorem placeCompletion_keep {β : Type} (g : State → β)
    (hg : ∀ (s : State) (x : Links), g { s with links := x } = g s) (st : Status) (s : State) (d : Deferred) :
    g (s.placeCompletion st d) = g s := place_keep g hg s d.link _

theorem completeWhere_keep {β : Type} (g : State → β) (hg : ∀ (s : State) (x : Links), g { s with links := x } = g s)
    (hd : ∀ (s : State) (x : Decoder), g { s with dec := x } = g s) (s : State) (f : Deferred → Bool) (st : Status) :
    g (s.completeWhere f st) = g s :=
  (foldl_keep g (placeCompletion_keep g hg st) _ _).trans (hd s _)
theorem removePosted_keep {β : Type} (g : State → β) (hg : ∀ (s : State) (x : Links), g { s with links := x } = g s)
    (hd : ∀ (s : State) (x : Decoder), g { s with dec := x } = g s) (s : State) (f : Posted → Bool) :
    g (s.removePosted f) = g s := (foldl_keep g (fun x d => failPosted_keep g hg x d) _ _).trans (hd s _)

/-- The deferred requests a completion leaves, and that it leaves the posted writes. -/
theorem completeWhere_dec (s : State) (f : Deferred → Bool) (st : Status) :
    (s.completeWhere f st).dec = { s.dec with deferred := s.dec.deferred.filter (!f ·) } :=
  foldl_keep (·.dec) (placeCompletion_keep (·.dec) (fun _ _ => rfl) st) _ _

/-- The posted writes a removal leaves, and that it leaves the deferred requests. -/
theorem removePosted_dec (s : State) (f : Posted → Bool) :
    (s.removePosted f).dec = { s.dec with posted := s.dec.posted.filter (!f ·) } :=
  foldl_keep (·.dec) (fun x d => failPosted_keep (·.dec) (fun _ _ => rfl) x d) _ _

theorem modEntry_bank (s : State) (ref : EntryRef) (f : Entry → Entry) : (s.modEntry ref f).bank = s.bank := by
  unfold State.modEntry State.setEntry; cases ref <;> split <;> rfl
theorem modEntry_det (s : State) (ref : EntryRef) (f : Entry → Entry) : (s.modEntry ref f).det = s.det := by
  unfold State.modEntry State.setEntry; cases ref <;> split <;> rfl

theorem staleEntries_positions (s : State) (p : Pos) : (s.staleEntries p).map.positions = s.map.positions :=
  foldl_keep (·.map.positions) (fun _ _ => modEntry_positions ..) _ s
theorem staleEntries_bank (s : State) (p : Pos) : (s.staleEntries p).bank = s.bank :=
  foldl_keep (·.bank) (fun _ _ => modEntry_bank ..) _ s
theorem staleEntries_det (s : State) (p : Pos) : (s.staleEntries p).det = s.det :=
  foldl_keep (·.det) (fun _ _ => modEntry_det ..) _ s

theorem endRelearn_state (s : State) (p q : Pos) : ((s.endRelearn p).pos q).state = (s.pos q).state := by
  unfold State.endRelearn
  split
  · exact abandonRelearn_state s q
  · rfl

theorem endBringUp_map (s : State) (p : Pos) : (s.endBringUp p).map = s.map := by
  unfold State.endBringUp; split <;> rfl

/-- Everything of the teardown of one position up to the record's return to ABSENT. -/
def State.tearDownWork (s : State) (p : Pos) : State :=
  let s := s.discardFlight p
  let s := (s.withdraw (s.txnOf p)).endBringUp p
  let s := (s.endRelearn p).dropProbe p
  let s := (s.setPoll p none).setWatch p none
  let s := s.staleEntries p
  let s := s.completeWhere (fun d => s.boundAt p d.number) .gone
  s.removePosted fun x => s.boundAt p x.number

theorem tearDown_eq (s : State) (p : Pos) : s.tearDown p =
    if s.ready p then (((s.tearDownWork p).modPos p PosRec.torn).formExpected).resetVerdicts (s.affected p)
    else (s.tearDownWork p).modPos p PosRec.torn := rfl

theorem tearDownWork_state (s : State) (p q : Pos) : ((s.tearDownWork p).pos q).state = (s.pos q).state := by
  unfold State.tearDownWork
  dsimp only
  have hg : ∀ (s : State) (x : Links), State.map { s with links := x } = s.map := fun _ _ => rfl
  have hd : ∀ (s : State) (x : Decoder), State.map { s with dec := x } = s.map := fun _ _ => rfl
  rw [State.pos_of_map (removePosted_keep (·.map) hg hd _ _), State.pos_of_map (completeWhere_keep (·.map) hg hd _ _ _),
    pos_of_positions (staleEntries_positions ..)]
  change ((State.dropProbe _ p).pos q).state = _
  rw [State.pos_of_map (dropProbe_map ..), endRelearn_state, State.pos_of_map (endBringUp_map ..)]
  rfl

theorem dropProbe_idle (s : State) (p : Pos) (q : Probe) (hq : (s.dropProbe p).bank.probe = some q) : q.pos ≠ p := by
  unfold State.dropProbe at hq
  split at hq
  · rename_i hn; rw [hn] at hq; cases hq
  · rename_i x hx
    split at hq
    · dsimp only at hq
      split at hq
      · change (none : Option Probe) = some q at hq; cases hq
      · change (none : Option Probe) = some q at hq; cases hq
    · rename_i hne
      rw [hx] at hq; cases hq
      exact hne

theorem dropProbe_bringUpPos (s : State) (p : Pos) : (s.dropProbe p).det.bringUp.map (·.pos) = s.det.bringUp.map (·.pos) := by
  unfold State.dropProbe
  split
  · rfl
  · split
    · dsimp only
      split
      · unfold State.takeDemand State.putChan
        dsimp only
        split
        · simp only [State.setProbe_det]
          cases s.det.bringUp <;> rfl
        · rfl
      · rfl
    · rfl

theorem abandonRelearn_bringUpPos (s : State) : s.abandonRelearn.det.bringUp.map (·.pos) = s.det.bringUp.map (·.pos) := by
  unfold State.abandonRelearn
  split
  · rfl
  · exact dropProbe_bringUpPos ..

theorem endRelearn_bringUpPos (s : State) (p : Pos) :
    (s.endRelearn p).det.bringUp.map (·.pos) = s.det.bringUp.map (·.pos) := by
  unfold State.endRelearn
  split
  · exact abandonRelearn_bringUpPos s
  · rfl

theorem endBringUp_idle (s : State) (p : Pos) (b : BringUp) (hb : (s.endBringUp p).det.bringUp = some b) : b.pos ≠ p := by
  unfold State.endBringUp at hb
  split at hb
  · cases hb
  · rename_i h
    rw [hb] at h
    simpa using h

theorem tearDownWork_idle (s : State) (p : Pos) : (s.tearDownWork p).idleAt p := by
  unfold State.tearDownWork
  dsimp only
  have hg1 : ∀ (s : State) (x : Links), State.det { s with links := x } = s.det := fun _ _ => rfl
  have hd1 : ∀ (s : State) (x : Decoder), State.det { s with dec := x } = s.det := fun _ _ => rfl
  have hg2 : ∀ (s : State) (x : Links), State.bank { s with links := x } = s.bank := fun _ _ => rfl
  have hd2 : ∀ (s : State) (x : Decoder), State.bank { s with dec := x } = s.bank := fun _ _ => rfl
  refine idleAt_of (removePosted_keep (·.det) hg1 hd1 _ _) (removePosted_keep (·.bank) hg2 hd2 _ _) ?_
  refine idleAt_of (completeWhere_keep (·.det) hg1 hd1 _ _ _) (completeWhere_keep (·.bank) hg2 hd2 _ _ _) ?_
  refine idleAt_of (staleEntries_det ..) (staleEntries_bank ..) ?_
  refine ⟨by simp [State.setWatch], fun b hb => ?_, fun q hq => dropProbe_idle _ p q hq⟩
  have key := (dropProbe_bringUpPos (State.endRelearn (State.endBringUp ((s.discardFlight p).withdraw
    ((s.discardFlight p).txnOf p)) p) p) p).trans (endRelearn_bringUpPos _ p)
  have hb' : (State.dropProbe (State.endRelearn (State.endBringUp ((s.discardFlight p).withdraw
    ((s.discardFlight p).txnOf p)) p) p) p).det.bringUp = some b := hb
  rw [hb', Option.map_some] at key
  cases hx : (State.endBringUp ((s.discardFlight p).withdraw ((s.discardFlight p).txnOf p)) p).det.bringUp with
  | none => rw [hx] at key; cases key
  | some x =>
    rw [hx] at key
    rw [Option.some.inj key]
    exact endBringUp_idle _ p x hx

theorem keeps_tearDownWork {s₀ s : State} (h : Keeps s₀ s) (p : Pos) : Keeps s₀ (s.tearDownWork p) := by
  have h1 : Keeps s₀ (s.discardFlight p) := h.same
  have h2 := keeps_dropProbe (keeps_endRelearn (keeps_endBringUp (keeps_withdraw h1 ((s.discardFlight p).txnOf p)) p) p) p
  exact keeps_removePosted (keeps_completeWhere (keeps_staleEntries (keeps_setWatch (w := none) (keeps_setPoll h2 p none) p
    fun _ hn => by cases hn) p) _ _) _

theorem keeps_tearDown {s₀ s : State} (h : Keeps s₀ s) (p : Pos)
    (hb : s₀.chainLaw = true → ∀ q, posBehind p = some q → s.live q = false) : Keeps s₀ (s.tearDown p) := by
  have h1 : Keeps s₀ ((s.tearDownWork p).modPos p PosRec.torn) :=
    keeps_torn (keeps_tearDownWork h p) p (fun _ => tearDownWork_idle s p) fun h₀ q hq => by
      unfold State.live; rw [tearDownWork_state]; exact hb h₀ q hq
  rw [tearDown_eq]
  split
  · exact keeps_resetVerdicts (keeps_formExpected h1) _
  · exact h1

/-- A torn position is ABSENT, and no other position has changed its state. -/
theorem tearDown_state (s : State) (p q : Pos) : ((s.tearDown p).pos q).state = if p = q then .absent else (s.pos q).state := by
  have key : (((s.tearDownWork p).modPos p PosRec.torn).pos q).state = if p = q then .absent else (s.pos q).state := by
    have hw := tearDownWork_state s p q
    generalize s.tearDownWork p = t at hw
    rw [State.pos_modPos]
    split
    · rfl
    · exact hw
  rw [tearDown_eq]
  split
  · rw [State.pos_of_map (resetVerdicts_map ..)]
    generalize (s.tearDownWork p).modPos p PosRec.torn = t at key
    exact key
  · exact key

theorem live_tearDown (s : State) (p q : Pos) : (s.tearDown p).live q = (!decide (p = q) && s.live q) := by
  unfold State.live
  rw [tearDown_state]
  split <;> simp_all [PosState.live]

theorem keeps_tornAll {s₀ s : State} (h : Keeps s₀ s) (k : Pos) :
    Keeps s₀ (((tornFrom k).filter fun p => s.live p).foldl State.tearDown s) := by
  have b3 : ∀ {t : State}, s₀.chainLaw = true → ∀ q, posBehind .p3 = some q → t.live q = false := fun _ q hq => by cases hq
  have b2 : ∀ {t : State}, t.live .p3 = false → s₀.chainLaw = true → ∀ q, posBehind .p2 = some q → t.live q = false :=
    fun h3 _ q hq => by cases hq; exact h3
  have b1 : ∀ {t : State}, t.live .p2 = false → s₀.chainLaw = true → ∀ q, posBehind .p1 = some q → t.live q = false :=
    fun h2 _ q hq => by cases hq; exact h2
  cases k <;> simp only [tornFrom, List.filter_cons, List.filter_nil]
  · cases h3 : s.live .p3 <;> cases h2 : s.live .p2 <;> cases h1 : s.live .p1 <;>
      simp only [Bool.false_eq_true, if_false, if_true, List.foldl_cons, List.foldl_nil]
    · exact h
    · exact keeps_tearDown h _ (b1 h2)
    · exact keeps_tearDown h _ (b2 h3)
    · exact keeps_tearDown (keeps_tearDown h _ (b2 h3)) _ (b1 (by rw [live_tearDown]; rfl))
    · exact keeps_tearDown h _ b3
    · exact keeps_tearDown (keeps_tearDown h _ b3) _ (b1 (by rw [live_tearDown, h2]; rfl))
    · exact keeps_tearDown (keeps_tearDown h _ b3) _ (b2 (by rw [live_tearDown]; rfl))
    · exact keeps_tearDown (keeps_tearDown (keeps_tearDown h _ b3) _ (b2 (by rw [live_tearDown]; rfl))) _
        (b1 (by rw [live_tearDown]; rfl))
  · cases h3 : s.live .p3 <;> cases h2 : s.live .p2 <;>
      simp only [Bool.false_eq_true, if_false, if_true, List.foldl_cons, List.foldl_nil]
    · exact h
    · exact keeps_tearDown h _ (b2 h3)
    · exact keeps_tearDown h _ b3
    · exact keeps_tearDown (keeps_tearDown h _ b3) _ (b2 (by rw [live_tearDown]; rfl))
  · split
    · exact keeps_tearDown h _ b3
    · exact h

theorem keeps_eachChan {s₀ s : State} (h : Keeps s₀ s) (f : Channel → Channel)
    (hf : ∀ ch : Channel, ch.Lawful → (f ch).Lawful) : Keeps s₀ (s.eachChan f) :=
  keeps_foldl (fun _ c hs => keeps_putChan hs c (hf _)) _ h

theorem keeps_disconnect {s₀ s : State} (h : Keeps s₀ s) : Keeps s₀ s.disconnect :=
  keeps_eachChan h.same _ fun _ hc => Channel.lawful_disconnect hc

theorem keeps_endFirst {s₀ s : State} (h : Keeps s₀ s) : Keeps s₀ s.endFirst :=
  keeps_restartDetection (keeps_disconnect (keeps_setCoupling (keeps_eachChan h _ fun _ hc => Channel.lawful_release hc)
    false))

theorem keeps_teardown {s₀ s : State} (h : Keeps s₀ s) (k : Pos) : Keeps s₀ (s.teardown k) := by
  have h1 := keeps_tornAll h k
  unfold State.teardown
  dsimp only
  split
  · exact keeps_raiseAll (keeps_endFirst h1) _
  · exact keeps_raiseAll (keeps_resetCounts h1 _) _

/-! ## Poll reports -/

theorem posFront_posBehind {p q : Pos} (h : posBehind p = some q) : posFront q = some p := by
  cases p <;> cases h <;> rfl

theorem ready_setWatch (s : State) (p q : Pos) (w : Option Watch) : (s.setWatch p w).ready q = s.ready q := rfl
theorem live_setWatch (s : State) (p q : Pos) (w : Option Watch) : (s.setWatch p w).live q = s.live q := rfl

theorem keeps_pollReport {s₀ s : State} (h : Keeps s₀ s) (p : Pos) (present : Bool) : Keeps s₀ (s.pollReport p present) := by
  unfold State.pollReport
  split
  · exact h
  · rename_i w hw
    have hr : s₀.chainLaw = true → s.ready p = true := h.watch_ready (by rw [hw]; rfl)
    have hs : ∀ w', Keeps s₀ (s.setWatch p (some w')) := fun w' => keeps_setWatch h p fun h₀ _ => hr h₀
    split
    · rename_i hb
      have h3 : p = .p3 := by cases p <;> first | rfl | cases hb
      subst h3
      unfold State.reportLast
      split
      · dsimp only
        split
        · exact keeps_raiseAll (hs _) _
        · exact hs _
      · dsimp only
        split
        · exact hs _
        · exact hs _
    · rename_i q hq
      split
      · unfold State.reportLive
        split
        · exact hs _
        · dsimp only
          split
          · exact keeps_teardown (hs _) _
          · exact hs _
      · rename_i hl
        unfold State.reportAbsent
        split
        · dsimp only
          generalize (if w.closed = true then w.present + 1 else 0) = n
          split
          · refine keeps_confirmBehind (hs _) p q (posFront_posBehind hq) (fun _ => ?_) fun h₀ => ?_
            · rw [live_setWatch]; simpa using hl
            · rw [ready_setWatch]; exact hr h₀
          · exact hs _
        · exact hs _

theorem keeps_pollOutcome {s₀ s : State} (h : Keeps s₀ s) (p : Pos) (o : BusOutcome) (af : Bool) :
    Keeps s₀ (s.pollOutcome p o af) := by
  have h1 : Keeps s₀ (s.pollStrikes p o).1 := by
    unfold State.pollStrikes
    split
    · exact h
    · exact keeps_answeredThere h _
    · exact keeps_strike h _
    · exact keeps_strike h _
  unfold State.pollOutcome
  generalize s.pollStrikes p o = r at h1 ⊢
  obtain ⟨t, report⟩ := r
  dsimp only at h1 ⊢
  have h2 : Keeps s₀ (if af then t.grantIfIdle else t) := by
    split
    · exact keeps_grantIfIdle h1
    · exact h1
  split
  · exact keeps_pollReport h2 _ _
  · exact h2

/-! ## The end of a transaction, and Map Rebuild -/

theorem keeps_endFlight {s₀ s : State} (h : Keeps s₀ s) (f : InFlight) (o : BusOutcome) (af : Bool) :
    Keeps s₀ (s.endFlight f o af) := by
  have h1 : Keeps s₀ { s with bus := { s.bus with flight := none } } := h.same
  unfold State.endFlight
  dsimp only
  split
  · exact h1
  · split
    · exact keeps_pollOutcome h1 _ _ _
    · exact keeps_applyOutcome h1 _ _ _

theorem keeps_failSending {s₀ s : State} (h : Keeps s₀ s) (f : InFlight) (o : BusOutcome) : Keeps s₀ (s.failSending f o) := by
  unfold State.failSending
  split
  · exact keeps_endFlight h _ _ _
  · exact h.same

theorem keeps_rebuild {s₀ s : State} (h : Keeps s₀ s) : Keeps s₀ s.rebuild := by
  unfold State.rebuild
  dsimp only
  split
  · exact keeps_restartDetection (Keeps.same (s := s.teardown .p1) (keeps_teardown h _))
  · exact keeps_restartDetection h.same

end Sys2Proof.Machine
end

