-- ==== Sys2Proof/Laws/KeepsRequests.lean ====
section
/-! SUPPORT. The passing of time, and what all requests share — taking the head, answering, decoding a number, the
Deferred List — keep the laws of the part (Laws/Keeps.lean). -/

namespace Sys2Proof.Machine

/-! ## Time -/

theorem elapse_pos (s : State) (n : Nat) (p : Pos) : ((s.elapse n).pos p).state = (s.pos p).state := by
  unfold State.elapse
  split
  · rfl
  · simp only [State.pos, Tbl.get_map, PosRec.elapse]
    split <;> rfl

theorem elapse_chan (s : State) (n : Nat) (c : ChanId) :
    (s.elapse n).chan c = if n = 0 then s.chan c else (s.chan c).elapse n := by
  unfold State.elapse
  split
  · rfl
  · simp [State.chan]

theorem elapse_link (s : State) (n : Nat) (l : LinkId) :
    (s.elapse n).link l = if n = 0 then s.link l else (s.link l).map (Mlu.elapse n) := by
  unfold State.elapse
  split
  · rfl
  · cases l <;> rfl

theorem elapse_dec (s : State) (n : Nat) : (s.elapse n).dec = s.dec := by unfold State.elapse; split <;> rfl
theorem elapse_pending (s : State) (n : Nat) : (s.elapse n).pending = s.pending := by unfold State.elapse; split <;> rfl
theorem elapse_light (s : State) (n : Nat) : (s.elapse n).light = s.light := by unfold State.elapse; split <;> rfl
theorem elapse_load (s : State) (n : Nat) : (s.elapse n).load = s.load := by unfold State.elapse; split <;> rfl
theorem elapse_watches (s : State) (n : Nat) : (s.elapse n).det.watches = s.det.watches := by
  unfold State.elapse; split <;> rfl
theorem elapse_matrix (s : State) (n : Nat) : (s.elapse n).matrix.active = s.matrix.active := by
  unfold State.elapse; split <;> rfl
theorem elapse_probe (s : State) (n : Nat) : (s.elapse n).bank.probe =
    if n = 0 then s.bank.probe else s.bank.probe.map fun p => { p with elapsed := p.elapsed + n, gap := p.gap + n } := by
  unfold State.elapse; split <;> rfl
theorem elapse_bringUpPos (s : State) (n : Nat) : (s.elapse n).det.bringUp.map (·.pos) = s.det.bringUp.map (·.pos) := by
  unfold State.elapse
  split
  · rfl
  · cases s.det.bringUp with
    | none => rfl
    | some b =>
      simp only [Option.map_some, BringUp.elapse]
      split <;> rfl

theorem keeps_elapse {s₀ s : State} (h : Keeps s₀ s) (n : Nat) : Keeps s₀ (s.elapse n) := by
  refine h.step (elapse_pending s n) (bounded_of (elapse_dec s n) fun l => ?_) ?_ (fun _ => ?_) ?_ ?_
  · rw [elapse_link]
    split
    · rfl
    · cases s.link l <;> rfl
  · rw [channelsLawful_iff, channelsLawful_iff]
    intro hs c
    rw [elapse_chan]
    split
    · exact hs c
    · exact Channel.lawful_elapse (hs c) n
  · rw [chain_of (s := s) (t := s.elapse n) (fun p => by simp only [State.live, elapse_pos])
      (fun p => by simp only [State.ready, elapse_pos]) (fun p => by rw [elapse_pos])
      (fun p => by rw [elapse_watches]) (elapse_bringUpPos s n) (by
        rw [elapse_probe]
        split
        · rfl
        · cases s.bank.probe <;> rfl)]
    exact id
  · rw [flash_of (s := s) (t := s.elapse n) (by rw [elapse_load]) (by rw [elapse_light]) (by rw [elapse_light])
      (by rw [elapse_light])]
    exact id
  · rw [interestLaw_iff, interestLaw_iff]
    intro hs l
    rw [elapse_link]
    split
    · exact hs l
    · have := hs l
      cases hl : s.link l with
      | none => rfl
      | some m => rw [hl] at this; exact this

theorem keeps_await {s₀ s : State} (h : Keeps s₀ s) (e n : Nat) : Keeps s₀ (s.await e n) := keeps_elapse h _

/-! ## Requests -/

theorem keeps_modLink {s₀ s : State} (h : Keeps s₀ s) (l : LinkId) (f : Mlu → Mlu)
    (hq : ∀ m, (f m).queue.length ≤ m.queue.length)
    (hi : ∀ m, m.pending &&& ~~~ m.interest = 0 → (f m).pending &&& ~~~ (f m).interest = 0) : Keeps s₀ (s.modLink l f) := by
  unfold State.modLink
  split
  · exact keeps_setLink h l (by assumption) (fun x => Nat.le_trans (hq _) x) (hi _)
  · exact h

theorem keeps_unqueue {s₀ s : State} (h : Keeps s₀ s) (l : LinkId) : Keeps s₀ (s.unqueue l) :=
  keeps_modLink h l _ (fun m => by simp) fun _ => id

theorem keeps_answer {s₀ s : State} (h : Keeps s₀ s) (l : LinkId) (k : ReqKind) (tag : Byte) (st : Status)
    (c : List Byte) : Keeps s₀ (s.answer l k tag st c) := keeps_reply h _ _ _ _ _

theorem keeps_serve {s₀ s : State} (h : Keeps s₀ s) (l : LinkId) (k : ReqKind) (act : Taken → State → State)
    (ha : ∀ t x, Keeps s₀ x → Keeps s₀ (act t x)) : Keeps s₀ (s.serve l k act) := by
  unfold State.serve
  split
  · exact h
  · split
    · exact ha _ _ (keeps_unqueue h l)
    · exact keeps_reply (keeps_unqueue h l) _ _ _ _ _

theorem keeps_arrive {s₀ s : State} (h : Keeps s₀ s) (l : LinkId) {m : Mlu} (hm : s.link l = some m) (data : List Byte) :
    Keeps s₀ (s.arrive l m data) := by
  have h1 : Keeps s₀ (s.setLink l m.heard) := keeps_setLink h l hm
  unfold State.arrive
  dsimp only
  split
  · split
    · refine keeps_setLink (m := m.heard) h1 l (by simp) (fun _ => ?_) id
      simp; omega
    · split
      · exact keeps_reply h1 _ _ _ _ _
      · exact h1
  · exact h1

theorem keeps_onServed {s₀ s : State} (h : Keeps s₀ s) (l : LinkId) (k : ReqKind) (tag : Byte) (f : Found)
    (act : State → State) (ha : ∀ x, Keeps s₀ x → Keeps s₀ (act x)) : Keeps s₀ (s.onServed l k tag f act) := by
  have h1 : Keeps s₀ (s.markUsed f.ref) := keeps_modEntry h _ _
  unfold State.onServed
  dsimp only
  split
  · exact keeps_answer h1 _ _ _ _ _
  · exact ha _ h1

/-- An entry joins the Deferred List where R182 admits it. -/
theorem bounded_admit {s : State} {d : Deferred} (ha : s.admission d.link d.tag = none) (h : s.bounded = true) :
    State.bounded { s with dec := { s.dec with deferred := s.dec.deferred ++ [d] } } = true := by
  rw [bounded_iff] at *
  obtain ⟨a, b, c, e, f, g⟩ := h
  unfold State.admission at ha
  split at ha
  · cases ha
  · rename_i hn
    split at ha
    · cases ha
    · rename_i hf
      unfold State.deferredOf at *
      have hn' : ∀ x ∈ s.dec.deferred, ¬ (x.link = d.link ∧ x.tag = d.tag) := by
        simpa [State.findDeferred] using hn
      refine ⟨a, by simp; omega, fun l => ?_, ?_, f, g⟩
      · by_cases hl : d.link = l
        · subst hl; simp; omega
        · simpa [hl] using c l
      · rw [List.map_append, List.nodup_append]
        refine ⟨e, by simp, ?_⟩
        intro x hx y hy
        simp only [List.map_cons, List.map_nil, List.mem_singleton] at hy
        subst hy
        obtain ⟨z, hz, rfl⟩ := List.mem_map.1 hx
        intro he
        simp only [Prod.mk.injEq] at he
        exact hn' z hz he

theorem keeps_admit {s₀ s : State} (h : Keeps s₀ s) (l : LinkId) (k : ReqKind) (d : Deferred) (c : List Byte)
    (hl : d.link = l) : Keeps s₀ (s.enlist l k d c) := by
  subst hl
  unfold State.enlist
  split
  · exact keeps_answer h _ _ _ _ _
  · rename_i ha
    exact keeps_answer (h.decoded (bounded_admit ha)) _ _ _ _ _

/-- A write joins the Posted Write Buffer, or replaces the one for its number (R167). -/
theorem keeps_post {s₀ s : State} (h : Keeps s₀ s) (l : LinkId) (t : Taken) (n : Nat) (v : Word16) :
    Keeps s₀ (s.post l t n v) := by
  unfold State.post
  dsimp only
  split
  · exact keeps_answer (keeps_modPosted h n _ (by intro _; rfl)) _ _ _ _ _
  · rename_i hn
    split
    · rename_i hlen
      refine keeps_answer (h.decoded fun hb => ?_) _ _ _ _ _
      rw [bounded_iff] at *
      obtain ⟨a, b, c, e, f, g⟩ := hb
      refine ⟨a, b, c, e, by simp; omega, ?_⟩
      dsimp only
      rw [List.map_append, List.nodup_append]
      refine ⟨g, by simp, ?_⟩
      intro x hx y hy
      simp only [List.map_cons, List.map_nil, List.mem_singleton] at hy
      subst hy
      obtain ⟨z, hz, rfl⟩ := List.mem_map.1 hx
      rintro rfl
      simp only [List.any_eq_true, decide_eq_true_eq, not_exists, not_and] at hn
      exact hn z hz rfl
    · exact keeps_answer h _ _ _ _ _

end Sys2Proof.Machine
end

