-- ==== Sys2Proof/Laws/Acts.lean ====
section
/-! SUPPORT. What the end of an act, a reply and the passing of time leave alone, field by field, and what they do to a
link: the lemmas that a statement about one command cites instead of unfolding them. -/

namespace Sys2Proof.Machine

/-! ## Frames placed on a link -/

@[simp] theorem State.modLink_pending (s : State) (l : LinkId) (f : Mlu → Mlu) :
    (s.modLink l f).pending = s.pending := by unfold State.modLink; split <;> simp
@[simp] theorem State.modLink_map (s : State) (l : LinkId) (f : Mlu → Mlu) :
    (s.modLink l f).map = s.map := by unfold State.modLink; split <;> simp
@[simp] theorem State.modLink_matrix (s : State) (l : LinkId) (f : Mlu → Mlu) :
    (s.modLink l f).matrix = s.matrix := by unfold State.modLink; split <;> simp
@[simp] theorem State.modLink_bank (s : State) (l : LinkId) (f : Mlu → Mlu) :
    (s.modLink l f).bank = s.bank := by unfold State.modLink; split <;> simp
@[simp] theorem State.modLink_load (s : State) (l : LinkId) (f : Mlu → Mlu) :
    (s.modLink l f).load = s.load := by unfold State.modLink; split <;> simp
@[simp] theorem State.modLink_bus (s : State) (l : LinkId) (f : Mlu → Mlu) :
    (s.modLink l f).bus = s.bus := by unfold State.modLink; split <;> simp
@[simp] theorem State.modLink_det (s : State) (l : LinkId) (f : Mlu → Mlu) :
    (s.modLink l f).det = s.det := by unfold State.modLink; split <;> simp
@[simp] theorem State.modLink_light (s : State) (l : LinkId) (f : Mlu → Mlu) :
    (s.modLink l f).light = s.light := by unfold State.modLink; split <;> simp
@[simp] theorem State.modLink_dec (s : State) (l : LinkId) (f : Mlu → Mlu) :
    (s.modLink l f).dec = s.dec := by unfold State.modLink; split <;> simp
@[simp] theorem State.modLink_freeCount (s : State) (l : LinkId) (f : Mlu → Mlu) :
    (s.modLink l f).freeCount = s.freeCount := by unfold State.modLink; split <;> simp

@[simp] theorem State.place_pending (s : State) (l : LinkId) (fs : List TxFrame) :
    (s.place l fs).pending = s.pending := State.modLink_pending ..
@[simp] theorem State.place_map (s : State) (l : LinkId) (fs : List TxFrame) :
    (s.place l fs).map = s.map := State.modLink_map ..
@[simp] theorem State.place_matrix (s : State) (l : LinkId) (fs : List TxFrame) :
    (s.place l fs).matrix = s.matrix := State.modLink_matrix ..
@[simp] theorem State.place_bank (s : State) (l : LinkId) (fs : List TxFrame) :
    (s.place l fs).bank = s.bank := State.modLink_bank ..
@[simp] theorem State.place_load (s : State) (l : LinkId) (fs : List TxFrame) :
    (s.place l fs).load = s.load := State.modLink_load ..
@[simp] theorem State.place_bus (s : State) (l : LinkId) (fs : List TxFrame) :
    (s.place l fs).bus = s.bus := State.modLink_bus ..
@[simp] theorem State.place_det (s : State) (l : LinkId) (fs : List TxFrame) :
    (s.place l fs).det = s.det := State.modLink_det ..
@[simp] theorem State.place_light (s : State) (l : LinkId) (fs : List TxFrame) :
    (s.place l fs).light = s.light := State.modLink_light ..
@[simp] theorem State.place_dec (s : State) (l : LinkId) (fs : List TxFrame) :
    (s.place l fs).dec = s.dec := State.modLink_dec ..
@[simp] theorem State.place_freeCount (s : State) (l : LinkId) (fs : List TxFrame) :
    (s.place l fs).freeCount = s.freeCount := State.modLink_freeCount ..

@[simp] theorem State.reply_pending (s : State) (l : LinkId) (k t : Byte) (st : Status) (c : List Byte) :
    (s.reply l k t st c).pending = s.pending := State.place_pending ..
@[simp] theorem State.reply_map (s : State) (l : LinkId) (k t : Byte) (st : Status) (c : List Byte) :
    (s.reply l k t st c).map = s.map := State.place_map ..
@[simp] theorem State.reply_matrix (s : State) (l : LinkId) (k t : Byte) (st : Status) (c : List Byte) :
    (s.reply l k t st c).matrix = s.matrix := State.place_matrix ..
@[simp] theorem State.reply_bank (s : State) (l : LinkId) (k t : Byte) (st : Status) (c : List Byte) :
    (s.reply l k t st c).bank = s.bank := State.place_bank ..
@[simp] theorem State.reply_load (s : State) (l : LinkId) (k t : Byte) (st : Status) (c : List Byte) :
    (s.reply l k t st c).load = s.load := State.place_load ..
@[simp] theorem State.reply_bus (s : State) (l : LinkId) (k t : Byte) (st : Status) (c : List Byte) :
    (s.reply l k t st c).bus = s.bus := State.place_bus ..
@[simp] theorem State.reply_det (s : State) (l : LinkId) (k t : Byte) (st : Status) (c : List Byte) :
    (s.reply l k t st c).det = s.det := State.place_det ..
@[simp] theorem State.reply_light (s : State) (l : LinkId) (k t : Byte) (st : Status) (c : List Byte) :
    (s.reply l k t st c).light = s.light := State.place_light ..
@[simp] theorem State.reply_dec (s : State) (l : LinkId) (k t : Byte) (st : Status) (c : List Byte) :
    (s.reply l k t st c).dec = s.dec := State.place_dec ..
@[simp] theorem State.reply_freeCount (s : State) (l : LinkId) (k t : Byte) (st : Status) (c : List Byte) :
    (s.reply l k t st c).freeCount = s.freeCount := State.place_freeCount ..

@[simp] theorem State.answer_pending (s : State) (l : LinkId) (k : ReqKind) (t : Byte) (st : Status) (c : List Byte) :
    (s.answer l k t st c).pending = s.pending := State.reply_pending ..
@[simp] theorem State.answer_map (s : State) (l : LinkId) (k : ReqKind) (t : Byte) (st : Status) (c : List Byte) :
    (s.answer l k t st c).map = s.map := State.reply_map ..
@[simp] theorem State.answer_matrix (s : State) (l : LinkId) (k : ReqKind) (t : Byte) (st : Status) (c : List Byte) :
    (s.answer l k t st c).matrix = s.matrix := State.reply_matrix ..
@[simp] theorem State.answer_bank (s : State) (l : LinkId) (k : ReqKind) (t : Byte) (st : Status) (c : List Byte) :
    (s.answer l k t st c).bank = s.bank := State.reply_bank ..
@[simp] theorem State.answer_load (s : State) (l : LinkId) (k : ReqKind) (t : Byte) (st : Status) (c : List Byte) :
    (s.answer l k t st c).load = s.load := State.reply_load ..
@[simp] theorem State.answer_bus (s : State) (l : LinkId) (k : ReqKind) (t : Byte) (st : Status) (c : List Byte) :
    (s.answer l k t st c).bus = s.bus := State.reply_bus ..
@[simp] theorem State.answer_det (s : State) (l : LinkId) (k : ReqKind) (t : Byte) (st : Status) (c : List Byte) :
    (s.answer l k t st c).det = s.det := State.reply_det ..
@[simp] theorem State.answer_light (s : State) (l : LinkId) (k : ReqKind) (t : Byte) (st : Status) (c : List Byte) :
    (s.answer l k t st c).light = s.light := State.reply_light ..
@[simp] theorem State.answer_dec (s : State) (l : LinkId) (k : ReqKind) (t : Byte) (st : Status) (c : List Byte) :
    (s.answer l k t st c).dec = s.dec := State.reply_dec ..
@[simp] theorem State.answer_freeCount (s : State) (l : LinkId) (k : ReqKind) (t : Byte) (st : Status) (c : List Byte) :
    (s.answer l k t st c).freeCount = s.freeCount := State.reply_freeCount ..

@[simp] theorem State.unqueue_pending (s : State) (l : LinkId) :
    (s.unqueue l).pending = s.pending := State.modLink_pending ..
@[simp] theorem State.unqueue_map (s : State) (l : LinkId) :
    (s.unqueue l).map = s.map := State.modLink_map ..
@[simp] theorem State.unqueue_matrix (s : State) (l : LinkId) :
    (s.unqueue l).matrix = s.matrix := State.modLink_matrix ..
@[simp] theorem State.unqueue_bank (s : State) (l : LinkId) :
    (s.unqueue l).bank = s.bank := State.modLink_bank ..
@[simp] theorem State.unqueue_load (s : State) (l : LinkId) :
    (s.unqueue l).load = s.load := State.modLink_load ..
@[simp] theorem State.unqueue_bus (s : State) (l : LinkId) :
    (s.unqueue l).bus = s.bus := State.modLink_bus ..
@[simp] theorem State.unqueue_det (s : State) (l : LinkId) :
    (s.unqueue l).det = s.det := State.modLink_det ..
@[simp] theorem State.unqueue_light (s : State) (l : LinkId) :
    (s.unqueue l).light = s.light := State.modLink_light ..
@[simp] theorem State.unqueue_dec (s : State) (l : LinkId) :
    (s.unqueue l).dec = s.dec := State.modLink_dec ..
@[simp] theorem State.unqueue_freeCount (s : State) (l : LinkId) :
    (s.unqueue l).freeCount = s.freeCount := State.modLink_freeCount ..

/-! ## The end of an act -/

theorem attend_pending (before s : State) (l : LinkId) : (before.attend s l).pending = s.pending := by
  unfold State.attend State.attentionDue
  split
  · split
    · split
      · rfl
      · split <;> simp
    · rfl
  · rfl
@[simp] theorem State.finish_pending (before s : State) : (before.finish s).pending = s.pending := by
  unfold State.finish
  rw [attend_pending, attend_pending, attend_pending]
theorem attend_map (before s : State) (l : LinkId) : (before.attend s l).map = s.map := by
  unfold State.attend State.attentionDue
  split
  · split
    · split
      · rfl
      · split <;> simp
    · rfl
  · rfl
@[simp] theorem State.finish_map (before s : State) : (before.finish s).map = s.map := by
  unfold State.finish
  rw [attend_map, attend_map, attend_map]
theorem attend_matrix (before s : State) (l : LinkId) : (before.attend s l).matrix = s.matrix := by
  unfold State.attend State.attentionDue
  split
  · split
    · split
      · rfl
      · split <;> simp
    · rfl
  · rfl
@[simp] theorem State.finish_matrix (before s : State) : (before.finish s).matrix = s.matrix := by
  unfold State.finish
  rw [attend_matrix, attend_matrix, attend_matrix]
theorem attend_bank (before s : State) (l : LinkId) : (before.attend s l).bank = s.bank := by
  unfold State.attend State.attentionDue
  split
  · split
    · split
      · rfl
      · split <;> simp
    · rfl
  · rfl
@[simp] theorem State.finish_bank (before s : State) : (before.finish s).bank = s.bank := by
  unfold State.finish
  rw [attend_bank, attend_bank, attend_bank]
theorem attend_load (before s : State) (l : LinkId) : (before.attend s l).load = s.load := by
  unfold State.attend State.attentionDue
  split
  · split
    · split
      · rfl
      · split <;> simp
    · rfl
  · rfl
@[simp] theorem State.finish_load (before s : State) : (before.finish s).load = s.load := by
  unfold State.finish
  rw [attend_load, attend_load, attend_load]
theorem attend_bus (before s : State) (l : LinkId) : (before.attend s l).bus = s.bus := by
  unfold State.attend State.attentionDue
  split
  · split
    · split
      · rfl
      · split <;> simp
    · rfl
  · rfl
@[simp] theorem State.finish_bus (before s : State) : (before.finish s).bus = s.bus := by
  unfold State.finish
  rw [attend_bus, attend_bus, attend_bus]
theorem attend_det (before s : State) (l : LinkId) : (before.attend s l).det = s.det := by
  unfold State.attend State.attentionDue
  split
  · split
    · split
      · rfl
      · split <;> simp
    · rfl
  · rfl
@[simp] theorem State.finish_det (before s : State) : (before.finish s).det = s.det := by
  unfold State.finish
  rw [attend_det, attend_det, attend_det]
theorem attend_light (before s : State) (l : LinkId) : (before.attend s l).light = s.light := by
  unfold State.attend State.attentionDue
  split
  · split
    · split
      · rfl
      · split <;> simp
    · rfl
  · rfl
@[simp] theorem State.finish_light (before s : State) : (before.finish s).light = s.light := by
  unfold State.finish
  rw [attend_light, attend_light, attend_light]
theorem attend_dec (before s : State) (l : LinkId) : (before.attend s l).dec = s.dec := by
  unfold State.attend State.attentionDue
  split
  · split
    · split
      · rfl
      · split <;> simp
    · rfl
  · rfl
@[simp] theorem State.finish_dec (before s : State) : (before.finish s).dec = s.dec := by
  unfold State.finish
  rw [attend_dec, attend_dec, attend_dec]
theorem attend_freeCount (before s : State) (l : LinkId) : (before.attend s l).freeCount = s.freeCount := by
  unfold State.attend State.attentionDue
  split
  · split
    · split
      · rfl
      · split <;> simp
    · rfl
  · rfl
@[simp] theorem State.finish_freeCount (before s : State) : (before.finish s).freeCount = s.freeCount := by
  unfold State.finish
  rw [attend_freeCount, attend_freeCount, attend_freeCount]

theorem grant_pending (s : State) : s.grant.pending = s.pending := by
  unfold State.grant
  repeat' split
  all_goals simp
@[simp] theorem State.grantIfIdle_pending (s : State) : s.grantIfIdle.pending = s.pending := by
  unfold State.grantIfIdle
  split
  · exact grant_pending s
  · rfl
@[simp] theorem State.settle_pending (before s : State) : (before.settle s).pending = s.pending := by
  simp [State.settle]
theorem grant_map (s : State) : s.grant.map = s.map := by
  unfold State.grant
  repeat' split
  all_goals simp
@[simp] theorem State.grantIfIdle_map (s : State) : s.grantIfIdle.map = s.map := by
  unfold State.grantIfIdle
  split
  · exact grant_map s
  · rfl
@[simp] theorem State.settle_map (before s : State) : (before.settle s).map = s.map := by
  simp [State.settle]
theorem grant_matrix (s : State) : s.grant.matrix = s.matrix := by
  unfold State.grant
  repeat' split
  all_goals simp
@[simp] theorem State.grantIfIdle_matrix (s : State) : s.grantIfIdle.matrix = s.matrix := by
  unfold State.grantIfIdle
  split
  · exact grant_matrix s
  · rfl
@[simp] theorem State.settle_matrix (before s : State) : (before.settle s).matrix = s.matrix := by
  simp [State.settle]
theorem grant_bank (s : State) : s.grant.bank = s.bank := by
  unfold State.grant
  repeat' split
  all_goals simp
@[simp] theorem State.grantIfIdle_bank (s : State) : s.grantIfIdle.bank = s.bank := by
  unfold State.grantIfIdle
  split
  · exact grant_bank s
  · rfl
@[simp] theorem State.settle_bank (before s : State) : (before.settle s).bank = s.bank := by
  simp [State.settle]
theorem grant_load (s : State) : s.grant.load = s.load := by
  unfold State.grant
  repeat' split
  all_goals simp
@[simp] theorem State.grantIfIdle_load (s : State) : s.grantIfIdle.load = s.load := by
  unfold State.grantIfIdle
  split
  · exact grant_load s
  · rfl
@[simp] theorem State.settle_load (before s : State) : (before.settle s).load = s.load := by
  simp [State.settle]
theorem grant_det (s : State) : s.grant.det = s.det := by
  unfold State.grant
  repeat' split
  all_goals simp
@[simp] theorem State.grantIfIdle_det (s : State) : s.grantIfIdle.det = s.det := by
  unfold State.grantIfIdle
  split
  · exact grant_det s
  · rfl
@[simp] theorem State.settle_det (before s : State) : (before.settle s).det = s.det := by
  simp [State.settle]
theorem grant_light (s : State) : s.grant.light = s.light := by
  unfold State.grant
  repeat' split
  all_goals simp
@[simp] theorem State.grantIfIdle_light (s : State) : s.grantIfIdle.light = s.light := by
  unfold State.grantIfIdle
  split
  · exact grant_light s
  · rfl
@[simp] theorem State.settle_light (before s : State) : (before.settle s).light = s.light := by
  simp [State.settle]
theorem grant_links (s : State) : s.grant.links = s.links := by
  unfold State.grant
  repeat' split
  all_goals simp
@[simp] theorem State.grantIfIdle_links (s : State) : s.grantIfIdle.links = s.links := by
  unfold State.grantIfIdle
  split
  · exact grant_links s
  · rfl
theorem grant_freeCount (s : State) : s.grant.freeCount = s.freeCount := by
  unfold State.grant
  repeat' split
  all_goals simp
@[simp] theorem State.grantIfIdle_freeCount (s : State) : s.grantIfIdle.freeCount = s.freeCount := by
  unfold State.grantIfIdle
  split
  · exact grant_freeCount s
  · rfl
@[simp] theorem State.settle_freeCount (before s : State) : (before.settle s).freeCount = s.freeCount := by
  simp [State.settle]

/-! ## Links at the end of an act -/

theorem State.link_modLink (s : State) (l k : LinkId) (f : Mlu → Mlu) :
    (s.modLink l f).link k = if l = k then (s.link k).map f else s.link k := by
  unfold State.modLink
  by_cases h : l = k
  · subst h
    cases hs : s.link l <;> simp [hs]
  · cases hs : s.link l <;> simp [h, State.link_setLink]

theorem State.freeRoom_of_dec {s t : State} (h : t.dec = s.dec) (l : LinkId) (m : Mlu) : t.freeRoom l m = s.freeRoom l m := by
  unfold State.freeRoom State.reserved
  rw [h]

/-- A link at the end of an act: as it stands, or with the attention frame placed or owed (R185, R190). -/
def State.attended (s : State) (l : LinkId) (before m : Mlu) : Mlu :=
  if before.pending = 0 ∧ m.pending ≠ 0 ∧ m.busOff = false then
    (if m.holdsAttention then m
      else if 1 ≤ s.freeRoom l m then { m with buffer := m.buffer ++ [attentionFrame m.pending], owed := false }
      else { m with owed := true })
  else m

theorem attend_link (before s : State) (l k : LinkId) : (before.attend s l).link k =
    if l = k then
      (match before.link l, s.link l with
        | some m, some m' => some (s.attended l m m')
        | _, _ => s.link l)
    else s.link k := by
  unfold State.attend State.attended
  by_cases h : l = k
  · subst h
    simp only [if_true]
    cases hb : before.link l <;> cases hs : s.link l <;> simp only [hs]
    split
    · unfold State.attentionDue
      split
      · exact hs
      · split <;> simp
    · exact hs
  · simp only [h, if_false]
    split
    · split
      · unfold State.attentionDue
        split
        · rfl
        · split <;> simp [State.link_setLink, h]
      · rfl
    · rfl

/-- The link of an enabled port at the end of an act. -/
theorem finish_link {before s : State} {l : LinkId} {m m' : Mlu} (hb : before.link l = some m) (hs : s.link l = some m') :
    (before.finish s).link l = some (s.attended l m m') := by
  have hd : ∀ (t : State), t.dec = s.dec → t.attended l m m' = s.attended l m m' := by
    intro t ht
    unfold State.attended
    rw [State.freeRoom_of_dec ht]
  have hda : ∀ (t : State) k, (before.attend t k).dec = t.dec := fun t k => attend_dec before t k
  unfold State.finish
  cases l
  · rw [attend_link, if_neg (by decide), attend_link, if_neg (by decide), attend_link, if_pos rfl, hb, hs]
  · rw [attend_link, if_neg (by decide), attend_link, if_pos rfl, attend_link, if_neg (by decide), hb, hs]
    exact congrArg some (hd _ (hda _ _))
  · rw [attend_link, if_pos rfl, attend_link, if_neg (by decide), attend_link, if_neg (by decide), hb, hs]
    exact congrArg some (hd _ ((hda _ _).trans (hda _ _)))

/-- A disabled link at the end of an act. -/
theorem finish_link_none {before s : State} {l : LinkId} (hs : s.link l = none) : (before.finish s).link l = none := by
  have key : ∀ (t : State) k, t.link l = none → (before.attend t k).link l = none := by
    intro t k ht
    rw [attend_link]
    split
    · rename_i e; subst e
      rw [ht]
      split
      · rename_i h; cases h
      · rfl
    · exact ht
  exact key _ _ (key _ _ (key _ _ hs))

theorem grantIfIdle_link (s : State) (l : LinkId) : s.grantIfIdle.link l = s.link l :=
  State.link_of_links (State.grantIfIdle_links s) l

theorem attended_grows (s : State) (l : LinkId) (m m' : Mlu) : Mlu.grows m' (s.attended l m m') := by
  unfold State.attended Mlu.grows
  split
  · split
    · exact ⟨rfl, List.prefix_rfl⟩
    · split
      · exact ⟨rfl, List.prefix_append ..⟩
      · exact ⟨rfl, List.prefix_rfl⟩
  · exact ⟨rfl, List.prefix_rfl⟩

end Sys2Proof.Machine
end

