-- ==== Sys2Proof/Laws/Calm.lean ====
section
/-! SUPPORT. How far the outcome of a probe reaches. A probe request that is tested, abandoned or resolved can write
contributions, make a position ready, commit a relearn, reset verdicts and raise events; `Calm s₀ s` says that `s` agrees
with `s₀` in everything else. -/

namespace Sys2Proof.Machine

/-- What of a channel a change of state or output leaves alone. -/
def Channel.lasting (ch : Channel) : Channel :=
  { ch with state := .off, highCount := 0, lowCount := 0, backfeedAge := 0, output := false, sinceOn := 0, onFor := 0, sinceOff := 0,
            peak := 0, pwmOn := true, pwmAge := 0, window := none }

/-- A link without its pending set. -/
def Mlu.quiet (m : Mlu) : Mlu := { m with pending := 0 }

/-- `s` agrees with `s₀` in everything a probe outcome leaves alone. -/
structure Calm (s₀ s : State) : Prop where
  pending : s.pending = s₀.pending
  matrix : s.matrix = s₀.matrix
  dec : s.dec = s₀.dec
  freeCount : s.freeCount = s₀.freeCount
  singles : s.map.singles = s₀.map.singles
  groups : s.map.groups = s₀.map.groups
  body : s.light.body = s₀.light.body
  brake : s.light.brake = s₀.light.brake
  service : s.light.service = s₀.light.service
  grant : s.light.grant = s₀.light.grant
  effective : s.det.effective = s₀.det.effective
  debounce : s.det.debounce = s₀.det.debounce
  coupling : s.det.couplingDemand = s₀.det.couplingDemand
  flight : s.bus.flight = s₀.bus.flight
  class1 : s.bus.class1 = s₀.bus.class1
  stack : s.bus.stack = s₀.bus.stack
  turn : s.bank.turn = s₀.bank.turn
  emergency : s.bank.emergency = s₀.bank.emergency
  supply : s.bank.supply = s₀.bank.supply
  supplyInside : s.bank.supplyInside = s₀.bank.supplyInside
  supplyAge : s.bank.supplyAge = s₀.bank.supplyAge
  straps : s.links.strap1 = s₀.links.strap1 ∧ s.links.strap0 = s₀.links.strap0
  links : ∀ l, (s.link l).map Mlu.quiet = (s₀.link l).map Mlu.quiet
  channels : ∀ c, (s.chan c).lasting = (s₀.chan c).lasting
  live : ∀ p, s.live p = s₀.live p

theorem Calm.refl (s : State) : Calm s s :=
  ⟨rfl, rfl, rfl, rfl, rfl, rfl, rfl, rfl, rfl, rfl, rfl, rfl, rfl, rfl, rfl, rfl, rfl, rfl, rfl, rfl, rfl, ⟨rfl, rfl⟩,
    fun _ => rfl, fun _ => rfl, fun _ => rfl⟩

theorem Calm.trans {a b c : State} (h : Calm a b) (k : Calm b c) : Calm a c :=
  ⟨k.pending.trans h.pending, k.matrix.trans h.matrix, k.dec.trans h.dec, k.freeCount.trans h.freeCount,
    k.singles.trans h.singles, k.groups.trans h.groups, k.body.trans h.body, k.brake.trans h.brake,
    k.service.trans h.service, k.grant.trans h.grant, k.effective.trans h.effective, k.debounce.trans h.debounce,
    k.coupling.trans h.coupling, k.flight.trans h.flight, k.class1.trans h.class1, k.stack.trans h.stack,
    k.turn.trans h.turn, k.emergency.trans h.emergency, k.supply.trans h.supply, k.supplyInside.trans h.supplyInside,
    k.supplyAge.trans h.supplyAge, ⟨k.straps.1.trans h.straps.1, k.straps.2.trans h.straps.2⟩,
    fun l => (k.links l).trans (h.links l), fun c => (k.channels c).trans (h.channels c),
    fun p => (k.live p).trans (h.live p)⟩

/-- What lasts, field by field. -/
theorem lasting_eq {a b : Channel} (h : a.lasting = b.lasting) : a.demand = b.demand ∧ a.derated = b.derated ∧
    a.backfeed = b.backfeed ∧ a.streakCount = b.streakCount ∧ a.trip = b.trip ∧ a.settledMean = b.settledMean ∧
    a.temperature = b.temperature := by
  simp only [Channel.lasting, Channel.mk.injEq] at h
  obtain ⟨-, h1, h2, h3, -, -, -, h4, -, -, h5, h6, h7, -⟩ := h
  exact ⟨h1, h2, h3, h4, h5, h6, h7⟩

theorem Calm.demand {s₀ s : State} (h : Calm s₀ s) (c : ChanId) : (s.chan c).demand = (s₀.chan c).demand :=
  (lasting_eq (h.channels c)).1

theorem Calm.effectiveStates {s₀ s : State} (h : Calm s₀ s) : s.effective = s₀.effective := by
  unfold State.effective State.serviceCounted State.bench
  rw [h.body, h.brake, h.service, h.grant, h.straps.1, h.straps.2]

/-! ## One channel -/

theorem switchTo_lasting (on : Bool) (ch : Channel) : (ch.switchTo on).lasting = ch.lasting := by
  unfold Channel.switchTo; split
  · rfl
  · split <;> rfl
theorem enter_lasting (st : ChanState) (ch : Channel) : (ch.enter st).lasting = ch.lasting := by
  unfold Channel.enter; dsimp only; split <;> rfl
theorem toOff_lasting (ch : Channel) : ch.toOff.lasting = ch.lasting :=
  (enter_lasting ..).trans (switchTo_lasting ..)
theorem toGap_lasting (ch : Channel) : ch.toGap.lasting = ch.lasting :=
  (enter_lasting ..).trans (switchTo_lasting ..)
theorem toProbeOn_lasting (ch : Channel) : ch.toProbeOn.lasting = ch.lasting :=
  (switchTo_lasting ..).trans (enter_lasting ..)
theorem toDrive_lasting (on : Bool) (ch : Channel) : (ch.toDrive on).lasting = ch.lasting :=
  (switchTo_lasting on (ch.enter .drive)).trans (enter_lasting ..)
theorem takeDemand_lasting (r on : Bool) (ch : Channel) : (ch.takeDemand r on).lasting = ch.lasting := by
  unfold Channel.takeDemand
  split
  · exact toDrive_lasting ..
  · exact toOff_lasting ..

/-! ## Operations -/

theorem calm_putChan {s₀ s : State} (h : Calm s₀ s) (c : ChanId) {ch : Channel}
    (hl : ch.lasting = (s.chan c).lasting) : Calm s₀ (s.putChan c ch) := by
  refine h.trans ⟨rfl, rfl, rfl, rfl, rfl, rfl, rfl, rfl, rfl, rfl, ?_, ?_, ?_, rfl, rfl, rfl, rfl, rfl, rfl, rfl, rfl,
    ⟨rfl, rfl⟩, fun _ => rfl, fun d => ?_, fun _ => rfl⟩
  · unfold State.putChan; dsimp only; split <;> rfl
  · unfold State.putChan; dsimp only; split <;> rfl
  · unfold State.putChan; dsimp only; split <;> rfl
  · rw [State.chan_putChan]
    split
    · rename_i e; subst e; exact hl
    · rfl

theorem calm_setProbe {s₀ s : State} (h : Calm s₀ s) (q : Option Probe) : Calm s₀ (s.setProbe q) :=
  h.trans { Calm.refl s with }

theorem calm_setWatch {s₀ s : State} (h : Calm s₀ s) (p : Pos) (w : Option Watch) : Calm s₀ (s.setWatch p w) :=
  h.trans { Calm.refl s with }
theorem calm_claim2 {s₀ s : State} (h : Calm s₀ s) (t : Txn) : Calm s₀ (s.claim2 t) := h.trans { Calm.refl s with }
theorem calm_setPoll {s₀ s : State} (h : Calm s₀ s) (p : Pos) (n : Option Nat) : Calm s₀ (s.setPoll p n) :=
  h.trans { Calm.refl s with }
theorem calm_setRelearn {s₀ s : State} (h : Calm s₀ s) (x : Option Relearn) :
    Calm s₀ { s with det := { s.det with relearn := x } } := h.trans { Calm.refl s with }

theorem calm_modPos {s₀ s : State} (h : Calm s₀ s) (p : Pos) {f : PosRec → PosRec}
    (hf : s₀.live p = true ∧ (∀ r, (f r).state.live = true) ∨ ∀ r, (f r).state.live = r.state.live) :
    Calm s₀ (s.modPos p f) := by
  refine ⟨h.1, h.2, h.3, h.4, h.5, h.6, h.7, h.8, h.9, h.10, h.11, h.12, h.13, h.14, h.15, h.16, h.17, h.18, h.19, h.20,
    h.21, h.22, h.23, h.24, fun q => ?_⟩
  rw [← h.25 q]
  unfold State.live
  rw [State.pos_modPos]
  split
  · rename_i e; subst e
    rcases hf with ⟨hl, hf⟩ | hf
    · have := h.25 p
      rw [hl] at this
      rw [hf]; exact this.symm
    · rw [hf]
  · rfl

theorem calm_addReason {s₀ s : State} (h : Calm s₀ s) (p : Pos) (x : Reason) : Calm s₀ (s.addReason p x) :=
  calm_modPos h p (Or.inr fun _ => follow_live ..)

theorem raise_quiet (m : Mlu) (k : EventKind) : (m.raise k).quiet = m.quiet := by
  unfold Mlu.raise; split <;> rfl

theorem calm_raiseAll {s₀ s : State} (h : Calm s₀ s) (k : EventKind) : Calm s₀ (s.raiseAll k) := by
  refine h.trans { Calm.refl s with links := fun l => ?_ }
  unfold State.raiseAll
  rw [State.link_raiseFor]
  cases s.link l with
  | none => rfl
  | some m =>
    simp only [Option.map_some]
    split
    · rw [raise_quiet]
    · rfl

/-- The decided rate and the verdict kinds held may change; records and grant do not. -/
theorem calm_judged {s₀ s t : State} (h : Calm s₀ s) (hp : t.pending = s.pending) (hm : t.matrix = s.matrix)
    (hd : t.dec = s.dec) (hf : t.freeCount = s.freeCount) (hmap : t.map = s.map) (hb : t.bank = s.bank)
    (hbus : t.bus = s.bus) (hdet : t.det = s.det) (hl : t.links = s.links) (h1 : t.light.body = s.light.body)
    (h2 : t.light.brake = s.light.brake) (h3 : t.light.service = s.light.service) (h4 : t.light.grant = s.light.grant) :
    Calm s₀ t := by
  refine h.trans ⟨hp, hm, hd, hf, by rw [hmap], by rw [hmap], h1, h2, h3, h4, by rw [hdet], by rw [hdet], by rw [hdet],
    by rw [hbus], by rw [hbus], by rw [hbus], by rw [hb], by rw [hb], by rw [hb], by rw [hb], by rw [hb],
    ⟨by rw [hl], by rw [hl]⟩, fun l => by rw [State.link_of_links hl], fun c => by rw [State.chan_of_bank (s := s) (t := t) (by rw [hb])],
    fun p => by unfold State.live; rw [State.pos_of_map hmap]⟩

theorem handKind_records (s : State) (l : LampId) (k : VerdictKind) : (s.handKind l k).light.body = s.light.body ∧
    (s.handKind l k).light.brake = s.light.brake ∧ (s.handKind l k).light.service = s.light.service ∧
    (s.handKind l k).light.grant = s.light.grant := by
  unfold State.handKind
  dsimp only
  by_cases h0 : l = 0
  · simp [h0]
  · by_cases h1 : l = 1
    · simp [h1]
    · simp [h0, h1]

theorem handKind_rest (s : State) (l : LampId) (k : VerdictKind) : (s.handKind l k).matrix = s.matrix ∧
    (s.handKind l k).freeCount = s.freeCount ∧ (s.handKind l k).bus = s.bus := by
  unfold State.handKind; dsimp only; split <;> exact ⟨rfl, rfl, rfl⟩

theorem calm_resetVerdict {s₀ s : State} (h : Calm s₀ s) (l : LampId) : Calm s₀ (s.resetVerdict l) := by
  have h1 : Calm s₀ (s.setVerdict l {}) :=
    calm_judged h rfl rfl rfl rfl rfl rfl rfl rfl rfl rfl rfl rfl rfl
  unfold State.resetVerdict
  dsimp only
  split
  · exact h1
  · have hr := handKind_records (s.setVerdict l {}) l .unchecked
    have hq := handKind_rest (s.setVerdict l {}) l .unchecked
    exact calm_judged h1 (handKind_pending ..) hq.1 (handKind_dec ..) hq.2.1 (handKind_map ..) (handKind_bank ..) hq.2.2
      (handKind_det ..) (handKind_links ..) hr.1 hr.2.1 hr.2.2.1 hr.2.2.2

theorem calm_foldl {α : Type} {s₀ : State} {f : State → α → State} (hf : ∀ s x, Calm s₀ s → Calm s₀ (f s x)) :
    ∀ (xs : List α) {s : State}, Calm s₀ s → Calm s₀ (xs.foldl f s)
  | [], _, h => h
  | x :: xs, _, h => calm_foldl hf xs (hf _ x h)

theorem calm_resetVerdicts {s₀ s : State} (h : Calm s₀ s) (ls : List LampId) : Calm s₀ (s.resetVerdicts ls) := by
  have := calm_foldl (f := State.resetVerdict) (fun _ x hs => calm_resetVerdict hs x) ls h
  unfold State.resetVerdicts
  dsimp only
  split
  · exact calm_raiseAll this _
  · exact this

theorem calm_formExpected {s₀ s : State} (h : Calm s₀ s) : Calm s₀ s.formExpected :=
  calm_judged h rfl rfl rfl rfl rfl rfl rfl rfl rfl rfl rfl rfl rfl

theorem calm_learnFor {s₀ s : State} (h : Calm s₀ s) (p : Pos) (l : LampId) (o : ProbeOutcome) :
    Calm s₀ (s.learnFor p l o) := by
  have h1 : Calm s₀ (s.modPos p (PosRec.putContribution l (learn o (s.eBefore p l) (s.pBefore p l)))) :=
    calm_modPos h p (Or.inr fun r => by rw [putContribution_state])
  unfold State.learnFor
  dsimp only
  split
  · exact calm_raiseAll h1 _
  · exact h1

theorem calm_noteOutcome {s₀ s : State} (h : Calm s₀ s) (p : Pos) (o : ProbeOutcome) : Calm s₀ (s.noteOutcome p o) := by
  unfold State.noteOutcome
  split
  · split
    · exact h.trans { Calm.refl s with }
    · exact calm_addReason h _ _
  · exact h

theorem calm_endMeasuring {s₀ s : State} (h : Calm s₀ s) (p : Pos) (hl : s₀.live p = true) : Calm s₀ (s.endMeasuring p) := by
  unfold State.endMeasuring
  split
  · have h1 : Calm s₀ (s.modPos p (PosRec.commit (s.det.relearn.any (·.incomplete)))) := by
      refine calm_modPos h p (Or.inr fun r => ?_)
      unfold PosRec.commit
      dsimp only
      split <;> exact follow_live ..
    exact calm_resetVerdicts (calm_formExpected (calm_setRelearn h1 none)) _
  · have h1 : Calm s₀ { s with det := { s.det with bringUp := none } } := h.trans { Calm.refl s with }
    have h2 := calm_modPos h1 p (f := PosRec.becomesReady) (Or.inl ⟨hl, becomesReady_live⟩)
    have h3 := calm_raiseAll (calm_resetVerdicts (calm_formExpected h2) allLamps) .positionReady
    unfold State.becomeReady
    dsimp only
    split
    · exact calm_setPoll (calm_claim2 (calm_setWatch h3 _ _) _) _ _
    · exact h3

theorem calm_takeDemand {s₀ s : State} (h : Calm s₀ s) (c : ChanId) : Calm s₀ (s.takeDemand c) :=
  calm_putChan h c (takeDemand_lasting ..)

theorem calm_beginAttempt {s₀ s : State} (h : Calm s₀ s) (q : Probe) : Calm s₀ (s.beginAttempt q) := by
  have h1 : Calm s₀ (s.setProbe
      (some { q with phase := .attempt, inrush := 0, samples := [], gap := 0, armed := false })) := calm_setProbe h _
  unfold State.beginAttempt
  dsimp only
  split
  · refine calm_putChan h1 _ ?_
    split
    · exact toProbeOn_lasting ..
    · exact toGap_lasting ..
  · split
    · split
      · exact h1
      · exact calm_putChan h1 _ (toGap_lasting ..)
    · split
      · exact h1
      · exact calm_putChan h1 _ (toGap_lasting ..)
    · exact calm_putChan h1 _ (toGap_lasting ..)
    · exact calm_putChan h1 _ (toGap_lasting ..)
  all_goals exact h1

theorem calm_testProbe {s₀ s : State} (h : Calm s₀ s) : Calm s₀ s.testProbe := by
  unfold State.testProbe
  split
  · split
    · exact calm_beginAttempt h _
    · exact h
  · exact h

theorem calm_measure {s₀ : State} (p : Pos) (hl : s₀.live p = true) : ∀ (ls : List LampId) {s : State}, Calm s₀ s →
    Calm s₀ (s.measure p ls)
  | [], _, h => calm_endMeasuring h p hl
  | l :: rest, s, h => by
    unfold State.measure
    split
    · exact calm_measure p hl rest (calm_modPos h p (Or.inr fun r => by rw [putContribution_state]))
    · split
      · exact calm_measure p hl rest (calm_noteOutcome (calm_learnFor h p l .failed) p .failed)
      · exact calm_testProbe (calm_setProbe h _)

theorem calm_handOutcome {s₀ s : State} (h : Calm s₀ s) (q : Probe) (o : ProbeOutcome) (hl : s₀.live q.pos = true) :
    Calm s₀ (s.handOutcome q o) :=
  calm_measure q.pos hl _ (calm_noteOutcome (calm_learnFor (calm_setProbe h none) q.pos q.lamp o) q.pos o)

theorem calm_resolveExpired {s₀ s : State} (h : Calm s₀ s) (q : Probe) (hl : s₀.live q.pos = true) :
    Calm s₀ (s.resolveExpired q) := by
  unfold State.resolveExpired
  dsimp only
  split
  · exact calm_setProbe h _
  · exact calm_handOutcome h _ _ hl

theorem calm_abandonAttempt {s₀ s : State} (h : Calm s₀ s) (q : Probe) (hl : s₀.live q.pos = true) :
    Calm s₀ (s.abandonAttempt q) := by
  have h1 : Calm s₀ (s.setProbe (some { q with phase := .postponed, samples := [] })) := calm_setProbe h _
  unfold State.abandonAttempt
  dsimp only
  split
  · split
    · exact calm_resolveExpired (calm_takeDemand h1 _) _ hl
    · exact calm_resolveExpired h1 _ hl
  · split
    · exact calm_testProbe (calm_takeDemand h1 _)
    · exact calm_testProbe h1

theorem calm_disturbProbe {s₀ s : State} (h : Calm s₀ s) (hl : ∀ q, s.bank.probe = some q → s₀.live q.pos = true) :
    Calm s₀ s.disturbProbe := by
  unfold State.disturbProbe
  split
  · exact h
  · rename_i q hq
    split
    · exact calm_testProbe h
    · exact calm_abandonAttempt h q (hl q hq)
    · exact calm_handOutcome h q _ (hl q hq)

end Sys2Proof.Machine
end

