-- ==== Sys2Proof/Laws/Taking.lean ====
section
/-! SUPPORT. Taking the head of a queue: what `serve` does with a head that can be taken, and what a reply adds to the
link it goes to (R186, R187). -/

namespace Sys2Proof.Machine

/-- The link of a head as its request leaves the queue. -/
theorem unqueue_head {s : State} {l : LinkId} {m : Mlu} {f : List Byte} {rest : List (List Byte)} {r : Request}
    (h : Head s l m f rest r) : s.unqueue l = s.setLink l { m with queue := rest } := by
  unfold State.unqueue State.modLink
  rw [h.link]
  simp only [h.queue, List.drop_one, List.tail_cons]

theorem take_head {s : State} {l : LinkId} {m : Mlu} {f : List Byte} {rest : List (List Byte)} {r : Request}
    (h : Head s l m f rest r) : s.take l (reqKind r) = some ⟨m.role, byteAt f 1, r⟩ := by
  unfold State.take
  rw [h.link]
  simp only [h.queue, h.form]
  rw [if_pos (by simpa using ⟨h.free, h.room⟩)]

/-- A head that can be taken is taken: carried out where its role may send it, refused with RIGHTS elsewhere. -/
theorem serve_head {s : State} {l : LinkId} {m : Mlu} {f : List Byte} {rest : List (List Byte)} {r : Request}
    (h : Head s l m f rest r) (act : Taken → State → State) :
    s.serve l (reqKind r) act =
      if roleMay m.role (reqKind r) then act ⟨m.role, byteAt f 1, r⟩ (s.setLink l { m with queue := rest })
      else (s.setLink l { m with queue := rest }).answer l (reqKind r) (byteAt f 1) .rights [] := by
  unfold State.serve
  rw [take_head h]
  simp only [unqueue_head h, State.refuseRights]
  rfl

/-- A reply on an active link. -/
theorem answer_link {s : State} {l : LinkId} {m : Mlu} (hm : s.link l = some m) (ha : m.busOff = false) (k : ReqKind)
    (tag : Byte) (st : Status) (c : List Byte) : s.answer l k tag st c = s.setLink l (m.replied m.queue k tag st c) := by
  unfold State.answer State.reply
  rw [State.place_active hm ha]
  rfl

/-- A reply on the link whose head has left its queue. -/
theorem answer_head {s : State} {l : LinkId} {m : Mlu} {f : List Byte} {rest : List (List Byte)} {r : Request}
    (h : Head s l m f rest r) (k : ReqKind) (tag : Byte) (st : Status) (c : List Byte) :
    (s.setLink l { m with queue := rest }).answer l k tag st c = s.setLink l (m.replied rest k tag st c) := by
  rw [answer_link (m := { m with queue := rest }) (by simp) h.active, State.setLink_setLink]
  rfl

/-- An act whose last word on a link is `m'`, with the pending set of `m`: no attention frame is due (R190). -/
theorem finish_setLink {s t : State} {l : LinkId} {m m' : Mlu} (hm : s.link l = some m)
    (hp : m.pending ≠ 0 ∨ m'.pending = 0) (ht : t.links = s.links) :
    s.finish (t.setLink l m') = t.setLink l m' := by
  have h1 : ∀ k, (t.setLink l m').link k = if l = k then some m' else s.link k := by
    intro k
    rw [State.link_setLink, State.link_of_links ht]
  have hkey : ∀ k, s.attend (t.setLink l m') k = t.setLink l m' := by
    intro k
    unfold State.attend
    rw [h1]
    by_cases hk : l = k
    · subst hk
      rw [hm, if_pos rfl]
      dsimp only
      rw [if_neg]
      rintro ⟨a, b, -⟩
      rcases hp with hp | hp
      · exact hp a
      · exact b hp
    · rw [if_neg hk]
      cases s.link k with
      | none => rfl
      | some x =>
        dsimp only
        rw [if_neg]
        rintro ⟨a, b, -⟩
        exact b a
  unfold State.finish
  rw [hkey, hkey, hkey]

/-- A quiet request: nothing is changed but the link that is answered. -/
theorem finish_replied {s t : State} {l : LinkId} {m : Mlu} (hm : s.link l = some m) (ht : t.links = s.links)
    (rest : List (List Byte)) (k : ReqKind) (tag : Byte) (st : Status) (c : List Byte) :
    s.finish (t.setLink l (m.replied rest k tag st c)) = t.setLink l (m.replied rest k tag st c) := by
  refine finish_setLink hm ?_ ht
  by_cases h : m.pending = 0
  · exact Or.inr h
  · exact Or.inl h

/-! ## Whole request commands -/

/-- A quiet request ends with its reply (R190 (4)). -/
theorem finish_answered {s t : State} {l : LinkId} {m : Mlu} (hm : s.link l = some m) (ht : t.links = s.links)
    (rest : List (List Byte)) (k : ReqKind) (tag : Byte) (st : Status) (c : List Byte) :
    s.finish (t.answered l m rest k tag st c) = t.answered l m rest k tag st c := finish_replied hm ht ..

/-- The same for a request that can make a claim: the arbiter alone follows. -/
theorem settle_answered {s t : State} {l : LinkId} {m : Mlu} (hm : s.link l = some m) (ht : t.links = s.links)
    (rest : List (List Byte)) (k : ReqKind) (tag : Byte) (st : Status) (c : List Byte) :
    s.settle (t.answered l m rest k tag st c) = (t.answered l m rest k tag st c).grantIfIdle := by
  unfold State.settle
  apply State.finish_of_pending
  intro j
  rw [grantIfIdle_link]
  unfold State.answered
  rw [State.link_setLink, State.link_of_links ht]
  split
  · rename_i e; subst e; rw [hm]; rfl
  · rfl

/-- A reply after an act that left the links alone. -/
theorem setLink_answer {s : State} {l : LinkId} {m : Mlu} {f : List Byte} {rest : List (List Byte)} {r : Request}
    (h : Head s l m f rest r) (t : State) (k : ReqKind) (tag : Byte) (st : Status)
    (c : List Byte) :
    (t.setLink l { m with queue := rest }).answer l k tag st c = t.answered l m rest k tag st c := by
  rw [answer_link (m := { m with queue := rest }) (by simp) h.active, State.setLink_setLink]
  rfl

/-- Every request command is a serve with one of the two ends. -/
theorem exec_take (l : LinkId) (k : ReqKind) (s : State) : ∃ act : Taken → State → State,
    exec (takeCommand l k) s = .next (s.finish (s.serve l k act)) ∨ exec (takeCommand l k) s = .next (s.settle (s.serve l k act)) := by
  cases k
  case lightingSet => exact ⟨_, Or.inr rfl⟩
  case functionRead => exact ⟨_, Or.inr rfl⟩
  case functionWrite => exact ⟨_, Or.inr rfl⟩
  case watch => exact ⟨_, Or.inr rfl⟩
  case quarantine => exact ⟨_, Or.inr rfl⟩
  case mapRebuild => exact ⟨_, Or.inr rfl⟩
  case profileForce => exact ⟨_, Or.inr rfl⟩
  case freshnessSet => exact ⟨_, Or.inr rfl⟩
  case workshopGrant => exact ⟨_, Or.inr rfl⟩
  all_goals exact ⟨_, Or.inl rfl⟩

/-- A head that its role may send is taken and acted on. -/
theorem serve_take {s : State} {l : LinkId} {m : Mlu} {f : List Byte} {rest : List (List Byte)} {r : Request}
    (h : Head s l m f rest r) {k : ReqKind} (hk : reqKind r = k) (hr : roleMay m.role k = true) (act : Taken → State → State) :
    s.serve l k act = act ⟨m.role, byteAt f 1, r⟩ (s.setLink l { m with queue := rest }) := by
  subst hk
  rw [serve_head h, if_pos hr]

/-! ## Reading past a link -/

theorem pos_setLink (s : State) (l : LinkId) (m : Mlu) (p : Pos) : (s.setLink l m).pos p = s.pos p := State.pos_of_map (by simp) p
theorem chan_setLink (s : State) (l : LinkId) (m : Mlu) (c : ChanId) : (s.setLink l m).chan c = s.chan c := State.chan_of_bank (by simp) c
theorem entry_setLink (s : State) (l : LinkId) (m : Mlu) (r : EntryRef) : (s.setLink l m).entry r = s.entry r := State.entry_of_map (by simp) r

theorem statusContent_setLink (s : State) (l : LinkId) (m : Mlu) (c : ChanId) : (s.setLink l m).statusContent c = s.statusContent c := by
  cases l <;> rfl
theorem positionContent_setLink (s : State) (l : LinkId) (m : Mlu) (p : Pos) : (s.setLink l m).positionContent p = s.positionContent p := by
  cases l <;> rfl

theorem chanOf_val {b : Byte} {c : ChanId} (h : b.toNat = c.val) : chanOf b = some c := by
  unfold chanOf; rw [dif_pos (by rw [h]; exact c.isLt)]; congr 1; exact Fin.ext h
theorem chanOf_none {b : Byte} (h : 12 ≤ b.toNat) : chanOf b = none := by
  unfold chanOf; rw [dif_neg (by omega)]

theorem putChan_setLink (s : State) (l : LinkId) (m : Mlu) (c : ChanId) (ch : Channel) :
    (s.setLink l m).putChan c ch = (s.putChan c ch).setLink l m := by cases l <;> rfl
theorem setProbe_setLink (s : State) (l : LinkId) (m : Mlu) (q : Option Probe) :
    (s.setLink l m).setProbe q = (s.setProbe q).setLink l m := by cases l <;> rfl

end Sys2Proof.Machine
end

