-- ==== Sys2Proof/Laws/Undisturbed.lean ====
section
/-! SUPPORT. That demands, probes and the arbiter leave alone what `Undisturbed` names, and that a channel handed a demand
holds it (R45, R149). -/

namespace Sys2Proof.Machine

/-! ## Links -/

/-- A link but for its pending set, its owed mark and the tail of its buffer. -/
def Mlu.alike (m m' : Mlu) : Prop :=
  m' = { m with pending := m'.pending, buffer := m'.buffer, owed := m'.owed } ∧ m.buffer <+: m'.buffer

theorem Mlu.alike_refl (m : Mlu) : m.alike m := ⟨rfl, List.prefix_rfl⟩

theorem Mlu.alike_trans {a b c : Mlu} (h : a.alike b) (k : b.alike c) : a.alike c := by
  obtain ⟨h1, h2⟩ := h
  obtain ⟨k1, k2⟩ := k
  refine ⟨?_, h2.trans k2⟩
  rw [k1, h1]

theorem Mlu.alike_of_grows {m m' : Mlu} (h : m.grows m') : m.alike m' := by
  obtain ⟨h1, h2⟩ := h
  refine ⟨?_, h2⟩
  rw [h1]

theorem Mlu.alike_of_quiet {m m' : Mlu} (h : m'.quiet = m.quiet) : m.alike m' := by
  obtain ⟨r, b, t, q, bu, o, si, sl, p, i⟩ := m
  obtain ⟨r', b', t', q', bu', o', si', sl', p', i'⟩ := m'
  simp only [Mlu.quiet, Mlu.mk.injEq] at h
  obtain ⟨rfl, rfl, rfl, rfl, rfl, rfl, rfl, rfl, -, rfl⟩ := h
  exact ⟨rfl, List.prefix_rfl⟩

/-! ## The relation -/

theorem Undisturbed.refl (s : State) : Undisturbed s s :=
  ⟨rfl, rfl, ⟨rfl, rfl⟩, fun _ => rfl, fun _ => rfl, ⟨rfl, rfl⟩, ⟨fun _ => rfl, rfl⟩, ⟨rfl, rfl, rfl⟩, rfl, rfl, fun l => by
    cases h : s.link l with
    | none => exact Or.inl ⟨rfl, rfl⟩
    | some m => exact Or.inr ⟨m, m, rfl, rfl, Mlu.alike_refl m⟩, ⟨rfl, rfl⟩⟩

theorem Undisturbed.trans {a b c : State} (h : Undisturbed a b) (k : Undisturbed b c) : Undisturbed a c where
  pending := k.pending.trans h.pending
  matrix := k.matrix.trans h.matrix
  nodes := ⟨k.nodes.1.trans h.nodes.1, k.nodes.2.trans h.nodes.2⟩
  live p := (k.live p).trans (h.live p)
  channels c := (k.channels c).trans (h.channels c)
  supply := ⟨k.supply.1.trans h.supply.1, k.supply.2.trans h.supply.2⟩
  records := ⟨fun r => (k.records.1 r).trans (h.records.1 r), k.records.2.trans h.records.2⟩
  detector := ⟨k.detector.1.trans h.detector.1, k.detector.2.1.trans h.detector.2.1, k.detector.2.2.trans h.detector.2.2⟩
  deferred := k.deferred.trans h.deferred
  posted := k.posted.trans h.posted
  links l := by
    rcases h.links l with ⟨h1, h2⟩ | ⟨m, m', h1, h2, h3⟩
    · rcases k.links l with ⟨-, k2⟩ | ⟨n, n', k1, -⟩
      · exact Or.inl ⟨h1, k2⟩
      · rw [h2] at k1; cases k1
    · rcases k.links l with ⟨k1, -⟩ | ⟨n, n', k1, k2, k3⟩
      · rw [h2] at k1; cases k1
      · rw [h2] at k1; cases k1
        exact Or.inr ⟨m, n', h1, k2, Mlu.alike_trans h3 k3⟩
  straps := ⟨k.straps.1.trans h.straps.1, k.straps.2.trans h.straps.2⟩

/-- A change of nothing but the named fields. -/
theorem Undisturbed.of_calm {s t : State} (h : Calm s t) : Undisturbed s t where
  pending := h.pending
  matrix := h.matrix
  nodes := ⟨h.singles, h.groups⟩
  live := h.live
  channels c := by
    have h1 := h.channels c
    simp only [Channel.lasting, Channel.mk.injEq] at h1
    unfold Channel.held
    simp only [Prod.mk.injEq]
    exact ⟨h1.2.2.1, h1.2.2.2.1, h1.2.2.2.2.2.2.2.1, h1.2.2.2.2.2.2.2.2.1, h1.2.2.2.2.2.2.2.2.2.2.1,
      h1.2.2.2.2.2.2.2.2.2.2.2.1, h1.2.2.2.2.2.2.2.2.2.2.2.2.1⟩
  supply := ⟨h.supply, h.supplyInside⟩
  records := ⟨fun r => by
    cases r
    · exact h.body
    · exact h.brake
    · exact h.service, h.grant⟩
  detector := ⟨h.effective, h.debounce, h.coupling⟩
  deferred := by rw [h.dec]
  posted := by rw [h.dec]
  links l := by
    have := h.links l
    cases hs : s.link l with
    | none => rw [hs] at this; cases ht : t.link l with
      | none => exact Or.inl ⟨rfl, rfl⟩
      | some m => rw [ht] at this; cases this
    | some m => rw [hs] at this; cases ht : t.link l with
      | none => rw [ht] at this; cases this
      | some m' => rw [ht] at this; exact Or.inr ⟨m, m', rfl, rfl, Mlu.alike_of_quiet (by simpa using this)⟩
  straps := h.straps

/-! ## The end of an act -/

theorem straps_setLink (s : State) (l : LinkId) (m : Mlu) :
    (s.setLink l m).links.strap1 = s.links.strap1 ∧ (s.setLink l m).links.strap0 = s.links.strap0 := by
  cases l <;> exact ⟨rfl, rfl⟩

theorem undisturbed_attend (before s : State) (l : LinkId) : Undisturbed s (before.attend s l) where
  pending := attend_pending ..
  matrix := attend_matrix ..
  nodes := by rw [attend_map]; exact ⟨rfl, rfl⟩
  live p := by unfold State.live; rw [State.pos_of_map (attend_map ..)]
  channels c := by rw [State.chan_of_bank (s := s) (by rw [attend_bank])]
  supply := by rw [attend_bank]; exact ⟨rfl, rfl⟩
  records := by rw [attend_light]; exact ⟨fun _ => rfl, rfl⟩
  detector := by rw [attend_det]; exact ⟨rfl, rfl, rfl⟩
  deferred := by rw [attend_dec]
  posted := by rw [attend_dec]
  links k := by
    rw [attend_link]
    split
    · rename_i e; subst e
      cases hs : s.link l with
      | none =>
        left
        refine ⟨rfl, ?_⟩
        cases before.link l <;> rfl
      | some m =>
        right
        cases hb : before.link l with
        | none => exact ⟨m, m, rfl, rfl, Mlu.alike_refl m⟩
        | some m0 => exact ⟨m, _, rfl, rfl, Mlu.alike_of_grows (attended_grows ..)⟩
    · cases hs : s.link k with
      | none => exact Or.inl ⟨rfl, rfl⟩
      | some m => exact Or.inr ⟨m, m, rfl, rfl, Mlu.alike_refl m⟩
  straps := by
    unfold State.attend State.attentionDue
    split
    · split
      · split
        · exact ⟨rfl, rfl⟩
        · split <;> exact straps_setLink ..
      · exact ⟨rfl, rfl⟩
    · exact ⟨rfl, rfl⟩

theorem undisturbed_finish (before s : State) : Undisturbed s (before.finish s) :=
  ((undisturbed_attend before s .a).trans (undisturbed_attend before _ .b)).trans (undisturbed_attend before _ .c)

theorem modDeferred_asks (s : State) (d : Deferred) :
    (s.modDeferred d fun x => { x with inFlight := true }).dec.deferred.map (fun d => (d.link, d.tag, d.number, d.value)) =
      s.dec.deferred.map (fun d => (d.link, d.tag, d.number, d.value)) := by
  unfold State.modDeferred
  simp only [List.map_map]
  refine List.map_congr_left fun x _ => ?_
  simp only [Function.comp]
  split <;> rfl

theorem modPosted_asks (s : State) (n : Nat) :
    (s.modPosted n fun x => { x with carried := some (x.value, x.poster), replaced := false }).dec.posted.map
        (fun p => (p.number, p.value, p.poster)) = s.dec.posted.map (fun p => (p.number, p.value, p.poster)) := by
  unfold State.modPosted
  simp only [List.map_map]
  refine List.map_congr_left fun x _ => ?_
  simp only [Function.comp]
  split <;> rfl

theorem grant_asks (s : State) :
    s.grant.dec.deferred.map (fun d => (d.link, d.tag, d.number, d.value)) =
      s.dec.deferred.map (fun d => (d.link, d.tag, d.number, d.value)) ∧
    s.grant.dec.posted.map (fun p => (p.number, p.value, p.poster)) =
      s.dec.posted.map (fun p => (p.number, p.value, p.poster)) := by
  unfold State.grant
  split
  · exact ⟨rfl, rfl⟩
  · split
    · exact ⟨rfl, rfl⟩
    · split
      · exact ⟨modDeferred_asks .., rfl⟩
      · split
        · exact ⟨modDeferred_asks .., rfl⟩
        · split
          · exact ⟨rfl, modPosted_asks ..⟩
          · split <;> exact ⟨rfl, rfl⟩

theorem undisturbed_grantIfIdle (s : State) : Undisturbed s s.grantIfIdle where
  pending := State.grantIfIdle_pending s
  matrix := State.grantIfIdle_matrix s
  nodes := by rw [State.grantIfIdle_map]; exact ⟨rfl, rfl⟩
  live p := by unfold State.live; rw [State.pos_of_map (State.grantIfIdle_map s)]
  channels c := by rw [State.chan_of_bank (s := s) (by rw [State.grantIfIdle_bank])]
  supply := by rw [State.grantIfIdle_bank]; exact ⟨rfl, rfl⟩
  records := by rw [State.grantIfIdle_light]; exact ⟨fun _ => rfl, rfl⟩
  detector := by rw [State.grantIfIdle_det]; exact ⟨rfl, rfl, rfl⟩
  deferred := by
    unfold State.grantIfIdle
    split
    · exact (grant_asks s).1
    · rfl
  posted := by
    unfold State.grantIfIdle
    split
    · exact (grant_asks s).2
    · rfl
  links k := by
    rw [grantIfIdle_link]
    exact (Undisturbed.refl s).links k
  straps := by rw [State.grantIfIdle_links]; exact ⟨rfl, rfl⟩

theorem undisturbed_settle (before s : State) : Undisturbed s (before.settle s) :=
  (undisturbed_grantIfIdle s).trans (undisturbed_finish before _)

/-! ## Demand handed over (R45, R149) -/

theorem acceptDemand_held (routed wasOn on : Bool) (d : Demand) (ch : Channel) :
    (ch.acceptDemand routed wasOn on d).held = ch.held ∧ (ch.acceptDemand routed wasOn on d).demand = d := by
  have key : ∀ a b : Channel, a.lasting = b.lasting → a.held = b.held ∧ a.demand = b.demand := by
    intro a b h
    simp only [Channel.lasting, Channel.mk.injEq] at h
    unfold Channel.held
    simp only [Prod.mk.injEq]
    exact ⟨⟨h.2.2.1, h.2.2.2.1, h.2.2.2.2.2.2.2.1, h.2.2.2.2.2.2.2.2.1, h.2.2.2.2.2.2.2.2.2.2.1,
      h.2.2.2.2.2.2.2.2.2.2.2.1, h.2.2.2.2.2.2.2.2.2.2.2.2.1⟩, h.2.1⟩
  have h0 : (ch.acceptDemand routed wasOn on d).lasting = { ch with demand := d }.lasting := by
    unfold Channel.acceptDemand
    dsimp only
    split
    · exact takeDemand_lasting ..
    · split
      · exact toOff_lasting ..
      · unfold Channel.reMode
        split
        · split
          · exact switchTo_lasting on { ch with demand := d }
          · exact switchTo_lasting ..
        · exact switchTo_lasting ..
    all_goals rfl
  exact ⟨(key _ _ h0).1, (key _ _ h0).2⟩

theorem handDemand_chan (before s : State) (c d : ChanId) :
    (State.handDemand before s c).chan d =
      if c = d then
        (if before.newDemand c = (s.chan c).demand then s.chan c
          else (s.chan c).acceptDemand (s.routed c) (before.wantsOn (s.chan c).demand)
            (s.wantsOn (before.newDemand c)) (before.newDemand c))
      else s.chan d := by
  unfold State.handDemand
  dsimp only
  by_cases h : before.newDemand c = (s.chan c).demand
  · rw [if_pos h]
    by_cases e : c = d
    · subst e; rw [if_pos rfl, if_pos h]
    · rw [if_neg e]
  · rw [if_neg h, State.chan_putChan]
    by_cases e : c = d
    · subst e; rw [if_pos rfl, if_pos rfl, if_neg h]
    · rw [if_neg e, if_neg e]

/-- What a hand-over of demand leaves of the whole part. -/
structure Handed (s t : State) : Prop where
  pending : t.pending = s.pending
  map : t.map = s.map
  matrix : t.matrix = s.matrix
  load : t.load = s.load
  bus : t.bus = s.bus
  light : t.light = s.light
  dec : t.dec = s.dec
  links : t.links = s.links
  freeCount : t.freeCount = s.freeCount
  supply : t.bank.supply = s.bank.supply ∧ t.bank.supplyInside = s.bank.supplyInside
  probe : t.bank.probe = s.bank.probe
  flashers : t.bank.turn = s.bank.turn ∧ t.bank.emergency = s.bank.emergency
  detector : t.det.effective = s.det.effective ∧ t.det.debounce = s.det.debounce ∧
    t.det.couplingDemand = s.det.couplingDemand ∧ t.det.watches = s.det.watches ∧ t.det.relearn = s.det.relearn

theorem Handed.refl (s : State) : Handed s s :=
  ⟨rfl, rfl, rfl, rfl, rfl, rfl, rfl, rfl, rfl, ⟨rfl, rfl⟩, rfl, ⟨rfl, rfl⟩, rfl, rfl, rfl, rfl, rfl⟩

theorem Handed.trans {a b c : State} (h : Handed a b) (k : Handed b c) : Handed a c :=
  ⟨k.1.trans h.1, k.2.trans h.2, k.3.trans h.3, k.4.trans h.4, k.5.trans h.5, k.6.trans h.6, k.7.trans h.7, k.8.trans h.8,
    k.9.trans h.9, ⟨k.10.1.trans h.10.1, k.10.2.trans h.10.2⟩, k.11.trans h.11,
    ⟨k.12.1.trans h.12.1, k.12.2.trans h.12.2⟩, k.13.1.trans h.13.1, k.13.2.1.trans h.13.2.1,
    k.13.2.2.1.trans h.13.2.2.1, k.13.2.2.2.1.trans h.13.2.2.2.1, k.13.2.2.2.2.trans h.13.2.2.2.2⟩

theorem handed_putChan (s : State) (c : ChanId) (ch : Channel) : Handed s (s.putChan c ch) :=
  ⟨rfl, rfl, rfl, rfl, rfl, rfl, rfl, rfl, rfl, ⟨rfl, rfl⟩, rfl, ⟨rfl, rfl⟩, by
    unfold State.putChan; dsimp only; split <;> exact ⟨rfl, rfl, rfl, rfl, rfl⟩⟩

theorem handed_handDemand (before s : State) (c : ChanId) : Handed s (State.handDemand before s c) := by
  unfold State.handDemand
  dsimp only
  split
  · exact Handed.refl s
  · exact handed_putChan ..

/-- The demands of some channels handed over, one after the other. -/
theorem handDemands (before : State) : ∀ (cs : List ChanId), cs.Nodup → ∀ s : State,
    Handed s (cs.foldl (State.handDemand before) s) ∧
    (∀ c, c ∉ cs → (cs.foldl (State.handDemand before) s).chan c = s.chan c) ∧
    ∀ c, c ∈ cs → (cs.foldl (State.handDemand before) s).chan c =
      if before.newDemand c = (s.chan c).demand then s.chan c
      else (s.chan c).acceptDemand (s.routed c) (before.wantsOn (s.chan c).demand) (s.wantsOn (before.newDemand c))
        (before.newDemand c)
  | [], _, s => ⟨Handed.refl s, fun _ _ => rfl, fun c h => by cases h⟩
  | d :: cs, hn, s => by
    rw [List.nodup_cons] at hn
    obtain ⟨h1, h2, h3⟩ := handDemands before cs hn.2 (State.handDemand before s d)
    have h0 := handed_handDemand before s d
    rw [List.foldl_cons]
    refine ⟨h0.trans h1, ?_, ?_⟩
    · intro c hc
      rw [List.mem_cons, not_or] at hc
      rw [h2 c hc.2, handDemand_chan, if_neg (fun e => hc.1 e.symm)]
    · intro c hc
      rcases List.mem_cons.mp hc with e | hc
      · subst e
        rw [h2 c hn.1, handDemand_chan, if_pos rfl]
      · have hne : d ≠ c := fun e => hn.1 (e ▸ hc)
        rw [h3 c hc, handDemand_chan, if_neg hne]
        have hr : (State.handDemand before s d).routed c = s.routed c := by unfold State.routed; rw [h0.matrix]
        have hw : ∀ x, (State.handDemand before s d).wantsOn x = s.wantsOn x := by
          intro x; unfold State.wantsOn; rw [h0.flashers.1, h0.flashers.2]
        rw [hr, hw]

theorem stepFlashers_chan (s : State) (c : ChanId) : s.stepFlashers.chan c = s.chan c := rfl

/-- The demands formed, before a probe gives way (R149). -/
theorem formed (s : State) : ∃ t, (∀ c, t.chan c = if s.newDemand c = (s.chan c).demand then s.chan c
      else (s.chan c).acceptDemand (s.routed c) (s.wantsOn (s.chan c).demand) (s.stepFlashers.wantsOn (s.newDemand c))
        (s.newDemand c)) ∧ Handed s.stepFlashers t ∧
    s.formDemand = match s.probeChan with
      | some c => if s.newDemand c = (s.chan c).demand then t else t.disturbProbe
      | none => t := by
  have h := handDemands s allChans (by decide) s.stepFlashers
  refine ⟨_, fun c => ?_, h.1, rfl⟩
  exact h.2.2 c (by revert c; decide)

/-- Demands handed over disturb nothing but states and outputs. -/
theorem undisturbed_handed {s t : State} (h : Handed s.stepFlashers t)
    (hc : ∀ c, (t.chan c).held = (s.chan c).held) : Undisturbed s t where
  pending := h.pending
  matrix := h.matrix
  nodes := by rw [h.map]; exact ⟨rfl, rfl⟩
  live p := by unfold State.live; rw [State.pos_of_map h.map]; rfl
  channels := hc
  supply := h.supply
  records := by rw [h.light]; exact ⟨fun _ => rfl, rfl⟩
  detector := ⟨h.detector.1, h.detector.2.1, h.detector.2.2.1⟩
  deferred := by rw [h.dec]; rfl
  posted := by rw [h.dec]; rfl
  links l := by rw [State.link_of_links h.links]; exact (Undisturbed.refl s).links l
  straps := by rw [h.links]; exact ⟨rfl, rfl⟩

/-- After the demands have been formed every channel holds the demand formed for it, and nothing else is disturbed. -/
theorem formDemand_disturbs {s : State} (hq : ∀ q, s.bank.probe = some q → s.live q.pos = true) :
    Undisturbed s s.formDemand ∧ (∀ c, (s.formDemand.chan c).demand = s.newDemand c) ∧
      ∀ l, (s.formDemand.link l).map Mlu.quiet = (s.link l).map Mlu.quiet := by
  obtain ⟨t, ht, hh, he⟩ := formed s
  have hd : ∀ c, (t.chan c).demand = s.newDemand c := by
    intro c
    rw [ht]
    split
    · rename_i h; exact h.symm
    · exact (acceptDemand_held ..).2
  have hu : Undisturbed s t := undisturbed_handed hh fun c => by
    rw [ht]
    split
    · rfl
    · exact (acceptDemand_held ..).1
  have hl : ∀ l, (t.link l).map Mlu.quiet = (s.link l).map Mlu.quiet := fun l => by
    rw [State.link_of_links hh.links]; rfl
  rw [he]
  split
  · split
    · exact ⟨hu, hd, hl⟩
    · have hc : Calm t t.disturbProbe := calm_disturbProbe (Calm.refl t) fun q hp => by
        rw [hu.live]
        exact hq q (by rw [← hp, hh.probe]; rfl)
      exact ⟨hu.trans (Undisturbed.of_calm hc), fun c => (hc.demand c).trans (hd c), fun l => (hc.links l).trans (hl l)⟩
  · exact ⟨hu, hd, hl⟩

/-- The effective states follow from what is left undisturbed (R143). -/
theorem Undisturbed.effective {s t : State} (h : Undisturbed s t) : t.effective = s.effective := by
  unfold State.effective State.serviceCounted State.bench
  have h1 := h.records.1 .body
  have h2 := h.records.1 .brake
  have h3 := h.records.1 .service
  simp only [Lighting.record] at h1 h2 h3
  rw [h1, h2, h3, h.records.2, h.straps.1, h.straps.2]

/-! ## A reply after an act that disturbs nothing -/

theorem live_setLink (s : State) (l : LinkId) (m : Mlu) (p : Pos) : (s.setLink l m).live p = s.live p := by
  cases l <;> rfl

/-- A reply placed after an act that has placed no frame (R184). -/
theorem undisturbed_answer {u t : State} {l : LinkId} {m : Mlu} {rest : List (List Byte)}
    (hm : u.link l = some { m with queue := rest }) (hb : m.busOff = false) (h : Undisturbed u t)
    (hq : (t.link l).map Mlu.quiet = (u.link l).map Mlu.quiet) (k : ReqKind) (tag : Byte) (st : Status) (c : List Byte) :
    Undisturbed (u.answered l m rest k tag st c) (t.answer l k tag st c) := by
  rw [hm] at hq
  cases ht : t.link l with
  | none => rw [ht] at hq; cases hq
  | some m' =>
    rw [ht] at hq
    have hq' : m'.quiet = { m with queue := rest }.quiet := by simpa using hq
    have e : m' = { m with queue := rest, pending := m'.pending } := by
      obtain ⟨r, b, tx, q, bu, o, si, sl, p, i⟩ := m
      obtain ⟨r', b', tx', q', bu', o', si', sl', p', i'⟩ := m'
      simp only [Mlu.quiet, Mlu.mk.injEq] at hq'
      obtain ⟨rfl, rfl, rfl, rfl, rfl, rfl, rfl, rfl, -, rfl⟩ := hq'
      rfl
    rw [answer_link ht (by rw [e]; exact hb)]
    unfold State.answered
    refine ⟨by simp [h.pending], by simp [h.matrix], by simp [h.nodes], ?_, ?_, by simp [h.supply], ?_,
      by simp [h.detector], by simp [h.deferred], by simp [h.posted], ?_, ?_⟩
    · intro p; rw [live_setLink, live_setLink]; exact h.live p
    · intro d; rw [chan_setLink, chan_setLink]; exact h.channels d
    · simp only [State.setLink_light]; exact h.records
    · intro j
      rw [State.link_setLink, State.link_setLink]
      by_cases ej : l = j
      · rw [if_pos ej, if_pos ej]
        refine Or.inr ⟨_, _, rfl, rfl, ?_, ?_⟩
        · rw [e]; rfl
        · rw [e]; exact List.prefix_rfl
      · rw [if_neg ej, if_neg ej]; exact h.links j
    · rw [(straps_setLink ..).1, (straps_setLink ..).2, (straps_setLink ..).1, (straps_setLink ..).2]; exact h.straps

end Sys2Proof.Machine
end

