-- ==== Sys2Proof/Laws/Ends.lean ====
section
/-! SUPPORT. The end of an act where nothing was raised, events told, bits of sets, what one channel keeps through a
change of state, and what a change of its output sets (R46). -/

namespace Sys2Proof.Machine

/-! ## The end of an act -/

theorem links_same {s t : State} (h : t.links = s.links) : s.finish t = t := by
  apply State.finish_of_pending
  intro l; rw [State.link_of_links h]

theorem settle_same {s t : State} (h : t.links = s.links) : s.settle t = t.grantIfIdle := by
  unfold State.settle
  exact links_same (by rw [State.grantIfIdle_links, h])

theorem settle_putChan (s : State) (c : ChanId) (ch : Channel) : s.settle (s.putChan c ch) = (s.putChan c ch).grantIfIdle := settle_same rfl

theorem chan_settle (before s : State) (c : ChanId) : (before.settle s).chan c = s.chan c := State.chan_of_bank (s := s) (by rw [State.settle_bank]) c

theorem holds_iff (m : Mlu) : m.holdsAttention = true ↔ ∃ fr ∈ m.buffer, fr.kind = .attention := by
  unfold Mlu.holdsAttention; simp

/-- pending kinds survive the end of an act -/
theorem told_settle {before s : State} {j : LinkId} {m' : Mlu} (h : s.link j = some m') (k : Nat) (hk : hasBit m'.pending k = true) :
   ∃ m'', (before.settle s).link j = some m'' ∧ hasBit m''.pending k = true := by
  unfold State.settle
  have hg : s.grantIfIdle.link j = some m' := by rw [grantIfIdle_link]; exact h
  cases hb : before.link j with
  | none =>
    have := (undisturbed_finish before s.grantIfIdle).links j
    refine ⟨m', ?_, hk⟩
    unfold State.finish
    have key : ∀ (t : State) i, t.link j = some m' → (before.attend t i).link j = some m' := by
      intro t i ht
      rw [attend_link]
      split
      · rename_i e; subst e; rw [hb]; exact ht
      · exact ht
    exact key _ _ (key _ _ (key _ _ hg))
  | some m =>
    refine ⟨_, finish_link hb hg, ?_⟩
    have := (attended_grows s.grantIfIdle j m m').1
    rw [this]; exact hk

theorem told_of_raise {before s t : State} (k : EventKind) 
   (hs : ∀ l m, s.link l = some m → hasBit m.interest (eventBit k) = true → ∃ m', t.link l = some m' ∧ hasBit m'.pending (eventBit k) = true) : s.told (before.settle t) k := by
  intro l m hm hi
  obtain ⟨m', h1, h2⟩ := hs l m hm hi
  exact told_settle h1 _ h2

/-! ## Sets and events -/

theorem fs_ext {a b : FunctionSet} (h : ∀ n, n < 15 → a.getLsbD n = b.getLsbD n) : a = b :=
  BitVec.eq_of_getLsbD_eq h

theorem dropBit_get {w : Nat} (x : BitVec w) (i n : Nat) (hi : n < w) : (dropBit x i).getLsbD n = (x.getLsbD n && decide (n ≠ i)) := by
  unfold dropBit
  rw [BitVec.getLsbD_and, BitVec.getLsbD_not, BitVec.getLsbD_twoPow]
  by_cases h : n = i
  · subst h; simp [hi]
  · have : ¬ (i = n) := fun e => h e.symm
    simp [h, hi, this]

theorem addBit_get {w : Nat} (x : BitVec w) (i n : Nat) (hi : n < w) : (addBit x i).getLsbD n = (x.getLsbD n || decide (n = i)) := by
  unfold addBit
  rw [BitVec.getLsbD_or, BitVec.getLsbD_twoPow]
  by_cases h : n = i
  · subst h; simp [hi]
  · have : ¬ (i = n) := fun e => h e.symm
    simp [h, this]

theorem raise_told (m : Mlu) (k : EventKind) (h : hasBit m.interest (eventBit k) = true) : hasBit (m.raise k).pending (eventBit k) = true := by
  unfold Mlu.raise; rw [if_pos h]
  unfold hasBit; rw [addBit_get _ _ _ (by cases k <;> decide)]; simp

theorem raise_keeps (m : Mlu) (k : EventKind) (n : Nat) (h : hasBit m.pending n = true) : hasBit (m.raise k).pending n = true := by
  unfold Mlu.raise; split
  · unfold hasBit at *
    have : n < 16 := by
      rcases Nat.lt_or_ge n 16 with h' | h'
      · exact h'
      · rw [BitVec.getLsbD_of_ge _ _ h'] at h; cases h
    show (addBit m.pending (eventBit k)).getLsbD n = true
    rw [addBit_get _ _ _ this, h]; rfl
  · exact h

theorem undisturbed_raiseFor (w : State) (roles : RoleSet) (k : EventKind) : Undisturbed w (w.raiseFor roles k) := by
  refine ⟨rfl, rfl, ⟨rfl, rfl⟩, fun _ => rfl, fun _ => rfl, ⟨rfl, rfl⟩, ⟨by intro _; rfl, rfl⟩, ⟨rfl, rfl, rfl⟩, rfl, rfl, ?_, ⟨rfl, rfl⟩⟩
  intro j
  rw [State.link_raiseFor]
  cases w.link j with
  | none => exact Or.inl ⟨rfl, rfl⟩
  | some x =>
    refine Or.inr ⟨x, _, rfl, rfl, ?_⟩
    show Mlu.alike x (if hasBit roles (roleBit x.role.role) = true then x.raise k else x)
    split
    · exact Mlu.alike_of_quiet (raise_quiet ..)
    · exact Mlu.alike_refl x

/-! ## Demands and probes past a link -/

theorem probeLive_of_chain {s : State} (h : s.chainLaw = true) : ∀ q, s.bank.probe = some q → s.live q.pos = true :=
  (chain_iff.mp h).2.2.2.2

theorem newDemand_setLink (s : State) (l : LinkId) (m : Mlu) (c : ChanId) : (s.setLink l m).newDemand c = s.newDemand c := by cases l <;> rfl

theorem effective_setLink (s : State) (l : LinkId) (m : Mlu) : (s.setLink l m).effective = s.effective := by cases l <;> rfl

theorem setRecord_setLink (s : State) (l : LinkId) (m : Mlu) (r : Role) (f : FunctionSet) :
   ({ s.setLink l m with light := (s.setLink l m).light.setRecord r f }) = ({ s with light := s.light.setRecord r f }).setLink l m := by
  cases l <;> rfl

theorem record_setRecord (li : Lighting) (r : Role) (f : FunctionSet) : (li.setRecord r f).record r = f := by cases r <;> rfl

/-! ## One channel -/

theorem Tbl.set_set {α : Type} {n : Nat} (t : Tbl α n) (i : Fin n) (x y : α) : (t.set i x).set i y = t.set i y := by
  simp [Tbl.set]

theorem putChan_putChan' (s : State) (c : ChanId) (a b : Channel) (h : c ≠ 9 ∨ b.state ≠ .drive ∨ a.state = .drive) :
    (s.putChan c a).putChan c b = s.putChan c b := by
  unfold State.putChan
  simp only [Tbl.set_set, State.mk.injEq, true_and, and_true]
  by_cases hc : c = 9
  · by_cases hb : b.state = .drive
    · have ha : a.state = .drive := by
        rcases h with h | h | h
        · exact absurd hc h
        · exact absurd hb h
        · exact h
      simp [hb, ha]
    · by_cases ha : a.state = .drive
      · simp [hc, ha]
      · simp only [hc, hb, ha, ne_eq, not_false_eq_true, and_self, if_true, Option.map_map]
        congr 1
  · simp [hc]

theorem lampChan_ne (l : LampId) : lampChan l ≠ 9 := by revert l; decide

theorem held_of_lasting {a b : Channel} (h : a.lasting = b.lasting) (h2 : a.streakTimer = b.streakTimer) : a.held = b.held := by
  have := lasting_eq h
  unfold Channel.held
  simp [this, h2]

theorem enter_streak (st : ChanState) (ch : Channel) : (ch.enter st).streakTimer = ch.streakTimer := by
  unfold Channel.enter; dsimp only; split <;> rfl

theorem switchTo_streak (on : Bool) (ch : Channel) : (ch.switchTo on).streakTimer = ch.streakTimer := by
  unfold Channel.switchTo; split
  · rfl
  · split <;> rfl

theorem switchTo_held (on : Bool) (ch : Channel) : (ch.switchTo on).held = ch.held := held_of_lasting (switchTo_lasting ..) (switchTo_streak ..)

theorem enter_held (st : ChanState) (ch : Channel) : (ch.enter st).held = ch.held := held_of_lasting (enter_lasting ..) (enter_streak ..)

theorem takeDemand_held (r on : Bool) (ch : Channel) : (ch.takeDemand r on).held = ch.held := by
  refine held_of_lasting (takeDemand_lasting ..) ?_
  unfold Channel.takeDemand Channel.toDrive Channel.toOff
  split
  · exact (switchTo_streak on (ch.enter .drive)).trans (enter_streak ..)
  · exact (enter_streak ..).trans (switchTo_streak ..)

theorem takeDemand_state (r on : Bool) (ch : Channel) : (ch.takeDemand r on).state = (if r = true ∧ ch.demand ≠ .off then .drive else .off) := by
  unfold Channel.takeDemand
  split
  · show ((ch.enter .drive).switchTo on).state = _
    simp
  · show ((ch.switchTo false).enter .off).state = _
    simp

/-! ## Switching of an output (R46) -/

/-- What a channel keeps of its output: whether it is on, and the times and the peak that switching it sets. -/
def Channel.times (ch : Channel) : Bool × Nat × Nat × Nat := (ch.output, ch.sinceOn, ch.peak, ch.sinceOff)

theorem Channel.Switched.congr {a a' b b' : Channel} (k : b.Switched b') (h : a.times = b.times) (h' : a'.times = b'.times) :
    a.Switched a' := by
  simp only [Channel.times, Prod.mk.injEq] at h h'
  obtain ⟨h1, h2, h3, h4⟩ := h
  obtain ⟨k1, k2, k3, k4⟩ := h'
  constructor <;> rw [h1, k1]
  · rw [k2, k3]; exact k.on
  · rw [h2, h3, k2, k3]; exact k.staysOn
  · rw [k4]; exact k.off
  · rw [h4, k4]; exact k.staysOff

theorem enter_times (st : ChanState) (ch : Channel) : (ch.enter st).times = ch.times := by
  unfold Channel.enter; dsimp only; split <;> rfl

/-- A channel that keeps output and times has switched nothing. -/
theorem switched_same {ch ch' : Channel} (h : ch'.times = ch.times) : ch.Switched ch' := by
  have k : ch.Switched ch := ⟨fun a b => (by rw [a] at b; cases b), fun _ _ => ⟨rfl, rfl⟩, fun a b => (by rw [a] at b; cases b), fun _ _ => rfl⟩
  exact k.congr rfl h

theorem switched_switchTo (on : Bool) (ch : Channel) : ch.Switched (ch.switchTo on) := by
  unfold Channel.switchTo
  split
  · constructor <;> intro h1 h2
    · rw [h1] at h2; cases h2
    · exact ⟨rfl, rfl⟩
    · rw [h1] at h2; cases h2
    · rfl
  · rename_i h
    split
    · rename_i hon
      have ho : ch.output = false := by
        cases hc : ch.output with
        | false => rfl
        | true => exact absurd (hon.trans hc.symm) h
      constructor <;> intro h1 h2
      · exact ⟨rfl, rfl⟩
      · rw [ho] at h1; cases h1
      · cases h2
      · cases h2
    · constructor <;> intro h1 h2
      · cases h2
      · cases h2
      · rfl
      · exact absurd (by cases on <;> simp_all) h

theorem switched_toDrive (on : Bool) (ch : Channel) : ch.Switched (ch.toDrive on) :=
  (switched_switchTo on (ch.enter .drive)).congr (enter_times ..).symm rfl

theorem switched_toOff (ch : Channel) : ch.Switched ch.toOff := (switched_switchTo false ch).congr rfl (enter_times ..)

theorem switched_toGap (ch : Channel) : ch.Switched ch.toGap := (switched_switchTo false ch).congr rfl (enter_times ..)

theorem switched_toProbeOn (ch : Channel) : ch.Switched ch.toProbeOn :=
  (switched_switchTo true (ch.enter .probeOn)).congr (enter_times ..).symm rfl

theorem switched_takeDemand (r on : Bool) (ch : Channel) : ch.Switched (ch.takeDemand r on) := by
  unfold Channel.takeDemand
  split
  · exact switched_toDrive ..
  · exact switched_toOff ..

theorem switched_reMode (wasOn on : Bool) (ch : Channel) : ch.Switched (ch.reMode wasOn on) := by
  unfold Channel.reMode
  split
  · split
    · exact (switched_switchTo on ch).congr rfl rfl
    · exact switched_switchTo ..
  · exact switched_switchTo ..

theorem threshold_eq (c : ChanId) : tripThreshold c = if c = 9 ∨ c = 10 then 20000 else 12000 := by
  revert c; decide

theorem setLink_testProbe (s : State) (l : LinkId) (m : Mlu) : (s.setLink l m).testProbe = s.testProbe.setLink l m := by
  have hb : ∀ q, (s.setLink l m).beginAttempt q = (s.beginAttempt q).setLink l m := by
    intro q
    have hw : ∀ d, (s.setLink l m).wantsOn d = s.wantsOn d := by intro d; cases l <;> rfl
    unfold State.beginAttempt
    dsimp only
    rw [chan_setLink, setProbe_setLink]
    cases hs : (s.chan (lampChan q.lamp)).state <;> dsimp only
    · split <;> rw [putChan_setLink]
    · cases hd : (s.chan (lampChan q.lamp)).demand <;> dsimp only
      · rw [putChan_setLink]
      · rw [putChan_setLink]
      all_goals
        split
        · rename_i h
          rw [if_pos (by cases l <;> exact h)]
        · rename_i h
          rw [if_neg (by cases l <;> exact h), putChan_setLink]
  unfold State.testProbe
  rw [State.setLink_bank]
  cases s.bank.probe with
  | none => rfl
  | some q =>
    dsimp only
    have : (s.setLink l m).canProbe (lampChan q.lamp) = s.canProbe (lampChan q.lamp) := by cases l <;> rfl
    rw [this]
    split
    · exact hb q
    · rfl

/-! ## Readings -/

theorem quantise_wf {top v : Nat} (h : readingFits top v = true) : quantise top v = v := by
  unfold readingFits at h
  simp only [Bool.and_eq_true, decide_eq_true_eq, beq_iff_eq] at h
  unfold quantise
  rw [Nat.min_eq_right h.1]; omega

theorem supplyInside_eq (mv : Nat) : supplyInside mv = decide (20000 ≤ mv ∧ mv ≤ 32000) := by
  unfold supplyInside; simp

theorem tempclamp {deg : Int} (h1 : -40 ≤ deg) (h2 : deg ≤ 200) : clampTemperature deg = deg := by
  unfold clampTemperature; omega

theorem readTemperature_eq (s : State) (c : ChanId) (deg : Int) : s.readTemperature c deg =
    (let ch := s.chan c
     let h := ch.heat (s.routed c) (s.wantsOn ch.demand) deg
     let t := if h.2 = true then (s.putChan c h.1).raiseAll .thermal else s.putChan c h.1
     if t.probeChan = some c then (if (h.1.derated && !ch.derated || (decide (h.1.state = .thermalOff) && decide (ch.state ≠ .thermalOff))) = true then t.disturbProbe else t.testProbe) else t) := rfl

/-! ## The arbiter -/

theorem fold_firstDue (n : Nat) (tgt : EntryRef × Nat × Option Nat) (ht : tgt.2.2 = some n) :
    ∀ (xs : List (EntryRef × Nat × Option Nat)) (a : EntryRef × Nat × Option Nat),
      (∀ x ∈ a :: xs, ∀ y, x.2.2 = some y → n < y ∨ x = tgt) → (a = tgt ∨ tgt ∈ xs) → xs.foldl firstDue a = tgt
  | [], a, _, h => by rcases h with h | h
                      · exact h
                      · cases h
  | x :: xs, a, hm, h => by
    rw [List.foldl_cons]
    have hf : firstDue a x = a ∨ firstDue a x = x := by
      unfold firstDue; repeat' split
      all_goals simp
    have key : (a = tgt → firstDue a x = tgt) ∧ (x = tgt → firstDue a x = tgt) := by
      constructor
      · intro e
        unfold firstDue
        rw [e, ht]
        cases hx : x.2.2 with
        | none => rfl
        | some y =>
          dsimp only
          rcases hm x (by simp) y hx with h1 | h1
          · rw [if_neg (by omega)]
          · rw [h1]; split <;> rfl
      · intro e
        unfold firstDue
        rw [e, ht]
        cases hx : a.2.2 with
        | none => rfl
        | some y =>
          dsimp only
          rcases hm a (by simp) y hx with h1 | h1
          · rw [if_pos h1]
          · rw [h1]; split <;> rfl
    refine fold_firstDue n tgt ht xs (firstDue a x) ?_ ?_
    · intro z hz y hy
      rcases List.mem_cons.mp hz with rfl | hz
      · rcases hf with e | e <;> rw [e] at hy ⊢
        · exact hm a (by simp) y hy
        · exact hm x (by simp) y hy
      · exact hm z (by simp [hz]) y hy
    · rcases h with h | h
      · exact Or.inl (key.1 h)
      · rcases List.mem_cons.mp h with h | h
        · exact Or.inl (key.2 h.symm)
        · exact Or.inr h

theorem fold_firstDue_none : ∀ (xs : List (EntryRef × Nat × Option Nat)) (a : EntryRef × Nat × Option Nat), a.2.2 = none → (∀ x ∈ xs, x.2.2 = none) →
    xs.foldl firstDue a = a
  | [], _, _, _ => rfl
  | x :: xs, a, ha, hx => by
    rw [List.foldl_cons]
    have : firstDue a x = a := by unfold firstDue; rw [ha, hx x (by simp)]
    rw [this]
    exact fold_firstDue_none xs a ha (fun z hz => hx z (by simp [hz]))

theorem findSome_front {α β : Type} (f : α → Option β) (front : List α) (d : α) (back : List α) (b : β) (h1 : ∀ x ∈ front, f x = none) (h2 : f d = some b) :
    (front ++ d :: back).findSome? f = some b := by
  induction front with
  | nil => simp [h2]
  | cons x xs ih =>
    rw [List.cons_append, List.findSome?_cons, h1 x (by simp)]
    exact ih (fun z hz => h1 z (by simp [hz]))

theorem findSome_none {α β : Type} (f : α → Option β) (xs : List α) (h : ∀ x ∈ xs, f x = none) : xs.findSome? f = none := by
  rw [List.findSome?_eq_none_iff]; exact h

theorem modDeferred_mem (s : State) (d : Deferred) (g : Deferred → Deferred) (h : d ∈ s.dec.deferred) : g d ∈ (s.modDeferred d g).dec.deferred := by
  unfold State.modDeferred
  exact List.mem_map.mpr ⟨d, h, by simp⟩

/-! ## Dark functions and rights -/

theorem foldl_bits (p : Nat → Bool) : ∀ (xs : List Nat) (d : FunctionSet) (n : Nat), n < 15 →
    ((xs.foldl (fun d n => if p n then addBit d n else d) d).getLsbD n = (d.getLsbD n || (decide (n ∈ xs) && p n)))
  | [], d, n, _ => by simp
  | x :: xs, d, n, hn => by
    rw [List.foldl_cons, foldl_bits p xs _ n hn]
    by_cases hx : p x = true
    · rw [if_pos hx]
      unfold addBit
      rw [BitVec.getLsbD_or, BitVec.getLsbD_twoPow]
      by_cases e : x = n
      · subst e; simp [hn, hx]
      · have e' : ¬ n = x := fun h => e h.symm
        simp [e, e']
    · rw [if_neg hx]
      by_cases e : n = x
      · subst e; simp [hx]
      · simp [e]

theorem darkSet_bit (s : State) (named : FunctionSet) (n : Nat) (hn : n < 15) :
    (s.darkSet named).getLsbD n = (named.getLsbD n && s.darkFunction n) := by
  unfold State.darkSet
  rw [foldl_bits (fun n => hasBit named n && s.darkFunction n) _ _ _ hn]
  simp [hn, hasBit]

theorem darkSet_matrix {s t : State} (h : t.matrix = s.matrix) (f : FunctionSet) : t.darkSet f = s.darkSet f := by
  unfold State.darkSet State.darkFunction State.routed
  rw [h]

theorem allF (n : Nat) (hn : n < 15) : (allFunctions).getLsbD n = true := by unfold allFunctions; rw [BitVec.getLsbD_allOnes]; simp [hn]

theorem within_rights {m : Mlu} {s : State} {named : Word16}
    (hb : m.role = .brake → ∀ n, n < 15 → named.getLsbD n = true → n = 2 ∨ n = 13)
    (hs : m.role = .service → s.light.grant = true ∨ ∀ n, n < 15 → named.getLsbD n = false) :
    named.setWidth 15 &&& ~~~ lightingRights m.role s.light.grant = (0 : FunctionSet) := by
  apply fs_ext
  intro n hn
  rw [BitVec.getLsbD_and, BitVec.getLsbD_not, BitVec.getLsbD_setWidth]
  simp only [hn, decide_true, Bool.true_and]
  cases hr : m.role with
  | body => simp only [lightingRights, allF n hn]; simp
  | bench => simp only [lightingRights, allF n hn]; simp
  | brake =>
    by_cases hx : named.getLsbD n = true
    · rcases hb hr n hn hx with e | e <;> subst e <;> simp [lightingRights, addBit] <;> (intro _; decide)
    · simp [hx]
  | service =>
    rcases hs hr with h | h
    · simp only [lightingRights, h, if_true, allF n hn]; simp
    · simp [h n hn]

end Sys2Proof.Machine
end

