-- ==== Sys2Proof/Laws/Operands.lean ====
section
/-! SUPPORT. Numbers, words and codes through the bytes of a frame and back (R193, Table 10-3, Table 10-5), and the CRC
register at the end of a frame (R196). -/

namespace Sys2Proof.Machine

theorem word16_split (w : Word16) : word16 (w.extractLsb' 8 8) (w.extractLsb' 0 8) = w := by
  unfold word16
  apply BitVec.eq_of_getLsbD_eq
  intro i hi
  rw [BitVec.getLsbD_append]
  by_cases h : i < 8
  · simp [h]
  · have h8 : 8 + (i - 8) = i := by omega
    have h9 : i - 8 < 8 := by omega
    simp [h, h8, h9]

theorem split_word16 (a b : Byte) : Word16.bytes (word16 a b) = [a, b] := by
  unfold Word16.bytes word16
  congr 1
  · apply BitVec.eq_of_getLsbD_eq
    intro i hi
    simp only [BitVec.getLsbD_extractLsb', hi, decide_true, Bool.true_and, BitVec.getLsbD_append]
    rw [if_neg (by omega)]
    simp
  · congr 1
    apply BitVec.eq_of_getLsbD_eq
    intro i hi
    simp only [BitVec.getLsbD_extractLsb', hi, decide_true, Bool.true_and, BitVec.getLsbD_append]
    rw [if_pos (by omega)]
    simp

theorem byteOf_toNat {n : Nat} (h : n < 256) : (byteOf n).toNat = n := by
  simp [byteOf]
  omega

theorem byteOf_of_toNat {b : Byte} {n : Nat} (h : b.toNat = n) : byteOf n = b := by
  subst h
  simp [byteOf]

theorem flagOfByte_bit (b : Bool) : flagOfByte (byteOf (bit b)) = some b := by cases b <;> rfl

theorem flagOfByte_eq {b : Byte} {x : Bool} (h : flagOfByte b = some x) : byteOf (bit x) = b := by
  unfold flagOfByte at h
  split at h <;> cases h <;> exact byteOf_of_toNat (by assumption)

theorem posOfNumber_eq {n : Nat} {p : Pos} (h : posOfNumber n = some p) : posNumber p = n := by
  unfold posOfNumber at h
  split at h <;> cases h <;> rfl

theorem funOfCode_eq {n : Nat} {k : FunKind} (h : funOfCode n = some k) : funCode k = n := by
  unfold funOfCode at h
  split at h <;> cases h <;> rfl

theorem posFilter_eq {b : Byte} {p : Option Pos} (h : posFilter b = some p) : byteOf ((p.map posNumber).getD 0) = b := by
  unfold posFilter at h
  split at h
  · cases h; exact byteOf_of_toNat (by assumption)
  · cases hp : posOfNumber b.toNat with
    | none => rw [hp] at h; cases h
    | some q => rw [hp] at h; cases h; exact byteOf_of_toNat (posOfNumber_eq hp).symm

theorem kindFilter_eq {b : Byte} {k : Option FunKind} (h : kindFilter b = some k) :
    byteOf ((k.map funCode).getD 0) = b := by
  unfold kindFilter at h
  split at h
  · cases h; exact byteOf_of_toNat (by assumption)
  · cases hp : funOfCode b.toNat with
    | none => rw [hp] at h; cases h
    | some q => rw [hp] at h; cases h; exact byteOf_of_toNat (funOfCode_eq hp).symm

theorem instFilter_eq {b : Byte} {i : Option Nat} (h : instFilter b = some i) :
    byteOf (i.getD 255) = b ∧ ∀ n, i = some n → n ≤ 15 := by
  unfold instFilter at h
  split at h
  · cases h; exact ⟨byteOf_of_toNat (by assumption), fun n hn => by cases hn⟩
  · split at h
    · cases h; exact ⟨byteOf_of_toNat rfl, fun n hn => by cases hn; assumption⟩
    · cases h

theorem entryOfIndex_index (e : EntryRef) : entryOfIndex (byteOf (entryIndex e)).toNat = some e := by
  cases e with
  | single i =>
    have := i.isLt
    rw [byteOf_toNat (by simp [entryIndex]; omega)]
    simp [entryOfIndex, entryIndex]
  | group j =>
    have := j.isLt
    rw [byteOf_toNat (by simp [entryIndex]; omega)]
    simp [entryOfIndex, entryIndex]

theorem entryOfIndex_eq {n : Nat} {e : EntryRef} (h : entryOfIndex n = some e) : entryIndex e = n := by
  unfold entryOfIndex at h
  split at h
  · cases h; rfl
  · split at h
    · cases h; simp only [entryIndex]; omega
    · cases h

theorem crcByte_self (r : Byte) : crcByte r r = 0 := by
  unfold crcByte
  simp only [BitVec.xor_self]
  decide

/-- Over a whole frame, its CRC byte included, the register ends at 0 (R196). -/
theorem crc8_busFrame (addr cmd : Nat) (payload : List Byte) : crc8 (busFrame addr cmd payload) = 0 := by
  unfold busFrame crc8
  simp only [List.foldl_append, List.foldl_cons, List.foldl_nil]
  exact crcByte_self _

theorem replyLength_lt (cmd : Nat) : replyLength cmd < 256 := by
  unfold replyLength
  split <;> omega

end Sys2Proof.Machine
end

