-- ==== Sys2Proof/Laws/Timers.lean ====
section
/-! SUPPORT. The Channel Bank's timers and the evaluation of a check window: what each shared operation does. -/

namespace Sys2Proof.Machine

theorem finish_putChan (s : State) (c : ChanId) (ch : Channel) : s.finish (s.putChan c ch) = s.putChan c ch := links_same rfl

theorem pwmNext_facts (on : Bool) (ch : Channel) (hd : ch.state = .drive) (ho : on = true) :
    (ch.pwmNext on).pwmOn = (!ch.pwmOn) ∧ (ch.pwmNext on).output = (!ch.pwmOn) ∧ (ch.pwmNext on).pwmAge = 0 ∧
    (ch.pwmNext on).sinceOn = ch.sinceOn ∧ (ch.pwmNext on).peak = ch.peak ∧
    (ch.pwmOn = false → (ch.pwmNext on).onFor = 0) ∧ (ch.pwmNext on).state = .drive ∧
    (ch.pwmNext on).demand = ch.demand ∧ (ch.pwmNext on).held = ch.held := by
  unfold Channel.pwmNext
  dsimp only
  cases hp : ch.pwmOn
  · rw [if_pos (by simp [ho])]
    exact ⟨rfl, rfl, rfl, rfl, rfl, fun _ => rfl, hd, rfl, rfl⟩
  · rw [if_neg (by simp)]
    refine ⟨rfl, ?_, rfl, ?_, ?_, (fun h => by cases h), ?_, ?_, ?_⟩
    · show (ch.switchTo false).output = false; simp
    · show (ch.switchTo false).sinceOn = _; unfold Channel.switchTo; split
      · rfl
      · rfl
    · show (ch.switchTo false).peak = _; unfold Channel.switchTo; split
      · rfl
      · rfl
    · show (ch.switchTo false).state = _; simp [hd]
    · show (ch.switchTo false).demand = _; simp
    · show (ch.switchTo false).held = _; rw [switchTo_held]

theorem testProbe_idle {s : State} (h : ∀ q, s.bank.probe = some q → q.phase ≠ .postponed) : s.testProbe = s := by
  unfold State.testProbe
  cases hq : s.bank.probe with
  | none => rfl
  | some q => dsimp only; rw [if_neg]; rintro ⟨a, -⟩; exact h q hq a

theorem phaseOn_facts (ch : Channel) : ch.phaseOn.state = ch.state ∧ ch.phaseOn.output = true ∧ ch.phaseOn.held = ch.held ∧ ch.phaseOn.demand = ch.demand := by
  unfold Channel.phaseOn
  refine ⟨?_, ?_, ?_, ?_⟩
  · show (ch.switchTo true).state = _; simp
  · show (ch.switchTo true).output = _; simp
  · show (ch.switchTo true).held = _; rw [switchTo_held]
  · show (ch.switchTo true).demand = _; simp

/-- Putting back the channel that stands there changes nothing. -/
theorem putChan_same (s : State) (c : ChanId) (hc : c ≠ 9) : s.putChan c (s.chan c) = s := by
  unfold State.putChan State.chan
  have : s.bank.channels.set c (s.bank.channels.get c) = s.bank.channels := by
    unfold Tbl.set Tbl.get; simp
  rw [this]
  simp [hc]

theorem backfeed_facts (ch : Channel) (supply mv : Nat) :
    let put := fun (b : Bool) (h l : Nat) => ({ ch with backfeedAge := 0, backfeed := b, highCount := h, lowCount := l } : Channel)
    (supply < 2 * mv → ch.highCount < 2 ∨ ch.backfeed = true → ch.backfeedCheck supply mv = (put ch.backfeed (min 3 (ch.highCount + 1)) 0, false)) ∧
    (supply < 2 * mv → 2 ≤ ch.highCount → ch.backfeed = false → ch.backfeedCheck supply mv = (put true 0 0, true)) ∧
    (4 * mv < supply → ch.lowCount < 2 ∨ ch.backfeed = false → ch.backfeedCheck supply mv = (put ch.backfeed 0 (min 3 (ch.lowCount + 1)), false)) ∧
    (4 * mv < supply → 2 ≤ ch.lowCount → ch.backfeed = true → ch.backfeedCheck supply mv = (put false 0 0, false)) ∧
    (¬supply < 2 * mv → ¬4 * mv < supply → ch.backfeedCheck supply mv = (put ch.backfeed 0 0, false)) := by
  intro put
  unfold Channel.backfeedCheck
  dsimp only
  refine ⟨?_, ?_, ?_, ?_, ?_⟩
  · intro h1 h2
    rw [if_pos h1]
    rw [if_neg]
    rintro ⟨a, b⟩
    rcases h2 with h2 | h2
    · omega
    · rw [h2] at b; cases b
  · intro h1 h2 h3
    rw [if_pos h1, if_pos ⟨by omega, h3⟩]
  · intro h1 h2
    rw [if_neg (by omega), if_pos h1, if_neg]
    rintro ⟨a, b⟩
    rcases h2 with h2 | h2
    · omega
    · rw [h2] at b; cases b
  · intro h1 h2 h3
    rw [if_neg (by omega), if_pos h1, if_pos ⟨by omega, h3⟩]
  · intro h1 h2
    rw [if_neg h1, if_neg h2]

theorem supplyChan (c : ChanId) : (chanLamp c).isSome = true ↔ c ≠ 9 ∧ c ≠ 10 := by revert c; decide

theorem foldl_add (xs : List Nat) (a : Nat) : xs.foldl (· + ·) a = a + xs.sum := by
  induction xs generalizing a with
  | nil => simp
  | cons x xs ih => rw [List.foldl_cons, ih, List.sum_cons]; omega

theorem meanOf_eq (xs : List Nat) : meanOf xs = (xs.sum + 8) / 16 := by
  unfold meanOf; rw [foldl_add]; simp

theorem suspects_bit (p : Pos) : ∀ (ps : List Pos) (x : SuspectSet), hasBit (ps.foldl (fun set p => addBit set (posNumber p)) x) (posNumber p) = true ↔ hasBit x (posNumber p) = true ∨ p ∈ ps
  | [], x => by simp
  | q :: ps, x => by
    rw [List.foldl_cons, suspects_bit p ps]
    unfold hasBit
    rw [addBit_get _ _ _ (by cases p <;> decide)]
    simp only [Bool.or_eq_true, decide_eq_true_eq, List.mem_cons]
    have : posNumber p = posNumber q ↔ p = q := by cases p <;> cases q <;> decide
    rw [this, or_assoc]

theorem suspectsOf_bit (ps : List Pos) (p : Pos) : hasBit (suspectsOf ps) (posNumber p) = true ↔ p ∈ ps := by
  unfold suspectsOf
  rw [suspects_bit]
  have : hasBit (0 : SuspectSet) (posNumber p) = false := by cases p <;> decide
  rw [this]; simp

theorem mem_readyWhere (s : State) (f : Pos → Bool) (p : Pos) : p ∈ s.readyWhere f ↔ s.ready p = true ∧ f p = true := by
  unfold State.readyWhere
  rw [List.mem_filter]
  have : p ∈ allPos := by cases p <;> decide
  simp [this]

theorem chanLamp_lampChan (l : LampId) : chanLamp (lampChan l) = some l := by revert l; decide

theorem chanLamp_none {c : ChanId} (h : c = 9 ∨ c = 10) : chanLamp c = none := by rcases h with rfl | rfl <;> rfl

theorem not_suspended (s : State) : s.suspended = false ↔ s.det.relearn = none ∧
    ∀ p, (s.pos p).state ≠ .powering ∧ (s.pos p).state ≠ .enumerating ∧ (s.pos p).state ≠ .measuring := by
  have hb : ∀ st : PosState, st.inBringUp = false ↔ st ≠ .powering ∧ st ≠ .enumerating ∧ st ≠ .measuring := by
    intro st; cases st <;> decide
  unfold State.suspended
  rw [Bool.or_eq_false_iff]
  have h1 : s.det.relearn.isSome = false ↔ s.det.relearn = none := by cases s.det.relearn <;> simp
  rw [h1, and_comm]
  have h2 : (allPos.any fun p => (s.pos p).state.inBringUp) = false ↔ ∀ p, (s.pos p).state.inBringUp = false := by
    rw [List.any_eq_false]
    constructor
    · intro h p
      have := h p (by cases p <;> decide)
      simpa using this
    · intro h p _; simp [h p]
  rw [h2]
  simp only [hb]

theorem debounce_facts (v : Verdict) (c : Candidate) (a d : Nat) :
    (c.kind = v.kind ∧ c.suspects = v.suspects → v.debounce c a d = ({ v with pending := none, agreement := 0, attribution := a, deviation := d }, false)) ∧
    (¬(c.kind = v.kind ∧ c.suspects = v.suspects) → v.pending = some c → v.agreement = 1 → v.debounce c a d = ({ v with agreement := 2 }, false)) ∧
    (¬(c.kind = v.kind ∧ c.suspects = v.suspects) → v.pending = some c → v.agreement = 2 → v.debounce c a d = (v.confirm c a d, true)) ∧
    (¬(c.kind = v.kind ∧ c.suspects = v.suspects) → v.pending ≠ some c ∨ v.agreement ≠ 1 ∧ v.agreement ≠ 2 → v.debounce c a d = ({ v with pending := some c, agreement := 1 }, false)) := by
  unfold Verdict.debounce
  refine ⟨?_, ?_, ?_, ?_⟩
  · intro h; rw [if_pos h]
  · intro h h1 h2; rw [if_neg h, if_pos ⟨h1, h2⟩]
  · intro h h1 h2; rw [if_neg h, if_neg (by rintro ⟨-, x⟩; omega), if_pos ⟨h1, h2⟩]
  · intro h h1
    rw [if_neg h, if_neg (by rintro ⟨x, y⟩; rcases h1 with h1 | h1; exact h1 x; exact h1.1 y),
      if_neg (by rintro ⟨x, y⟩; rcases h1 with h1 | h1; exact h1 x; exact h1.2 y)]

theorem attribution_eq (c : Candidate) : attributionOf c = if c.kind = .lampOut ∧ c.suspects = 2 then 1
          else if c.kind = .lampOut ∧ c.suspects = 4 then 2
          else if c.kind = .lampOut ∧ c.suspects = 8 then 3 else 0 := by
  have h1 : suspectsOf [.p1] = 2 := by decide
  have h2 : suspectsOf [.p2] = 4 := by decide
  have h3 : suspectsOf [.p3] = 8 := by decide
  unfold attributionOf
  rw [h1, h2, h3]
  by_cases h : c.kind = .lampOut
  · simp [h]
  · simp [h]

theorem deviation_eq (c : Candidate) (e m : Nat) : deviationOf c e m = if c.kind = .lampOut then e - m else if c.kind = .extraLoad then m - e else 0 := by
  unfold deviationOf; cases c.kind <;> simp

theorem evaluate_eq (s : State) (l : LampId) (m peak : Nat) : s.evaluate l m peak =
    (let c := s.candidate l m
     let g := ({ s.load.verdicts.get l with lastM := m, lastPeak := peak } : Verdict).debounce c (attributionOf c) (deviationOf c (s.load.expected.get l) m)
     let t := { s with load := { s.load with verdicts := s.load.verdicts.set l g.1 } }
     if g.2 = true then (t.raiseAll .lampVerdict).handKind l c.kind else t) := rfl

end Sys2Proof.Machine
end

