-- ==== Sys2Proof/Laws/Measured.lean ====
section
/-! SUPPORT. Measuring a position: what is recorded, what stays, which events stay raised. -/

namespace Sys2Proof.Machine

/-- Every kind pending at a link stays pending. -/
def Louder (s t : State) : Prop := ∀ l m, s.link l = some m → ∃ m', t.link l = some m' ∧ ∀ k, hasBit m.pending k = true → hasBit m'.pending k = true

theorem louder_of_links {s t : State} (h : t.links = s.links) : Louder s t := by
  intro l m hm
  exact ⟨m, by rw [State.link_of_links h]; exact hm, fun _ => id⟩

theorem Louder.trans {a b c : State} (h : Louder a b) (k : Louder b c) : Louder a c := by
  intro l m hm
  obtain ⟨m1, h1, h2⟩ := h l m hm
  obtain ⟨m2, k1, k2⟩ := k l m1 h1
  exact ⟨m2, k1, fun i hi => k2 i (h2 i hi)⟩

theorem louder_raiseAll (s : State) (k : EventKind) : Louder s (s.raiseAll k) := by
  intro l m hm
  refine ⟨_, by unfold State.raiseAll; rw [State.link_raiseFor, hm]; rfl, fun i hi => ?_⟩
  dsimp only
  split
  · exact raise_keeps _ _ _ hi
  · exact hi

theorem louder_resetVerdicts (s : State) (ls : List LampId) : Louder s (s.resetVerdicts ls) := by
  have h : (ls.foldl State.resetVerdict s).links = s.links :=
    foldl_keep (fun s => s.links) (fun s x => by unfold State.resetVerdict; dsimp only; split; rfl; exact handKind_links ..) ls s
  unfold State.resetVerdicts
  dsimp only
  split
  · exact (louder_of_links h).trans (louder_raiseAll _ _)
  · exact louder_of_links h

theorem resetVerdicts_map' (s : State) (ls : List LampId) : (s.resetVerdicts ls).map = s.map := by
  have h : (ls.foldl State.resetVerdict s).map = s.map :=
    foldl_keep (fun s => s.map) (fun s x => by unfold State.resetVerdict; dsimp only; split; rfl; exact handKind_map ..) ls s
  unfold State.resetVerdicts
  dsimp only
  split
  · exact h
  · exact h

/-- What the measuring of later lamp channels leaves of a record already written. -/
structure Recorded (p : Pos) (l : LampId) (s t : State) : Prop where
  plain : (s.pos p).relearn = false → (t.pos p).contrib.get l = (s.pos p).contrib.get l
  shadowed : (s.pos p).relearn = true →
    (t.pos p).shadow.get l = (s.pos p).shadow.get l ∨ (t.pos p).contrib.get l = (s.pos p).shadow.get l
  others : ∀ p', p' ≠ p → (t.pos p').contrib = (s.pos p').contrib
  louder : Louder s t

theorem recorded_end (p : Pos) (l : LampId) (s : State) : Recorded p l s (s.endMeasuring p) ∧ (s.endMeasuring p).bank = s.bank := by
  unfold State.endMeasuring
  split
  · rename_i hr
    unfold State.commitRelearn
    dsimp only
    generalize hA : s.modPos p (PosRec.commit (s.det.relearn.any fun x => x.incomplete)) = A
    have hmap : (({ A with det := { A.det with relearn := none } } : State).formExpected.resetVerdicts allLamps).map = A.map := resetVerdicts_map' ..
    have hpos : ∀ p', (({ A with det := { A.det with relearn := none } } : State).formExpected.resetVerdicts allLamps).pos p' = A.pos p' := fun p' => State.pos_of_map hmap p'
    have hAp : ∀ p', A.pos p' = if p = p' then PosRec.commit (s.det.relearn.any fun x => x.incomplete) (s.pos p) else s.pos p' := by
      intro p'; rw [← hA, State.pos_modPos]
    have hc : ∀ b (r : PosRec), (r.commit b).contrib = r.shadow := by
      intro b r; unfold PosRec.commit PosRec.addReason PosRec.dropReason; dsimp only; split <;> rfl
    refine ⟨⟨?_, ?_, ?_, ?_⟩, ?_⟩
    · intro h; rw [hr] at h; cases h
    · intro _; right; rw [hpos, hAp, if_pos rfl, hc]
    · intro p' hp'; rw [hpos, hAp, if_neg (fun e => hp' e.symm)]
    · exact (louder_of_links (t := ({ A with det := { A.det with relearn := none } } : State).formExpected) (by rw [← hA]; rfl)).trans (louder_resetVerdicts _ _)
    · rw [resetVerdicts_bank]; rw [← hA]; rfl
  · rename_i hr
    unfold State.becomeReady
    dsimp only
    generalize hA : State.modPos ({ s with det := { s.det with bringUp := none } } : State) p PosRec.becomesReady = A
    generalize hB : (A.formExpected.resetVerdicts allLamps).raiseAll .positionReady = B
    have hBm : B.map = A.map := by rw [← hB]; exact resetVerdicts_map' ..
    have hBb : B.bank = A.bank := by rw [← hB]; exact resetVerdicts_bank ..
    have hBl : Louder A B := by
      rw [← hB]
      exact ((louder_of_links (t := A.formExpected) rfl).trans (louder_resetVerdicts _ _)).trans (louder_raiseAll _ _)
    have hAp : ∀ p', (A.pos p').contrib = (s.pos p').contrib := by
      intro p'; rw [← hA, State.pos_modPos]; split
      · rename_i e; subst e; rfl
      · rfl
    have hsl : Louder s A := louder_of_links (by rw [← hA]; rfl)
    have hsb : A.bank = s.bank := by rw [← hA]; rfl
    have main : ∀ t : State, t.map = B.map → t.links = B.links → t.bank = B.bank → Recorded p l s t ∧ t.bank = s.bank := by
      intro t h1 h2 h3
      have hp : ∀ p', (t.pos p').contrib = (s.pos p').contrib := fun p' => by
        rw [State.pos_of_map (h1.trans hBm), hAp]
      refine ⟨⟨fun _ => by rw [hp], fun h => absurd h hr, fun p' _ => hp p', (hsl.trans hBl).trans (louder_of_links h2)⟩, by rw [h3, hBb, hsb]⟩
    split
    · exact main _ rfl rfl rfl
    · exact main _ rfl rfl rfl

theorem recorded_trans {p : Pos} {l : LampId} {s t u : State} (h : Recorded p l s t) (hr : (t.pos p).relearn = (s.pos p).relearn)
    (hs : (s.pos p).relearn = true → (t.pos p).shadow.get l = (s.pos p).shadow.get l) (k : Recorded p l t u) : Recorded p l s u := by
  refine ⟨?_, ?_, ?_, h.louder.trans k.louder⟩
  · intro x; rw [k.plain (by rw [hr]; exact x), h.plain x]
  · intro x
    have := k.shadowed (by rw [hr]; exact x)
    rw [hs x] at this
    exact this
  · intro p' hp'; rw [k.others p' hp', h.others p' hp']

theorem putContribution_facts (l j : LampId) (hj : j ≠ l) (x : Contribution) (r : PosRec) :
   (r.putContribution j x).relearn = r.relearn ∧ (r.putContribution j x).contrib.get l = r.contrib.get l ∧ (r.putContribution j x).shadow.get l = r.shadow.get l := by
  unfold PosRec.putContribution
  split
  · exact ⟨rfl, rfl, Tbl.get_set_of_ne _ _ hj⟩
  · exact ⟨rfl, Tbl.get_set_of_ne _ _ hj, rfl⟩

theorem recorded_modPos (p : Pos) (l : LampId) (s t : State) (f : PosRec → PosRec) (hf : ∀ r, (f r).relearn = r.relearn ∧ (f r).contrib.get l = r.contrib.get l ∧ (f r).shadow.get l = r.shadow.get l)
    (hm : t.map = (s.modPos p f).map) (hl : Louder s t) :
    Recorded p l s t ∧ (t.pos p).relearn = (s.pos p).relearn ∧ (t.pos p).shadow.get l = (s.pos p).shadow.get l := by
  have hp : t.pos p = f (s.pos p) := by rw [State.pos_of_map hm, State.pos_modPos, if_pos rfl]
  have ho : ∀ p', p' ≠ p → t.pos p' = s.pos p' := fun p' h => by rw [State.pos_of_map hm, State.pos_modPos, if_neg (fun e => h e.symm)]
  have := hf (s.pos p)
  refine ⟨⟨fun _ => by rw [hp, this.2.1], fun _ => Or.inl (by rw [hp, this.2.2]), fun p' h => by rw [ho p' h], hl⟩, by rw [hp, this.1], by rw [hp, this.2.2]⟩

theorem note_facts (s : State) (p : Pos) (o : ProbeOutcome) : (s.noteOutcome p o).links = s.links ∧ (s.noteOutcome p o).bank = s.bank ∧
    ∃ f : PosRec → PosRec, (s.noteOutcome p o).map = (s.modPos p f).map ∧ ∀ r, (f r).relearn = r.relearn ∧ (f r).contrib = r.contrib ∧ (f r).shadow = r.shadow := by
  have hid : s.map = (s.modPos p id).map := by
    unfold State.modPos State.setPos State.pos
    have : s.map.positions.set (posIdx p) (id (s.map.positions.get (posIdx p))) = s.map.positions := by
      unfold Tbl.set Tbl.get; simp
    rw [this]
  unfold State.noteOutcome
  split
  · split
    · exact ⟨rfl, rfl, id, hid, fun _ => ⟨rfl, rfl, rfl⟩⟩
    · exact ⟨rfl, rfl, _, rfl, fun _ => ⟨rfl, rfl, rfl⟩⟩
  · exact ⟨rfl, rfl, id, hid, fun _ => ⟨rfl, rfl, rfl⟩⟩

theorem beginAttempt_facts (s : State) (q : Probe) : (s.beginAttempt q).map = s.map ∧ (s.beginAttempt q).links = s.links ∧
    ∃ q', (s.beginAttempt q).bank.probe = some q' ∧ q'.pos = q.pos ∧ q'.lamp = q.lamp := by
  unfold State.beginAttempt
  dsimp only
  repeat' split
  all_goals exact ⟨rfl, rfl, _, rfl, rfl, rfl⟩

theorem testProbe_facts (s : State) (q : Probe) (h : s.bank.probe = some q) : s.testProbe.map = s.map ∧ s.testProbe.links = s.links ∧
    ∃ q', s.testProbe.bank.probe = some q' ∧ q'.pos = q.pos ∧ q'.lamp = q.lamp := by
  unfold State.testProbe
  rw [h]
  dsimp only
  split
  · exact beginAttempt_facts s q
  · exact ⟨rfl, rfl, q, h, rfl, rfl⟩

theorem recorded_measure (p : Pos) (l : LampId) : ∀ (ls : List LampId) (s : State), l ∉ ls → s.bank.probe = none →
    Recorded p l s (State.measure p ls s) ∧ ∀ q', (State.measure p ls s).bank.probe = some q' → q'.pos = p ∧ q'.lamp ∈ ls
  | [], s, _, hn => by
    have := recorded_end p l s
    refine ⟨this.1, fun q' hq => ?_⟩
    rw [show State.measure p [] s = s.endMeasuring p from rfl, this.2, hn] at hq
    cases hq
  | j :: ls, s, hl, hn => by
    have hj : j ≠ l := fun e => hl (by rw [e]; simp)
    have hls : l ∉ ls := fun e => hl (by simp [e])
    unfold State.measure
    split
    · have h1 := recorded_modPos p l s (s.modPos p (PosRec.putContribution j {})) (PosRec.putContribution j {}) (fun r => putContribution_facts l j hj {} r) rfl (louder_of_links rfl)
      have h2 := recorded_measure p l ls (s.modPos p (PosRec.putContribution j {})) hls hn
      exact ⟨recorded_trans h1.1 h1.2.1 (fun _ => h1.2.2) h2.1, fun q' hq => ⟨(h2.2 q' hq).1, List.mem_cons_of_mem _ (h2.2 q' hq).2⟩⟩
    · split
      · generalize hA : s.learnFor p j .failed = A
        have hLm : A.map = (s.modPos p (PosRec.putContribution j (learn .failed (s.eBefore p j) (s.pBefore p j)))).map := by
          rw [← hA]; unfold State.learnFor; dsimp only; split <;> rfl
        have hLl : Louder s A := by
          rw [← hA]; unfold State.learnFor; dsimp only; split
          · exact (louder_of_links (t := s.modPos p _) rfl).trans (louder_raiseAll _ _)
          · exact louder_of_links rfl
        have hLb : A.bank = s.bank := by rw [← hA]; unfold State.learnFor; dsimp only; split <;> rfl
        have h1 := recorded_modPos p l s A _ (fun r => putContribution_facts l j hj _ r) hLm hLl
        obtain ⟨n1, n2, f, n3, n4⟩ := note_facts A p .failed
        have h2 := recorded_modPos p l A (A.noteOutcome p .failed) f (fun r => ⟨(n4 r).1, by rw [(n4 r).2.1], by rw [(n4 r).2.2]⟩) n3 (louder_of_links n1)
        have h3 := recorded_measure p l ls (A.noteOutcome p .failed) hls (by rw [n2, hLb]; exact hn)
        refine ⟨recorded_trans h1.1 h1.2.1 (fun _ => h1.2.2) (recorded_trans h2.1 h2.2.1 (fun _ => h2.2.2) h3.1), fun q' hq => ⟨(h3.2 q' hq).1, List.mem_cons_of_mem _ (h3.2 q' hq).2⟩⟩
      · obtain ⟨t1, t2, q2, t3, t4, t5⟩ := testProbe_facts (s.setProbe (some { lamp := j, pos := p })) _ rfl
        refine ⟨⟨fun _ => by rw [State.pos_of_map t1]; rfl, fun _ => Or.inl (by rw [State.pos_of_map t1]; rfl), fun p' _ => by rw [State.pos_of_map t1]; rfl, louder_of_links t2⟩, ?_⟩
        intro q' hq
        rw [t3] at hq
        cases hq
        exact ⟨t4, by rw [t5]; simp⟩

theorem mem_drop (l j : LampId) (h : j ∈ allLamps.drop (l.val + 1)) : l < j := by
  revert l j; decide

/-- A request resolved: its outcome is recorded and the request moves on. -/
theorem handOutcome_facts (s : State) (q : Probe) (o : ProbeOutcome) :
    let r := learn o (s.eBefore q.pos q.lamp) (s.pBefore q.pos q.lamp)
    let t := s.handOutcome q o
    ((s.pos q.pos).relearn = false → (t.pos q.pos).contrib.get q.lamp = r) ∧
    ((s.pos q.pos).relearn = true → (t.pos q.pos).shadow.get q.lamp = r ∨ (t.pos q.pos).contrib.get q.lamp = r) ∧
    (∀ p, p ≠ q.pos → (t.pos p).contrib = (s.pos p).contrib) ∧
    (∀ q', t.bank.probe = some q' → q'.pos = q.pos ∧ q.lamp < q'.lamp) ∧
    (baselineShift o (s.eBefore q.pos q.lamp) = true → ∀ l m, s.link l = some m → hasBit m.interest 13 = true → ∃ m', t.link l = some m' ∧ hasBit m'.pending 13 = true) := by
  intro r t
  have ht : t = State.measure q.pos (allLamps.drop (q.lamp.val + 1)) (((s.setProbe none).learnFor q.pos q.lamp o).noteOutcome q.pos o) := rfl
  clear_value t
  generalize hA : (s.setProbe none).learnFor q.pos q.lamp o = A at ht
  have hr : r = learn o ((s.setProbe none).eBefore q.pos q.lamp) ((s.setProbe none).pBefore q.pos q.lamp) := rfl
  have hLm : A.map = (s.modPos q.pos (PosRec.putContribution q.lamp r)).map := by
    rw [← hA, hr]; unfold State.learnFor; dsimp only; split <;> rfl
  have hLb : A.bank.probe = none := by rw [← hA]; unfold State.learnFor; dsimp only; split <;> rfl
  obtain ⟨n1, n2, f, n3, n4⟩ := note_facts A q.pos o
  generalize hN : A.noteOutcome q.pos o = N at *
  obtain ⟨m1, m2⟩ := recorded_measure q.pos q.lamp (allLamps.drop (q.lamp.val + 1)) N (fun h => Nat.lt_irrefl _ (mem_drop q.lamp q.lamp h)) (by rw [n2]; exact hLb)
  rw [← ht] at m1 m2
  have hNp : N.pos q.pos = f ((s.pos q.pos).putContribution q.lamp r) := by
    rw [State.pos_of_map n3, State.pos_modPos, if_pos rfl, State.pos_of_map hLm, State.pos_modPos, if_pos rfl]
  have hNo : ∀ p, p ≠ q.pos → N.pos p = s.pos p := fun p h => by
    rw [State.pos_of_map n3, State.pos_modPos, if_neg (fun e => h e.symm), State.pos_of_map hLm, State.pos_modPos, if_neg (fun e => h e.symm)]
  have hNr : (N.pos q.pos).relearn = (s.pos q.pos).relearn := by
    rw [hNp, (n4 _).1]; unfold PosRec.putContribution; split <;> rfl
  refine ⟨?_, ?_, ?_, ?_, ?_⟩
  · intro h
    rw [m1.plain (by rw [hNr]; exact h), hNp, (n4 _).2.1]
    unfold PosRec.putContribution; rw [if_neg (by simp [h])]; simp
  · intro h
    have := m1.shadowed (by rw [hNr]; exact h)
    have e : (N.pos q.pos).shadow.get q.lamp = r := by
      rw [hNp, (n4 _).2.2]
      unfold PosRec.putContribution; rw [if_pos h]; simp
    rw [e] at this; exact this
  · intro p hp; rw [m1.others p hp, hNo p hp]
  · intro q' hq; exact ⟨(m2 q' hq).1, mem_drop _ _ (m2 q' hq).2⟩
  · intro hb l m hm hi
    have hl : ∃ m', N.link l = some m' ∧ hasBit m'.pending 13 = true := by
      rw [State.link_of_links n1, ← hA]
      unfold State.learnFor
      dsimp only
      rw [if_pos (show baselineShift o ((s.setProbe none).eBefore q.pos q.lamp) = true from hb)]
      refine ⟨m.raise .baselineShift, ?_, raise_told m .baselineShift hi⟩
      unfold State.raiseAll
      rw [State.link_raiseFor]
      rw [show (State.modPos (s.setProbe none) q.pos _).link l = some m from hm]
      simp only [Option.map_some]
      rw [if_pos (by cases m.role.role <;> decide)]
    obtain ⟨m', a, b⟩ := hl
    obtain ⟨m2', c, d⟩ := m1.louder l m' a
    exact ⟨m2', c, d 13 b⟩

theorem eBefore_of_map {s t : State} (h : t.map = s.map) (p : Pos) (l : LampId) : t.eBefore p l = s.eBefore p l ∧ t.pBefore p l = s.pBefore p l := by
  have hp : ∀ p, t.pos p = s.pos p := fun p => State.pos_of_map h p
  unfold State.eBefore State.pBefore State.sumReady State.ready
  simp only [hp, and_self]

theorem toProbeOn_facts (ch : Channel) : ch.toProbeOn.state = .probeOn ∧ ch.toProbeOn.output = true ∧ ch.toProbeOn.demand = ch.demand ∧ ch.toProbeOn.held = ch.held ∧
    (ch.output = false → ch.toProbeOn.sinceOn = 0 ∧ ch.toProbeOn.peak = 0) := by
  unfold Channel.toProbeOn
  refine ⟨by simp, by simp, by simp, by rw [switchTo_held, enter_held], ?_⟩
  intro h
  have : (ch.enter .probeOn).output = false := by simp [h]
  unfold Channel.switchTo
  rw [this, if_neg (by decide), if_pos rfl]
  exact ⟨rfl, rfl⟩

theorem probe_of_settle (before x : State) : (before.settle x).bank.probe = x.bank.probe := by rw [State.settle_bank]

theorem pos_of_settle (before x : State) (p : Pos) : (before.settle x).pos p = x.pos p := State.pos_of_map (State.settle_map ..) p

end Sys2Proof.Machine
end

