-- ==== Sys2Proof/Laws/Entries.lean ====
section
/-! SUPPORT. Entries and slots as a request on a directory number finds and changes them (R29, R160), and the numbered
requests brought to their act. -/

namespace Sys2Proof.Machine

/-! ## Entries replaced -/

theorem set_same {α : Type} {xs : List α} {k : Nat} {x : α} (h : xs[k]? = some x) : xs.set k x = xs := by
  apply List.ext_getElem?
  intro i
  rw [List.getElem?_set]
  split
  · rename_i e; subst e
    split
    · exact h.symm
    · rename_i hh; rw [List.getElem?_eq_none (by omega)]
  · rfl

theorem modify_eq {α : Type} {xs : List α} {k : Nat} {x : α} (h : xs[k]? = some x) (g : α → α) : xs.modify k g = xs.set k (g x) := by
  apply List.ext_getElem?
  intro i
  rw [List.getElem?_modify, List.getElem?_set]
  by_cases e : k = i
  · subst e
    have hk : k < xs.length := by
      rcases Nat.lt_or_ge k xs.length with hk | hk
      · exact hk
      · rw [List.getElem?_eq_none hk] at h; cases h
    rw [h]; simp [hk]
  · simp [e]

theorem modEntry_eq {s : State} {r : EntryRef} {e : Entry} (h : s.entry r = some e) (g : Entry → Entry) : s.modEntry r g = s.setEntry r (some (g e)) := by
  unfold State.modEntry; rw [h]

theorem entry_setEntry (s : State) (r : EntryRef) (e : Option Entry) : (s.setEntry r e).entry r = e := by
  cases r <;> simp [State.setEntry, State.entry]

theorem setEntry_setEntry (s : State) (r : EntryRef) (e e' : Option Entry) : (s.setEntry r e).setEntry r e' = s.setEntry r e' := by
  cases r <;> simp [State.setEntry, Tbl.set]

theorem pos_setEntry (s : State) (r : EntryRef) (e : Option Entry) (p : Pos) : (s.setEntry r e).pos p = s.pos p := by cases r <;> rfl

theorem ready_setEntry (s : State) (r : EntryRef) (e : Option Entry) (p : Pos) : (s.setEntry r e).ready p = s.ready p := by cases r <;> rfl

theorem ready_setLink (s : State) (l : LinkId) (m : Mlu) (p : Pos) : (s.setLink l m).ready p = s.ready p := by cases l <;> rfl

theorem links_setEntry (s : State) (r : EntryRef) (e : Option Entry) : (s.setEntry r e).links = s.links := by simp

theorem setEntry_freeCount (s : State) (n : Nat) (r : EntryRef) (e : Option Entry) :
   ({ s.setEntry r e with freeCount := n } : State) = ({ s with freeCount := n } : State).setEntry r e := by cases r <;> rfl

theorem mem_allEntries (ref : EntryRef) : ref ∈ allEntries := by
  unfold allEntries allSingles allGroups
  cases ref with
  | single i => simp
  | group j => simp

theorem byte_ext {a b : Byte} (h : a.toNat = b.toNat) : a = b := BitVec.eq_of_toNat_eq h

/-! ## Past a link -/

theorem binding_setLink (s : State) (l : LinkId) (m : Mlu) (n : Nat) : (s.setLink l m).binding n = s.binding n := by cases l <;> rfl

theorem lookup_setLink (s : State) (l : LinkId) (m : Mlu) (b : Byte) : (s.setLink l m).lookup b = s.lookup b := by cases l <;> rfl

theorem setEntry_setLink (s : State) (l : LinkId) (m : Mlu) (r : EntryRef) (e : Option Entry) : (s.setLink l m).setEntry r e = (s.setEntry r e).setLink l m := by
  cases l <;> cases r <;> rfl

theorem modEntry_setLink (s : State) (l : LinkId) (m : Mlu) (r : EntryRef) (g : Entry → Entry) : (s.setLink l m).modEntry r g = (s.modEntry r g).setLink l m := by
  unfold State.modEntry
  rw [entry_setLink]
  cases s.entry r with
  | none => rfl
  | some e => exact setEntry_setLink ..

theorem markUsed_setLink (s : State) (l : LinkId) (m : Mlu) (r : EntryRef) : (s.setLink l m).markUsed r = (s.markUsed r).setLink l m := modEntry_setLink ..

theorem modSlot_setLink (s : State) (l : LinkId) (m : Mlu) (r : EntryRef) (k : Nat) (g : Slot → Slot) : (s.setLink l m).modSlot r k g = (s.modSlot r k g).setLink l m := modEntry_setLink ..

theorem dropChanged_setLink (s : State) (l : LinkId) (m : Mlu) (r : EntryRef) (k : Nat) (x : Option Role) : (s.setLink l m).dropChanged r k x = (s.dropChanged r k x).setLink l m := by
  unfold State.dropChanged; split
  · exact modSlot_setLink ..
  · rfl

theorem admission_eq (s : State) (l : LinkId) (m : Mlu) (tag : Byte) : (s.setLink l m).admission l tag = s.admission l tag := by
  cases l <;> rfl

theorem addDeferred_setLink (s : State) (l : LinkId) (m : Mlu) (d : Deferred) :
   ({ s.setLink l m with dec := { (s.setLink l m).dec with deferred := (s.setLink l m).dec.deferred ++ [d] } } : State)
     = ({ s with dec := { s.dec with deferred := s.dec.deferred ++ [d] } } : State).setLink l m := by cases l <;> rfl

theorem modPosted_setLink (s : State) (l : LinkId) (m : Mlu) (n : Nat) (g : Posted → Posted) : (s.setLink l m).modPosted n g = (s.modPosted n g).setLink l m := by cases l <;> rfl

theorem report_setLink (s : State) (l : LinkId) (m : Mlu) (r : EntryRef) (k : Nat) : (s.setLink l m).report r k = (s.report r k).setLink l m := by
  have hs : (s.setLink l m).slot r k = s.slot r k := by unfold State.slot; rw [entry_setLink]
  unfold State.report
  rw [hs]
  cases s.slot r k with
  | none => rfl
  | some sl =>
    dsimp only
    rw [modSlot_setLink, State.setLink_freeCount]
    split
    · rfl
    · cases l <;> rfl

theorem mapEntries_setLink (s : State) (l : LinkId) (m : Mlu) (g) : (s.setLink l m).mapEntries g = (s.mapEntries g).setLink l m := by cases l <;> rfl

theorem listed_setLink (s : State) (l : LinkId) (m : Mlu) (f r n) : (s.setLink l m).listed f r n = s.listed f r n := by cases l <;> rfl

/-! ## A number that names a slot -/

theorem lookup_names {s : State} {b : Byte} {ref k e sl} (h : Names s b ref k e sl) : s.lookup b = some ⟨ref, k, e, sl⟩ := by
  unfold State.lookup
  rw [if_neg (by have := h.low; have := h.high; omega), h.bound]
  simp only [Option.bind_some, h.entry]
  have : s.slot ref k = some sl := by unfold State.slot; rw [h.entry]; exact h.slot
  rw [this]

theorem lookup_none {s : State} {b : Byte} (h : b.toNat < 16 ∨ 127 < b.toNat ∨ s.binding b.toNat = none) : s.lookup b = none := by
  unfold State.lookup
  split
  · rfl
  · rename_i h'
    rcases h with h | h | h
    · exact absurd (Or.inl h) h'
    · exact absurd (Or.inr h) h'
    · rw [h]; rfl

theorem served_used {e : Entry} {k : Nat} {sl : Slot} (h : e.slots[k]? = some sl) : e.served k sl = { e with used := true } := by
  unfold Entry.served; rw [set_same h]

theorem markUsed_names {s : State} {b ref k e sl} (h : Names s b ref k e sl) : s.markUsed ref = s.setEntry ref (some (e.served k sl)) := by
  unfold State.markUsed
  rw [modEntry_eq h.entry, served_used h.slot]

theorem modSlot_served {s : State} {ref : EntryRef} {e : Entry} {k : Nat} {sl sl' : Slot} (hk : e.slots[k]? = some sl) (g : Slot → Slot) :
    (s.setEntry ref (some (e.served k sl'))).modSlot ref k g = s.setEntry ref (some (e.served k (g sl'))) := by
  unfold State.modSlot
  rw [modEntry_eq (entry_setEntry ..), setEntry_setEntry]
  unfold Entry.served
  have hk' : k < e.slots.length := by
    rcases Nat.lt_or_ge k e.slots.length with hk' | hk'
    · exact hk'
    · rw [List.getElem?_eq_none hk'] at hk; cases hk
  rw [modify_eq (x := sl') (by rw [List.getElem?_set]; simp [hk'])]
  simp

theorem slot_served {s : State} {ref : EntryRef} {e : Entry} {k : Nat} {sl sl' : Slot} (hk : e.slots[k]? = some sl) :
    (s.setEntry ref (some (e.served k sl'))).slot ref k = some sl' := by
  have hk' : k < e.slots.length := by
    rcases Nat.lt_or_ge k e.slots.length with hk' | hk'
    · exact hk'
    · rw [List.getElem?_eq_none hk'] at hk; cases hk
  unfold State.slot
  rw [entry_setEntry]
  simp [Entry.served, hk']

theorem decodeAnswer_names {s : State} {e : Entry} : s.decodeAnswer e = if e.live = false then some .gone else if s.ready e.pos then none else some .retry := rfl

theorem onServed_names {l : LinkId} {s : State} {m : Mlu} {f : List Byte} {rest : List (List Byte)} {r : Request} {b : Byte}
   {ref : EntryRef} {k : Nat} {e : Entry} {sl : Slot} (h : Head s l m f rest r) (hn : Names s b ref k e sl) (kk : ReqKind) (tag : Byte) (act : State → State) :
   (s.setLink l { m with queue := rest }).onServed l kk tag ⟨ref, k, e, sl⟩ act =
     if e.live = false then (s.setEntry ref (some (e.served k sl))).answered l m rest kk tag .gone []
     else if s.ready e.pos = false then (s.setEntry ref (some (e.served k sl))).answered l m rest kk tag .retry []
     else act ((s.setEntry ref (some (e.served k sl))).setLink l { m with queue := rest }) := by
  unfold State.onServed
  dsimp only
  rw [markUsed_setLink, markUsed_names hn, decodeAnswer_names]
  by_cases hl : e.live = false
  · rw [if_pos hl, if_pos hl]; dsimp only; rw [setLink_answer h]
  · rw [if_neg hl, if_neg hl, ready_setLink, ready_setEntry]
    cases hq : s.ready e.pos
    · simp; rw [setLink_answer h]
    · simp

theorem pin_state {s : State} {b ref k e sl} (hN : Names s b ref k e sl) (g : Entry → Entry) (l m) :
   ((s.setEntry ref (some (e.served k sl))).setLink l m).modEntry ref g = (s.setEntry ref (some (g { e with used := true }))).setLink l m := by
  rw [modEntry_setLink, modEntry_eq (entry_setEntry ..), setEntry_setEntry, served_used hN.slot]

/-! ## The numbered requests -/

theorem exec_functionRead {l : LinkId} {s : State} {m : Mlu} {f : List Byte} {rest : List (List Byte)} {b : Byte} (h : Head s l m f rest (.functionRead b)) :
    exec (.functionRead l) s = .next (s.settle ((s.setLink l { m with queue := rest }).functionRead l ⟨m.role, byteAt f 1, .functionRead b⟩ b)) := by
  simp only [exec, execFunctionRead]; rw [serve_take h (k := .functionRead) rfl rfl]

theorem exec_functionWrite {l : LinkId} {s : State} {m : Mlu} {f : List Byte} {rest : List (List Byte)} {b v} (h : Head s l m f rest (.functionWrite b v)) :
    exec (.functionWrite l) s = .next (s.settle ((s.setLink l { m with queue := rest }).functionWrite l ⟨m.role, byteAt f 1, .functionWrite b v⟩ b v)) := by
  simp only [exec, execFunctionWrite]; rw [serve_take h (k := .functionWrite) rfl rfl]

theorem exec_watch {l : LinkId} {s : State} {m : Mlu} {f : List Byte} {rest : List (List Byte)} {b a d} (h : Head s l m f rest (.watch b a d)) :
    exec (.watch l) s = .next (s.settle ((s.setLink l { m with queue := rest }).watch l ⟨m.role, byteAt f 1, .watch b a d⟩ b a d)) := by
  simp only [exec, execWatch]; rw [serve_take h (k := .watch) rfl rfl]

theorem exec_pin {l : LinkId} {s : State} {m : Mlu} {f : List Byte} {rest : List (List Byte)} {b a} (h : Head s l m f rest (.pin b a)) :
    exec (.pin l) s = .next (s.finish ((s.setLink l { m with queue := rest }).pin l ⟨m.role, byteAt f 1, .pin b a⟩ b a)) := by
  simp only [exec, execPin]; rw [serve_take h (k := .pin) rfl rfl]

theorem exec_quarantine {l : LinkId} {s : State} {m : Mlu} {f : List Byte} {rest : List (List Byte)} {b a} (h : Head s l m f rest (.quarantine b a)) (hr : roleMay m.role .quarantine = true) :
    exec (.quarantine l) s = .next (s.settle ((s.setLink l { m with queue := rest }).quarantine l ⟨m.role, byteAt f 1, .quarantine b a⟩ b a)) := by
  simp only [exec, execQuarantine]; rw [serve_take h (k := .quarantine) rfl hr]

theorem exec_freshness {l : LinkId} {s : State} {m : Mlu} {f : List Byte} {rest : List (List Byte)} {b a} (h : Head s l m f rest (.freshnessSet b a)) (hr : roleMay m.role .freshnessSet = true) :
    exec (.freshnessSet l) s = .next (s.settle ((s.setLink l { m with queue := rest }).freshnessSet l ⟨m.role, byteAt f 1, .freshnessSet b a⟩ b a)) := by
  simp only [exec, execFreshnessSet]; rw [serve_take h (k := .freshnessSet) rfl hr]

theorem exec_dir {l : LinkId} {s : State} {m : Mlu} {f : List Byte} {rest : List (List Byte)} {p k i c st} (h : Head s l m f rest (.directoryQuery p k i c st)) :
    exec (.directoryQuery l) s = .next (s.finish ((s.setLink l { m with queue := rest }).directoryQuery l ⟨m.role, byteAt f 1, .directoryQuery p k i c st⟩ ⟨p, k, i, c⟩ st)) := by
  simp only [exec, execDirectoryQuery]; rw [serve_take h (k := .directoryQuery) rfl rfl]

/-! ## Deferral, rights, values -/

theorem admission_cases (s : State) (l : LinkId) (tag : Byte) :
    ((∃ d ∈ s.dec.deferred, d.link = l ∧ d.tag = tag) → s.admission l tag = some .tagInUse) ∧
    (¬ (∃ d ∈ s.dec.deferred, d.link = l ∧ d.tag = tag) → (s.dec.deferred.length ≥ 8 ∨ (s.deferredOf l).length ≥ 4) → s.admission l tag = some .busy) ∧
    (¬ (∃ d ∈ s.dec.deferred, d.link = l ∧ d.tag = tag) → ¬ (s.dec.deferred.length ≥ 8 ∨ (s.deferredOf l).length ≥ 4) → s.admission l tag = none) := by
  have hf : (s.findDeferred l tag).isSome = true ↔ ∃ d ∈ s.dec.deferred, d.link = l ∧ d.tag = tag := by
    unfold State.findDeferred
    rw [List.find?_isSome]
    simp
  unfold State.admission
  refine ⟨?_, ?_, ?_⟩
  · intro h; rw [if_pos (hf.mpr h)]
  · intro h hb; rw [if_neg (fun x => h (hf.mp x))]; exact if_pos hb
  · intro h hb; rw [if_neg (fun x => h (hf.mp x))]; exact if_neg hb

theorem admit_cases {l : LinkId} {s u : State} {m : Mlu} {f : List Byte} {rest : List (List Byte)} {r : Request} (h : Head s l m f rest r)
   (hu : u.links = s.links) (hd : u.dec = s.dec) (k : ReqKind) (d : Deferred) (hdt : d.tag = byteAt f 1) (c : List Byte) :
    let inUse := ∃ d ∈ s.dec.deferred, d.link = l ∧ d.tag = byteAt f 1
    let full := s.dec.deferred.length ≥ 8 ∨ (s.deferredOf l).length ≥ 4
    (inUse → s.settle ((u.setLink l { m with queue := rest }).enlist l k d c) = (u.answered l m rest k (byteAt f 1) .tagInUse []).grantIfIdle) ∧
    (¬ inUse → full → s.settle ((u.setLink l { m with queue := rest }).enlist l k d c) = (u.answered l m rest k (byteAt f 1) .busy []).grantIfIdle) ∧
    (¬ inUse → ¬ full → s.settle ((u.setLink l { m with queue := rest }).enlist l k d c) = 
       ((({ u with dec := { u.dec with deferred := u.dec.deferred ++ [d] } } : State)).answered l m rest k (byteAt f 1) .deferred c).grantIfIdle) := by
  intro inUse full
  have ha : (u.setLink l { m with queue := rest }).admission l d.tag = s.admission l (byteAt f 1) := by
    rw [admission_eq, hdt]; unfold State.admission State.findDeferred; rw [hd]
  obtain ⟨c1, c2, c3⟩ := admission_cases s l (byteAt f 1)
  refine ⟨?_, ?_, ?_⟩
  · intro h1
    unfold State.enlist; rw [ha, c1 h1]; dsimp only; rw [hdt, setLink_answer h, settle_answered h.link hu]
  · intro h1 h2
    unfold State.enlist; rw [ha, c2 h1 h2]; dsimp only; rw [hdt, setLink_answer h, settle_answered h.link hu]
  · intro h1 h2
    unfold State.enlist; rw [ha, c3 h1 h2]; dsimp only; rw [hdt, addDeferred_setLink, setLink_answer h, settle_answered h.link (by exact hu)]

theorem mayWrite_iff (r : LinkRole) (sl : Slot) : mayWrite r sl = true ↔ (sl.access = .actuator ∧ (sl.kind = .liftAxle ↔ r = .brake)) ∨
      (sl.access = .setting ∧ r ≠ .brake) := by
  unfold mayWrite
  cases ha : sl.access
  · simp
  · by_cases hk : sl.kind = .liftAxle <;> cases r <;> simp [hk]
  · cases r <;> simp

/-- Bit k of the index bits stands for index k. -/
theorem indexBits_testBit {n : Nat} (xs : List (Fin n)) (k : Nat) : (indexBits xs).testBit k = true ↔ ∃ i ∈ xs, i.val = k := by
  have h : ∀ (xs : List (Fin n)) (a : Nat), (xs.foldl (fun a i => a ||| 2 ^ i.val) a).testBit k = true ↔
      a.testBit k = true ∨ ∃ i ∈ xs, i.val = k := by
    intro xs
    induction xs with
    | nil => intro a; simp
    | cons x xs ih =>
      intro a
      rw [List.foldl_cons, ih, Nat.testBit_or, Bool.or_eq_true, Nat.testBit_two_pow, decide_eq_true_eq, or_assoc]
      simp
  unfold indexBits
  rw [h]
  simp

theorem ofInt16 {x : Int} (h1 : -32768 ≤ x) (h2 : x ≤ 32767) : (BitVec.ofInt 16 x).toInt = x := by
  rw [BitVec.toInt_ofInt]; unfold Int.bmod; simp; omega

end Sys2Proof.Machine
end

