-- ==== Sys2Proof/Laws/Heard.lean ====
section
/-! SUPPORT. What links hear of an act: that they grow, and exactly which frames join their buffers and which kinds their
pending sets, for completions, removals and raised events. -/

namespace Sys2Proof.Machine

/-! ## Links grow -/

/-- Every link of `t` is that of `s` but for its pending set and the tail of its buffer, and no pending kind is lost. -/
def LinksGrow (s t : State) : Prop :=
  ∀ l, (s.link l = none ∧ t.link l = none) ∨ ∃ m m', s.link l = some m ∧ t.link l = some m' ∧ Mlu.alike m m' ∧
    ∀ k, hasBit m.pending k = true → hasBit m'.pending k = true

theorem LinksGrow.of_links {s t : State} (h : t.links = s.links) : LinksGrow s t := by
  intro l
  cases hm : s.link l with
  | none => exact Or.inl ⟨rfl, by rw [State.link_of_links h]; exact hm⟩
  | some m => exact Or.inr ⟨m, m, rfl, by rw [State.link_of_links h]; exact hm, Mlu.alike_refl m, fun _ => id⟩

theorem LinksGrow.trans {a b c : State} (h : LinksGrow a b) (k : LinksGrow b c) : LinksGrow a c := by
  intro l
  rcases h l with ⟨h1, h2⟩ | ⟨m, m', h1, h2, h3, h4⟩
  · rcases k l with ⟨k1, k2⟩ | ⟨m, m', k1, -, -⟩
    · exact Or.inl ⟨h1, k2⟩
    · rw [h2] at k1; cases k1
  · rcases k l with ⟨k1, k2⟩ | ⟨x, x', k1, k2, k3, k4⟩
    · rw [h2] at k1; cases k1
    · rw [h2] at k1
      cases k1
      exact Or.inr ⟨m, x', h1, k2, Mlu.alike_trans h3 k3, fun i hi => k4 i (h4 i hi)⟩

theorem linksGrow_raiseFor (s : State) (roles : RoleSet) (k : EventKind) : LinksGrow s (s.raiseFor roles k) := by
  intro l
  rw [State.link_raiseFor]
  cases s.link l with
  | none => exact Or.inl ⟨rfl, rfl⟩
  | some m =>
    refine Or.inr ⟨m, _, rfl, rfl, ?_, fun i hi => ?_⟩
    · dsimp only
      split
      · exact Mlu.alike_of_quiet (raise_quiet ..)
      · exact Mlu.alike_refl m
    · dsimp only
      split
      · exact raise_keeps _ _ _ hi
      · exact hi

theorem linksGrow_place (s : State) (j : LinkId) (fs : List TxFrame) : LinksGrow s (s.place j fs) := by
  intro l
  unfold State.place State.modLink
  cases hj : s.link j with
  | none =>
    dsimp only
    exact LinksGrow.of_links rfl l
  | some m =>
    dsimp only
    rw [State.link_setLink]
    by_cases e : j = l
    · subst e
      rw [if_pos rfl]
      refine Or.inr ⟨m, _, hj, rfl, ?_, fun i hi => ?_⟩
      · split
        · exact Mlu.alike_refl m
        · exact ⟨rfl, List.prefix_append _ _⟩
      · split <;> exact hi
    · rw [if_neg e]
      exact LinksGrow.of_links rfl l

theorem linksGrow_postedFailed (s : State) (ok : Bool) (r : Role) : LinksGrow s (s.postedFailed ok r) := by
  unfold State.postedFailed
  split
  · exact LinksGrow.of_links rfl
  · exact linksGrow_raiseFor _ _ _

theorem told_of_grow {s t u : State} {k : EventKind} (h : s.told t k) (g : LinksGrow t u) : s.told u k := by
  intro l m hm hi
  obtain ⟨m', h1, h2⟩ := h l m hm hi
  rcases g l with ⟨g1, -⟩ | ⟨x, x', g1, g2, -, g4⟩
  · rw [h1] at g1; cases g1
  · rw [h1] at g1; cases g1
    exact ⟨x', g2, g4 _ h2⟩

theorem told_raiseAll (s : State) (k : EventKind) : s.told (s.raiseAll k) k := by
  intro l m hm hi
  refine ⟨m.raise k, ?_, raise_told m k hi⟩
  unfold State.raiseAll
  rw [State.link_raiseFor, hm]
  have : hasBit (7 : RoleSet) (roleBit m.role.role) = true := by cases m.role <;> rfl
  simp only [Option.map_some, this, if_true]

/-! ## What links hear, exactly -/

theorem heard_of_links {s t : State} (h : t.links = s.links) : s.heard t (fun _ => []) fun _ _ => False := by
  refine ⟨by rw [h], by rw [h], fun l => ⟨fun hm => by rw [State.link_of_links h]; exact hm, fun m hm => ⟨m.pending, ?_, ?_⟩⟩⟩
  · rw [State.link_of_links h, hm]
    simp
  · simp

theorem heard_congr {s t : State} {f g : LinkId → List TxFrame} {r q : Role → EventKind → Prop} (h : s.heard t f r)
    (hf : ∀ l, g l = f l) (hr : ∀ x k, q x k ↔ r x k) : s.heard t g q := by
  obtain ⟨h1, h0, h⟩ := h
  refine ⟨h1, h0, fun l => ⟨(h l).1, fun m hm => ?_⟩⟩
  obtain ⟨pending, a, b⟩ := (h l).2 m hm
  refine ⟨pending, by rw [hf]; exact a, fun i => ?_⟩
  rw [b i]
  simp only [hr]

theorem heard_same {s t u : State} {f : LinkId → List TxFrame} {r : Role → EventKind → Prop} (h : s.heard t f r)
    (hl : u.links = t.links) : s.heard u f r := by
  unfold State.heard at *
  rw [hl]
  simp only [State.link_of_links hl]
  exact h

theorem heard_trans {s t u : State} {f g : LinkId → List TxFrame} {r q : Role → EventKind → Prop} (h : s.heard t f r)
    (k : t.heard u g q) : s.heard u (fun l => f l ++ g l) fun x e => r x e ∨ q x e := by
  obtain ⟨h1, h0, h⟩ := h
  obtain ⟨k1, k0, k⟩ := k
  refine ⟨k1.trans h1, k0.trans h0, fun l => ⟨fun hm => (k l).1 ((h l).1 hm), fun m hm => ?_⟩⟩
  obtain ⟨p1, a1, b1⟩ := (h l).2 m hm
  obtain ⟨p2, a2, b2⟩ := (k l).2 _ a1
  refine ⟨p2, ?_, fun i => ?_⟩
  · rw [a2]
    cases m.busOff <;> simp
  · rw [b2 i, b1 i, or_assoc]
    refine or_congr_right ⟨?_, ?_⟩
    · rintro (⟨k, x, y, z⟩ | ⟨k, x, y, z⟩)
      · exact ⟨k, x, y, Or.inl z⟩
      · exact ⟨k, x, y, Or.inr z⟩
    · rintro ⟨k, x, y, z | z⟩
      · exact Or.inl ⟨k, x, y, z⟩
      · exact Or.inr ⟨k, x, y, z⟩

/-- Pending after an event is raised at a link. -/
theorem raise_pending (m : Mlu) (k : EventKind) (b : Nat) : hasBit (m.raise k).pending b = true ↔
    hasBit m.pending b = true ∨ eventBit k = b ∧ hasBit m.interest b = true := by
  unfold Mlu.raise
  by_cases hi : hasBit m.interest (eventBit k) = true
  · rw [if_pos hi]
    unfold hasBit addBit at *
    dsimp only
    rw [BitVec.getLsbD_or, BitVec.getLsbD_twoPow, Bool.or_eq_true, Bool.and_eq_true, decide_eq_true_eq, decide_eq_true_eq]
    refine or_congr_right ⟨fun h => ⟨h.2, by rw [← h.2]; exact hi⟩, fun h => ⟨by cases k <;> decide, h.1⟩⟩
  · rw [if_neg hi]
    refine ⟨Or.inl, ?_⟩
    rintro (h | ⟨h1, h2⟩)
    · exact h
    · rw [h1] at hi; exact absurd h2 hi

theorem heard_raiseFor (s : State) (roles : RoleSet) (k : EventKind) :
    s.heard (s.raiseFor roles k) (fun _ => []) fun r e => e = k ∧ hasBit roles (roleBit r) = true := by
  refine ⟨rfl, rfl, fun l => ⟨fun hm => by rw [State.link_raiseFor, hm]; rfl, fun m hm => ?_⟩⟩
  rw [State.link_raiseFor, hm]
  cases h : hasBit roles (roleBit m.role.role)
  · exact ⟨m.pending, by simp [h], fun b => by simp [h]⟩
  · refine ⟨(m.raise k).pending, ?_, fun b => ?_⟩
    · simp only [Option.map_some, h, if_true, List.append_nil, ite_self]
      unfold Mlu.raise; split <;> rfl
    · rw [raise_pending]
      refine or_congr_right ⟨fun x => ⟨k, x.1, x.2, rfl, h⟩, ?_⟩
      rintro ⟨e, x, y, rfl, -⟩
      exact ⟨x, y⟩

theorem heard_raiseAll (s : State) (k : EventKind) : s.heard (s.raiseAll k) (fun _ => []) fun _ e => e = k :=
  heard_congr (heard_raiseFor s 7 k) (fun _ => rfl) fun r e => ⟨fun h => ⟨h, by cases r <;> decide⟩, fun h => h.1⟩

theorem heard_raiseRole (s : State) (r : Role) (k : EventKind) :
    s.heard (s.raiseRole r k) (fun _ => []) fun x e => e = k ∧ r = x :=
  heard_congr (heard_raiseFor s _ k) (fun _ => rfl) fun x e => by cases r <;> cases x <;> simp [hasBit, addBit, roleBit]

theorem heard_place (s : State) (j : LinkId) (fs : List TxFrame) :
    s.heard (s.place j fs) (fun l => if j = l then fs else []) fun _ _ => False := by
  unfold State.place State.modLink
  cases hj : s.link j with
  | none =>
    dsimp only
    refine ⟨rfl, rfl, fun l => ⟨id, fun m hm => ⟨m.pending, ?_, by simp⟩⟩⟩
    have : j ≠ l := by rintro rfl; rw [hj] at hm; cases hm
    rw [hm]
    simp [this]
  | some x =>
    dsimp only
    refine ⟨(straps_setLink ..).1, (straps_setLink ..).2, fun l => ?_⟩
    rw [State.link_setLink]
    by_cases h : j = l
    · subst h
      refine ⟨fun hm => (by rw [hj] at hm; cases hm), fun m hm => ⟨m.pending, ?_, by simp⟩⟩
      rw [hj] at hm
      cases hm
      rw [if_pos rfl]
      by_cases hb : x.busOff = true
      · rw [if_pos hb, if_pos hb]
      · rw [if_neg hb, if_neg hb]; simp
    · rw [if_neg h]
      refine ⟨id, fun m hm => ⟨m.pending, ?_, by simp⟩⟩
      rw [hm]; simp [h]

theorem completions_cons (st : Status) (d : Deferred) (ds : List Deferred) (l : LinkId) : completions st (d :: ds) l =
    (if d.link = l then contentFrames .completion (byteOf d.kindCode) d.tag st [] else []) ++ completions st ds l := by
  unfold completions Deferred.kindCode
  rw [List.filter_cons]
  by_cases h : d.link = l
  · rw [if_pos h, if_pos (by simpa using h), List.flatMap_cons]
    congr 2
    split <;> rfl
  · rw [if_neg h, if_neg (by simpa using h)]; rfl

theorem completions_append (st : Status) (xs ys : List Deferred) (l : LinkId) :
    completions st (xs ++ ys) l = completions st xs l ++ completions st ys l := by
  unfold completions; rw [List.filter_append, List.flatMap_append]

theorem heard_completions (st : Status) : ∀ (ds : List Deferred) (s : State),
    s.heard (ds.foldl (State.placeCompletion st) s) (completions st ds) fun _ _ => False
  | [], s => heard_of_links rfl
  | d :: ds, s => by
    rw [List.foldl_cons]
    exact heard_congr (heard_trans (heard_place s d.link _) (heard_completions st ds _)) (completions_cons st d ds) (by simp)

/-- What links hear of the completion of Deferred List entries (R176). -/
theorem heard_completeWhere (s : State) (f : Deferred → Bool) (st : Status) :
    s.heard (s.completeWhere f st) (completions st (s.dec.deferred.filter f)) fun _ _ => False :=
  heard_congr (heard_trans (t := { s with dec := { s.dec with deferred := s.dec.deferred.filter (!f ·) } })
    (heard_of_links (s := s) rfl) (heard_completions st (s.dec.deferred.filter f) _)) (fun _ => rfl) (by simp)

theorem heard_failPosted (s : State) (p : Posted) : s.heard (s.failPosted p) (fun _ => []) fun r k =>
    k = .postedWriteFailed ∧ (p.poster = r ∨ ∃ v, p.carried = some (v, r)) := by
  unfold State.failPosted State.postedFailed
  dsimp only
  cases hc : p.carried with
  | some c =>
    refine heard_congr (heard_trans (heard_raiseRole s p.poster .postedWriteFailed) (heard_raiseRole _ c.2 _))
      (fun _ => rfl) fun x k => ?_
    rw [← and_or_left]
    refine and_congr_right fun _ => or_congr_right ⟨?_, fun h => ⟨c.1, by rw [← h]⟩⟩
    rintro ⟨v, h⟩
    rw [Option.some.inj h]
  | none =>
    refine heard_congr (heard_raiseRole s p.poster .postedWriteFailed) (fun _ => rfl) fun x k => ?_
    simp

theorem heard_failed : ∀ (ps : List Posted) (s : State), s.heard (ps.foldl State.failPosted s) (fun _ => []) fun r k =>
    k = .postedWriteFailed ∧ ∃ p ∈ ps, p.poster = r ∨ ∃ v, p.carried = some (v, r)
  | [], s => heard_congr (heard_of_links rfl) (fun _ => rfl) (by simp)
  | p :: ps, s => by
    rw [List.foldl_cons]
    refine heard_congr (heard_trans (heard_failPosted s p) (heard_failed ps _)) (fun _ => rfl) fun r k => ?_
    rw [← and_or_left]
    simp only [List.mem_cons, exists_eq_or_imp]

/-- What links hear of posted writes removed (R169). -/
theorem heard_removePosted (s : State) (f : Posted → Bool) : s.heard (s.removePosted f) (fun _ => []) fun r k =>
    k = .postedWriteFailed ∧ ∃ p ∈ s.dec.posted, f p = true ∧ (p.poster = r ∨ ∃ v, p.carried = some (v, r)) := by
  refine heard_congr (heard_trans (t := { s with dec := { s.dec with posted := s.dec.posted.filter (!f ·) } })
    (heard_of_links (s := s) rfl) (heard_failed (s.dec.posted.filter f) _)) (fun _ => rfl) fun r k => ?_
  simp only [List.mem_filter, false_or, and_assoc]

theorem grow_of_heard {s t : State} {f : LinkId → List TxFrame} {r : Role → EventKind → Prop} (h : s.heard t f r) :
    LinksGrow s t := by
  intro l
  cases hm : s.link l with
  | none => exact Or.inl ⟨rfl, (h.2.2 l).1 hm⟩
  | some m =>
    obtain ⟨p, a, b⟩ := (h.2.2 l).2 m hm
    refine Or.inr ⟨m, _, rfl, a, ⟨rfl, ?_⟩, fun k hk => (b k).mpr (Or.inl hk)⟩
    dsimp only
    split
    · exact List.prefix_rfl
    · exact List.prefix_append ..

theorem told_of_heard {s t : State} {f : LinkId → List TxFrame} {r : Role → EventKind → Prop} (h : s.heard t f r)
    {k : EventKind} (hk : ∀ x, r x k) : s.told t k := by
  intro l m hm hi
  obtain ⟨p, a, b⟩ := (h.2.2 l).2 m hm
  exact ⟨_, a, (b _).mpr (Or.inr ⟨k, rfl, hi, hk _⟩)⟩

end Sys2Proof.Machine
end

