-- ==== Sys2Proof/Laws/Lockouts.lean ====
section
/-! SUPPORT. Lock-out of an entry (R17, R106 to R108): what completions and removals leave of the decoder's collections,
and that lock-out and strike do what LockedOut and struck say. -/

namespace Sys2Proof.Machine

theorem nodup_key {α β : Type} [DecidableEq β] {key : α → β} : ∀ {xs : List α}, (xs.map key).Nodup → ∀ {a b : α}, a ∈ xs → b ∈ xs → key a = key b → a = b
  | x :: xs, h, a, b, ha, hb, e => by
    rw [List.map_cons, List.nodup_cons] at h
    rcases List.mem_cons.mp ha with rfl | ha'
    · rcases List.mem_cons.mp hb with rfl | hb'
      · rfl
      · exact absurd (List.mem_map.mpr ⟨b, hb', e.symm⟩) h.1
    · rcases List.mem_cons.mp hb with rfl | hb'
      · exact absurd (List.mem_map.mpr ⟨a, ha', e⟩) h.1
      · exact nodup_key h.2 ha' hb' e

theorem bounded_keys {s : State} (h : s.bounded = true) : (∀ d e, d ∈ s.dec.deferred → e ∈ s.dec.deferred → d.link = e.link → d.tag = e.tag → d = e) ∧
    (∀ p q, p ∈ s.dec.posted → q ∈ s.dec.posted → p.number = q.number → p = q) := by
  unfold State.bounded at h
  simp only [Bool.and_eq_true] at h
  obtain ⟨⟨⟨-, hd⟩, -⟩, hp⟩ := h
  unfold distinctBy at hd hp
  exact ⟨fun d e hd' he h1 h2 => nodup_key (of_decide_eq_true hd) hd' he (by rw [h1, h2]),
    fun p q hp' hq h => nodup_key (of_decide_eq_true hp) hp' hq h⟩

theorem place_dec (s : State) (l : LinkId) (fs : List TxFrame) : (s.place l fs).dec = s.dec := place_keep (·.dec) (fun _ _ => rfl) s l fs

theorem complete_deferred (s : State) (d : Deferred) (st : Status) (c : List Byte) :
    (s.complete d st c).dec = { s.dec with deferred := s.dec.deferred.filter fun x => !(x.link = d.link && x.tag = d.tag) } := by
  unfold State.complete; rw [place_dec]; rfl

theorem postedFailed_dec (s : State) (ok : Bool) (r : Role) : (s.postedFailed ok r).dec = s.dec := by
  unfold State.postedFailed; split <;> rfl

theorem binding_of_numbers {s t : State} (h : ∀ ref, (t.entry ref).map (fun e => e.slots.map (·.number)) = (s.entry ref).map (fun e => e.slots.map (·.number))) (n : Nat) :
    t.binding n = s.binding n := by
  unfold State.binding
  congr 1
  funext ref
  have hr := h ref
  cases ht : t.entry ref with
  | none =>
    rw [ht] at hr
    cases hs : s.entry ref with
    | none => rfl
    | some e => rw [hs] at hr; cases hr
  | some e' =>
    rw [ht] at hr
    cases hs : s.entry ref with
    | none => rw [hs] at hr; cases hr
    | some e =>
      rw [hs] at hr
      have hn : e'.slots.map (·.number) = e.slots.map (·.number) := by simpa using hr
      dsimp only
      have hf : ∀ xs : List Slot, xs.findIdx? (fun sl => decide (sl.number = some n)) = (xs.map (·.number)).findIdx? (fun x => decide (x = some n)) := by
        intro xs; rw [List.findIdx?_map]; rfl
      rw [hf, hf, hn]

theorem entry_setEntry_ne (s : State) {r ref : EntryRef} (h : r ≠ ref) (e : Option Entry) : (s.setEntry ref e).entry r = s.entry r := by
  cases ref with
  | single i =>
    cases r with
    | single j => exact Tbl.get_set_of_ne _ _ (fun e => h (by rw [e]))
    | group j => rfl
  | group i =>
    cases r with
    | single j => rfl
    | group j => exact Tbl.get_set_of_ne _ _ (fun e => h (by rw [e]))

theorem binding_setEntry {s : State} {ref : EntryRef} {e e' : Entry} (he : s.entry ref = some e) (hn : e'.slots.map (·.number) = e.slots.map (·.number)) (n : Nat) :
    (s.setEntry ref (some e')).binding n = s.binding n := by
  refine binding_of_numbers (fun r => ?_) n
  by_cases h : r = ref
  · subst h; rw [entry_setEntry, he]; simp [hn]
  · rw [entry_setEntry_ne s h]

/-- The state of a lock-out before the bring-up goes on. -/
def State.lockedState (s : State) (ref : EntryRef) (e : Entry) : State :=
  let s' := ((s.setEntry ref (some e.lockOut)).addReason e.pos .quarantine).raiseAll .nodeQuarantined
  let s' := (s'.withdraw (Txn.toward ref (s.chainOf ref))).stopPolls (s.chainOf ref)
  let s' := s'.completeWhere (fun d => !d.inFlight && s'.bound d.number ref) .noReply
  (s'.removePosted fun p => p.carried.isNone && s'.bound p.number ref).markPosted ref

theorem lockOut_eq {s : State} {ref : EntryRef} {e : Entry} (he : s.entry ref = some e) :
    s.lockOut ref = if s.bus.class2.any (reassignsForBringUp ref) then (s.lockedState ref e).bringUpNext else s.lockedState ref e := by
  unfold State.lockOut
  rw [he]
  rfl

theorem reassigns_iff (ref : EntryRef) (ts : List Txn) : ts.any (reassignsForBringUp ref) = true ↔ Txn.reassign ref true ∈ ts := by
  rw [List.any_eq_true]
  unfold reassignsForBringUp
  constructor
  · rintro ⟨x, h1, h2⟩
    have : x = Txn.reassign ref true := by simpa using h2
    rw [← this]; exact h1
  · intro h; exact ⟨_, h, by simp⟩

theorem addReason_quarantine (r : PosRec) : r.addReason .quarantine =
    { r with reasons := addBit r.reasons 3, state := if r.state.ready then .degraded else r.state } := by
  have hne : addBit r.reasons 3 ≠ 0 := by
    intro h0
    have : (addBit r.reasons 3).getLsbD 3 = true := by rw [addBit_get _ _ _ (by decide)]; simp
    rw [h0] at this
    simp at this
  unfold PosRec.addReason
  dsimp only
  rw [show reasonBit .quarantine = 3 from rfl]
  congr 1
  cases r.state with
  | online => exact if_neg hne
  | degraded => exact if_neg hne
  | absent => rfl
  | powering => rfl
  | enumerating => rfl
  | measuring => rfl

theorem lockedOut {s : State} {ref : EntryRef} {e : Entry} (he : s.entry ref = some e) :
    LockedOut s (s.lockedState ref e) ref e := by
  unfold State.lockedState
  dsimp only
  generalize hA : ((s.setEntry ref (some e.lockOut)).addReason e.pos .quarantine).raiseAll .nodeQuarantined = A
  have hAe : ∀ r, A.entry r = (s.setEntry ref (some e.lockOut)).entry r := by
    intro r; rw [← hA]
    cases r <;> rfl
  have hAd : A.dec = s.dec := by rw [← hA]; simp [State.addReason]
  have hApos : ∀ p, A.pos p = if e.pos = p then (s.pos e.pos).addReason .quarantine else s.pos p := by
    intro p; rw [← hA]
    refine (State.pos_modPos (s.setEntry ref (some e.lockOut)) e.pos p fun r => r.addReason .quarantine).trans ?_
    rw [pos_setEntry, pos_setEntry]
  have hArest : A.matrix = s.matrix ∧ A.bank = s.bank ∧ A.load = s.load ∧ A.det = s.det ∧ A.light = s.light ∧ A.bus = s.bus ∧
      A.pending = s.pending ∧ A.freeCount = s.freeCount := by
    rw [← hA]; simp [State.addReason]
  have hAh : s.heard A (fun _ => []) fun _ k => k = .nodeQuarantined := by
    rw [← hA]
    exact heard_congr (heard_trans (heard_of_links (by simp [State.addReason])) (heard_raiseAll _ _)) (fun _ => rfl) (by simp)
  clear hA
  generalize hB : (A.withdraw (Txn.toward ref (s.chainOf ref))).stopPolls (s.chainOf ref) = B
  have hBmap : B.map = A.map := by rw [← hB]; unfold State.stopPolls; split <;> rfl
  have hBdec : B.dec = s.dec := by rw [← hAd, ← hB]; unfold State.stopPolls; split <;> rfl
  have hBlinks : B.links = A.links := by rw [← hB]; unfold State.stopPolls; split <;> rfl
  have hBbus : B.bus = { s.bus with
    class1 := s.bus.class1.filter fun x => !x.toward ref (s.chainOf ref)
    class2 := s.bus.class2.filter fun x => !x.toward ref (s.chainOf ref)
    polls := match s.chainOf ref with
      | some p => s.bus.polls.set (posIdx p) none
      | none => s.bus.polls } := by
    rw [← hB]; unfold State.stopPolls
    split
    · rename_i p e
      rw [← hArest.2.2.2.2.2.1, e]
      rfl
    · rename_i e
      rw [← hArest.2.2.2.2.2.1, e]
      rfl
  have hBrest : B.matrix = s.matrix ∧ B.bank = s.bank ∧ B.load = s.load ∧ B.det = s.det ∧ B.light = s.light ∧
      B.pending = s.pending ∧ B.freeCount = s.freeCount := by
    obtain ⟨a1, a2, a3, a4, a5, -, a7, a8⟩ := hArest
    rw [← a1, ← a2, ← a3, ← a4, ← a5, ← a7, ← a8, ← hB]
    unfold State.stopPolls; split <;> exact ⟨rfl, rfl, rfl, rfl, rfl, rfl, rfl⟩
  have hnum : e.lockOut.slots.map (·.number) = e.slots.map (·.number) := by
    unfold Entry.lockOut; simp
  have hBbound : ∀ n, B.bound n ref = s.bound n ref := by
    intro n
    unfold State.bound
    have : B.binding n = s.binding n := by
      rw [← binding_setEntry he hnum n]
      refine binding_of_numbers (fun r => ?_) n
      rw [State.entry_of_map hBmap, hAe]
    rw [this]
  clear hB
  generalize hC : B.completeWhere (fun d => !d.inFlight && B.bound d.number ref) .noReply = C
  have hCm : C.map = B.map := by rw [← hC]; exact completeWhere_keep (·.map) (fun _ _ => rfl) (fun _ _ => rfl) _ _ _
  have hCd : C.dec = { s.dec with deferred := s.dec.deferred.filter fun d => d.inFlight || !s.bound d.number ref } := by
    rw [← hC, completeWhere_dec, hBdec]
    refine congrArg (fun x => ({ s.dec with deferred := x } : Decoder)) (List.filter_congr fun d _ => ?_)
    rw [hBbound]
    cases d.inFlight <;> simp
  have hCbound : ∀ n, C.bound n ref = s.bound n ref := by
    intro n; rw [← hBbound]; unfold State.bound
    rw [binding_of_numbers (s := B) (t := C) (fun r => by rw [State.entry_of_map hCm])]
  have hCh : s.heard C (completions .noReply (s.dec.deferred.filter fun d => !d.inFlight && s.bound d.number ref))
      fun _ k => k = .nodeQuarantined := by
    have h := heard_completeWhere B (fun d => !d.inFlight && B.bound d.number ref) .noReply
    rw [hC, hBdec] at h
    refine heard_congr (heard_trans (heard_trans hAh (heard_of_links hBlinks)) h) (fun l => ?_) (by simp)
    simp only [hBbound, List.append_nil, List.nil_append]
  generalize hD : C.removePosted (fun p => p.carried.isNone && C.bound p.number ref) = D
  have hDd : D.dec = { C.dec with posted := s.dec.posted.filter fun x => x.carried.isSome || !s.bound x.number ref } := by
    rw [← hD, removePosted_dec, hCd]
    refine congrArg (fun x => ({ deferred := s.dec.deferred.filter _, posted := x } : Decoder))
      (List.filter_congr fun x _ => ?_)
    rw [hCbound]
    cases x.carried <;> simp
  have hDm : D.map = B.map := by
    rw [← hCm, ← hD]; exact removePosted_keep (·.map) (fun _ _ => rfl) (fun _ _ => rfl) _ _
  have hDbound : ∀ n, D.bound n ref = s.bound n ref := by
    intro n; rw [← hBbound]; unfold State.bound
    rw [binding_of_numbers (s := B) (t := D) (fun r => by rw [State.entry_of_map hDm])]
  have hDh : s.heard D (completions .noReply (s.dec.deferred.filter fun d => !d.inFlight && s.bound d.number ref))
      fun r k => k = .nodeQuarantined ∨ (k = .postedWriteFailed ∧
        ∃ x ∈ s.dec.posted, x.carried = none ∧ s.bound x.number ref = true ∧ x.poster = r) := by
    have h := heard_removePosted C (fun p => p.carried.isNone && C.bound p.number ref)
    rw [hD, hCd] at h
    refine heard_congr (heard_trans hCh h) (fun l => (List.append_nil _).symm) fun r k => or_congr_right (and_congr_right fun _ => ?_)
    refine exists_congr fun x => and_congr_right fun _ => ?_
    rw [hCbound, Bool.and_eq_true, Option.isNone_iff_eq_none, and_assoc]
    refine and_congr_right fun hc => and_congr_right fun _ => ?_
    rw [hc]; simp
  have hEk : ∀ {β : Type} (g : State → β), (∀ (s : State) (x : Links), g { s with links := x } = g s) →
     (∀ (s : State) (x : Decoder), g { s with dec := x } = g s) → g (D.markPosted ref) = g B := by
    intro β g h1 h2
    refine (h2 D _).trans ?_
    rw [← hD, removePosted_keep g h1 h2, ← hC, completeWhere_keep g h1 h2]
  have hmapE : (D.markPosted ref).map = A.map := (hEk (·.map) (fun _ _ => rfl) (fun _ _ => rfl)).trans hBmap
  refine ⟨?_, ?_, ?_, ?_, ?_, ?_, ?_, ?_, ?_⟩
  · exact (hEk (·.pending) (fun _ _ => rfl) (fun _ _ => rfl)).trans hBrest.2.2.2.2.2.1
  · rw [State.entry_of_map hmapE, hAe, entry_setEntry]; rfl
  · intro r hr
    rw [State.entry_of_map hmapE, hAe, entry_setEntry_ne s hr]
  · intro p
    rw [State.pos_of_map hmapE, hApos]
    by_cases h : p = e.pos
    · subst h
      rw [if_pos rfl, if_pos rfl]
      exact addReason_quarantine _
    · rw [if_neg (fun e => h e.symm), if_neg h]
  · exact (hEk (·.bus) (fun _ _ => rfl) (fun _ _ => rfl)).trans hBbus
  · show D.dec.deferred = _
    rw [hDd, hCd]
  · show D.dec.posted.map _ = _
    rw [hDd]
    simp only [hDbound]
  · obtain ⟨b1, b2, b3, b4, b5, -, b7⟩ := hBrest
    exact ⟨(hEk (·.matrix) (fun _ _ => rfl) (fun _ _ => rfl)).trans b1, (hEk (·.bank) (fun _ _ => rfl) (fun _ _ => rfl)).trans b2,
      (hEk (·.load) (fun _ _ => rfl) (fun _ _ => rfl)).trans b3, (hEk (·.det) (fun _ _ => rfl) (fun _ _ => rfl)).trans b4,
      (hEk (·.light) (fun _ _ => rfl) (fun _ _ => rfl)).trans b5, (hEk (·.freeCount) (fun _ _ => rfl) (fun _ _ => rfl)).trans b7⟩
  · exact heard_congr (heard_trans hDh (heard_of_links (t := D.markPosted ref) rfl)) (fun l => (List.append_nil _).symm) (by simp)

theorem lockedOut_rebase {s w : State} {ref : EntryRef} {e0 e : Entry} (he : s.entry ref = some e0) (hn : e.slots.map (·.number) = e0.slots.map (·.number))
    (h : LockedOut (s.setEntry ref (some e)) w ref e) : LockedOut s w ref e := by
  have hc : (s.setEntry ref (some e)).chainOf ref = s.chainOf ref := by
    unfold State.chainOf State.repeaterOf; congr 1; funext p; rw [pos_setEntry]
  have hb : ∀ n, (s.setEntry ref (some e)).bound n ref = s.bound n ref := by
    intro n; unfold State.bound; rw [binding_setEntry he hn]
  have hdec : (s.setEntry ref (some e)).dec = s.dec := by simp
  refine ⟨by rw [h.pending]; simp, h.entry, fun r hr => by rw [h.others r hr, entry_setEntry_ne s hr],
    fun p => by rw [h.positions p, pos_setEntry, ready_setEntry], by rw [h.claims, hc]; simp, ?_, ?_,
    by simpa using h.rest, ?_⟩
  · rw [h.deferred, hdec]; simp only [hb]
  · rw [h.posted, hdec]; simp only [hb]
  · have hh := h.heard
    rw [hdec] at hh
    simp only [hb] at hh
    exact heard_congr (heard_trans (heard_of_links (s := s) (by simp)) hh) (fun _ => rfl) (by simp)

theorem strike_struck {s : State} {ref : EntryRef} {e : Entry} (he : s.entry ref = some e) :
    s.struck (s.strike ref) ref e := by
  unfold State.struck
  intro e' u
  have hx : s.strike ref = if e.locked then u else if min 3 (e.strikes + 1) = 2 then u.claim2 (.rediscover ref) else if min 3 (e.strikes + 1) = 3 then u.lockOut ref else u := by
    unfold State.strike; rw [he]
  rw [hx]
  refine ⟨fun h => ?_, fun h1 h2 => ?_, fun h1 h2 => ?_⟩
  · rcases h with h | h
    · rw [if_pos h]
    · split
      · rfl
      · rw [h, if_neg (by decide), if_neg (by decide)]
  · rw [if_neg (by rw [h1]; simp), h2, if_pos (by decide)]; rfl
  · rw [if_neg (by rw [h1]; simp), if_neg (by omega), if_pos (by omega)]
    have hu : u.entry ref = some e' := entry_setEntry ..
    have hub : u.bus = s.bus := by simp [u]
    refine ⟨u.lockedState ref e', lockedOut_rebase he rfl (lockedOut hu), ?_⟩
    rw [lockOut_eq hu, hub]
    by_cases hr : Txn.reassign ref true ∈ s.bus.class2
    · rw [if_pos hr, if_pos ((reassigns_iff ..).mpr hr)]
    · rw [if_neg hr, if_neg (fun e => hr ((reassigns_iff ..).mp e))]

/-! ## The bring-up going on -/

theorem bindSlot_marks (p : Pos) (s : State) (x : EntryRef × Nat) (ref : EntryRef) :
    ((State.bindSlot p s x).entry ref).map (fun e => (e.locked, e.strikes)) = (s.entry ref).map (fun e => (e.locked, e.strikes)) ∧
    (State.bindSlot p s x).dec = s.dec := by
  unfold State.bindSlot
  split
  · exact ⟨rfl, rfl⟩
  · split
    · exact ⟨rfl, rfl⟩
    · split
      · unfold State.modSlot
        cases hx : s.entry x.1 with
        | none => unfold State.modEntry; rw [hx]; exact ⟨rfl, rfl⟩
        | some e =>
          rw [modEntry_eq hx]
          refine ⟨?_, by simp⟩
          by_cases h : ref = x.1
          · subst h; rw [entry_setEntry, hx]; rfl
          · rw [entry_setEntry_ne _ h]
      · refine ⟨?_, by simp [State.addReason]⟩
        cases ref <;> rfl

theorem bindAll_marks (p : Pos) : ∀ (xs : List (EntryRef × Nat)) (s : State) (ref : EntryRef),
    ((xs.foldl (State.bindSlot p) s).entry ref).map (fun e => (e.locked, e.strikes)) = (s.entry ref).map (fun e => (e.locked, e.strikes)) ∧
    (xs.foldl (State.bindSlot p) s).dec = s.dec
  | [], _, _ => ⟨rfl, rfl⟩
  | x :: xs, s, ref => by
    rw [List.foldl_cons]
    obtain ⟨a, b⟩ := bindAll_marks p xs (State.bindSlot p s x) ref
    obtain ⟨c, d⟩ := bindSlot_marks p s x ref
    exact ⟨a.trans c, b.trans d⟩

theorem bringUpNext_marks (s : State) (ref : EntryRef) :
    (s.bringUpNext.entry ref).map (fun e => (e.locked, e.strikes)) = (s.entry ref).map (fun e => (e.locked, e.strikes)) ∧
    s.bringUpNext.dec = s.dec := by
  unfold State.bringUpNext
  split
  · exact ⟨rfl, rfl⟩
  · rename_i b hb
    split
    · exact ⟨by cases ref <;> rfl, rfl⟩
    · split
      · exact ⟨by cases ref <;> rfl, rfl⟩
      · unfold State.endEnumerating State.enterMeasuring
        dsimp only
        obtain ⟨h1, h2⟩ := bindAll_marks b.pos (s.slotsOf b.pos) s ref
        change ((s.bindAll b.pos).entry ref).map _ = _ at h1
        change (s.bindAll b.pos).dec = _ at h2
        generalize s.bindAll b.pos = A at h1 h2
        generalize hB : (A.modPos b.pos fun r => { r with repeater := A.chooseRepeater b.pos, ident := (A.chooseRepeater b.pos).bind b.identOf }).modPos b.pos
          (PosRec.stage .measuring) = B
        have hl : B.live b.pos = true := by
          rw [← hB]; unfold State.live; rw [State.pos_modPos, if_pos rfl]; rfl
        have hc : Calm B (B.measure b.pos allLamps) := calm_measure b.pos hl allLamps (Calm.refl B)
        have hBe : B.entry ref = A.entry ref := by rw [← hB]; cases ref <;> rfl
        have hBd : B.dec = A.dec := by rw [← hB]; rfl
        have he : (B.measure b.pos allLamps).entry ref = B.entry ref := by
          cases ref with
          | single i => unfold State.entry; rw [hc.singles]
          | group j => unfold State.entry; rw [hc.groups]
        exact ⟨by rw [he, hBe, h1], by rw [hc.dec, hBd, h2]⟩

theorem findDeferred_eq {s : State} {d : Deferred} (hm : d ∈ s.dec.deferred)
    (hd : ∀ x ∈ s.dec.deferred, x.link = d.link → x.tag = d.tag → x = d) : s.findDeferred d.link d.tag = some d := by
  unfold State.findDeferred
  cases h : s.dec.deferred.find? fun x => x.link = d.link && x.tag = d.tag with
  | none =>
    have := List.find?_eq_none.mp h d hm
    simp at this
  | some x =>
    have h1 := List.find?_some h
    have h2 := List.mem_of_find?_eq_some h
    rw [Bool.and_eq_true, decide_eq_true_eq, decide_eq_true_eq] at h1
    rw [hd x h2 h1.1 h1.2]

/-- A posted entry as a strike leaves it: marked where the strike locks out the entry it is for (R169 (1)). -/
def State.struckPosted (s : State) (ref : EntryRef) (e : Entry) (p : Posted) : Posted :=
  if e.locked = false ∧ 2 ≤ e.strikes ∧ s.bound p.number ref = true then { p with lockedOut := true } else p

/-- What a strike leaves in the decoder's collections: nothing is added, what is in flight stays, and a posted write is
marked exactly where the strike locks out the entry it is for. -/
theorem struck_dec {s t : State} {ref : EntryRef} {e : Entry} (h : s.struck t ref e) :
    (∀ d, d ∈ t.dec.deferred → d ∈ s.dec.deferred) ∧ (∀ d, d ∈ s.dec.deferred → d.inFlight = true → d ∈ t.dec.deferred) ∧
    (∀ x ∈ t.dec.posted, ∃ p ∈ s.dec.posted, x = s.struckPosted ref e p) ∧
    (∀ p, p ∈ s.dec.posted → p.carried ≠ none → s.struckPosted ref e p ∈ t.dec.posted) := by
  obtain ⟨h1, h2, h3⟩ := h
  have same : ¬(e.locked = false ∧ 2 ≤ e.strikes) → t.dec = s.dec → _ := fun hn (hd : t.dec = s.dec) =>
    show (∀ d, d ∈ t.dec.deferred → d ∈ s.dec.deferred) ∧ (∀ d, d ∈ s.dec.deferred → d.inFlight = true → d ∈ t.dec.deferred) ∧
      (∀ x ∈ t.dec.posted, ∃ p ∈ s.dec.posted, x = s.struckPosted ref e p) ∧
      (∀ p, p ∈ s.dec.posted → p.carried ≠ none → s.struckPosted ref e p ∈ t.dec.posted) from by
      have hp : ∀ p, s.struckPosted ref e p = p := fun p => if_neg fun h => hn ⟨h.1, h.2.1⟩
      rw [hd]
      exact ⟨fun _ => id, fun _ h _ => h, fun p h => ⟨p, h, (hp p).symm⟩, fun p h _ => by rw [hp]; exact h⟩
  by_cases hl : e.locked = true ∨ e.strikes = 0
  · refine same (fun h => ?_) (by rw [h1 hl]; simp)
    rcases hl with hl | hl
    · rw [hl] at h; cases h.1
    · omega
  · rw [not_or, Bool.not_eq_true] at hl
    by_cases h1 : e.strikes = 1
    · exact same (fun h => by omega) (by rw [h2 hl.1 h1]; simp)
    · have h2s : 2 ≤ e.strikes := by have := hl.2; omega
      obtain ⟨w, hw, ht⟩ := h3 hl.1 h2s
      have : t.dec = w.dec := by
        rw [ht]; split
        · exact (bringUpNext_marks w ref).2
        · rfl
      have hp : ∀ p, s.struckPosted ref e p = if s.bound p.number ref then { p with lockedOut := true } else p := fun p => by
        unfold State.struckPosted
        simp only [hl.1, h2s, true_and]
      rw [this, hw.deferred, hw.posted]
      refine ⟨fun d hd => (List.mem_filter.mp hd).1, fun d hd hf => List.mem_filter.mpr ⟨hd, by rw [hf]; rfl⟩, fun x hx => ?_,
        fun p hp' hc => ?_⟩
      · obtain ⟨y, hy, e⟩ := List.mem_map.mp hx
        exact ⟨y, (List.mem_filter.mp hy).1, by rw [hp]; exact e.symm⟩
      · refine List.mem_map.mpr ⟨p, List.mem_filter.mpr ⟨hp', ?_⟩, (hp p).symm⟩
        rw [Option.isSome_iff_ne_none.mpr hc]; rfl

end Sys2Proof.Machine
end

