-- ==== Sys2Proof/Laws/Teardown.lean ====
section
/-! SUPPORT. What the teardown of positions leaves of the part (R132 to R134), one position at a time and whole. -/

namespace Sys2Proof.Machine

/-! ## Verdicts reset and expected currents formed -/

theorem fold_set_get {α : Type} {n : Nat} (f : Fin n → α) (j : Fin n) : ∀ (ls : List (Fin n)) (t : Tbl α n),
    (ls.foldl (fun t l => t.set l (f l)) t).get j = if j ∈ ls then f j else t.get j
  | [], t => by simp
  | l :: ls, t => by
    rw [List.foldl_cons, fold_set_get f j ls]
    by_cases h : j ∈ ls
    · rw [if_pos h, if_pos (List.mem_cons_of_mem _ h)]
    · rw [if_neg h, Tbl.get_set]
      by_cases e : l = j
      · subst e; rw [if_pos rfl, if_pos (List.mem_cons_self ..)]
      · rw [if_neg e, if_neg]
        rw [List.mem_cons]; rintro (h1 | h1)
        · exact e h1.symm
        · exact h h1

theorem mem_allLamps (l : LampId) : l ∈ allLamps := by revert l; decide

theorem handKind_eq (s : State) (l : LampId) (k : VerdictKind) : ∃ k0 k1 f,
    s.handKind l k = { s with light := { s.light with kind0 := k0, kind1 := k1, fast := f } } := by
  unfold State.handKind
  dsimp only
  split
  · split
    · exact ⟨_, _, _, rfl⟩
    · split
      · exact ⟨_, _, _, rfl⟩
      · exact ⟨_, _, _, rfl⟩
  · exact ⟨s.light.kind0, s.light.kind1, s.light.fast, rfl⟩

theorem resetVerdicts_fold : ∀ (ls : List LampId) (s : State), ∃ k0 k1 f, ls.foldl State.resetVerdict s = { s with
    load := { s.load with verdicts := ls.foldl (fun t l => t.set l {}) s.load.verdicts }
    light := { s.light with kind0 := k0, kind1 := k1, fast := f } }
  | [], s => ⟨s.light.kind0, s.light.kind1, s.light.fast, rfl⟩
  | l :: ls, s => by
    obtain ⟨k0, k1, f, h⟩ : ∃ k0 k1 f, s.resetVerdict l = { s with
        load := { s.load with verdicts := s.load.verdicts.set l {} }
        light := { s.light with kind0 := k0, kind1 := k1, fast := f } } := by
      unfold State.resetVerdict
      dsimp only
      split
      · exact ⟨s.light.kind0, s.light.kind1, s.light.fast, rfl⟩
      · obtain ⟨k0, k1, f, h⟩ := handKind_eq { s with load := { s.load with verdicts := s.load.verdicts.set l {} } } l .unchecked
        exact ⟨k0, k1, f, h⟩
    obtain ⟨k0', k1', f', h'⟩ := resetVerdicts_fold ls (s.resetVerdict l)
    refine ⟨k0', k1', f', ?_⟩
    rw [List.foldl_cons, h', h]
    rfl

/-- Verdicts reset: the verdict records of the lamps, what the fast-flash decision holds, and LAMP_VERDICT (R87, R88,
R154). -/
theorem resetVerdicts_facts (s : State) (ls : List LampId) : let t := s.resetVerdicts ls
    t = { s with
      load := { s.load with verdicts := t.load.verdicts }
      light := { s.light with kind0 := t.light.kind0, kind1 := t.light.kind1, fast := t.light.fast }
      links := t.links } ∧
    (∀ l, t.load.verdicts.get l = if l ∈ ls then {} else s.load.verdicts.get l) ∧
    (s.flashLaw = true → t.flashLaw = true) ∧
    s.heard t (fun _ => []) fun _ k => k = .lampVerdict ∧ ∃ l ∈ ls, (s.load.verdicts.get l).kind ≠ .unchecked := by
  intro t
  have hk : s.flashLaw = true → t.flashLaw = true := (keeps_resetVerdicts (Keeps.refl s) ls).flash
  obtain ⟨k0, k1, f, h⟩ := resetVerdicts_fold ls s
  have ht : t = if ls.any fun l => (s.load.verdicts.get l).kind ≠ .unchecked then
      (ls.foldl State.resetVerdict s).raiseAll .lampVerdict else ls.foldl State.resetVerdict s := rfl
  rw [h] at ht
  refine ⟨?_, fun l => ?_, hk, ?_⟩
  · rw [ht]; split <;> rfl
  · rw [← fold_set_get (fun _ => ({} : Verdict)) l ls s.load.verdicts, ht]
    split <;> rfl
  · rw [ht]
    split
    · rename_i e
      simp only [List.any_eq_true, decide_eq_true_eq] at e
      exact heard_congr (heard_trans (heard_of_links rfl) (heard_raiseAll _ _)) (fun _ => rfl) fun _ k => by
        simp only [false_or]; exact ⟨fun x => x.1, fun x => ⟨x, e⟩⟩
    · rename_i e
      simp only [List.any_eq_true, decide_eq_true_eq] at e
      exact heard_congr (heard_of_links rfl) (fun _ => rfl) fun _ k => ⟨fun x => e x.2, False.elim⟩

/-- The expected currents formed from the ready positions (R76). -/
theorem formExpected_get (s : State) (l : LampId) : s.formExpected.load.expected.get l =
    ((allPos.filter fun p => s.ready p).map fun p => ((s.pos p).contrib.get l).settled).sum := by
  unfold State.formExpected
  dsimp only
  rw [fold_set_get (fun l => s.sumReady l (·.settled) fun _ => true), if_pos (mem_allLamps l)]
  unfold State.sumReady
  rw [foldl_add, Nat.zero_add]
  simp only [Bool.true_and]

/-! ## A probe dropped -/

theorem took_takeDemand (r on : Bool) (ch : Channel) : ch.Took r on (ch.takeDemand r on) := by
  have hst := takeDemand_state r on ch
  refine ⟨(lasting_eq (takeDemand_lasting ..)).1, takeDemand_held .., fun hr hd => ⟨by rw [hst, if_pos ⟨hr, hd⟩], ?_⟩,
    fun h => ?_, ?_⟩
  · unfold Channel.takeDemand
    rw [if_pos ⟨hr, hd⟩]
    exact Channel.switchTo_output on (ch.enter .drive)
  · have hn : ¬(r = true ∧ ch.demand ≠ .off) := by
      rintro ⟨h1, h2⟩
      rcases h with h | h
      · rw [h] at h1; cases h1
      · exact h2 h
    refine ⟨by rw [hst, if_neg hn], ?_⟩
    unfold Channel.takeDemand
    rw [if_neg hn]
    unfold Channel.toOff
    rw [Channel.enter_output, Channel.switchTo_output]
  · exact switched_takeDemand ..

theorem dropProbe_other {s : State} {p : Pos} (h : ∀ q, s.bank.probe = some q → q.pos ≠ p) : s.dropProbe p = s := by
  unfold State.dropProbe
  split
  · rfl
  · rename_i q hq
    rw [if_neg (h q hq)]

/-- A probe dropped at a position: only the probe request and its channel change (R67 (3)). -/
theorem dropProbe_facts (s : State) (p : Pos) : let t := s.dropProbe p
    t = { s with bank := { s.bank with probe := s.bank.probe.filter fun q => q.pos ≠ p, channels := t.bank.channels } } ∧
    ∀ c, let probed := (s.chan c).state = .probeGap ∨ (s.chan c).state = .probeOn
      ((∃ q, s.bank.probe = some q ∧ q.pos = p ∧ lampChan q.lamp = c ∧ probed) →
        (s.chan c).Took (s.routed c) (s.wantsOn (s.chan c).demand) (t.chan c)) ∧
      ((∀ q, s.bank.probe = some q → q.pos = p → lampChan q.lamp = c → ¬probed) → t.chan c = s.chan c) := by
  dsimp only
  by_cases hex : ∃ q, s.bank.probe = some q ∧ q.pos = p
  case neg =>
    have hp : ∀ q, s.bank.probe = some q → q.pos ≠ p := fun q h1 h2 => hex ⟨q, h1, h2⟩
    rw [dropProbe_other hp]
    refine ⟨?_, fun c => ⟨?_, fun _ => rfl⟩⟩
    · have : (s.bank.probe.filter fun q => q.pos ≠ p) = s.bank.probe := by
        cases hq : s.bank.probe with
        | none => rfl
        | some q => simpa using hp q hq
      rw [this]
    · rintro ⟨q, h1, h2, -⟩
      exact absurd h2 (hp q h1)
  case pos =>
    obtain ⟨q, hq, hqp⟩ := hex
    have hf : (s.bank.probe.filter fun q => q.pos ≠ p) = none := by rw [hq]; simp [hqp]
    have he : s.dropProbe p = if ((s.setProbe none).chan (lampChan q.lamp)).state = .probeGap ∨
        ((s.setProbe none).chan (lampChan q.lamp)).state = .probeOn then (s.setProbe none).takeDemand (lampChan q.lamp)
        else s.setProbe none := by
      unfold State.dropProbe; rw [hq]; dsimp only; rw [if_pos hqp]
    have hn : lampChan q.lamp ≠ 9 := (by decide : ∀ l : LampId, lampChan l ≠ 9) q.lamp
    rw [hf, he]
    split
    · rename_i hs
      refine ⟨?_, fun c => ⟨?_, ?_⟩⟩
      · unfold State.takeDemand State.putChan
        rw [if_neg (fun e => hn e.1)]
        rfl
      · rintro ⟨q', h1, -, h3, -⟩
        rw [hq] at h1
        cases h1
        subst h3
        unfold State.takeDemand
        rw [State.chan_putChan, if_pos rfl]
        exact took_takeDemand ..
      · intro h
        unfold State.takeDemand
        rw [State.chan_putChan]
        split
        · rename_i e
          subst e
          exact absurd hs (h q hq hqp rfl)
        · rfl
    · rename_i hs
      refine ⟨rfl, fun c => ⟨?_, fun _ => rfl⟩⟩
      rintro ⟨q', h1, -, h3, h4⟩
      rw [hq] at h1
      cases h1
      subst h3
      exact absurd h4 hs

theorem dropProbe_bank {s t : State} (hb : t.bank = s.bank) (hm : t.matrix = s.matrix) (p : Pos) :
    (t.dropProbe p).bank = (s.dropProbe p).bank := by
  unfold State.dropProbe
  rw [hb]
  split
  · exact hb
  · rename_i q _
    split
    · have hc : ∀ c, (t.setProbe none).chan c = (s.setProbe none).chan c := fun c => State.chan_of_bank (by
        unfold State.setProbe; rw [hb]) c
      have hr : ∀ c, (t.setProbe none).routed c = (s.setProbe none).routed c := by
        intro c; unfold State.routed State.setProbe; rw [hm]
      have hw : ∀ d, (t.setProbe none).wantsOn d = (s.setProbe none).wantsOn d := by
        intro d; unfold State.wantsOn State.setProbe; rw [hb]
      dsimp only
      rw [hc]
      have hbk : (t.setProbe none).bank = (s.setProbe none).bank := by unfold State.setProbe; rw [hb]
      split
      · unfold State.takeDemand State.putChan
        rw [hc, hr, hw, hbk]
      · exact hbk
    · exact hb

/-! ## One position -/

theorem filter_pos {α : Type} (key : α → Pos) (p : Pos) (x : Option α) :
    (x.filter fun a => key a ≠ p) = if x.any fun a => key a = p then none else x := by
  cases x with
  | none => rfl
  | some a => by_cases h : key a = p <;> simp [h]

/-- The part of a teardown before the entries: discards, withdrawals, the bring-up, the relearn and the probe. -/
def State.tearDownFront (s : State) (p : Pos) : State :=
  let s := s.discardFlight p
  let s := (s.withdraw (s.txnOf p)).endBringUp p
  let s := (s.endRelearn p).dropProbe p
  (s.setPoll p none).setWatch p none

/-- The relearn and the probe of a position end (R67 (3), R138). -/
theorem endRelearn_eq (s : State) (p : Pos) : ∃ m, (s.endRelearn p).dropProbe p = { s with
      map := m
      bank := (s.dropProbe p).bank
      det := { s.det with relearn := s.det.relearn.filter fun x => x.pos ≠ p } } ∧
    m.singles = s.map.singles ∧ m.groups = s.map.groups ∧
    ∀ q, ((q ≠ p → m.positions.get (posIdx q) = s.pos q) ∧ (m.positions.get (posIdx q)).refs = (s.pos q).refs ∧
      (m.positions.get (posIdx q)).coupledSeconds = (s.pos q).coupledSeconds) := by
  obtain ⟨h1, -⟩ := dropProbe_facts s p
  by_cases h : ∃ x, s.det.relearn = some x ∧ x.pos = p
  · obtain ⟨x, hx, hxp⟩ := h
    have he : s.endRelearn p = s.abandonRelearn := by
      unfold State.endRelearn; rw [hx]; simp [hxp]
    have ha : s.abandonRelearn = { (s.dropProbe p).modPos p PosRec.dropShadow with
        det := { (s.dropProbe p).det with relearn := none } } := by
      unfold State.abandonRelearn; rw [hx, ← hxp]; rfl
    have hn : ∀ q, s.abandonRelearn.bank.probe = some q → q.pos ≠ p := by
      intro q hq
      rw [ha] at hq
      exact dropProbe_idle s p q hq
    refine ⟨(s.modPos p PosRec.dropShadow).map, ?_, rfl, rfl, fun q => ?_⟩
    · rw [he, dropProbe_other hn, ha, filter_pos Relearn.pos, hx]
      generalize s.dropProbe p = t at h1
      rw [h1]
      simp only [Option.any_some, hxp, decide_true, if_true]
      unfold State.modPos State.setPos State.pos
      rfl
    · have hq : (s.modPos p PosRec.dropShadow).map.positions.get (posIdx q) = _ := State.pos_modPos s p q PosRec.dropShadow
      rw [hq]
      split
      · rename_i e; subst e
        exact ⟨fun h => absurd rfl h, rfl, rfl⟩
      · exact ⟨fun _ => rfl, rfl, rfl⟩
  · have hf : (s.det.relearn.filter fun x => x.pos ≠ p) = s.det.relearn := by
      cases hx : s.det.relearn with
      | none => rfl
      | some x => simpa using fun e => h ⟨x, hx, e⟩
    have he : s.endRelearn p = s := by
      unfold State.endRelearn
      rw [if_neg]
      cases hx : s.det.relearn with
      | none => simp
      | some x => simpa using fun e => h ⟨x, hx, e⟩
    refine ⟨s.map, ?_, rfl, rfl, fun q => ⟨fun _ => rfl, rfl, rfl⟩⟩
    rw [he, hf]
    generalize s.dropProbe p = t at h1
    rw [h1]

theorem tearDownFront_eq (s : State) (p : Pos) : ∃ m, s.tearDownFront p = { s with
      map := m
      bank := (s.dropProbe p).bank
      bus := { s.bus with
        flight := s.bus.flight.map fun f => if s.txnOf p f.txn then { f with discard := .teardown } else f
        class1 := s.bus.class1.filter fun x => !s.txnOf p x
        class2 := s.bus.class2.filter fun x => !s.txnOf p x
        stack := if (s.det.bringUp.any fun b => b.pos = p) then [] else s.bus.stack
        polls := s.bus.polls.set (posIdx p) none }
      det := { s.det with
        bringUp := s.det.bringUp.filter fun b => b.pos ≠ p
        relearn := s.det.relearn.filter fun x => x.pos ≠ p
        watches := s.det.watches.set (posIdx p) none } } ∧
    m.singles = s.map.singles ∧ m.groups = s.map.groups ∧
    ∀ q, ((q ≠ p → m.positions.get (posIdx q) = s.pos q) ∧ (m.positions.get (posIdx q)).refs = (s.pos q).refs ∧
      (m.positions.get (posIdx q)).coupledSeconds = (s.pos q).coupledSeconds) := by
  generalize hc : ((s.discardFlight p).withdraw ((s.discardFlight p).txnOf p)).endBringUp p = c
  have he : c = { s with
      bus := { s.bus with
        flight := s.bus.flight.map fun f => if s.txnOf p f.txn then { f with discard := .teardown } else f
        class1 := s.bus.class1.filter fun x => !s.txnOf p x
        class2 := s.bus.class2.filter fun x => !s.txnOf p x
        stack := if (s.det.bringUp.any fun b => b.pos = p) then [] else s.bus.stack }
      det := { s.det with bringUp := s.det.bringUp.filter fun b => b.pos ≠ p } } := by
    rw [← hc, filter_pos BringUp.pos]
    unfold State.endBringUp
    have hd : ((s.discardFlight p).withdraw ((s.discardFlight p).txnOf p)).det = s.det := rfl
    rw [hd]
    split <;> rfl
  obtain ⟨m, h1, h2, h3, h4⟩ := endRelearn_eq c p
  have hb : (c.dropProbe p).bank = (s.dropProbe p).bank := dropProbe_bank (by rw [he]) (by rw [he]) p
  have hcm : c.map = s.map := by rw [he]
  have hcp : ∀ q, c.pos q = s.pos q := State.pos_of_map hcm
  refine ⟨m, ?_, h2.trans (by rw [hcm]), h3.trans (by rw [hcm]), fun q => ?_⟩
  · have hf : s.tearDownFront p = (((c.endRelearn p).dropProbe p).setPoll p none).setWatch p none := by rw [← hc]; rfl
    rw [hf, h1, hb, he]
    rfl
  · rw [← hcp q]
    exact h4 q

theorem staleEntries_entry (ref : EntryRef) : ∀ (refs : List EntryRef) (s : State),
    (refs.foldl (fun s r => s.modEntry r fun e => { e with live := false }) s).entry ref =
      (s.entry ref).map fun e => { e with live := e.live && !refs.contains ref }
  | [], s => by cases h : s.entry ref <;> simp [h]
  | r :: refs, s => by
    rw [List.foldl_cons, staleEntries_entry ref refs]
    cases hr : s.entry r with
    | none =>
      have : s.modEntry r (fun e => { e with live := false }) = s := by unfold State.modEntry; rw [hr]
      rw [this]
      cases h : s.entry ref with
      | none => rfl
      | some e =>
        have hne : ref ≠ r := by rintro rfl; rw [hr] at h; cases h
        simp [hne]
    | some e =>
      rw [modEntry_eq hr]
      by_cases h : ref = r
      · subst h; rw [entry_setEntry, hr]; simp
      · rw [entry_setEntry_ne _ h]
        cases s.entry ref <;> simp [h]

/-- The entries of a position stale: only entries change (R10 (4)). -/
theorem staleEntries_eq (s : State) (p : Pos) :
    s.staleEntries p = { s with map := { s.map with singles := (s.staleEntries p).map.singles, groups := (s.staleEntries p).map.groups } } := by
  have h : ∀ (refs : List EntryRef) (s : State), ∃ a b,
      refs.foldl (fun s r => s.modEntry r fun e => { e with live := false }) s = { s with map := { s.map with singles := a, groups := b } } := by
    intro refs
    induction refs with
    | nil => intro s; exact ⟨_, _, rfl⟩
    | cons r refs ih =>
      intro s
      obtain ⟨a, b, h⟩ := ih (s.modEntry r fun e => { e with live := false })
      refine ⟨a, b, ?_⟩
      rw [List.foldl_cons, h]
      unfold State.modEntry State.setEntry
      split
      · cases r <;> rfl
      · rfl
  obtain ⟨a, b, h⟩ := h (s.pos p).refs s
  have h' : s.staleEntries p = _ := h
  rw [h']

theorem boundAt_congr {s t : State} {p : Pos} (hr : (t.pos p).refs = (s.pos p).refs)
    (he : ∀ ref, (t.entry ref).map (fun e => e.slots.map (·.number)) = (s.entry ref).map (fun e => e.slots.map (·.number)))
    (n : Nat) : t.boundAt p n = s.boundAt p n := by
  unfold State.boundAt
  rw [hr, binding_of_numbers he]

/-- The work of a teardown on a position before the record itself: the claims, the bring-up, relearn and probe, the
entries, and what the decoder holds for them (R133). -/
theorem tearDownWork_eq (s : State) (p : Pos) : ∃ m dec links, s.tearDownWork p = { s with
      map := m
      bank := (s.dropProbe p).bank
      bus := { s.bus with
        flight := s.bus.flight.map fun f => if s.txnOf p f.txn then { f with discard := .teardown } else f
        class1 := s.bus.class1.filter fun x => !s.txnOf p x
        class2 := s.bus.class2.filter fun x => !s.txnOf p x
        stack := if (s.det.bringUp.any fun b => b.pos = p) then [] else s.bus.stack
        polls := s.bus.polls.set (posIdx p) none }
      det := { s.det with
        bringUp := s.det.bringUp.filter fun b => b.pos ≠ p
        relearn := s.det.relearn.filter fun x => x.pos ≠ p
        watches := s.det.watches.set (posIdx p) none }
      dec := dec
      links := links } ∧
    (∀ q, ((q ≠ p → (s.tearDownWork p).pos q = s.pos q) ∧
      ((s.tearDownWork p).pos q).coupledSeconds = (s.pos q).coupledSeconds)) ∧
    (∀ ref, (s.tearDownWork p).entry ref =
      (s.entry ref).map fun e => { e with live := e.live && !(s.pos p).refs.contains ref }) ∧
    dec = { s.dec with
      deferred := s.dec.deferred.filter fun d => !s.boundAt p d.number
      posted := s.dec.posted.filter fun x => !s.boundAt p x.number } ∧
    s.heard (s.tearDownWork p) (completions .gone (s.dec.deferred.filter fun d => s.boundAt p d.number)) fun r k =>
      k = .postedWriteFailed ∧ ∃ x ∈ s.dec.posted, s.boundAt p x.number = true ∧
        (x.poster = r ∨ ∃ v, x.carried = some (v, r)) := by
  obtain ⟨m, hF, hs, hg, hp⟩ := tearDownFront_eq s p
  have hW : s.tearDownWork p = (((s.tearDownFront p).staleEntries p).completeWhere
      (fun d => ((s.tearDownFront p).staleEntries p).boundAt p d.number) .gone).removePosted fun x =>
      ((((s.tearDownFront p).staleEntries p).completeWhere
        (fun d => ((s.tearDownFront p).staleEntries p).boundAt p d.number) .gone)).boundAt p x.number := rfl
  have hFpos : ∀ q, (s.tearDownFront p).pos q = m.positions.get (posIdx q) := by intro q; rw [hF]; rfl
  have hFent : ∀ ref, (s.tearDownFront p).entry ref = s.entry ref := by
    intro ref; rw [hF]; unfold State.entry; cases ref <;> simp only [hs, hg]
  have hG := staleEntries_eq (s.tearDownFront p) p
  have hGent : ∀ ref, ((s.tearDownFront p).staleEntries p).entry ref =
      (s.entry ref).map fun e => { e with live := e.live && !(s.pos p).refs.contains ref } := by
    intro ref
    unfold State.staleEntries
    rw [staleEntries_entry, hFent, hFpos, (hp p).2.1]
  have hGpos : ∀ q, ((s.tearDownFront p).staleEntries p).pos q = m.positions.get (posIdx q) := by
    intro q; rw [pos_of_positions (staleEntries_positions ..), hFpos]
  generalize (s.tearDownFront p).staleEntries p = G at hW hG hGent hGpos
  have hnum : ∀ ref, (G.entry ref).map (fun e => e.slots.map (·.number)) = (s.entry ref).map (fun e => e.slots.map (·.number)) := by
    intro ref; rw [hGent]; cases s.entry ref <;> rfl
  have hGb : ∀ n, G.boundAt p n = s.boundAt p n := boundAt_congr (by rw [hGpos, (hp p).2.1]) hnum
  have hGdec : G.dec = s.dec := by rw [hG, hF]
  have hGl : G.links = s.links := by rw [hG, hF]
  have hHm : (G.completeWhere (fun d => G.boundAt p d.number) .gone).map = G.map :=
    completeWhere_keep (·.map) (fun _ _ => rfl) (fun _ _ => rfl) _ _ _
  have hHb : ∀ n, (G.completeWhere (fun d => G.boundAt p d.number) .gone).boundAt p n = s.boundAt p n := fun n =>
    (boundAt_congr (by rw [State.pos_of_map hHm]) (fun ref => by rw [State.entry_of_map hHm]) n).trans (hGb n)
  simp only [hHb] at hW
  simp only [hGb] at hW
  have hHd : (G.completeWhere (fun d => s.boundAt p d.number) .gone).dec =
      { s.dec with deferred := s.dec.deferred.filter fun d => !s.boundAt p d.number } := by
    rw [completeWhere_dec, hGdec]
  have hHh := heard_completeWhere G (fun d => s.boundAt p d.number) .gone
  rw [hGdec] at hHh
  have hk : ∀ {β : Type} (g : State → β), (∀ (s : State) (x : Links), g { s with links := x } = g s) →
      (∀ (s : State) (x : Decoder), g { s with dec := x } = g s) → g (s.tearDownWork p) = g G := by
    intro β g h1 h2
    rw [hW]
    exact (removePosted_keep g h1 h2 _ _).trans (completeWhere_keep g h1 h2 _ _ _)
  have hWd : (s.tearDownWork p).dec = { s.dec with
      deferred := s.dec.deferred.filter fun d => !s.boundAt p d.number
      posted := s.dec.posted.filter fun x => !s.boundAt p x.number } := by
    rw [hW, removePosted_dec, hHd]
  have hWh := heard_removePosted (G.completeWhere (fun d => s.boundAt p d.number) .gone) (fun x => s.boundAt p x.number)
  rw [← hW, hHd] at hWh
  have hmap : (s.tearDownWork p).map = G.map := hk (·.map) (fun _ _ => rfl) (fun _ _ => rfl)
  refine ⟨(s.tearDownWork p).map, _, (s.tearDownWork p).links, ?_, fun q => ?_, fun ref => ?_, rfl, ?_⟩
  · rw [← hWd]
    have e1 := hk (·.pending) (fun _ _ => rfl) (fun _ _ => rfl)
    have e2 := hk (·.matrix) (fun _ _ => rfl) (fun _ _ => rfl)
    have e3 := hk (·.bank) (fun _ _ => rfl) (fun _ _ => rfl)
    have e4 := hk (·.load) (fun _ _ => rfl) (fun _ _ => rfl)
    have e5 := hk (·.bus) (fun _ _ => rfl) (fun _ _ => rfl)
    have e6 := hk (·.det) (fun _ _ => rfl) (fun _ _ => rfl)
    have e7 := hk (·.light) (fun _ _ => rfl) (fun _ _ => rfl)
    have e8 := hk (·.freeCount) (fun _ _ => rfl) (fun _ _ => rfl)
    rw [hF] at hG
    rw [hG] at e1 e2 e3 e4 e5 e6 e7 e8
    generalize s.tearDownWork p = w at *
    cases w
    dsimp only at e1 e2 e3 e4 e5 e6 e7 e8 ⊢
    subst e1 e2 e3 e4 e5 e6 e7 e8
    rfl
  · rw [State.pos_of_map hmap, hGpos]
    exact ⟨(hp q).1, (hp q).2.2⟩
  · rw [State.entry_of_map hmap, hGent]
  · refine heard_congr (heard_trans (heard_trans (heard_of_links hGl) hHh) hWh) (fun l => ?_) fun r k => ?_
    · simp
    · simp

/-- One position torn down (R133). -/
theorem takenDown_one (s : State) (p : Pos) : TakenDown [p] s (s.tearDown p) := by
  obtain ⟨m, dec, links, hW, hWp, hWe, hdec, hWh⟩ := tearDownWork_eq s p
  obtain ⟨hb, hbc⟩ := dropProbe_facts s p
  have htd := tearDown_eq s p
  generalize s.tearDownWork p = W at hW hWp hWe hWh htd
  have htp : ∀ q, (W.modPos p PosRec.torn).pos q =
      if q ∈ [p] then { coupledSeconds := (s.pos q).coupledSeconds } else s.pos q := by
    intro q
    rw [State.pos_modPos]
    by_cases h : p = q
    · subst h
      rw [if_pos rfl, if_pos (List.mem_singleton.mpr rfl)]
      unfold PosRec.torn
      rw [(hWp p).2]
    · rw [if_neg h, if_neg (by rw [List.mem_singleton]; exact fun e => h e.symm), (hWp q).1 (fun e => h e.symm)]
  have hte : ∀ ref, (W.modPos p PosRec.torn).entry ref = W.entry ref := by
    intro ref; cases ref <;> rfl
  have hth := heard_same hWh (u := W.modPos p PosRec.torn) rfl
  obtain ⟨mm, hT⟩ : ∃ mm, W.modPos p PosRec.torn = { W with map := mm } := ⟨_, rfl⟩
  have htr : ∀ q, (W.modPos p PosRec.torn).ready q = (s.ready q && decide (q ∉ [p])) := by
    intro q
    unfold State.ready
    rw [htp]
    by_cases h : q ∈ [p]
    · rw [if_pos h]; simp [PosState.ready, h]
    · rw [if_neg h]; simp [h]
  have one : ∀ f : Pos → Bool, ([p].any f) = f p := fun f => by simp
  have hlost : ∀ l, s.verdictLost [p] l = (s.ready p && s.affects p l) := fun l => one _
  generalize hU : W.modPos p PosRec.torn = T at htp hte hth hT htr htd
  rw [hW] at hT
  have htotal : s.tearDown p = if s.ready p then T.formExpected.resetVerdicts (s.affected p) else T := htd
  obtain ⟨r1, r2, r3, r4⟩ := resetVerdicts_facts T.formExpected (s.affected p)
  have hmem : ∀ l, l ∈ s.affected p ↔ s.affects p l = true := by
    intro l; unfold State.affected; rw [List.mem_filter]; exact ⟨fun h => h.2, fun h => ⟨mem_allLamps l, h⟩⟩
  -- the whole: what stands of `T`, the load, the light and the links
  have hfin : ∃ load light lk, s.tearDown p = { T with load := load, light := light, links := lk } ∧
      (∀ l, load.expected.get l = if s.ready p = true then
        ((allPos.filter fun x => s.ready x && decide (x ∉ [p])).map fun x => ((s.pos x).contrib.get l).settled).sum
        else s.load.expected.get l) ∧
      (∀ l, load.verdicts.get l = if s.verdictLost [p] l then {} else s.load.verdicts.get l) ∧
      (light = { s.light with kind0 := light.kind0, kind1 := light.kind1, fast := light.fast } ∧
        (s.flashLaw = true → (s.tearDown p).flashLaw = true)) ∧
      T.heard (s.tearDown p) (fun _ => []) fun _ k =>
        k = .lampVerdict ∧ ∃ l, s.verdictLost [p] l = true ∧ (s.load.verdicts.get l).kind ≠ .unchecked := by
    have hTl : T.load = s.load := by rw [hT]
    have hTi : T.light = s.light := by rw [hT]
    have hTf : T.flashLaw = s.flashLaw := by rw [flash_of (s := s) (t := T)] <;> first | rw [hTl] | rw [hTi]
    rw [htotal]
    simp only [hlost]
    cases hr : s.ready p
    · refine ⟨T.load, T.light, T.links, rfl, fun l => ?_, fun l => ?_, ⟨?_, fun h => ?_⟩, ?_⟩
      · rw [hTl]; simp
      · rw [hTl]; simp
      · rw [hTi]
      · simp only [Bool.false_eq_true, if_false]; rw [hTf]; exact h
      · exact heard_congr (heard_of_links rfl) (fun _ => rfl) fun _ k => by simp
    · simp only [if_true, Bool.true_and]
      refine ⟨_, _, _, r1, fun l => ?_, fun l => ?_, ⟨?_, fun h => r3 ?_⟩, ?_⟩
      · show T.formExpected.load.expected.get l = _
        rw [formExpected_get]
        simp only [htr]
        refine congrArg List.sum (List.map_congr_left fun x hx => ?_)
        rw [htp, if_neg]
        have := (List.mem_filter.mp hx).2
        rw [Bool.and_eq_true, decide_eq_true_eq] at this
        exact this.2
      · show (T.formExpected.resetVerdicts _).load.verdicts.get l = _
        rw [r2 l]
        have : T.formExpected.load.verdicts = s.load.verdicts := by rw [← hTl]; rfl
        rw [this]
        by_cases h : s.affects p l = true
        · rw [if_pos ((hmem l).mpr h), if_pos h]
        · rw [if_neg (fun e => h ((hmem l).mp e)), if_neg h]
      · show _ = _
        simp only [State.formExpected_light, hTi]
      · show T.formExpected.flashLaw = true
        rw [flash_of (s := T) (t := T.formExpected) rfl rfl rfl rfl, hTf]; exact h
      · refine heard_congr (heard_trans (heard_of_links (s := T) (t := T.formExpected) rfl) r4) (fun _ => rfl) fun _ k => ?_
        have : T.formExpected.load.verdicts = s.load.verdicts := by rw [← hTl]; rfl
        simp only [false_or, this, hmem]
  obtain ⟨load, light, lk, hf, hexp, hver, hlight, hheard⟩ := hfin
  have hpos : ∀ q, (s.tearDown p).pos q = T.pos q := fun q => State.pos_of_map (by rw [hf]) q
  have hent : ∀ ref, (s.tearDown p).entry ref = T.entry ref := fun ref => State.entry_of_map (by rw [hf]) ref
  have hchan : ∀ c, (s.tearDown p).chan c = (s.dropProbe p).chan c := fun c => State.chan_of_bank (by rw [hf, hT]) c
  refine ⟨?_, ?_, ?_, ?_, ?_, ?_, ?_, ?_, ?_, ?_, ?_, ?_, ?_, ?_, ?_⟩
  · rw [hf, hT]; exact ⟨rfl, rfl, rfl⟩
  · intro q; rw [hpos]; exact htp q
  · intro ref; rw [hent, hte, hWe]; simp only [one]
  · rw [hf, hT]; simp only [List.mem_singleton]
  · intro q
    rw [hf, hT]
    show (s.det.watches.set (posIdx p) none).get (posIdx q) = _
    rw [Tbl.get_set]
    by_cases h : p = q
    · subst h; simp
    · rw [if_neg (fun e => h (posIdx_injective e)), if_neg (by rw [List.mem_singleton]; exact fun e => h e.symm)]
  · rw [hf, hT]; simp only [List.mem_singleton]; exact congrArg State.bank hb
  · intro c
    dsimp only
    rw [hchan]
    simp only [List.mem_singleton]
    exact hbc c
  · rw [hf, hT]
    simp only [List.mem_singleton, State.ofTaken, Bool.or_false]
  · intro q
    rw [hf, hT]
    show (s.bus.polls.set (posIdx p) none).get (posIdx q) = _
    rw [Tbl.get_set]
    by_cases h : p = q
    · subst h; simp
    · rw [if_neg (fun e => h (posIdx_injective e)), if_neg (by rw [List.mem_singleton]; exact fun e => h e.symm)]
  · intro l
    rw [hf]
    show load.expected.get l = _
    rw [hexp]
    simp only [List.mem_singleton, exists_eq_left]
  · intro l
    rw [hf]
    exact hver l
  · refine ⟨?_, hlight.2⟩
    rw [hf]
    exact hlight.1
  · rw [hf, hT]; simp only [hdec, one]
  · rw [hf, hT]; simp only [hdec, one]
  · refine heard_congr (heard_trans hth hheard) (fun l => ?_) fun r k => ?_
    · simp [State.goneOf]
    · simp only [List.mem_singleton, exists_eq_left]
      exact or_comm

/-! ## Positions one after the other -/

theorem ofTaken_congr (x : Txn) : ∀ (ps : List Pos) {a b : State}, (∀ q, a.pos q = b.pos q) →
    (∀ q ∈ ps, (a.det.bringUp.any fun y => y.pos = q) = b.det.bringUp.any fun y => y.pos = q) →
    a.ofTaken ps x = b.ofTaken ps x
  | [], _, _, _, _ => rfl
  | p :: ps, a, b, h1, h2 => by
    have hr : a.repeaterOf = b.repeaterOf := by funext q; unfold State.repeaterOf; rw [h1]
    have ht : a.txnOf p x = b.txnOf p x := by
      unfold State.txnOf; rw [h2 p (List.mem_cons_self ..), hr, h1]
    unfold State.ofTaken
    rw [ht, ofTaken_congr x ps (a := a.modPos p PosRec.torn) (b := b.modPos p PosRec.torn) (fun q => ?_)
      fun q hq => h2 q (List.mem_cons_of_mem _ hq)]
    rw [State.pos_modPos, State.pos_modPos, h1, h1]

theorem goneOf_congr {s t : State} : ∀ (ps : List Pos), (∀ q ∈ ps, ∀ n, t.boundAt q n = s.boundAt q n) →
    ∀ ds, t.goneOf ps ds = s.goneOf ps ds
  | [], _, _ => rfl
  | p :: ps, h, ds => by
    have hp := h p (List.mem_cons_self ..)
    unfold State.goneOf
    simp only [hp]
    rw [goneOf_congr ps fun q hq => h q (List.mem_cons_of_mem _ hq)]

theorem TakenDown.nil (s : State) : TakenDown [] s s where
  rest := ⟨rfl, rfl, rfl⟩
  positions _ := by simp
  entries ref := by cases h : s.entry ref <;> simp
  detector := by
    have h1 : (s.det.bringUp.filter fun b => b.pos ∉ ([] : List Pos)) = s.det.bringUp := by cases s.det.bringUp <;> simp
    have h2 : (s.det.relearn.filter fun b => b.pos ∉ ([] : List Pos)) = s.det.relearn := by cases s.det.relearn <;> simp
    rw [h1, h2]
  watches _ := by simp
  bank := by
    have h1 : (s.bank.probe.filter fun b => b.pos ∉ ([] : List Pos)) = s.bank.probe := by cases s.bank.probe <;> simp
    rw [h1]
  channels c := by
    dsimp only
    exact ⟨(by rintro ⟨q, -, h, -⟩; cases h), fun _ => rfl⟩
  bus := by
    have h1 : (s.bus.flight.map fun f => if s.ofTaken [] f.txn then { f with discard := Discard.teardown } else f) = s.bus.flight := by
      simp [State.ofTaken]
    have h2 : ∀ xs : List Txn, (xs.filter fun x => !s.ofTaken [] x) = xs := fun xs => by simp [State.ofTaken]
    have h3 : (if (s.det.bringUp.any fun b => b.pos ∈ ([] : List Pos)) then [] else s.bus.stack) = s.bus.stack := by
      rw [if_neg (by simp)]
    rw [h1, h2, h2, h3]
  polls _ := by simp
  expected l := by simp
  verdicts l := by simp [State.verdictLost]
  light := ⟨rfl, id⟩
  deferred := (List.filter_eq_self.mpr fun _ _ => rfl).symm
  posted := (List.filter_eq_self.mpr fun _ _ => rfl).symm
  heard := heard_congr (heard_of_links rfl) (fun _ => rfl) fun r k => by simp [State.verdictLost]

/-- A position torn down, then others. -/
theorem TakenDown.cons {s t u : State} {p : Pos} {ps : List Pos} (hp : p ∉ ps) (h : TakenDown [p] s t)
    (k : TakenDown ps t u) : TakenDown (p :: ps) s u := by
  have hpos : ∀ q, q ≠ p → t.pos q = s.pos q := by
    intro q hq
    rw [h.positions, if_neg (by rw [List.mem_singleton]; exact hq)]
  have hin : ∀ q ∈ ps, q ≠ p := by rintro q hq rfl; exact hp hq
  have hready : ∀ q, q ≠ p → t.ready q = s.ready q := by intro q hq; unfold State.ready; rw [hpos q hq]
  have hreadyp : t.ready p = false := by
    unfold State.ready; rw [h.positions, if_pos (List.mem_singleton.mpr rfl)]; rfl
  have hnum : ∀ ref, (t.entry ref).map (fun e => e.slots.map (·.number)) = (s.entry ref).map (fun e => e.slots.map (·.number)) := by
    intro ref; rw [h.entries]; cases s.entry ref <;> rfl
  have hbound : ∀ q ∈ ps, ∀ n, t.boundAt q n = s.boundAt q n := fun q hq =>
    boundAt_congr (by rw [hpos q (hin q hq)]) hnum
  have hcons : ∀ q, q ∈ p :: ps ↔ q = p ∨ q ∈ ps := fun q => List.mem_cons
  have hbring : ∀ q ∈ ps, (t.det.bringUp.any fun y => y.pos = q) = s.det.bringUp.any fun y => y.pos = q := by
    intro q hq
    rw [h.detector]
    dsimp only
    cases s.det.bringUp with
    | none => rfl
    | some b =>
      by_cases hb : b.pos = p
      · have : p ≠ q := fun e => hin q hq e.symm
        simp [hb, this]
      · simp [hb]
  have htaken : ∀ x, t.ofTaken ps x = (s.modPos p PosRec.torn).ofTaken ps x := by
    refine fun x => ofTaken_congr x ps (fun q => ?_) hbring
    rw [h.positions, State.pos_modPos]
    by_cases e : p = q
    · subst e; rw [if_pos (List.mem_singleton.mpr rfl), if_pos rfl]; rfl
    · rw [if_neg e, if_neg (by rw [List.mem_singleton]; exact fun x => e x.symm)]
  have hof : ∀ x, s.ofTaken (p :: ps) x = (s.ofTaken [p] x || t.ofTaken ps x) := by
    intro x; rw [htaken]; simp [State.ofTaken]
  have hslots : ∀ ref, (t.entry ref).map (·.slots) = (s.entry ref).map (·.slots) := by
    intro ref; rw [h.entries]; cases s.entry ref <;> rfl
  have haff : ∀ q ∈ ps, ∀ l, s.verdictLost [p] l = false → t.affects q l = s.affects q l := by
    intro q hq l hl
    have hv := h.verdicts l
    rw [hl] at hv
    unfold State.affects
    rw [hpos q (hin q hq), hv]
    have : ∀ ref, ((t.entry ref).any fun e => e.slots.any fun sl => sl.kind = .lampStatus && sl.inst = (lampChan l).val) =
        (s.entry ref).any fun e => e.slots.any fun sl => sl.kind = .lampStatus && sl.inst = (lampChan l).val := by
      intro ref; rw [h.entries]; cases s.entry ref <;> rfl
    simp only [this]
    rfl
  have hlost : ∀ l, s.verdictLost [p] l = false → t.verdictLost ps l = s.verdictLost (p :: ps) l := by
    intro l hl
    have h1 : s.verdictLost (p :: ps) l = (s.verdictLost [p] l || s.verdictLost ps l) := by
      simp [State.verdictLost]
    rw [h1, hl, Bool.false_or]
    unfold State.verdictLost
    rw [Bool.eq_iff_iff, List.any_eq_true, List.any_eq_true]
    refine exists_congr fun q => and_congr_right fun hq => ?_
    rw [hready q (hin q hq), haff q hq l hl]
  have hlostp : ∀ l, s.verdictLost [p] l = true → s.verdictLost (p :: ps) l = true := by
    intro l hl
    unfold State.verdictLost at *
    simp only [List.any_cons, List.any_nil, Bool.or_false] at hl
    rw [List.any_cons, hl, Bool.true_or]
  have hroute : ∀ c, t.routed c = s.routed c := by intro c; unfold State.routed; rw [h.rest.2.1]
  have hwants : ∀ d, t.wantsOn d = s.wantsOn d := by
    intro d
    have h1 : t.bank.turn = s.bank.turn := by rw [h.bank]
    have h2 : t.bank.emergency = s.bank.emergency := by rw [h.bank]
    unfold State.wantsOn; rw [h1, h2]
  have hprobe : t.bank.probe = s.bank.probe.filter fun q => q.pos ∉ [p] := by rw [h.bank]
  refine ⟨⟨k.rest.1.trans h.rest.1, k.rest.2.1.trans h.rest.2.1, k.rest.2.2.trans h.rest.2.2⟩, fun q => ?_, fun ref => ?_, ?_,
    fun q => ?_, ?_, fun c => ?_, ?_, fun q => ?_, fun l => ?_, fun l => ?_, ⟨?_, fun x => k.light.2 (h.light.2 x)⟩, ?_, ?_, ?_⟩
  · rw [k.positions, h.positions]
    by_cases hq : q = p
    · subst hq; simp
    · simp [hq]
  · rw [k.entries, h.entries]
    have hany : (ps.any fun q => (t.pos q).refs.contains ref) = ps.any fun q => (s.pos q).refs.contains ref := by
      rw [Bool.eq_iff_iff, List.any_eq_true, List.any_eq_true]
      refine exists_congr fun q => and_congr_right fun hq => ?_
      rw [hpos q (hin q hq)]
    rw [hany]
    cases s.entry ref with
    | none => rfl
    | some e =>
      simp only [Option.map_some, List.any_cons, List.any_nil, Bool.or_false, Bool.not_or, Bool.and_assoc]
  · have hb : u.det.bringUp = s.det.bringUp.filter fun b => b.pos ∉ p :: ps := by
      rw [k.detector, h.detector]
      dsimp only
      rw [Option.filter_filter]
      simp only [hcons, List.mem_singleton, not_or, Bool.decide_and]
    have hr : u.det.relearn = s.det.relearn.filter fun b => b.pos ∉ p :: ps := by
      rw [k.detector, h.detector]
      dsimp only
      rw [Option.filter_filter]
      simp only [hcons, List.mem_singleton, not_or, Bool.decide_and]
    rw [← hb, ← hr, k.detector, h.detector]
  · rw [k.watches, h.watches]
    by_cases hq : q = p <;> by_cases hq' : q ∈ ps <;> simp [hq, hq']
  · have hb : u.bank.probe = s.bank.probe.filter fun b => b.pos ∉ p :: ps := by
      rw [k.bank, hprobe]
      rw [Option.filter_filter]
      simp only [hcons, List.mem_singleton, not_or, Bool.decide_and]
    rw [← hb, k.bank, h.bank]
  · obtain ⟨h1, h2⟩ := h.channels c
    obtain ⟨k1, k2⟩ := k.channels c
    dsimp only at h1 h2 k1 k2 ⊢
    refine ⟨?_, fun hn => ?_⟩
    · rintro ⟨q, hq, hin', hc, hprobed⟩
      by_cases hqp : q.pos = p
      · have hT := h1 ⟨q, hq, List.mem_singleton.mpr hqp, hc, hprobed⟩
        have hnone : t.bank.probe = none := by rw [hprobe, hq]; simp [hqp]
        rw [k2 fun q' hq' => by rw [hnone] at hq'; cases hq']
        exact hT
      · have he := h2 fun q' hq' hm => by
          rw [hq] at hq'; cases hq'; exact absurd (List.mem_singleton.mp hm) hqp
        have hsome : t.bank.probe = some q := by rw [hprobe, hq]; simp [hqp]
        have hin2 : q.pos ∈ ps := by
          rcases List.mem_cons.mp hin' with e | e
          · exact absurd e hqp
          · exact e
        have := k1 ⟨q, hsome, hin2, hc, by rw [he]; exact hprobed⟩
        rw [he, hroute, hwants] at this
        exact this
    · have he := h2 fun q hq hm => hn q hq (by rw [List.mem_singleton.mp hm]; exact List.mem_cons_self ..)
      rw [← he]
      refine k2 fun q hq hm hc => ?_
      rw [he]
      rw [hprobe] at hq
      exact hn q (Option.filter_eq_some_iff.mp hq).1 (List.mem_cons_of_mem _ hm) hc
  · rw [k.bus, h.bus]
    dsimp only
    have hstk : (if (t.det.bringUp.any fun b => b.pos ∈ ps) then [] else
        if (s.det.bringUp.any fun b => b.pos ∈ [p]) then [] else s.bus.stack) =
        if (s.det.bringUp.any fun b => b.pos ∈ p :: ps) then [] else s.bus.stack := by
      rw [h.detector]
      dsimp only
      cases s.det.bringUp with
      | none => rfl
      | some b =>
        by_cases h1 : b.pos = p <;> by_cases h2 : b.pos ∈ ps <;> simp [h1, h2]
    rw [hstk]
    congr 1
    · rw [Option.map_map]
      congr 1
      funext f
      simp only [Function.comp_apply, hof]
      cases h1 : s.ofTaken [p] f.txn <;> cases h2 : t.ofTaken ps f.txn <;> simp [h2]
    · rw [List.filter_filter]
      refine List.filter_congr fun x _ => ?_
      rw [hof, Bool.not_or, Bool.and_comm]
    · rw [List.filter_filter]
      refine List.filter_congr fun x _ => ?_
      rw [hof, Bool.not_or, Bool.and_comm]
  · rw [k.polls, h.polls]
    by_cases hq : q = p <;> by_cases hq' : q ∈ ps <;> simp [hq, hq']
  · rw [k.expected, h.expected]
    have hfil : (allPos.filter fun q => t.ready q && decide (q ∉ ps)) = allPos.filter fun q => s.ready q && decide (q ∉ p :: ps) := by
      refine List.filter_congr fun q _ => ?_
      by_cases hq : q = p
      · subst hq; rw [hreadyp]; simp
      · rw [hready q hq]; simp [hq]
    have hmap : ((allPos.filter fun q => s.ready q && decide (q ∉ p :: ps)).map fun q => ((t.pos q).contrib.get l).settled) =
        (allPos.filter fun q => s.ready q && decide (q ∉ p :: ps)).map fun q => ((s.pos q).contrib.get l).settled := by
      refine List.map_congr_left fun q hq => ?_
      have := (List.mem_filter.mp hq).2
      rw [Bool.and_eq_true, decide_eq_true_eq, List.mem_cons, not_or] at this
      rw [hpos q this.2.1]
    rw [hfil, hmap]
    by_cases he : ∃ q ∈ ps, s.ready q = true
    · have he' : ∃ q ∈ ps, t.ready q = true := by
        obtain ⟨q, h1, h2⟩ := he; exact ⟨q, h1, by rw [hready q (hin q h1)]; exact h2⟩
      have he'' : ∃ q ∈ p :: ps, s.ready q = true := by
        obtain ⟨q, h1, h2⟩ := he; exact ⟨q, List.mem_cons_of_mem _ h1, h2⟩
      rw [if_pos he', if_pos he'']
    · have he' : ¬∃ q ∈ ps, t.ready q = true := by
        rintro ⟨q, h1, h2⟩; exact he ⟨q, h1, by rw [← hready q (hin q h1)]; exact h2⟩
      rw [if_neg he']
      have hno : ∀ q ∈ ps, s.ready q = false := fun q hq => by
        cases hr : s.ready q
        · rfl
        · exact absurd ⟨q, hq, hr⟩ he
      have hfil2 : (allPos.filter fun q => s.ready q && decide (q ∉ [p])) = allPos.filter fun q => s.ready q && decide (q ∉ p :: ps) := by
        refine List.filter_congr fun q _ => ?_
        by_cases hq : q ∈ ps
        · rw [hno q hq]; rfl
        · simp [hq]
      rw [hfil2]
      have hiff : (∃ q ∈ [p], s.ready q = true) ↔ ∃ q ∈ p :: ps, s.ready q = true := by
        constructor
        · rintro ⟨q, h1, h2⟩; exact ⟨q, by rw [List.mem_singleton.mp h1]; exact List.mem_cons_self .., h2⟩
        · rintro ⟨q, h1, h2⟩
          rcases List.mem_cons.mp h1 with e | e
          · exact ⟨q, List.mem_singleton.mpr e, h2⟩
          · rw [hno q e] at h2; cases h2
      by_cases hx : ∃ q ∈ [p], s.ready q = true
      · rw [if_pos hx, if_pos (hiff.mp hx)]
      · rw [if_neg hx, if_neg fun e => hx (hiff.mpr e)]
  · rw [k.verdicts, h.verdicts]
    cases hl : s.verdictLost [p] l
    · rw [hlost l hl]; simp
    · rw [hlostp l hl]; simp
  · rw [k.light.1, h.light.1]
  · rw [k.deferred, h.deferred, List.filter_filter]
    refine List.filter_congr fun d _ => ?_
    have : (ps.any fun q => t.boundAt q d.number) = ps.any fun q => s.boundAt q d.number := by
      rw [Bool.eq_iff_iff, List.any_eq_true, List.any_eq_true]
      exact exists_congr fun q => and_congr_right fun hq => by rw [hbound q hq]
    rw [this]
    simp [Bool.and_comm]
  · rw [k.posted, h.posted, List.filter_filter]
    refine List.filter_congr fun d _ => ?_
    have : (ps.any fun q => t.boundAt q d.number) = ps.any fun q => s.boundAt q d.number := by
      rw [Bool.eq_iff_iff, List.any_eq_true, List.any_eq_true]
      exact exists_congr fun q => and_congr_right fun hq => by rw [hbound q hq]
    rw [this]
    simp [Bool.and_comm]
  · refine heard_congr (heard_trans h.heard k.heard) (fun l => ?_) fun r e => ?_
    · rw [← completions_append]
      congr 1
      rw [goneOf_congr ps hbound, h.deferred]
      simp [State.goneOf]
    · have hv : (∃ l, s.verdictLost (p :: ps) l = true ∧ (s.load.verdicts.get l).kind ≠ .unchecked) ↔
          (∃ l, s.verdictLost [p] l = true ∧ (s.load.verdicts.get l).kind ≠ .unchecked) ∨
            ∃ l, t.verdictLost ps l = true ∧ (t.load.verdicts.get l).kind ≠ .unchecked := by
        constructor
        · rintro ⟨l, h1, h2⟩
          cases hl : s.verdictLost [p] l
          · exact Or.inr ⟨l, by rw [hlost l hl]; exact h1, by rw [h.verdicts, hl]; exact h2⟩
          · exact Or.inl ⟨l, hl, h2⟩
        · rintro (⟨l, h1, h2⟩ | ⟨l, h1, h2⟩)
          · exact ⟨l, hlostp l h1, h2⟩
          · cases hl : s.verdictLost [p] l
            · rw [h.verdicts, hl] at h2
              exact ⟨l, by rw [← hlost l hl]; exact h1, h2⟩
            · rw [h.verdicts, hl] at h2
              exact absurd rfl h2
      have hx : (∃ x ∈ s.dec.posted, (∃ q ∈ p :: ps, s.boundAt q x.number = true) ∧ (x.poster = r ∨ ∃ v, x.carried = some (v, r))) ↔
          (∃ x ∈ s.dec.posted, (∃ q ∈ [p], s.boundAt q x.number = true) ∧ (x.poster = r ∨ ∃ v, x.carried = some (v, r))) ∨
          ∃ x ∈ t.dec.posted, (∃ q ∈ ps, t.boundAt q x.number = true) ∧ (x.poster = r ∨ ∃ v, x.carried = some (v, r)) := by
        constructor
        · rintro ⟨x, h1, ⟨q, h2, h3⟩, h4⟩
          by_cases hb : s.boundAt p x.number = true
          · exact Or.inl ⟨x, h1, ⟨p, List.mem_singleton.mpr rfl, hb⟩, h4⟩
          · rcases List.mem_cons.mp h2 with e | e
            · subst e; exact absurd h3 hb
            · refine Or.inr ⟨x, ?_, ⟨q, e, by rw [hbound q e]; exact h3⟩, h4⟩
              rw [h.posted]
              exact List.mem_filter.mpr ⟨h1, by simpa using hb⟩
        · rintro (⟨x, h1, ⟨q, h2, h3⟩, h4⟩ | ⟨x, h1, ⟨q, h2, h3⟩, h4⟩)
          · exact ⟨x, h1, ⟨q, by rw [List.mem_singleton.mp h2]; exact List.mem_cons_self .., h3⟩, h4⟩
          · rw [h.posted] at h1
            exact ⟨x, (List.mem_filter.mp h1).1, ⟨q, List.mem_cons_of_mem _ h2, by rw [← hbound q h2]; exact h3⟩, h4⟩
      rw [hv, hx, and_or_left, and_or_left]
      exact or_or_or_comm ..

/-- The positions of a list without repetition torn down, in order. -/
theorem takenDown_fold : ∀ (ps : List Pos), ps.Nodup → ∀ s : State, TakenDown ps s (ps.foldl State.tearDown s)
  | [], _, s => TakenDown.nil s
  | p :: ps, h, s => by
    rw [List.nodup_cons] at h
    rw [List.foldl_cons]
    exact TakenDown.cons h.1 (takenDown_one s p) (takenDown_fold ps h.2 _)

/-! ## The end of a teardown from position 1 -/

theorem putChan_idle {s : State} (hb : s.det.bringUp = none) (c : ChanId) (ch : Channel) :
    s.putChan c ch = { s with bank := { s.bank with channels := s.bank.channels.set c ch } } := by
  unfold State.putChan
  have : ({ s.det with bringUp := s.det.bringUp.map BringUp.restart } : Detector) = s.det := by
    rw [hb]; exact (congrArg (fun x => ({ s.det with bringUp := x } : Detector)) hb.symm)
  split
  · rw [this]
  · rfl

theorem eachChan_list (f : Channel → Channel) : ∀ (cs : List ChanId), cs.Nodup → ∀ (s : State), s.det.bringUp = none →
    ∃ chans, cs.foldl (fun s c => s.putChan c (f (s.chan c))) s = { s with bank := { s.bank with channels := chans } } ∧
      ∀ c, chans.get c = if c ∈ cs then f (s.chan c) else s.chan c
  | [], _, s, _ => ⟨s.bank.channels, rfl, fun c => rfl⟩
  | d :: cs, hn, s, hb => by
    rw [List.nodup_cons] at hn
    obtain ⟨chans, h1, h2⟩ := eachChan_list f cs hn.2 (s.putChan d (f (s.chan d))) (by rw [putChan_idle hb]; exact hb)
    refine ⟨chans, ?_, fun c => ?_⟩
    · rw [List.foldl_cons, h1, putChan_idle hb]
    · rw [h2, State.chan_putChan]
      by_cases h : d = c
      · subst h
        rw [if_neg hn.1, if_pos rfl, if_pos (List.mem_cons_self ..)]
      · rw [if_neg h]
        have : (c ∈ d :: cs) ↔ c ∈ cs := by rw [List.mem_cons]; exact or_iff_right (fun e => h e.symm)
        by_cases hc : c ∈ cs
        · rw [if_pos hc, if_pos (this.mpr hc)]
        · rw [if_neg hc, if_neg (fun e => hc (this.mp e))]

theorem eachChan_facts (f : Channel → Channel) {s : State} (hb : s.det.bringUp = none) :
    ∃ chans, s.eachChan f = { s with bank := { s.bank with channels := chans } } ∧ ∀ c, chans.get c = f (s.chan c) := by
  obtain ⟨chans, h1, h2⟩ := eachChan_list f allChans (by decide) s hb
  refine ⟨chans, h1, fun c => ?_⟩
  rw [h2, if_pos (by revert c; decide)]

theorem release_facts (ch : Channel) : ch.release.demand = ch.demand ∧
    ch.release.held = { ch with streakCount := 0, streakTimer := 0 }.held ∧
    (ch.release.state = .thermalOff ↔ ch.state = .thermalOff) := by
  have hoff : ch.toOff.held = ch.held := (enter_held ..).trans (switchTo_held ..)
  have hoffd : ch.toOff.demand = ch.demand := by unfold Channel.toOff; simp
  unfold Channel.release
  dsimp only
  split
  · rename_i h
    refine ⟨hoffd, ?_, ?_⟩
    · simp only [Channel.held, Prod.mk.injEq] at hoff ⊢
      obtain ⟨a, b, -, -, c, d, e⟩ := hoff
      exact ⟨a, b, trivial, trivial, c, d, e⟩
    · rw [h]; show ch.toOff.state = .thermalOff ↔ _
      unfold Channel.toOff; simp
  · exact ⟨rfl, rfl, Iff.rfl⟩

theorem disconnect_facts (ch : Channel) (h0 : ch.streakCount = 0) (h1 : ch.streakTimer = 0) : ch.disconnect.demand = ch.demand ∧
    ch.disconnect.held = { ch with backfeed := false }.held ∧
    ch.disconnect.state = if ch.state = .thermalOff then .thermalOff else .off := by
  unfold Channel.disconnect
  dsimp only
  generalize hA : (if ch.state = .tripped then { ch with cooldown := 0, streakCount := 0, streakTimer := 0 } else ch : Channel) = A
  have hAs : A.state = ch.state := by rw [← hA]; split <;> rfl
  have hAd : A.demand = ch.demand := by rw [← hA]; split <;> rfl
  have hAh : A.held = ch.held := by
    rw [← hA]; split
    · unfold Channel.held; rw [h0, h1]
    · rfl
  by_cases h : A.state = .thermalOff
  · rw [if_pos h]
    have : ch.state = .thermalOff := hAs.symm.trans h
    refine ⟨hAd, ?_, by rw [if_pos this]; exact h⟩
    simp only [Channel.held, Prod.mk.injEq] at hAh ⊢
    obtain ⟨a, -, c, d, e, f, g⟩ := hAh
    exact ⟨a, trivial, c, d, e, f, g⟩
  · rw [if_neg h]
    have hoff : A.toOff.held = A.held := (enter_held ..).trans (switchTo_held ..)
    have hoffd : A.toOff.demand = A.demand := by unfold Channel.toOff; simp
    have hn : ¬(ch.state = .thermalOff) := fun e => h (hAs.trans e)
    refine ⟨hoffd.trans hAd, ?_, ?_⟩
    · have := hoff.trans hAh
      simp only [Channel.held, Prod.mk.injEq] at this ⊢
      obtain ⟨a, -, c, d, e, f, g⟩ := this
      exact ⟨a, trivial, c, d, e, f, g⟩
    · rw [if_neg hn]; show A.toOff.state = .off
      unfold Channel.toOff; simp

theorem acceptDemand_thermal (r w on : Bool) (d : Demand) (ch : Channel) :
    (ch.acceptDemand r w on d).state = .thermalOff ↔ ch.state = .thermalOff := by
  have hrm : ∀ x : Channel, (x.reMode w on).state = x.state := by
    intro x; unfold Channel.reMode
    split
    · split
      · exact Channel.switchTo_state on x
      · exact Channel.switchTo_state _ x
    · exact Channel.switchTo_state on x
  unfold Channel.acceptDemand
  dsimp only
  cases h : ch.state with
  | off =>
    dsimp only
    rw [takeDemand_state]
    split <;> simp
  | drive =>
    dsimp only
    split
    · simp [Channel.toOff]
    · rw [hrm]
  | probeGap => exact Iff.rfl
  | probeOn => exact Iff.rfl
  | tripped => exact Iff.rfl
  | latched => exact Iff.rfl
  | thermalOff => exact Iff.rfl


/-- The end of a teardown from position 1, with no bring-up, no probe and position 1 ABSENT (R134 (1)). -/
theorem firstEnded {t : State} (hbn : t.det.bringUp = none) (hqn : t.bank.probe = none) (h1 : t.live .p1 = false) :
    FirstEnded t t.endFirst := by
  -- release
  obtain ⟨ch1, e1, c1⟩ := eachChan_facts Channel.release hbn
  -- coupling demand dropped
  generalize hu : ({ t with bank := { t.bank with channels := ch1 }, det := { t.det with couplingDemand := false } } : State) = u
  obtain ⟨v, vch, vh, ve⟩ := formed u
  have hup : u.probeChan = none := by rw [← hu]; unfold State.probeChan; show t.bank.probe.map _ = none; rw [hqn]; rfl
  rw [hup] at ve
  dsimp only at ve
  have hsc : (t.eachChan Channel.release).setCoupling false = v := by
    unfold State.setCoupling; rw [e1, ← ve, ← hu]
  have hvd : v.det = u.det := by
    have h : ∀ (before : State) (cs : List ChanId) (x : State), x.det.bringUp = none →
        (cs.foldl (State.handDemand before) x).det = x.det := by
      intro before cs
      induction cs with
      | nil => intro x hx; rfl
      | cons c cs ih =>
        intro x hx
        have hs : (State.handDemand before x c).det = x.det := by
          unfold State.handDemand
          dsimp only
          split
          · rfl
          · rw [putChan_idle hx]
        rw [List.foldl_cons, ih _ (by rw [hs]; exact hx), hs]
    have : v = allChans.foldl (State.handDemand u) u.stepFlashers := by
      rw [← ve]; unfold State.formDemand; rw [hup]
    rw [this]
    exact h u allChans _ (by rw [← hu]; exact hbn)
  -- every contact opened
  generalize hw : ({ v with matrix := { v.matrix with active := .none }, bus := { v.bus with flight := none } } : State) = w
  have hwb : w.det.bringUp = none := by rw [← hw]; show v.det.bringUp = none; rw [hvd, ← hu]; exact hbn
  obtain ⟨ch2, e2, c2⟩ := eachChan_facts Channel.disconnect hwb
  have hdis : v.disconnect = { w with bank := { w.bank with channels := ch2 } } := by
    unfold State.disconnect; rw [hw]; exact e2
  have hend : t.endFirst = ({ w with bank := { w.bank with channels := ch2 } } : State).restartDetection := by
    unfold State.endFirst; rw [hsc, hdis]
  have ueff : u.effective = t.effective := by rw [← hu]; rfl
  have uchan : ∀ c, u.chan c = (t.chan c).release := by
    intro c; rw [← hu]; exact c1 c
  have vdem : ∀ c, (v.chan c).demand = demandOf t.effective false c := by
    intro c
    have hnd : u.newDemand c = demandOf t.effective false c := by
      unfold State.newDemand; rw [ueff, ← hu]
    rw [vch]
    split
    · rename_i e; rw [← e, hnd]
    · rw [(acceptDemand_held ..).2, hnd]
  have vheld : ∀ c, (v.chan c).held = (u.chan c).held ∧ ((v.chan c).state = .thermalOff ↔ (u.chan c).state = .thermalOff) := by
    intro c
    rw [vch]
    split
    · exact ⟨rfl, Iff.rfl⟩
    · exact ⟨(acceptDemand_held ..).1, acceptDemand_thermal ..⟩
  have hvs : ∀ c, (v.chan c).streakCount = 0 ∧ (v.chan c).streakTimer = 0 := by
    intro c
    have h1 := (vheld c).1
    rw [uchan c, (release_facts (t.chan c)).2.1] at h1
    simp only [Channel.held, Prod.mk.injEq] at h1
    exact ⟨h1.2.2.1, h1.2.2.2.1⟩
  have wchan : ∀ c, w.chan c = v.chan c := by intro c; rw [← hw]; rfl
  have wdet : w.det = { t.det with couplingDemand := false } := by rw [← hw]; show v.det = _; rw [hvd, ← hu]
  -- the whole
  generalize hZ : ({ w with bank := { w.bank with channels := ch2 } } : State) = Z at hend
  have zmap : Z.map = t.map := by rw [← hZ, ← hw]; show v.map = _; rw [vh.map, ← hu]; rfl
  have zlive : Z.live .p1 = false := by unfold State.live; rw [State.pos_of_map zmap]; exact h1
  have zdet : Z.det = { t.det with couplingDemand := false } := by rw [← hZ]; exact wdet
  have hcc : Z.restartDetection = { Z with det := { Z.det with
      debounce := if t.det.effective = .none then none else some { candidate := t.det.effective, length := 200 } } } := by
    unfold State.restartDetection State.codeChange
    dsimp only
    have : ({ Z with det := { Z.det with effective := Z.det.effective } } : State).live .p1 = false := zlive
    have zeff : Z.det.effective = t.det.effective := by rw [zdet]
    rw [this, if_neg (by simp), zeff]
    split
    · unfold State.stopDebounce; rw [← zeff]
    · unfold State.startDebounce; rw [← zeff]
  have zeq : Z = { t with
      matrix := { t.matrix with active := .none }
      bus := { t.bus with flight := none }
      det := { t.det with couplingDemand := false }
      bank := { t.bank with channels := Z.bank.channels, turn := Z.bank.turn, emergency := Z.bank.emergency } } := by
    have b1 : v.pending = t.pending := by rw [vh.pending, ← hu]; rfl
    have b2 : v.map = t.map := by rw [vh.map, ← hu]; rfl
    have b3 : v.matrix = t.matrix := by rw [vh.matrix, ← hu]; rfl
    have b4 : v.load = t.load := by rw [vh.load, ← hu]; rfl
    have b5 : v.bus = t.bus := by rw [vh.bus, ← hu]; rfl
    have b6 : v.light = t.light := by rw [vh.light, ← hu]; rfl
    have b7 : v.dec = t.dec := by rw [vh.dec, ← hu]; rfl
    have b8 : v.links = t.links := by rw [vh.links, ← hu]; rfl
    have b9 : v.freeCount = t.freeCount := by rw [vh.freeCount, ← hu]; rfl
    have b10 : v.bank.supply = t.bank.supply := by rw [vh.supply.1, ← hu]; rfl
    have b11 : v.bank.supplyInside = t.bank.supplyInside := by rw [vh.supply.2, ← hu]; rfl
    have b12 : v.bank.probe = t.bank.probe := by rw [vh.probe, ← hu]; rfl
    have b13 : v.bank.supplyAge = t.bank.supplyAge := by
      have h := foldl_keep (·.bank.supplyAge) (f := State.handDemand u) (fun x c => by
        unfold State.handDemand; dsimp only; split <;> rfl) allChans u.stepFlashers
      have hv : v = allChans.foldl (State.handDemand u) u.stepFlashers := by
        rw [← ve]; unfold State.formDemand; rw [hup]
      rw [hv, h, ← hu]
      rfl
    rw [← hZ, ← hw]
    simp only [b1, b2, b3, b4, b5, b6, b7, b8, b9, hvd]
    rw [← hu]
    congr 1
    rw [← b10, ← b11, ← b12, ← b13]
  have zchan : ∀ c, Z.chan c = (v.chan c).disconnect := by
    intro c; rw [← hZ]; exact (c2 c).trans (by rw [wchan])
  rw [hend, hcc]
  refine ⟨?_, fun c => ?_⟩
  · generalize Z.restartDetection = x at *
    rw [zdet]
    exact congrArg (fun y : State => ({ y with det := { t.det with
      couplingDemand := false
      debounce := if t.det.effective = .none then none else some { candidate := t.det.effective, length := 200 } } } : State)) zeq
  · show (Z.chan c).state = _ ∧ (Z.chan c).demand = _ ∧ (Z.chan c).held = _
    obtain ⟨d1, d2, d3⟩ := disconnect_facts (v.chan c) (hvs c).1 (hvs c).2
    rw [zchan]
    refine ⟨?_, d1.trans (vdem c), ?_⟩
    · rw [d3]
      have hiff : (v.chan c).state = .thermalOff ↔ (t.chan c).state = .thermalOff := by
        rw [(vheld c).2, uchan, (release_facts _).2.2]
      by_cases h : (t.chan c).state = .thermalOff
      · rw [if_pos (hiff.mpr h), if_pos h]
      · rw [if_neg (fun e => h (hiff.mp e)), if_neg h]
    · rw [d2]
      have hv := (vheld c).1
      rw [uchan c, (release_facts (t.chan c)).2.1] at hv
      simp only [Channel.held, Prod.mk.injEq] at hv ⊢
      obtain ⟨a1, -, a3, a4, a5, a6, a7⟩ := hv
      exact ⟨a1, trivial, a3, a4, a5, a6, a7⟩

/-! ## A whole teardown -/

theorem takenDown_takes (s : State) (k : Pos) : TakenDown (s.takes k) s ((s.takes k).foldl State.tearDown s) :=
  takenDown_fold _ (List.Pairwise.filter _ (show (tornFrom k).Nodup by cases k <;> decide)) s

/-- A teardown from a position behind another (R132 to R134). -/
theorem torn_behind (s : State) {k front : Pos} (hk : posFront k = some front) : Torn k s (s.teardown k) := by
  refine ⟨(s.takes k).foldl State.tearDown s, ((s.takes k).foldl State.tearDown s).resetCounts front, takenDown_takes s k, ?_, ?_⟩
  · unfold State.teardown State.takes; rw [hk]
  · rw [hk]; rfl

/-- A teardown from position 1, while that is live (R132 to R134). -/
theorem torn_first {s : State} (hc : s.chainLaw = true) (h1 : s.live .p1 = true) : Torn .p1 s (s.teardown .p1) := by
  obtain ⟨-, -, -, hbl, hql⟩ := chain_iff.mp hc
  have hmem : ∀ p, p ∈ s.takes .p1 ↔ s.live p = true := by
    intro p; unfold State.takes; rw [List.mem_filter]
    exact ⟨fun h => h.2, fun h => ⟨by cases p <;> decide, h⟩⟩
  have hD := takenDown_takes s .p1
  refine ⟨(s.takes .p1).foldl State.tearDown s, ((s.takes .p1).foldl State.tearDown s).endFirst, hD, rfl, ?_⟩
  show FirstEnded _ _
  generalize (s.takes .p1).foldl State.tearDown s = t at hD
  refine firstEnded ?_ ?_ ?_
  · rw [hD.detector]
    show s.det.bringUp.filter _ = none
    cases hb : s.det.bringUp with
    | none => rfl
    | some b =>
      have := (hmem _).mpr (live_of_inBringUp (hbl b hb))
      simp [this]
  · rw [hD.bank]
    show s.bank.probe.filter _ = none
    cases hb : s.bank.probe with
    | none => rfl
    | some b =>
      have := (hmem _).mpr (hql b hb)
      simp [this]
  · unfold State.live
    rw [hD.positions, if_pos ((hmem _).mpr h1)]
    rfl

/-- A teardown (R132 to R134). -/
theorem torn_teardown {s : State} (hc : s.chainLaw = true) {k : Pos} (h1 : s.live k = true) : Torn k s (s.teardown k) := by
  cases hk : posFront k with
  | some front => exact torn_behind s hk
  | none =>
    have : k = .p1 := by cases k <;> first | rfl | cases hk
    subst this
    exact torn_first hc h1

/-- What links are after a teardown. -/
theorem grow_of_torn {k : Pos} {s t : State} (h : Torn k s t) : LinksGrow s t ∧ s.told t .uncoupled := by
  obtain ⟨v, w, hD, ht, hw⟩ := h
  have hwl : w.links = v.links := by
    cases hk : posFront k with
    | none => rw [hk] at hw; have := hw.whole; rw [this]
    | some front => rw [hk] at hw; rw [hw]; rfl
  rw [ht]
  have h1 : s.heard w _ _ := heard_same hD.heard hwl
  have h2 := heard_trans h1 (heard_raiseAll w .uncoupled)
  exact ⟨grow_of_heard h2, told_of_heard h2 fun _ => Or.inr rfl⟩

end Sys2Proof.Machine
end

