-- ==== Sys2Proof/Laws/Transactions.lean ====
section
/-! SUPPORT. Bus transactions: frames taken, values, reports, the search. -/

namespace Sys2Proof.Machine

theorem next_settle {s t : State} (h : t.links = s.links) : (Host.Outcome.next (s.settle t) : Result) = .next t.grantIfIdle := by
  rw [settle_same h]

theorem posOfNumber_posNumber (p : Pos) : posOfNumber (posNumber p) = some p := by cases p <;> rfl

theorem posOfNumber_none {n : Nat} (h : n = 0 ∨ 3 < n) : posOfNumber n = none := by
  unfold posOfNumber
  split <;> first | rfl | omega

theorem suspended_iff (s : State) : s.suspended = true ↔ (s.det.relearn ≠ none ∨
      ∃ p, (s.pos p).state = .powering ∨ (s.pos p).state = .enumerating ∨ (s.pos p).state = .measuring) := by
  have hib : ∀ st : PosState, st.inBringUp = true ↔ (st = .powering ∨ st = .enumerating ∨ st = .measuring) := by
    intro st; cases st <;> simp [PosState.inBringUp]
  unfold State.suspended
  rw [Bool.or_eq_true, List.any_eq_true, Option.isSome_iff_ne_none]
  constructor
  · rintro (⟨p, -, h⟩ | h)
    · exact Or.inr ⟨p, (hib _).mp h⟩
    · exact Or.inl h
  · rintro (h | ⟨p, h⟩)
    · exact Or.inr h
    · exact Or.inl ⟨p, by cases p <;> decide, (hib _).mpr h⟩

theorem beginAttempt_rest (s : State) (q : Probe) : (s.beginAttempt q).map = s.map ∧ (s.beginAttempt q).det.relearn = s.det.relearn ∧
    (s.beginAttempt q).bank.probe = some { q with phase := .attempt, inrush := 0, samples := [], gap := 0, armed := false } := by
  unfold State.beginAttempt
  dsimp only
  have hp : ∀ (c : ChanId) (ch : Channel) (u : State), (u.putChan c ch).det.relearn = u.det.relearn := by
    intro c ch u; unfold State.putChan; dsimp only; split <;> rfl
  split
  · exact ⟨rfl, hp .., rfl⟩
  · split
    · split
      · exact ⟨rfl, rfl, rfl⟩
      · exact ⟨rfl, hp .., rfl⟩
    · split
      · exact ⟨rfl, rfl, rfl⟩
      · exact ⟨rfl, hp .., rfl⟩
    · exact ⟨rfl, hp .., rfl⟩
    · exact ⟨rfl, hp .., rfl⟩
  all_goals exact ⟨rfl, rfl, rfl⟩

theorem pos_finish (s t : State) (p : Pos) : (s.finish t).pos p = t.pos p := State.pos_of_map (by simp) p

theorem bringUp_stage (s : State) (b : BringUp) (hb : s.det.bringUp = some b) : s.enterEnumerating b.pos =
    { s.setPos b.pos { s.pos b.pos with state := .enumerating } with
      bus := { s.bus with stack := [], class2 := s.bus.class2 ++ [Txn.search 0 0] } } := by
  unfold State.enterEnumerating State.bringUpNext
  dsimp only
  rw [show (s.modPos b.pos (PosRec.stage .enumerating)).det = s.det from rfl, hb]
  rfl

theorem grantIfIdle_flying {s : State} {f : InFlight} (h : s.bus.flight = some f) : s.grantIfIdle = s := by
  unfold State.grantIfIdle; rw [h]; simp

theorem pollOutcome_fail {u : State} {p : Pos} {o : BusOutcome} {ref : EntryRef} (ho : o = .garbled ∨ o = .silence) (hr : u.repeaterOf p = some ref) :
    u.pollOutcome p o false = u.strike ref := by
  have h : u.pollStrikes p o = (u.strike ref, none) := by
    unfold State.pollStrikes
    rw [hr]
    rcases ho with rfl | rfl <;> rfl
  unfold State.pollOutcome
  rw [h]
  rfl

theorem readValues_bytes : ∀ xs : List Word16, readValues (xs.flatMap Word16.bytes) = xs
  | [] => rfl
  | x :: xs => by
    rw [List.flatMap_cons]
    show readValues (x.extractLsb' 8 8 :: x.extractLsb' 0 8 :: xs.flatMap Word16.bytes) = _
    unfold readValues
    rw [readValues_bytes xs, word16_split]

/-- A frame received in time is taken. -/
theorem exec_frame {s : State} {f : InFlight} {bytes payload : List Byte} {first : Bool} (hf : s.bus.flight = some f) (h5 : f.waited ≤ 5)
    (hb : f.txn.broadcast = false) (hp : replyPayload f.txn.command bytes = some payload) :
    exec (.trailerBusFrameReceived bytes first) s = .next (s.settle (s.takeReply f payload first)) := by
  show execTrailerBusFrameReceived bytes first s = _
  unfold execTrailerBusFrameReceived
  rw [hf]
  dsimp only
  rw [if_neg (by rintro (h | h)
                 · rw [hb] at h; cases h
                 · exact absurd h (Nat.not_lt.mpr h5))]
  unfold State.receive
  rw [hp]

theorem clearStrikes_eq {u : State} {ref : EntryRef} {e : Entry} (he : u.entry ref = some e) :
    u.clearStrikes ref = { u.setEntry ref (some { e with strikes := 0 }) with
      bus := { u.bus with
        class1 := u.bus.class1.filter fun x => !decide (x = Txn.rediscover ref)
        class2 := u.bus.class2.filter fun x => !decide (x = Txn.rediscover ref) } } := by
  unfold State.clearStrikes State.withdraw
  rw [modEntry_eq he]
  simp only [State.setEntry_bus]

theorem answeredThere_eq {u : State} {ref : EntryRef} {e : Entry} (he : u.entry ref = some e) :
    u.answeredThere ref = { u.setEntry ref (some { e with strikes := 0, unassigned := false }) with
      bus := { u.bus with
        class1 := u.bus.class1.filter fun x => !decide (x = Txn.rediscover ref)
        class2 := u.bus.class2.filter fun x => !decide (x = Txn.rediscover ref) } } := by
  unfold State.answeredThere
  rw [modEntry_eq he, clearStrikes_eq (entry_setEntry ..), setEntry_setEntry, State.setEntry_bus]

theorem setEntry_bus' (s : State) (b : BusController) (r : EntryRef) (x : Option Entry) : ({ s with bus := b } : State).setEntry r x = { s.setEntry r x with bus := b } := by
  cases r <;> rfl

theorem entry_bus (s : State) (b : BusController) (r : EntryRef) : ({ s with bus := b } : State).entry r = s.entry r := by cases r <;> rfl

theorem entry_free (s : State) (n : Nat) (r : EntryRef) : ({ s with freeCount := n } : State).entry r = s.entry r := by cases r <;> rfl

theorem modSlot_at {A : State} {ref : EntryRef} {e : Entry} {k : Nat} {sl : Slot} (he : A.entry ref = some e) (hk : e.slots[k]? = some sl) (g : Slot → Slot) :
    A.modSlot ref k g = A.setEntry ref (some { e with slots := e.slots.set k (g sl) }) := by
  unfold State.modSlot
  rw [modEntry_eq he, modify_eq hk]

theorem slot_at {A : State} {ref : EntryRef} {e : Entry} {k : Nat} {sl : Slot} (he : A.entry ref = some e) (hk : e.slots[k]? = some sl) : A.slot ref k = some sl := by
  unfold State.slot; rw [he]; exact hk

theorem set_get {α : Type} {xs : List α} {k : Nat} {x y : α} (h : xs[k]? = some x) : (xs.set k y)[k]? = some y := by
  have : k < xs.length := by
    rcases Nat.lt_or_ge k xs.length with h' | h'
    · exact h'
    · rw [List.getElem?_eq_none h'] at h; cases h
  rw [List.getElem?_set_self this]

theorem set_free (s : State) (n : Nat) (r : EntryRef) (x : Option Entry) : ({ s with freeCount := n } : State).setEntry r x = { s.setEntry r x with freeCount := n } := by
  cases r <;> rfl

/-- What a fresh value does to its slot before the deferred reads are answered (R111). -/
theorem freshValue_eq {A : State} {ref : EntryRef} {e : Entry} {k : Nat} {sl : Slot} (he : A.entry ref = some e) (hk : e.slots[k]? = some sl) (values : List Word16) :
    let sum := (values.map BitVec.toInt).foldl (· + ·) 0
    let enough := sl.watch ≠ 0 ∧ sl.delta ≤ (sum - sl.lastReported.toInt).natAbs
    let put := fun (reported : Word16) (changed : RoleSet) (n : Nat) => ({ A with freeCount := n } : State).setEntry ref
      (some { e with slots := e.slots.set k { sl with cache := values, age := 0, quality := Quality.good, lastReported := reported, changed := changed } })
    ∃ v, A.freshValue ref k values = (A.dec.deferred.filter fun d => some d.number = sl.number ∧ d.value = none).foldl (State.deliver ref k values) v ∧
      ((¬enough ∧ v = put sl.lastReported sl.changed A.freeCount) ∨
      (enough ∧ ∃ reported n, v = (put reported (sl.changed ||| sl.watch) n).raiseFor sl.watch .valueChanged ∧
        (-32768 ≤ sum → sum ≤ 32767 → reported.toInt = sum ∧ n = A.freeCount))) := by
  intro sum enough put
  have hA1 : A.modSlot ref k (Slot.take values) = put sl.lastReported sl.changed A.freeCount := by
    rw [modSlot_at he hk]
    show _ = State.setEntry _ ref _
    rfl
  have hsl1 : ∀ r ch n, (put r ch n).slot ref k = some { sl with cache := values, age := 0, quality := Quality.good, lastReported := r, changed := ch } :=
    fun r ch n => slot_at (entry_setEntry ..) (set_get hk)
  have hmod : ∀ r ch n (g : Slot → Slot) , (put r ch n).modSlot ref k g = ({ A with freeCount := n } : State).setEntry ref
      (some { e with slots := e.slots.set k (g { sl with cache := values, age := 0, quality := Quality.good, lastReported := r, changed := ch }) }) := by
    intro r ch n g
    rw [modSlot_at (A := put r ch n) (entry_setEntry ..) (set_get hk), setEntry_setEntry]
    simp only [List.set_set]
  have htail : ∀ v : State, v.dec = A.dec → (∃ x, v.slot ref k = some x ∧ x.number = sl.number) →
      (match (v.slot ref k).bind (·.number) with
        | none => v
        | some n => (v.dec.deferred.filter fun d => d.number = n && d.value.isNone).foldl (State.deliver ref k values) v) =
      (A.dec.deferred.filter fun d => some d.number = sl.number ∧ d.value = none).foldl (State.deliver ref k values) v := by
    rintro v hd ⟨x, h1, h2⟩
    rw [h1, hd]
    show (match x.number with | none => _ | some n => _) = _
    rw [h2]
    cases sl.number with
    | none =>
      have : (A.dec.deferred.filter fun d => decide (some d.number = none ∧ d.value = none)) = [] := by
        rw [List.filter_eq_nil_iff]; intro d _; simp
      rw [this]; rfl
    | some n =>
      dsimp only
      congr 1
      apply List.filter_congr
      intro d _
      rw [Bool.eq_iff_iff]
      simp
  have hfv : A.freshValue ref k values = (match (((put sl.lastReported sl.changed A.freeCount).compareWatch ref k).slot ref k).bind (·.number) with
        | none => (put sl.lastReported sl.changed A.freeCount).compareWatch ref k
        | some n => (((put sl.lastReported sl.changed A.freeCount).compareWatch ref k).dec.deferred.filter fun d => d.number = n && d.value.isNone).foldl (State.deliver ref k values)
            ((put sl.lastReported sl.changed A.freeCount).compareWatch ref k)) := by
    unfold State.freshValue
    dsimp only
    rw [hA1] <;> cases (((put sl.lastReported sl.changed A.freeCount).compareWatch ref k).slot ref k).bind (·.number) <;> rfl
  have hcw : (put sl.lastReported sl.changed A.freeCount).compareWatch ref k =
      if enough then (((put sl.lastReported sl.changed A.freeCount).report ref k).modSlot ref k fun x => { x with changed := x.changed ||| x.watch }).raiseFor sl.watch .valueChanged
      else put sl.lastReported sl.changed A.freeCount := by
    unfold State.compareWatch
    rw [hsl1]
    dsimp only
    have hce : (Slot.changedEnough { sl with cache := values, age := 0, quality := Quality.good, lastReported := sl.lastReported, changed := sl.changed } = true) ↔
        sl.delta ≤ (sum - sl.lastReported.toInt).natAbs := by
      unfold Slot.changedEnough; rw [decide_eq_true_eq]; rfl
    by_cases h : enough
    · rw [if_pos h, if_pos ⟨h.1, hce.mpr h.2⟩]
    · rw [if_neg h, if_neg (fun x => h ⟨x.1, hce.mp x.2⟩)]
  by_cases h : enough
  · rw [if_pos h] at hcw
    have hrep : ∃ reported n, (put sl.lastReported sl.changed A.freeCount).report ref k = put reported sl.changed n ∧
        (-32768 ≤ sum → sum ≤ 32767 → reported.toInt = sum ∧ n = A.freeCount) := by
      unfold State.report
      rw [hsl1]
      dsimp only
      rw [hmod]
      have htot : Slot.total { sl with cache := values, age := 0, quality := Quality.good, lastReported := sl.lastReported, changed := sl.changed } = sum := rfl
      rw [htot]
      split
      · rename_i h16
        refine ⟨_, _, rfl, fun _ _ => ⟨?_, rfl⟩⟩
        unfold reportedValue
        rw [if_pos h16]
        exact h16
      · rename_i h16
        refine ⟨reportedValue A.freeCount sum, A.freeCount + 1, ?_, fun h1 h2 => absurd (ofInt16 h1 h2) h16⟩
        have : (put sl.lastReported sl.changed A.freeCount).freeCount = A.freeCount := by simp [put]
        rw [this, ← set_free]
    obtain ⟨reported, n, hr, h16⟩ := hrep
    rw [hr, hmod] at hcw
    refine ⟨_, hfv.trans (htail _ ?_ ?_), Or.inr ⟨h, reported, n, hcw, h16⟩⟩
    · rw [hcw]; simp
    · rw [hcw]
      refine ⟨_, slot_at (entry_setEntry ..) (set_get hk), rfl⟩
  · rw [if_neg h] at hcw
    refine ⟨_, hfv.trans (htail _ ?_ ?_), Or.inl ⟨h, hcw⟩⟩
    · rw [hcw]; simp [put]
    · rw [hcw]
      exact ⟨_, hsl1 .., rfl⟩

/-- A POLL reply is a report, while its repeater is polled. -/
theorem exec_report {s : State} {f : InFlight} {bytes : List Byte} {a : Byte} {first : Bool} {p : Pos} {ref : EntryRef}
    (hf : s.bus.flight = some f) (ht : f.txn = .poll p) (h5 : f.waited ≤ 5) (hk : f.discard ≠ .teardown)
    (hp : replyPayload 7 bytes = some [a]) (hr : s.repeaterOf p = some ref) :
    exec (.trailerBusFrameReceived bytes first) s =
      .next (s.settle (
        let v := ({ s with bus := { s.bus with flight := none } } : State).answeredThere ref
        let seen := if first then v.grantIfIdle else v
        if s.polled p then seen.pollReport p (hasBit a 0) else seen)) := by
  have hcmd : f.txn.command = 7 := by rw [ht]; rfl
  rw [exec_frame hf h5 (by rw [ht]; rfl) (by rw [hcmd]; exact hp)]
  generalize hu : ({ s with bus := { s.bus with flight := none } } : State) = u
  have h1 : s.takeReply f [a] first = s.endFlight f (.reply [a]) first := by
    unfold State.takeReply; rw [ht]; rfl
  have h2 : s.endFlight f (.reply [a]) first = u.pollOutcome p (.reply [a]) first := by
    unfold State.endFlight
    dsimp only
    rw [if_neg hk, ht, ← hu]
  have hur : u.repeaterOf p = some ref := by rw [← hu]; exact hr
  have h3 : u.pollStrikes p (.reply [a]) = (u.answeredThere ref, if s.polled p then some (hasBit a 0) else none) := by
    rw [show s.polled p = u.polled p by rw [← hu]; rfl]
    unfold State.pollStrikes; rw [hur]; rfl
  rw [h1, h2]
  unfold State.pollOutcome
  rw [h3]
  cases s.polled p <;> rfl

theorem pollReport_eq {S : State} {p : Pos} {w : Watch} (hw : S.det.watches.get (posIdx p) = some w) (present : Bool) :
    S.pollReport p present = match posBehind p with
      | none => S.reportLast w present
      | some q => if S.live q then S.reportLive p q w present else S.reportAbsent p q w present := by
  unfold State.pollReport
  rw [hw] <;> rfl

/-- A relearn abandoned leaves everything but the Map, the Bank and the relearn itself (R67 (3), R138). -/
theorem abandonRelearn_facts (s : State) : s.abandonRelearn =
    { s with map := s.abandonRelearn.map, bank := s.abandonRelearn.bank, det := { s.det with relearn := none } } := by
  have hd : ∀ p, s.dropProbe p = { s with bank := (s.dropProbe p).bank } := fun p => by
    have h := (dropProbe_facts s p).1
    rw [congrArg State.bank h]
    exact h
  unfold State.abandonRelearn
  split
  · rename_i h; rw [← h]
  · dsimp only
    rw [hd]
    rfl

theorem abandonRelearn_none (s : State) : s.abandonRelearn.det.relearn = none := by
  unfold State.abandonRelearn
  split
  · assumption
  · rfl

theorem told_settle_of {s X : State} {k : EventKind} (h : ∀ l m, s.link l = some m → hasBit m.interest (eventBit k) = true →
    ∃ m', X.link l = some m' ∧ hasBit m'.pending (eventBit k) = true) : s.told (s.settle X) k := told_of_raise k h

theorem told_links {s S X : State} {k : EventKind} (hl : S.links = s.links) (h : ∀ l m, S.link l = some m → hasBit m.interest (eventBit k) = true →
    ∃ m', X.link l = some m' ∧ hasBit m'.pending (eventBit k) = true) : s.told X k := by
  intro l m hm hi; exact h l m (by rw [State.link_of_links hl]; exact hm) hi

theorem pos_settle (before s : State) (p : Pos) : (before.settle s).pos p = s.pos p := State.pos_of_map (by unfold State.settle; simp) p

theorem beginsWith_iff (id bits : Word32) (len : Nat) : beginsWith id bits len = true ↔
    ∀ n, n < len → id.getLsbD (31 - n) = bits.getLsbD (31 - n) := by
  unfold beginsWith prefixBits
  rw [decide_eq_true_iff]
  constructor
  · intro h n hn
    have := congrArg (fun x : Word32 => x.getLsbD (31 - n)) h
    simp only [BitVec.getLsbD_and, BitVec.getLsbD_not, BitVec.getLsbD_ushiftRight, BitVec.getLsbD_allOnes] at this
    have h1 : (31 - n < 32) := by omega
    have h2 : ¬(len + (31 - n) < 32) := by omega
    simpa [h1, h2] using this
  · intro h
    apply BitVec.eq_of_getLsbD_eq
    intro i hi
    simp only [BitVec.getLsbD_and, BitVec.getLsbD_not, BitVec.getLsbD_ushiftRight, BitVec.getLsbD_allOnes]
    by_cases h2 : len + i < 32
    · simp [h2]
    · have := h (31 - i) (by omega)
      rw [show 31 - (31 - i) = i by omega] at this
      rw [this]

theorem runOk_iff (r : Byte) : runOk r.toNat = true ↔ (r = 0 ∨ r = 2 ∨ r = 4 ∨ r = 8 ∨ r = 16) := by
  unfold runOk
  simp only [Bool.or_eq_true, decide_eq_true_eq]
  have key : ∀ k : Nat, k < 256 → (r.toNat = k ↔ r = BitVec.ofNat 8 k) := by
    intro k hk
    constructor
    · intro h; apply BitVec.eq_of_toNat_eq; rw [h, BitVec.toNat_ofNat]; omega
    · intro h; rw [h, BitVec.toNat_ofNat]; omega
  rw [key 0 (by omega), key 2 (by omega), key 4 (by omega), key 8 (by omega), key 16 (by omega)]
  exact or_assoc.trans (or_assoc.trans or_assoc)

theorem find_first {α : Type} (p : α → Bool) (front : List α) (x : α) (back : List α) (h1 : ∀ y ∈ front, p y = false) (h2 : p x = true) :
    (front ++ x :: back).find? p = some x := by
  induction front with
  | nil => simp [h2]
  | cons y ys ih =>
    rw [List.cons_append, List.find?_cons_of_neg (by rw [h1 y (by simp)]; simp)]
    exact ih fun z hz => h1 z (by simp [hz])

theorem find_fin (n : Nat) (p : Fin n → Bool) (i : Fin n) (h1 : ∀ k, k < i → p k = false) (h2 : p i = true) :
    (List.finRange n).find? p = some i := by
  rw [List.find?_eq_some_iff_getElem]
  refine ⟨h2, i.val, by simp, by simp, fun j hj => ?_⟩
  simp only [List.getElem_finRange, Fin.cast_mk]
  rw [h1 ⟨j, _⟩ hj]
  rfl

theorem find_range' (n m : Nat) (p : Nat → Bool) (i : Nat) (h0 : n ≤ i) (hi : i < n + m) (h1 : ∀ k, n ≤ k → k < i → p k = false) (h2 : p i = true) :
    (List.range' n m).find? p = some i := by
  rw [List.find?_eq_some_iff_getElem]
  refine ⟨h2, i - n, by rw [List.length_range']; omega, by rw [List.getElem_range']; omega, fun j hj => ?_⟩
  rw [List.getElem_range', h1 _ (by omega) (by omega)]
  rfl

theorem conflict_on {u : State} {b : BringUp} (hb : u.det.bringUp = some b) {item : SearchItem} {rest : List SearchItem}
    (hs : u.bus.stack = item :: rest) : u.bringUpNext =
      { u with bus := { u.bus with stack := rest, class2 := u.bus.class2 ++ [.search item.bits item.len] } } := by
  unfold State.bringUpNext
  rw [hb]
  dsimp only
  rw [hs]
  rfl

theorem insertAsc_mem {n : Nat} (x : Fin n) : ∀ (ys : List (Fin n)) (j : Fin n), j ∈ insertAsc x ys ↔ j = x ∨ j ∈ ys
  | [], j => by simp [insertAsc]
  | y :: ys, j => by
    unfold insertAsc
    split
    · simp
    · split
      · rename_i h; subst h; simp
      · rw [List.mem_cons, insertAsc_mem x ys j, List.mem_cons]
        constructor
        · rintro (h | h | h)
          · exact Or.inr (Or.inl h)
          · exact Or.inl h
          · exact Or.inr (Or.inr h)
        · rintro (h | h | h)
          · exact Or.inr (Or.inl h)
          · exact Or.inl h
          · exact Or.inr (Or.inr h)

theorem raiseAll_links (s : State) (k : EventKind) (x : State) (h : x = s.raiseAll k) : x.bank = s.bank := by subst h; rfl

theorem requestOf_bus (s : State) (b : BusController) (dd : Decoder) (x : Txn) : ({ s with bus := b, dec := dd } : State).requestOf x = s.requestOf x := by
  cases x <;> rfl

end Sys2Proof.Machine
end

