-- ==== Sys2Proof/Laws/Outcomes.lean ====
section
/-! SUPPORT. What the outcome of a probe writes, and what a flasher's phase makes of a channel. -/

namespace Sys2Proof.Machine

/-- An outcome handed on a state that agrees with `s` in the Map is written as the statements say it. -/
theorem outcomeWritten_handOutcome {s x : State} {q q' : Probe} (hm : x.map = s.map) (hp : q'.pos = q.pos) (hl : q'.lamp = q.lamp)
    (before : State) (o : ProbeOutcome) : OutcomeWritten s (before.settle (x.handOutcome q' o)) q
      (learn o (s.eBefore q.pos q.lamp) (s.pBefore q.pos q.lamp)) := by
  have h := handOutcome_facts x q' o
  dsimp only at h
  rw [(eBefore_of_map hm _ _).1, (eBefore_of_map hm _ _).2, hp, hl] at h
  have hx : ∀ p, x.pos p = s.pos p := fun p => State.pos_of_map hm p
  simp only [hx] at h
  refine ⟨fun a => ?_, fun a => ?_, fun p a => ?_, fun q2 a => ?_⟩
  · rw [pos_of_settle]; exact h.1 a
  · rw [pos_of_settle]; exact h.2.1 a
  · rw [pos_of_settle]; exact h.2.2.1 p a
  · rw [probe_of_settle] at a; exact h.2.2.2.1 q2 a

/-- A phase of a flasher acts on one channel that is not CH9: on one that drives on it, and on one in PROBE_GAP. -/
theorem phaseChan_eq (d : Demand) (u : State) (c : ChanId) (hc : c ≠ 9) : ∃ ch', u.phaseChan d c = u.putChan c ch' ∧
    let ch := u.chan c
    let waits := ∃ q, u.bank.probe = some q ∧ lampChan q.lamp = c ∧ q.phase = .attempt
    (ch.demand ≠ d ∨ ch.state ≠ .drive ∧ ch.state ≠ .probeGap → ch' = ch) ∧
    (ch.demand = d → ch'.held = ch.held ∧ ch'.demand = d ∧
      (ch.state = .drive → u.wantsOn d = true ∨ ¬waits → ch'.state = .drive ∧ ch'.output = u.wantsOn d) ∧
      (ch.state = .drive → u.wantsOn d = false → waits → ch'.state = .probeGap ∧ ch'.output = false) ∧
      (ch.state = .probeGap → u.wantsOn d = true → ch'.state = .probeOn ∧ ch'.output = true ∧
        (ch.output = false → ch'.sinceOn = 0 ∧ ch'.peak = 0)) ∧
      (ch.state = .probeGap → u.wantsOn d = false → ch' = ch)) := by
  have hsame : u = u.putChan c (u.chan c) := (putChan_same u c hc).symm
  have hwaits : u.waitsForGap c = true ↔ ∃ q, u.bank.probe = some q ∧ lampChan q.lamp = c ∧ q.phase = .attempt := by
    unfold State.waitsForGap
    simp [Option.any_eq_true]
  have hsw : ∀ (on : Bool) (ch : Channel), (ch.switchTo on).held = ch.held ∧ (ch.switchTo on).demand = ch.demand ∧ (ch.switchTo on).state = ch.state ∧
      (ch.switchTo on).output = on ∧ (on = true → ch.output = false → (ch.switchTo on).sinceOn = 0 ∧ (ch.switchTo on).peak = 0) := by
    intro on ch
    unfold Channel.switchTo
    split
    · rename_i h
      refine ⟨rfl, rfl, rfl, h.symm, fun a b => ?_⟩
      rw [h, b] at a; cases a
    · split
      · rename_i h; refine ⟨rfl, rfl, rfl, h.symm, fun _ _ => ⟨rfl, rfl⟩⟩
      · rename_i h; refine ⟨rfl, rfl, rfl, ?_, fun a => absurd a h⟩
        cases on
        · rfl
        · exact absurd rfl h
  unfold State.phaseChan
  dsimp only
  by_cases hd : (u.chan c).demand = d
  case neg =>
    rw [if_pos hd]
    exact ⟨u.chan c, hsame, fun _ => rfl, fun h => absurd h hd⟩
  rw [if_neg (fun h => h hd)]
  cases hs : (u.chan c).state <;> simp only
  case drive =>
    by_cases hw : u.wantsOn d = true
    · rw [if_pos hw]
      refine ⟨_, rfl, ?_, fun _ => ?_⟩
      · rintro (h | ⟨h, -⟩)
        · exact absurd hd h
        · exact absurd rfl h
      · obtain ⟨a1, a2, a3, a4, -⟩ := hsw true (u.chan c)
        refine ⟨a1, a2.trans hd, fun _ _ => ⟨a3.trans hs, a4.trans hw.symm⟩, fun _ h => ?_, fun h => ?_, fun h => ?_⟩
        · rw [hw] at h; cases h
        · cases h
        · cases h
    · rw [if_neg hw]
      have hw' : u.wantsOn d = false := by simpa using hw
      by_cases hg : u.waitsForGap c = true
      · rw [if_pos hg]
        refine ⟨_, rfl, ?_, fun _ => ?_⟩
        · rintro (h | ⟨h, -⟩)
          · exact absurd hd h
          · exact absurd rfl h
        · obtain ⟨a1, a2, a3, a4, -⟩ := hsw false (u.chan c)
          refine ⟨?_, ?_, fun _ h => ?_, fun _ _ _ => ⟨rfl, ?_⟩, fun h => ?_, fun h => ?_⟩
          · exact Eq.trans rfl a1
          · exact Eq.trans rfl (a2.trans hd)
          · rcases h with h | h
            · rw [hw'] at h; cases h
            · exact absurd (hwaits.mp hg) h
          · exact Eq.trans rfl a4
          · cases h
          · cases h
      · rw [if_neg hg]
        refine ⟨_, rfl, ?_, fun _ => ?_⟩
        · rintro (h | ⟨h, -⟩)
          · exact absurd hd h
          · exact absurd rfl h
        · obtain ⟨a1, a2, a3, a4, -⟩ := hsw false (u.chan c)
          refine ⟨a1, a2.trans hd, fun _ _ => ⟨a3.trans hs, a4.trans hw'.symm⟩, fun _ _ h => absurd (hwaits.mpr h) hg, fun h => ?_, fun h => ?_⟩
          · cases h
          · cases h
  case probeGap =>
    by_cases hw : u.wantsOn d = true
    · rw [if_pos hw]
      refine ⟨_, rfl, ?_, fun _ => ?_⟩
      · rintro (h | ⟨-, h⟩)
        · exact absurd hd h
        · exact absurd rfl h
      · have hf := toProbeOn_facts (u.chan c)
        refine ⟨hf.2.2.2.1, hf.2.2.1.trans hd, fun h => (by cases h), fun h => (by cases h), fun _ _ => ⟨hf.1, hf.2.1, hf.2.2.2.2⟩, fun _ h => ?_⟩
        rw [hw] at h; cases h
    · rw [if_neg hw]
      exact ⟨u.chan c, hsame, fun _ => rfl, fun _ => ⟨rfl, hd, fun h => (by cases h), fun h => (by cases h), fun _ h => absurd h hw, fun _ _ => rfl⟩⟩
  all_goals
    exact ⟨u.chan c, hsame, fun _ => rfl, fun _ => ⟨rfl, hd, fun h => (by cases h), fun h => (by cases h), fun h => (by cases h), fun h => (by cases h)⟩⟩

/-! ## Transactions that end -/

/-- A reply of one frame ends its transaction (R94). -/
theorem exec_replies {s : State} {f : InFlight} {c : Instr} {payload : List Byte} (hf : s.bus.flight = some f)
    (hr : Replies f c payload) (hb : f.txn.broadcast = false) (h1 : s.replyFrames f.txn = 1) (hk : f.discard = .kept)
    (hp : ∀ p, f.txn ≠ .poll p) :
    exec c s = .next (s.settle (s.idle.applyOutcome f.txn true (.reply payload))) := by
  obtain ⟨bytes, first, rfl, h5, hx⟩ := hr
  rw [exec_frame hf h5 hb hx]
  unfold State.takeReply
  rw [if_pos h1]
  unfold State.endFlight
  dsimp only
  rw [if_neg (by rw [hk]; simp)]
  have hd : decide (f.discard = .kept) = true := by rw [hk]; rfl
  rw [hd]
  cases ht : f.txn <;> first | rfl | exact absurd ht (hp _)

/-- A failed sending is a garbled frame or silence, and silence alone is a response timeout (R94). -/
theorem exec_fails {s : State} {f : InFlight} {c : Instr} (hf : s.bus.flight = some f) (hc : Fails f c)
    (hb : f.txn.broadcast = false) :
    ∃ o : BusOutcome, (o = .garbled ∧ c ≠ .responseTimeout ∨ o = .silence ∧ c = .responseTimeout) ∧
      exec c s = .next (s.settle (s.failSending f o)) := by
  rcases hc with ⟨bytes, first, rfl, h5, hp⟩ | ⟨rfl, h5⟩
  · refine ⟨.garbled, Or.inl ⟨rfl, by simp⟩, ?_⟩
    show execTrailerBusFrameReceived bytes first s = _
    unfold execTrailerBusFrameReceived
    rw [hf]
    dsimp only
    rw [if_neg (by rintro (h | h)
                   · rw [hb] at h; cases h
                   · exact absurd h (Nat.not_lt.mpr h5))]
    unfold State.receive
    rw [hp]
  · refine ⟨.silence, Or.inr ⟨rfl, rfl⟩, ?_⟩
    show execResponseTimeout s = _
    unfold execResponseTimeout
    rw [hf]
    dsimp only
    rw [if_neg (by rw [hb]; simp), State.await_of_le (show Config.responseTimeout ≤ f.waited from h5)]

/-- A second failed sending is the outcome of its transaction (R94). -/
theorem exec_failed {s : State} {f : InFlight} {c : Instr} (hf : s.bus.flight = some f) (hr : f.repeated = true)
    (hc : Fails f c) (hb : f.txn.broadcast = false) (hk : f.discard = .kept) (hp : ∀ p, f.txn ≠ .poll p) :
    ∃ o : BusOutcome, (o = .garbled ∧ c ≠ .responseTimeout ∨ o = .silence ∧ c = .responseTimeout) ∧
      exec c s = .next (s.settle (s.idle.applyOutcome f.txn true o)) := by
  obtain ⟨o, ho, hex⟩ := exec_fails hf hc hb
  refine ⟨o, ho, ?_⟩
  rw [hex]
  unfold State.failSending
  rw [if_pos hr]
  unfold State.endFlight
  dsimp only
  rw [if_neg (by rw [hk]; simp)]
  have hd : decide (f.discard = .kept) = true := by rw [hk]; rfl
  rw [hd]
  cases ht : f.txn <;> first | rfl | exact absurd ht (hp _)

theorem answer_failed {o : BusOutcome} {c : Instr} (h : o = .garbled ∧ c ≠ .responseTimeout ∨ o = .silence ∧ c = .responseTimeout) :
    o.answer = .failed := by rcases h with ⟨rfl, -⟩ | ⟨rfl, -⟩ <;> rfl

/-- The strikes cleared on the idle bus (R106). -/
theorem idle_clearStrikes {s : State} {ref : EntryRef} {e : Entry} (he : s.entry ref = some e) :
    s.idle.clearStrikes ref = s.replied ref e := by
  rw [clearStrikes_eq (e := e) (by exact (entry_bus s _ ref).trans he)]
  unfold State.idle State.replied
  rw [setEntry_bus']

/-- A reply of a node at its address, on the idle bus (R106, Table 5-2, Note 1). -/
theorem idle_answeredThere {s : State} {ref : EntryRef} {e : Entry} (he : s.entry ref = some e) :
    s.idle.answeredThere ref = s.replied ref { e with unassigned := false } := by
  rw [answeredThere_eq (e := e) (by exact (entry_bus s _ ref).trans he)]
  unfold State.idle State.replied
  rw [setEntry_bus']

theorem follow_eq (st : PosState) (r : ReasonSet) :
    st.follow r = if st.ready then (if r = 0 then .online else .degraded) else st := by cases st <;> rfl

theorem bounded_idle {s : State} (h : s.bounded = true) : s.idle.bounded = true := h

/-- A strike leaves the directory numbers alone, and locks an entry out at its third strike. -/
theorem struck_locked {s t : State} {ref : EntryRef} {e : Entry} (h : s.struck t ref e) (he : s.entry ref = some e)
    (hn : Txn.reassign ref true ∉ s.bus.class2 ∨ e.locked = true ∨ e.strikes < 2) :
    (∀ n, t.binding n = s.binding n) ∧
    ∃ e', t.entry ref = some e' ∧ (e'.locked = true ↔ e.locked = true ∨ 2 ≤ e.strikes) := by
  obtain ⟨h1, h2, h3⟩ := h
  have hu : ∀ n, (s.setEntry ref (some { e with strikes := min 3 (e.strikes + 1) })).binding n = s.binding n :=
    fun n => binding_setEntry (e' := { e with strikes := min 3 (e.strikes + 1) }) he rfl n
  by_cases hl : e.locked = true ∨ e.strikes = 0
  · rw [h1 hl]
    exact ⟨hu, _, entry_setEntry .., ⟨Or.inl, fun h => h.elim id fun h => hl.elim id fun h' => by omega⟩⟩
  · rw [not_or, Bool.not_eq_true] at hl
    by_cases hs : e.strikes = 1
    · rw [h2 hl.1 hs]
      exact ⟨hu, _, (entry_bus _ _ ref).trans (entry_setEntry ..), ⟨Or.inl, fun h => h.elim id fun h' => by omega⟩⟩
    · obtain ⟨w, hw, ht⟩ := h3 hl.1 (by omega)
      have hre : Txn.reassign ref true ∉ s.bus.class2 := by
        rcases hn with hn | hn | hn
        · exact hn
        · rw [hl.1] at hn; cases hn
        · omega
      rw [if_neg hre] at ht
      subst ht
      refine ⟨binding_of_numbers fun r => ?_, _, hw.entry, ⟨fun _ => Or.inr (by omega), fun _ => rfl⟩⟩
      by_cases hr : r = ref
      · subst hr
        rw [hw.entry, he]
        simp
      · rw [hw.others r hr]

/-! ## The channel of a request -/

theorem chan_testProbe {s : State} {q : Probe} (hq : s.bank.probe = some q) {c : ChanId} (hc : lampChan q.lamp ≠ c) :
    s.testProbe.chan c = s.chan c := by
  have hput : ∀ (u : State) (ch : Channel), (u.putChan (lampChan q.lamp) ch).chan c = u.chan c :=
    fun u ch => by rw [State.chan_putChan, if_neg hc]
  unfold State.testProbe
  rw [hq]
  dsimp only
  split
  · unfold State.beginAttempt
    dsimp only
    split
    · exact hput ..
    · split
      · split
        · rfl
        · exact hput ..
      · split
        · rfl
        · exact hput ..
      · exact hput ..
      · exact hput ..
    all_goals rfl
  · rfl

/-- Measuring acts on the lamp channels still to be measured alone. -/
theorem chan_measure (p : Pos) {c : ChanId} : ∀ (ls : List LampId) (s : State), (∀ l ∈ ls, lampChan l ≠ c) →
    (State.measure p ls s).chan c = s.chan c
  | [], s, _ => State.chan_of_bank (congrArg ChannelBank.channels (recorded_end p 0 s).2) c
  | l :: ls, s, h => by
    have hls : ∀ x ∈ ls, lampChan x ≠ c := fun x hx => h x (List.mem_cons_of_mem _ hx)
    unfold State.measure
    split
    · rw [chan_measure p ls _ hls]; rfl
    · split
      · rw [chan_measure p ls _ hls]
        refine State.chan_of_bank (congrArg ChannelBank.channels (?_ : _ = s.bank)) c
        rw [(note_facts _ p .failed).2.1]
        unfold State.learnFor; dsimp only; split <;> rfl
      · rw [chan_testProbe (q := { lamp := l, pos := p }) rfl (h l List.mem_cons_self)]; rfl

theorem lampChan_inj {l j : LampId} (h : lampChan l = lampChan j) : l = j := by revert l j; decide

/-- The channel of a request resolved keeps what it holds. -/
theorem chan_handOutcome (s : State) (q : Probe) (o : ProbeOutcome) :
    (s.handOutcome q o).chan (lampChan q.lamp) = s.chan (lampChan q.lamp) := by
  unfold State.handOutcome
  rw [chan_measure]
  · refine State.chan_of_bank (s := s) ?_ _
    rw [(note_facts _ q.pos o).2.1]
    unfold State.learnFor; dsimp only; split <;> rfl
  · intro l hl h
    exact absurd (mem_drop _ _ hl) (by rw [lampChan_inj h]; exact Nat.lt_irrefl _)

/-- An outcome handed on silences nothing. -/
theorem louder_handOutcome (s : State) (q : Probe) (o : ProbeOutcome) : Louder s (s.handOutcome q o) := by
  unfold State.handOutcome
  generalize hA : (s.setProbe none).learnFor q.pos q.lamp o = A
  have hLl : Louder s A := by
    rw [← hA]; unfold State.learnFor; dsimp only; split
    · exact (louder_of_links (t := (s.setProbe none).modPos q.pos _) rfl).trans (louder_raiseAll _ _)
    · exact louder_of_links rfl
  have hLb : A.bank.probe = none := by rw [← hA]; unfold State.learnFor; dsimp only; split <;> rfl
  obtain ⟨n1, n2, -⟩ := note_facts A q.pos o
  exact (hLl.trans (louder_of_links n1)).trans
    (recorded_measure q.pos q.lamp _ _ (fun h => Nat.lt_irrefl _ (mem_drop q.lamp q.lamp h)) (by rw [n2]; exact hLb)).1.louder

theorem sampleDue_iff (x : Probe) : x.sampleDue = true ↔ (x.samples = [] ∨ 2 ≤ x.gap) ∧ x.samples.length < 16 := by
  unfold Probe.sampleDue windowSamples
  simp

theorem setProbe_same {s : State} {q : Probe} (h : s.bank.probe = some q) : s.setProbe (some q) = s := by
  unfold State.setProbe; rw [← h]

end Sys2Proof.Machine
end

