-- ==== Sys2Proof/Laws/Search.lean ====
section
/-! SUPPORT. The search, placements and descriptions: what the choices of entry, address and block find, and what a
placement and a description leave. -/

namespace Sys2Proof.Machine

/-! ## Finding an entry (R23, R24) -/

theorem holdsId_iff (id : Word32) (e : Option Entry) : holdsId id e = true ↔ HasId id e := by
  cases e <;> simp [holdsId, HasId]

theorem holdsIdLive_iff (id : Word32) (e : Option Entry) : holdsIdLive id e = true ↔ HasIdLive id e := by
  cases e <;> simp [holdsIdLive, HasIdLive]

theorem invalidEntry_iff (e : Option Entry) : invalidEntry e = true ↔ e = none := by cases e <;> simp [invalidEntry]

theorem unusedVictim_iff (e : Option Entry) : unusedVictim e = true ↔ MayFall true e := by
  cases e <;> simp [unusedVictim, MayFall]
  exact ⟨fun ⟨⟨a, b⟩, d⟩ => ⟨a, d, b⟩, fun ⟨a, d, b⟩ => ⟨⟨a, b⟩, d⟩⟩

theorem anyVictim_iff (e : Option Entry) : anyVictim e = true ↔ MayFall false e := by
  cases e <;> simp [anyVictim, MayFall]

theorem find_firstWith {n : Nat} {entry : Fin n → Option Entry} {test : Option Entry → Bool} {P : Option Entry → Prop}
    (h : ∀ e, test e = true ↔ P e) {i : Fin n} (hi : FirstWith entry P i) :
    (List.finRange n).find? (fun k => test (entry k)) = some i :=
  find_fin n _ i (fun k hk => by rw [← Bool.not_eq_true]; exact fun e => hi.2 k hk ((h _).mp e)) ((h _).mpr hi.1)

theorem find_noneWith {n : Nat} {entry : Fin n → Option Entry} {test : Option Entry → Bool} {P : Option Entry → Prop}
    (h : ∀ e, test e = true ↔ P e) (hn : ∀ i, ¬P (entry i)) : (List.finRange n).find? (fun k => test (entry k)) = none := by
  rw [List.find?_eq_none]
  exact fun k _ e => hn k ((h _).mp e)

theorem find_any {n : Nat} {entry : Fin n → Option Entry} {test : Option Entry → Bool} {P : Option Entry → Prop}
    (h : ∀ e, test e = true ↔ P e) : ((List.finRange n).find? (fun k => test (entry k))).isSome = true ↔ ∃ i, P (entry i) := by
  rw [List.find?_isSome]
  exact ⟨fun ⟨k, _, e⟩ => ⟨k, (h _).mp e⟩, fun ⟨k, e⟩ => ⟨k, List.mem_finRange k, (h _).mpr e⟩⟩

theorem MayFall.any {u : Bool} {e : Option Entry} (h : MayFall u e) : MayFall false e := by
  obtain ⟨x, a, b, c, -⟩ := h
  exact ⟨x, a, b, c, by simp⟩

theorem pick_chosen {n : Nat} {entry : Fin n → Option Entry} {i : Fin n} {victim clear : Bool} (h : Chosen entry i victim clear) :
    pickEntry ((List.finRange n).find? fun k => invalidEntry (entry k)) ((List.finRange n).find? fun k => unusedVictim (entry k))
      ((List.finRange n).find? fun k => anyVictim (entry k)) = some (i, victim, clear) := by
  cases victim <;> cases clear
  · rw [find_firstWith invalidEntry_iff h] <;> rfl
  · exact h.elim
  · rw [find_noneWith invalidEntry_iff h.1, find_firstWith unusedVictim_iff h.2] <;> rfl
  · rw [find_noneWith invalidEntry_iff (fun k => (h.1 k).1), find_noneWith unusedVictim_iff (fun k => (h.1 k).2),
      find_firstWith anyVictim_iff h.2] <;> rfl

theorem pick_noneLeft {n : Nat} {entry : Fin n → Option Entry} (h : NoneLeft entry) :
    pickEntry ((List.finRange n).find? fun k => invalidEntry (entry k)) ((List.finRange n).find? fun k => unusedVictim (entry k))
      ((List.finRange n).find? fun k => anyVictim (entry k)) = none := by
  rw [find_noneWith invalidEntry_iff (fun k => (h k).1), find_noneWith unusedVictim_iff (fun k e => (h k).2 e.any),
    find_noneWith anyVictim_iff (fun k => (h k).2)] <;> rfl

/-! ## Addresses and blocks (R101, R102) -/

theorem addressHeld_iff (s : State) (a : Nat) : s.addressHeld a = true ↔
    ∃ i e, s.entry (.single i) = some e ∧ e.live = true ∧ e.addr = a := by
  unfold State.addressHeld
  rw [List.any_eq_true]
  constructor
  · rintro ⟨i, -, h⟩
    cases hi : s.map.singles.get i with
    | none => rw [hi] at h; cases h
    | some e =>
      rw [hi] at h
      have : e.live = true ∧ e.addr = a := by simpa using h
      exact ⟨i, e, hi, this.1, this.2⟩
  · rintro ⟨i, e, hi, h1, h2⟩
    refine ⟨i, List.mem_finRange i, ?_⟩
    rw [show s.map.singles.get i = some e from hi]
    simp [h1, h2]

theorem lowestAddress_eq {s : State} {n : Nat} (h1 : 1 ≤ n) (h2 : n ≤ 95) (h3 : ¬s.addressHeld n = true)
    (h4 : ∀ k, 1 ≤ k → k < n → s.addressHeld k = true) : s.lowestAddress = n := by
  unfold State.lowestAddress
  rw [find_range' 1 95 _ n h1 (by omega)]
  · rfl
  · intro k a b
    rw [h4 k a b]; rfl
  · rw [Bool.not_eq_true] at h3
    rw [h3]; rfl

theorem blockFree_iff (s : State) (base run : Nat) : s.blockFree base run = true ↔
    ∀ j e, s.entry (.group j) = some e → e.live = true → e.addr + e.run ≤ base ∨ base + run ≤ e.addr := by
  unfold State.blockFree
  rw [Bool.not_eq_true', ← Bool.not_eq_true, List.any_eq_true]
  constructor
  · intro h j e he hl
    by_cases h1 : e.addr + e.run ≤ base
    · exact Or.inl h1
    · by_cases h2 : base + run ≤ e.addr
      · exact Or.inr h2
      · refine absurd ⟨j, List.mem_finRange j, ?_⟩ h
        rw [show s.map.groups.get j = some e from he]
        simp [hl]; omega
  · rintro h ⟨j, -, hj⟩
    cases he : s.map.groups.get j with
    | none => rw [he] at hj; cases hj
    | some e =>
      rw [he] at hj
      have hj' : (e.live = true ∧ base < e.addr + e.run) ∧ e.addr < base + run := by simpa using hj
      rcases h j e he hj'.1.1 with h1 | h1 <;> omega

/-- The free candidate blocks of a run, in order. -/
theorem mem_free (s : State) (run base : Nat) : base ∈ (blockBases run).filter (fun b => s.blockFree b run) ↔ s.freeFor run base := by
  rw [List.mem_filter, blockFree_iff]
  unfold blockBases State.freeFor
  rw [List.mem_map]
  simp only [List.mem_range]
  exact and_congr_left fun _ => ⟨fun ⟨k, a, b⟩ => ⟨k, a, b.symm⟩, fun ⟨k, a, b⟩ => ⟨k, a, b.symm⟩⟩

theorem free_sorted (s : State) (run : Nat) : ((blockBases run).filter fun b => s.blockFree b run).Pairwise (· < ·) := by
  refine List.Pairwise.filter _ ?_
  unfold blockBases
  rw [List.pairwise_map]
  rcases Nat.eq_zero_or_pos run with h | h
  · subst h; simp
  · exact List.Pairwise.imp (fun {a b} hab => by
      have := Nat.mul_lt_mul_of_pos_right hab h
      omega) List.pairwise_lt_range

theorem head_least {xs : List Nat} (hs : xs.Pairwise (· < ·)) {b : Nat} (hb : b ∈ xs) (hl : ∀ n ∈ xs, b ≤ n) : xs.head? = some b := by
  cases xs with
  | nil => cases hb
  | cons x xs =>
    rw [List.pairwise_cons] at hs
    rcases List.mem_cons.mp hb with h | h
    · rw [h]; rfl
    · have := hs.1 b h
      have := hl x List.mem_cons_self
      omega

theorem chooseBlock_lowest {s : State} {run base : Nat} {pref : Option Nat} (hp : ∀ b, pref = some b → ¬s.freeFor run b)
    (h : s.freeFor run base ∧ ∀ n, s.freeFor run n → base ≤ n) : s.chooseBlock pref run = some base := by
  have hh := head_least (free_sorted s run) ((mem_free s run base).mpr h.1) (fun n hn => h.2 n ((mem_free s run n).mp hn))
  unfold State.chooseBlock
  dsimp only
  rw [hh]
  cases pref with
  | none => rfl
  | some b => dsimp only; rw [if_neg]; rw [List.contains_iff_mem]; exact fun e => hp b rfl ((mem_free s run b).mp e)

theorem chooseBlock_full {s : State} {run : Nat} (pref : Option Nat) (h : ∀ n, ¬s.freeFor run n) : s.chooseBlock pref run = none := by
  have : (blockBases run).filter (fun b => s.blockFree b run) = [] := by
    rw [List.eq_nil_iff_forall_not_mem]
    exact fun n hn => h n ((mem_free s run n).mp hn)
  unfold State.chooseBlock
  dsimp only
  rw [this]
  cases pref <;> rfl

/-- The placement chosen for a group head is the one the statements name (R24, R102). -/
theorem chooseGroup_placed (s : State) (id : Word32) (run : Nat) (fromSingle : Option SingleId) :
    s.headPlaced id run fromSingle (s.chooseGroup id run fromSingle) := by
  unfold State.headPlaced
  intro group tentative lowest full
  have hfind : ∀ test, s.findGroup test = (List.finRange 6).find? fun k => test (group k) := fun _ => rfl
  refine ⟨fun j e hj he => ?_, fun hno => ⟨fun j base victim clear hc hl => ?_, fun h => ?_⟩⟩
  · have hg : s.chooseGroup id run fromSingle = (s.chooseBlock (some e.addr) run).map fun base =>
        { ref := .group j, nodeId := id, addr := base, run := run, reuse := true, victim := false, clearUsed := false,
          fromSingle := fromSingle } := by
      unfold State.chooseGroup
      rw [hfind, find_firstWith (holdsId_iff id) hj]
      dsimp only
      unfold State.addrOf
      rw [show s.entry (.group j) = some e from he]
      rfl
    rw [hg]
    refine ⟨fun h => ?_, fun h base hl => ?_, fun h => ?_⟩
    · have : s.chooseBlock (some e.addr) run = some e.addr := by
        unfold State.chooseBlock
        dsimp only
        rw [if_pos (List.contains_iff_mem.mpr ((mem_free s run _).mpr h))]
      rw [this]; rfl
    · rw [chooseBlock_lowest (fun b hb => by cases hb; exact h) hl]; rfl
    · rw [chooseBlock_full _ h]; rfl
  all_goals
    unfold State.chooseGroup
    rw [hfind, find_noneWith (holdsId_iff id) hno]
    dsimp only
  · rw [chooseBlock_lowest (by simp) hl]
    dsimp only
    rw [hfind, hfind, hfind, pick_chosen hc]
    rfl
  · by_cases hf : full
    · rw [chooseBlock_full _ hf]
    · have hn := h.resolve_left hf
      cases s.chooseBlock none run with
      | none => rfl
      | some base =>
        dsimp only
        rw [hfind, hfind, hfind, pick_noneLeft hn]
        rfl

/-! ## What an outcome writes -/

theorem bringUpReason_eq {s : State} {b : BringUp} (hb : s.det.bringUp = some b) (x : Reason) : s.bringUpReason x = s.addReason b.pos x := by
  unfold State.bringUpReason; rw [hb]

theorem modEntry_map (s : State) (ref : EntryRef) (g : Entry → Entry) : s.modEntry ref g = s.setEntry ref ((s.entry ref).map g) := by
  cases he : s.entry ref with
  | some e => exact modEntry_eq he g
  | none =>
    unfold State.modEntry
    rw [he]
    cases ref with
    | single i =>
      have h : s.map.singles.get i = none := he
      have : s.map.singles.set i none = s.map.singles := by rw [← h]; unfold Tbl.set Tbl.get; simp
      show s = { s with map := { s.map with singles := s.map.singles.set i none } }
      rw [this]
    | group j =>
      have h : s.map.groups.get j = none := he
      have : s.map.groups.set j none = s.map.groups := by rw [← h]; unfold Tbl.set Tbl.get; simp
      show s = { s with map := { s.map with groups := s.map.groups.set j none } }
      rw [this]

theorem insertAsc_sorted {n : Nat} (x : Fin n) : ∀ ys : List (Fin n), ys.Pairwise (· < ·) → (insertAsc x ys).Pairwise (· < ·)
  | [], _ => by simp [insertAsc]
  | y :: ys, h => by
    rw [List.pairwise_cons] at h
    unfold insertAsc
    split
    · rename_i hxy
      refine List.pairwise_cons.mpr ⟨fun z hz => ?_, List.pairwise_cons.mpr h⟩
      rcases List.mem_cons.mp hz with rfl | hz
      · exact hxy
      · exact Fin.lt_trans hxy (h.1 z hz)
    · split
      · exact List.pairwise_cons.mpr h
      · rename_i h1 h2
        refine List.pairwise_cons.mpr ⟨fun z hz => ?_, insertAsc_sorted x ys h.2⟩
        rcases (insertAsc_mem x ys z).mp hz with rfl | hz
        · exact Fin.lt_def.mpr (Nat.lt_of_le_of_ne (Fin.not_lt.mp h1) fun e => h2 (Fin.ext e.symm))
        · exact h.1 z hz

/-! ## A placement made (R103) -/

theorem entry_setPos (s : State) (p : Pos) (r : PosRec) (ref : EntryRef) : (s.setPos p r).entry ref = s.entry ref := by cases ref <;> rfl

theorem entry_clearUsed (s : State) (t r : EntryRef) : (s.clearUsed t).entry r =
    if isSingle r = isSingle t then (s.entry r).map Entry.clearUsed else s.entry r := by
  cases t <;> cases r <;> simp [State.clearUsed, State.entry, isSingle]

theorem clearUsed_pos (s : State) (t : EntryRef) (p : Pos) : (s.clearUsed t).pos p = s.pos p := by cases t <;> rfl

/-- What a placement that is made leaves (R103, R10, R20, R14, R21, R4, R6). -/
theorem makePlacement_facts (s : State) (p : Pos) (t : Tentative) (hne : ∀ i, t.fromSingle = some i → t.ref ≠ .single i) :
    let v := s.makePlacement p t
    v = { s with map := v.map } ∧ (∀ q, q ≠ p → v.pos q = s.pos q) ∧
    (∀ e, t.reuse = true → s.entry t.ref = some e → v.entry t.ref = some { e with
      live := true, pos := p, addr := t.addr, run := t.run, strikes := 0, unassigned := false, used := true
      slots := if t.run = e.run then e.slots else if e.locked then e.slots.map (Slot.reRun t.run) else [] }) ∧
    (t.reuse = false ∨ s.entry t.ref = none → v.entry t.ref = some
      { live := true, nodeId := t.nodeId, addr := t.addr, run := t.run, pos := p, used := t.victim }) ∧
    (∀ i, t.fromSingle = some i → v.entry (.single i) = none) ∧
    (∀ r, r ≠ t.ref → (∀ i, t.fromSingle = some i → r ≠ .single i) → v.entry r =
      if t.clearUsed = true ∧ isSingle r = isSingle t.ref then (s.entry r).map Entry.clearUsed else s.entry r) ∧
    ∃ singles groups, v.pos p =
        (let r : PosRec := { s.pos p with singles := singles, groups := groups }
         if t.reuse = true ∧ (s.entry t.ref).any (·.locked) = true then r.addReason .quarantine else r) ∧
      (∀ i, i ∈ singles ↔ (t.ref = .single i ∨ i ∈ (s.pos p).singles) ∧ t.fromSingle ≠ some i) ∧
      (∀ j, j ∈ groups ↔ t.ref = .group j ∨ j ∈ (s.pos p).groups) ∧
      ((s.pos p).singles.Pairwise (· < ·) → singles.Pairwise (· < ·)) ∧
      ((s.pos p).groups.Pairwise (· < ·) → groups.Pairwise (· < ·)) := by
  intro v
  generalize hA : (if t.clearUsed then s.clearUsed t.ref else s) = A
  have hAe : ∀ r, A.entry r = if t.clearUsed = true ∧ isSingle r = isSingle t.ref then (s.entry r).map Entry.clearUsed else s.entry r := by
    intro r
    rw [← hA]
    by_cases h : t.clearUsed = true
    · rw [if_pos h, entry_clearUsed]; simp [h]
    · rw [if_neg h, if_neg (fun x => h x.1)]
  have hAp : ∀ q, A.pos q = s.pos q := by intro q; rw [← hA]; split <;> simp only [clearUsed_pos]
  have hAs : A = { s with map := A.map } := by
    rw [← hA]; split
    · cases t.ref <;> rfl
    · rfl
  generalize he0 : t.entryFor p (A.entry t.ref) = e0
  generalize hB : (A.setEntry t.ref (some e0)).modPos p (PosRec.join t.ref) = B
  have hBe : ∀ r, B.entry r = if r = t.ref then some e0 else A.entry r := by
    intro r
    rw [← hB]
    unfold State.modPos
    rw [entry_setPos]
    by_cases h : r = t.ref
    · rw [if_pos h, h, entry_setEntry]
    · rw [if_neg h, entry_setEntry_ne _ h]
  have hBp : ∀ q, B.pos q = if p = q then (s.pos p).join t.ref else s.pos q := by
    intro q; rw [← hB, State.pos_modPos, pos_setEntry, pos_setEntry, hAp, hAp]
  have hBs : B = { s with map := B.map } := by
    rw [← hB, hAs]; cases t.ref <;> rfl
  generalize hC : B.dropSingle p t.fromSingle = C
  have hCe : ∀ r, C.entry r = if (∃ i, t.fromSingle = some i ∧ r = .single i) then none else B.entry r := by
    intro r
    rw [← hC]
    cases hf : t.fromSingle with
    | none => simp [State.dropSingle]
    | some i =>
      unfold State.dropSingle State.modPos
      dsimp only
      rw [entry_setPos]
      by_cases h : r = .single i
      · subst h; rw [entry_setEntry, if_pos ⟨i, rfl, rfl⟩]
      · rw [entry_setEntry_ne _ h, if_neg]
        rintro ⟨j, hj, hr⟩
        cases hj; exact h hr
  have hCp : ∀ q, C.pos q = if p = q then (match t.fromSingle with
      | some i => PosRec.leave (.single i) (B.pos p)
      | none => B.pos p) else B.pos q := by
    intro q
    rw [← hC]
    cases hf : t.fromSingle with
    | none => simp only [State.dropSingle]; split
              · rename_i h; rw [h]
              · rfl
    | some i => simp only [State.dropSingle]; rw [State.pos_modPos, pos_setEntry, pos_setEntry]
  have hCs : C = { s with map := C.map } := by
    rw [← hC, hBs]; cases t.fromSingle <;> rfl
  have hv : v = if e0.locked then C.addReason p .quarantine else C := by
    simp only [v, State.makePlacement]
    rw [hA, he0, hB, hC]
  have hve : ∀ r, v.entry r = C.entry r := by
    intro r; rw [hv]; split
    · exact entry_setPos ..
    · rfl
  have hvp : ∀ q, v.pos q = if p = q then (if e0.locked then (C.pos p).addReason .quarantine else C.pos p) else C.pos q := by
    intro q; rw [hv]; split
    · unfold State.addReason; rw [State.pos_modPos]
    · split
      · rename_i h; rw [h]
      · rfl
  have hnone : ¬∃ i, t.fromSingle = some i ∧ t.ref = .single i := fun ⟨i, a, b⟩ => hne i a b
  obtain ⟨g, hg, hge⟩ : ∃ g : Entry → Entry, A.entry t.ref = (s.entry t.ref).map g ∧ ∀ e, g e = { e with used := (g e).used } := by
    rw [hAe]
    by_cases h : t.clearUsed = true ∧ isSingle t.ref = isSingle t.ref
    · rw [if_pos h]; exact ⟨_, rfl, fun e => by unfold Entry.clearUsed; split <;> rfl⟩
    · rw [if_neg h]; exact ⟨id, by simp, fun e => rfl⟩
  have hlocked : e0.locked = true ↔ t.reuse = true ∧ (s.entry t.ref).any (·.locked) = true := by
    rw [← he0, hg]
    unfold Tentative.entryFor
    cases t.reuse <;> cases s.entry t.ref <;> simp
    rename_i e
    rw [hge e]
  refine ⟨?_, fun q hq => ?_, fun e hr he => ?_, fun h => ?_, fun i hi => ?_, fun r hr hf => ?_, ?_⟩
  · rw [hv, hCs]; split <;> rfl
  · rw [hvp, if_neg (Ne.symm hq), hCp, if_neg (Ne.symm hq), hBp, if_neg (Ne.symm hq)]
  · rw [hve, hCe, if_neg hnone, hBe, if_pos rfl, ← he0, hg, he]
    unfold Tentative.entryFor Entry.reRun
    rw [hr]
    dsimp only [Option.map]
    rw [hge e]
  · rw [hve, hCe, if_neg hnone, hBe, if_pos rfl, ← he0, hg]
    unfold Tentative.entryFor
    rcases h with h | h
    · rw [h]
    · rw [h]; cases t.reuse <;> rfl
  · rw [hve, hCe, if_pos ⟨i, hi, rfl⟩]
  · rw [hve, hCe, if_neg (fun ⟨i, a, b⟩ => hf i a b), hBe, if_neg hr, hAe]
  · refine ⟨(C.pos p).singles, (C.pos p).groups, ?_, ?_, ?_, ?_, ?_⟩
    · rw [hvp, if_pos rfl]
      have hCC : C.pos p = { s.pos p with singles := (C.pos p).singles, groups := (C.pos p).groups } := by
        rw [hCp, if_pos rfl, hBp, if_pos rfl]
        cases t.fromSingle <;> cases t.ref <;> rfl
      dsimp only
      rw [← hCC]
      by_cases h : e0.locked = true
      · rw [if_pos h, if_pos (hlocked.mp h)]
      · rw [if_neg h, if_neg (fun x => h (hlocked.mpr x))]
    all_goals rw [hCp, if_pos rfl, hBp, if_pos rfl]
    · intro i
      cases hf : t.fromSingle <;> cases ht : t.ref <;> simp [PosRec.leave, PosRec.join, insertAsc_mem, @eq_comm _ i]
    · intro j
      cases hf : t.fromSingle <;> cases ht : t.ref <;> simp [PosRec.leave, PosRec.join, insertAsc_mem, @eq_comm _ j]
    · intro h
      cases hf : t.fromSingle <;> cases ht : t.ref <;> simp only [PosRec.leave, PosRec.join]
      · exact insertAsc_sorted _ _ h
      · exact h
      · exact (insertAsc_sorted _ _ h).filter _
      · exact h.filter _
    · intro h
      cases hf : t.fromSingle <;> cases ht : t.ref <;> simp only [PosRec.leave, PosRec.join]
      · exact h
      · exact insertAsc_sorted _ _ h
      · exact h
      · exact insertAsc_sorted _ _ h

/-! ## Descriptions (R104, R105, R11) -/

/-- A strike that sets no bring-up going leaves the Detector alone. -/
theorem struck_det {s t : State} {ref : EntryRef} {e : Entry} (h : s.struck t ref e)
    (hn : Txn.reassign ref true ∉ s.bus.class2 ∨ e.locked = true ∨ e.strikes < 2) : t.det = s.det := by
  obtain ⟨h1, h2, h3⟩ := h
  by_cases hl : e.locked = true ∨ e.strikes = 0
  · rw [h1 hl]; exact State.setEntry_det ..
  · rw [not_or, Bool.not_eq_true] at hl
    by_cases hs : e.strikes = 1
    · rw [h2 hl.1 hs]; exact State.setEntry_det ..
    · obtain ⟨w, hw, ht⟩ := h3 hl.1 (by omega)
      have hre : Txn.reassign ref true ∉ s.bus.class2 := by
        rcases hn with hn | hn | hn
        · exact hn
        · rw [hl.1] at hn; cases hn
        · omega
      rw [ht, if_neg hre]
      exact hw.rest.2.2.2.1

/-! ## Pages -/

theorem nodeKind_ofCode {k : NodeKind} {b : Byte} (h : k.code = b.toNat) (h1 : 1 ≤ b.toNat) : NodeKind.ofCode b = some k := by
  unfold NodeKind.ofCode
  cases k <;> simp only [NodeKind.code] at h
  · omega
  all_goals
    generalize b.toNat = n at h
    subst h
    rfl

theorem nodeKind_ofCode_range {k : NodeKind} {b : Byte} (h : NodeKind.ofCode b = some k) : 1 ≤ b.toNat ∧ b.toNat ≤ 6 := by
  unfold NodeKind.ofCode at h
  split at h <;> first | omega | cases h

theorem funOfCode_code {k : FunKind} {n : Nat} (h : funCode k = n) : funOfCode n = some k := by
  subst h; cases k <;> rfl

theorem accessOfCode_code {a : Access} {n : Nat} (h : a.code = n) : Access.ofCode n = some a := by
  subst h; cases a <;> rfl

theorem unitOfCode_code {u : MeasureUnit} {n : Nat} (h : u.code = n) : MeasureUnit.ofCode n = some u := by
  subst h; cases u <;> rfl

/-- Page 0 read by content (R197 (1), (5)). -/
theorem decodePage0_facts (page : List Byte) :
    let at_ := fun n => (byteAt page n).toNat
    let lawful := 1 ≤ at_ 0 ∧ at_ 0 ≤ 6 ∧ at_ 1 ≤ 4 ∧ at_ 2 ∈ [0, 2, 4, 8, 16] ∧ at_ 3 ≤ 17
    (¬lawful → decodePage0 page = none) ∧
    (lawful → ∀ kind : NodeKind, kind.code = at_ 0 → decodePage0 page = some ⟨kind, at_ 1, at_ 2, at_ 3⟩) := by
  intro at_ lawful
  have hrun : runOk (at_ 2) = true ↔ at_ 2 ∈ [0, 2, 4, 8, 16] := by
    unfold runOk; simp [or_assoc]
  refine ⟨fun h => ?_, fun h kind hk => ?_⟩
  · unfold decodePage0
    cases hx : NodeKind.ofCode (byteAt page 0) with
    | none => rfl
    | some k =>
      dsimp only
      rw [if_neg]
      rintro ⟨a, b, d⟩
      obtain ⟨e1, e2⟩ := nodeKind_ofCode_range hx
      exact h ⟨e1, e2, a, hrun.mp b, d⟩
  · unfold decodePage0
    rw [nodeKind_ofCode hk h.1]
    dsimp only
    rw [if_pos ⟨h.2.2.1, hrun.mpr h.2.2.2.1, h.2.2.2.2⟩]

/-- A function page read by content (R197 (3), (4)). -/
theorem decodeFunctionPage_facts (page : List Byte) :
    let at_ := fun n => (byteAt page n).toNat
    let lo := word16 (byteAt page 4) (byteAt page 5)
    let hi := word16 (byteAt page 6) (byteAt page 7)
    let lawful := 1 ≤ at_ 0 ∧ at_ 0 ≤ 9 ∧ at_ 1 ≤ 15 ∧ (at_ 0 = 3 → at_ 1 ≤ 11) ∧ 1 ≤ at_ 2 ∧ at_ 2 ≤ 3 ∧
      1 ≤ at_ 3 ∧ at_ 3 ≤ 6 ∧ lo.toInt ≤ hi.toInt
    (¬lawful → decodeFunctionPage page = none) ∧
    (lawful → ∀ x : SlotDesc, funCode x.kind = at_ 0 → x.inst = at_ 1 → x.access.code = at_ 2 → x.unit.code = at_ 3 →
      x.rangeMin = lo → x.rangeMax = hi → decodeFunctionPage page = some x) := by
  intro at_ lo hi lawful
  refine ⟨fun h => ?_, fun h x h0 h1 h2 h3 h4 h5 => ?_⟩
  · unfold decodeFunctionPage
    cases hk : funOfCode (byteAt page 0).toNat with
    | none => rfl
    | some k =>
      cases ha : Access.ofCode (byteAt page 2).toNat with
      | none => rfl
      | some a =>
        cases hu : MeasureUnit.ofCode (byteAt page 3).toNat with
        | none => rfl
        | some u =>
          dsimp only
          rw [if_neg]
          rintro ⟨p1, p2, p3⟩
          have hk' : funCode k = at_ 0 := funOfCode_eq hk
          have ha' : 1 ≤ at_ 2 ∧ at_ 2 ≤ 3 := by
            show 1 ≤ (byteAt page 2).toNat ∧ (byteAt page 2).toNat ≤ 3
            unfold Access.ofCode at ha; split at ha <;> first | omega | cases ha
          have hu' : 1 ≤ at_ 3 ∧ at_ 3 ≤ 6 := by
            show 1 ≤ (byteAt page 3).toNat ∧ (byteAt page 3).toNat ≤ 6
            unfold MeasureUnit.ofCode at hu; split at hu <;> first | omega | cases hu
          have hr : 1 ≤ funCode k ∧ funCode k ≤ 9 := by cases k <;> decide
          refine h ⟨by omega, by omega, p1, fun e => p2 ?_, ha'.1, ha'.2, hu'.1, hu'.2, p3⟩
          rw [e] at hk'
          cases k <;> first | rfl | (simp [funCode] at hk')
  · unfold decodeFunctionPage
    rw [funOfCode_code h0, accessOfCode_code h2, unitOfCode_code h3]
    dsimp only
    have hl : x.kind = .lampStatus → at_ 1 ≤ 11 := by
      intro e; rw [e] at h0; exact h.2.2.2.1 h0.symm
    rw [if_pos ⟨h.2.2.1, hl, h.2.2.2.2.2.2.2.2⟩]
    cases x
    simp only at h1 h4 h5
    subst h1 h4 h5
    rfl

/-! ## The pages of a description -/

theorem find_above (n m k : Nat) : (List.range' n m).find? (fun x => decide (k < x)) =
    if max n (k + 1) < n + m then some (max n (k + 1)) else none := by
  split
  · rename_i h
    exact find_range' n m _ _ (by omega) h (fun x h1 h2 => decide_eq_false (by omega)) (decide_eq_true (by omega))
  · rename_i h
    rw [List.find?_eq_none]
    intro x hx
    rw [List.mem_range'_1] at hx
    simp; omega

/-- The page a description asks for after a page (R104). -/
theorem pageAfter_eq (p0 : Page0) (k : Nat) :
    let ident := p0.kind = .repeater ∧ 8 * (max k 4 - 4) < p0.identLen
    (k < p0.count → p0.pageAfter k = some (k + 1)) ∧
    (p0.count ≤ k → ident → p0.pageAfter k = some (max k 4 + 1)) ∧
    (p0.count ≤ k → ¬ident → p0.pageAfter k = none) := by
  intro ident
  have h : p0.pageAfter k = ((List.range' 1 p0.count).find? (fun x => decide (k < x))).or
      ((if p0.kind = .repeater then List.range' 5 ((p0.identLen + 7) / 8) else []).find? fun x => decide (k < x)) := by
    unfold Page0.pageAfter Page0.lastPages
    rw [List.find?_append]
  rw [h, find_above]
  refine ⟨fun hk => ?_, fun hk hi => ?_, fun hk hi => ?_⟩
  · rw [if_pos (by omega), show max 1 (k + 1) = k + 1 by omega]; rfl
  · rw [if_neg (by omega), if_pos hi.1, find_above, if_pos (by have := hi.2; omega), show max 5 (k + 1) = max k 4 + 1 by omega]; rfl
  · rw [if_neg (by omega)]
    by_cases hr : p0.kind = .repeater
    · rw [if_pos hr, find_above, if_neg]
      · rfl
      · intro hc; exact hi ⟨hr, by omega⟩
    · rw [if_neg hr]; rfl

/-! ## The slots of a description -/

theorem fits_iff (d x : SlotDesc) (h : d.kind = x.kind ∧ d.inst = x.inst) : d.fits = x.fits := by
  funext sl; unfold SlotDesc.fits; rw [h.1, h.2]

theorem filter_erase_ne {α : Type} (p q : α → Bool) (h : ∀ a, q a = true → p a = false) : ∀ xs : List α,
    (xs.eraseP q).filter p = xs.filter p
  | [] => rfl
  | x :: xs => by
    by_cases hq : q x = true
    · rw [List.eraseP_cons_of_pos hq, List.filter_cons_of_neg (by rw [h x hq]; simp)]
    · rw [List.eraseP_cons_of_neg hq, List.filter_cons, List.filter_cons, filter_erase_ne p q h xs]

theorem filter_erase_eq {α : Type} (p : α → Bool) : ∀ xs : List α, (xs.eraseP p).filter p = (xs.filter p).tail
  | [] => rfl
  | x :: xs => by
    by_cases hq : p x = true
    · rw [List.eraseP_cons_of_pos hq, List.filter_cons_of_pos hq]; rfl
    · rw [List.eraseP_cons_of_neg hq, List.filter_cons_of_neg hq, List.filter_cons_of_neg hq, filter_erase_eq p xs]

/-- Each descriptor takes the next kept slot of its kind and instance, or a new slot (R11). -/
theorem matchSlots_get (run : Nat) : ∀ (ds : List SlotDesc) (kept : List Slot), (matchSlots run kept ds).length = ds.length ∧
    ∀ n x, ds[n]? = some x → (matchSlots run kept ds)[n]? =
      some (match (kept.filter x.fits)[(ds.take n).countP fun y => decide (y.kind = x.kind ∧ y.inst = x.inst)]? with
        | some sl => x.takeOver sl
        | none => x.newSlot run)
  | [], kept => ⟨by unfold matchSlots; rfl, fun n x h => by cases h⟩
  | d :: ds, kept => by
    unfold matchSlots
    have hhead : kept.find? d.fits = (kept.filter d.fits)[0]? := by
      rw [← List.head?_eq_getElem?, List.head?_filter]
    cases hf : kept.find? d.fits with
    | some sl =>
      obtain ⟨h1, h2⟩ := matchSlots_get run ds (kept.eraseP d.fits)
      dsimp only
      refine ⟨by simp [h1], fun n x hx => ?_⟩
      cases n with
      | zero =>
        cases hx
        rw [List.getElem?_cons_zero, List.take_zero, List.countP_nil, ← hhead, hf]
      | succ n =>
        rw [List.getElem?_cons_succ] at hx
        rw [List.getElem?_cons_succ, h2 n x hx, List.take_succ_cons, List.countP_cons]
        by_cases hs : d.kind = x.kind ∧ d.inst = x.inst
        · rw [fits_iff d x hs, filter_erase_eq, if_pos (decide_eq_true hs), List.getElem?_tail]
        · rw [filter_erase_ne _ _ (fun a ha => ?_), if_neg (by simpa using hs)]
          · rfl
          · unfold SlotDesc.fits at ha ⊢
            rw [Bool.and_eq_true, decide_eq_true_eq, decide_eq_true_eq] at ha
            rw [← Bool.not_eq_true, Bool.and_eq_true, decide_eq_true_eq, decide_eq_true_eq]
            rintro ⟨e1, e2⟩
            exact hs ⟨ha.1.symm.trans e1, ha.2.symm.trans e2⟩
    | none =>
      obtain ⟨h1, h2⟩ := matchSlots_get run ds kept
      dsimp only
      refine ⟨by simp [h1], fun n x hx => ?_⟩
      cases n with
      | zero =>
        cases hx
        rw [List.getElem?_cons_zero, List.take_zero, List.countP_nil, ← hhead, hf]
      | succ n =>
        rw [List.getElem?_cons_succ] at hx
        rw [List.getElem?_cons_succ, h2 n x hx, List.take_succ_cons, List.countP_cons]
        by_cases hs : d.kind = x.kind ∧ d.inst = x.inst
        · have : kept.filter x.fits = [] := by
            rw [← fits_iff d x hs, List.filter_eq_nil_iff]
            exact List.find?_eq_none.mp hf
          rw [this]
          rfl
        · rw [if_neg (by simpa using hs)]
          rfl

/-! ## Restarted nodes (R107) -/

theorem beginsWith_full (id bits : Word32) : beginsWith id bits 32 = true ↔ id = bits := by
  rw [beginsWith_iff]
  constructor
  · intro h
    apply BitVec.eq_of_getLsbD_eq
    intro i hi
    have := h (31 - i) (by omega)
    rwa [show 31 - (31 - i) = i by omega] at this
  · rintro rfl _ _; rfl

/-- What an outcome writes to the entry of a node that has replied. -/
theorem replied_modEntry {s : State} {ref : EntryRef} {e e' : Entry} (g : Entry → Entry) (h : g { e with strikes := 0 } = { e' with strikes := 0 }) :
    (s.replied ref e).modEntry ref g = s.replied ref e' := by
  have hv : (s.replied ref e).entry ref = some { e with strikes := 0 } := (entry_bus _ _ ref).trans (entry_setEntry ..)
  rw [modEntry_eq hv, h]
  unfold State.replied
  dsimp only
  rw [setEntry_bus', setEntry_setEntry]

theorem replied_pos (s : State) (ref : EntryRef) (e : Entry) (p : Pos) : (s.replied ref e).pos p = s.pos p :=
  (show (s.replied ref e).pos p = (s.setEntry ref (some { e with strikes := 0 })).pos p from rfl).trans (pos_setEntry ..)

theorem chainOf_of_pos {s t : State} (h : ∀ p, t.pos p = s.pos p) (ref : EntryRef) : t.chainOf ref = s.chainOf ref := by
  unfold State.chainOf State.repeaterOf
  simp only [h]

/-- A node found unassigned, from the idle bus (R107). -/
theorem idle_restarted {s : State} {ref : EntryRef} {e : Entry} (he : s.entry ref = some e) (byBringUp : Bool) :
    s.idle.restarted ref byBringUp =
      let back := (s.replied ref (e.restart ref)).watchRestarted ref
      if e.locked then (if byBringUp then back.bringUpNext else back) else back.claims2 (.reassign ref byBringUp) := by
  have hlock : ((s.replied ref (e.restart ref)).watchRestarted ref).entry ref = some { e.restart ref with strikes := 0 } := by
    have h1 : (s.replied ref (e.restart ref)).entry ref = some { e.restart ref with strikes := 0 } :=
      (entry_bus _ _ ref).trans (entry_setEntry ..)
    unfold State.watchRestarted
    split <;> exact h1
  unfold State.restarted
  rw [idle_clearStrikes he, replied_modEntry (e' := e.restart ref) _ rfl]
  dsimp only
  rw [hlock]
  rfl

theorem watchRestarted_replied (s : State) (ref : EntryRef) (e : Entry) : (s.replied ref e).watchRestarted ref =
    match s.chainOf ref with
    | some p =>
      let v := s.replied ref e
      let watch := (v.det.watches.get (posIdx p)).map fun w : Watch => { w with closed := false, present := 0 }
      { v with det := { v.det with watches := v.det.watches.set (posIdx p) watch } }
    | none => s.replied ref e := by
  unfold State.watchRestarted
  rw [chainOf_of_pos (replied_pos s ref e) ref]
  rfl

end Sys2Proof.Machine
end

