-- ==== Sys2Proof/Laws/Binding.lean ====
section
/-! SUPPORT. The end of ENUMERATING: the binding of directory numbers, and the choice of the chain repeater. -/

namespace Sys2Proof.Machine

/-! ## Directory numbers (R27) and the chain repeater (R5) -/

/-- A directory number is held by a slot of a valid entry. -/
def State.holdsNumber (s : State) (n : Nat) : Prop := ∃ ref e sl, s.entry ref = some e ∧ sl ∈ e.slots ∧ sl.number = some n

theorem mem_usedNumbers (s : State) (n : Nat) : n ∈ s.usedNumbers ↔ s.holdsNumber n := by
  unfold State.usedNumbers State.holdsNumber
  rw [List.mem_flatMap]
  constructor
  · rintro ⟨ref, -, h⟩
    cases he : s.entry ref with
    | none => rw [he] at h; cases h
    | some e =>
      rw [he] at h
      dsimp only at h
      rw [List.mem_filterMap] at h
      obtain ⟨sl, h1, h2⟩ := h
      exact ⟨ref, e, sl, he, h1, h2⟩
  · rintro ⟨ref, e, sl, he, h1, h2⟩
    refine ⟨ref, mem_allEntries ref, ?_⟩
    rw [he]
    dsimp only
    rw [List.mem_filterMap]
    exact ⟨sl, h1, h2⟩

/-- The free numbers, lowest first. -/
def State.freeNumbers (s : State) : List Nat := (List.range' 16 112).filter fun n => !s.usedNumbers.contains n

theorem mem_freeNumbers (s : State) (n : Nat) : n ∈ s.freeNumbers ↔ 16 ≤ n ∧ n ≤ 127 ∧ ¬s.holdsNumber n := by
  unfold State.freeNumbers
  rw [List.mem_filter, List.mem_range'_1, Bool.not_eq_true', ← Bool.not_eq_true, List.contains_iff_mem, mem_usedNumbers]
  constructor
  · rintro ⟨⟨a, b⟩, d⟩; exact ⟨a, by omega, d⟩
  · rintro ⟨a, b, d⟩; exact ⟨⟨a, by omega⟩, d⟩

theorem freeNumbers_sorted (s : State) : s.freeNumbers.Pairwise (· < ·) := List.Pairwise.filter _ List.pairwise_lt_range'

theorem freeNumber_head (s : State) : s.freeNumber = s.freeNumbers.head? := by
  unfold State.freeNumber State.freeNumbers
  rw [List.head?_filter]

theorem freeNumbers_of_used {s t : State} (h : ∀ n, t.holdsNumber n ↔ s.holdsNumber n) : t.freeNumbers = s.freeNumbers := by
  unfold State.freeNumbers
  apply List.filter_congr
  intro n _
  have : t.usedNumbers.contains n = s.usedNumbers.contains n := by
    rw [Bool.eq_iff_iff, List.contains_iff_mem, List.contains_iff_mem, mem_usedNumbers, mem_usedNumbers, h]
  rw [this]

/-- A slot without a number. -/
def State.unnumbered (s : State) (x : EntryRef × Nat) : Bool := (s.slot x.1 x.2).any fun sl => sl.number.isNone

theorem unnumbered_some {s : State} {x : EntryRef × Nat} (h : s.unnumbered x = true) :
    ∃ e sl, s.entry x.1 = some e ∧ e.slots[x.2]? = some sl ∧ sl.number = none ∧ s.slot x.1 x.2 = some sl := by
  unfold State.unnumbered at h
  cases hs : s.slot x.1 x.2 with
  | none => rw [hs] at h; cases h
  | some sl =>
    rw [hs] at h
    have hn : sl.number = none := by simpa using h
    have hs' := hs
    unfold State.slot at hs'
    cases he : s.entry x.1 with
    | none => rw [he] at hs'; cases hs'
    | some e => rw [he] at hs'; exact ⟨e, sl, rfl, hs', hn, rfl⟩

/-- One slot bound. -/
theorem bindSlot_eq (p : Pos) (s : State) (x : EntryRef × Nat) :
    (s.unnumbered x = false → s.bindSlot p x = s) ∧
    (s.unnumbered x = true → s.freeNumbers = [] → s.bindSlot p x = (s.addReason p .mapFull).raiseAll .mapFull) ∧
    (∀ n rest, s.unnumbered x = true → s.freeNumbers = n :: rest → s.bindSlot p x = s.modSlot x.1 x.2 fun y => { y with number := some n }) := by
  refine ⟨fun h => ?_, fun h hf => ?_, fun n rest h hf => ?_⟩
  · unfold State.bindSlot State.unnumbered at *
    cases hs : s.slot x.1 x.2 with
    | none => rfl
    | some sl =>
      rw [hs] at h
      dsimp only
      rw [if_pos (by simpa using h)]
  all_goals
    obtain ⟨e, sl, -, -, hn, hs⟩ := unnumbered_some h
    unfold State.bindSlot
    rw [hs]
    dsimp only
    rw [if_neg (by rw [hn]; simp), freeNumber_head, hf]
    rfl

/-- A number given to a slot: every other slot, and what an entry is apart from its slots, stands. -/
theorem number_facts {s : State} {x : EntryRef × Nat} {n : Nat} {rest : List Nat} (h : s.unnumbered x = true)
    (hf : s.freeNumbers = n :: rest) :
    let t := s.modSlot x.1 x.2 fun y => { y with number := some n }
    t.freeNumbers = rest ∧ (∀ y, y ≠ x → t.slot y.1 y.2 = s.slot y.1 y.2) ∧
    (∀ sl, s.slot x.1 x.2 = some sl → t.slot x.1 x.2 = some { sl with number := some n }) ∧
    (∀ ref e, s.entry ref = some e → ∃ slots, t.entry ref = some { e with slots := slots }) ∧
    (∀ ref, s.entry ref = none → t.entry ref = none) ∧
    t = { s with map := { s.map with singles := t.map.singles, groups := t.map.groups } } := by
  obtain ⟨e, sl, he, hk, hn, hs⟩ := unnumbered_some h
  intro t
  have ht : t = s.setEntry x.1 (some { e with slots := e.slots.set x.2 { sl with number := some n } }) := modSlot_at he hk _
  have hte : t.entry x.1 = some { e with slots := e.slots.set x.2 { sl with number := some n } } := by rw [ht, entry_setEntry]
  have hto : ∀ r, r ≠ x.1 → t.entry r = s.entry r := fun r hr => by rw [ht, entry_setEntry_ne _ hr]
  have hused : ∀ m, t.holdsNumber m ↔ s.holdsNumber m ∨ m = n := by
    intro m
    constructor
    · rintro ⟨ref, e', sl', h1, h2, h3⟩
      by_cases hr : ref = x.1
      · subst hr
        rw [hte] at h1
        cases h1
        rcases List.mem_or_eq_of_mem_set h2 with h4 | h4
        · exact Or.inl ⟨_, e, sl', he, h4, h3⟩
        · rw [h4] at h3; cases h3; exact Or.inr rfl
      · rw [hto ref hr] at h1; exact Or.inl ⟨ref, e', sl', h1, h2, h3⟩
    · rintro (⟨ref, e', sl', h1, h2, h3⟩ | rfl)
      · by_cases hr : ref = x.1
        · subst hr
          rw [he] at h1
          cases h1
          obtain ⟨j, hj⟩ := List.getElem?_of_mem h2
          have hne : x.2 ≠ j := by
            intro e; rw [e, hj] at hk; cases hk; rw [hn] at h3; cases h3
          exact ⟨_, _, sl', hte, List.mem_of_getElem? (by rw [List.getElem?_set_ne hne]; exact hj), h3⟩
        · exact ⟨ref, e', sl', (hto ref hr).trans h1, h2, h3⟩
      · exact ⟨_, _, _, hte, List.mem_of_getElem? (set_get hk), rfl⟩
  refine ⟨?_, fun y hy => ?_, fun sl' hsl => ?_, fun ref e' he' => ?_, fun ref hr => ?_, ?_⟩
  · have h1 : t.freeNumbers = s.freeNumbers.filter fun m => decide (m ≠ n) := by
      unfold State.freeNumbers
      rw [List.filter_filter]
      apply List.filter_congr
      intro m _
      rw [Bool.eq_iff_iff, Bool.not_eq_true', ← Bool.not_eq_true, List.contains_iff_mem, mem_usedNumbers, hused,
        Bool.and_eq_true, Bool.not_eq_true', ← Bool.not_eq_true, List.contains_iff_mem, mem_usedNumbers, decide_eq_true_eq, not_or, and_comm]
    rw [h1, hf, List.filter_cons_of_neg (by simp)]
    have hs := freeNumbers_sorted s
    rw [hf, List.pairwise_cons] at hs
    rw [List.filter_eq_self]
    intro m hm
    have := hs.1 m hm
    simp; omega
  · unfold State.slot
    by_cases hr : y.1 = x.1
    · have hk2 : x.2 ≠ y.2 := fun e => hy (Prod.ext hr e.symm)
      rw [hr, hte, he]
      exact List.getElem?_set_ne hk2
    · rw [hto _ hr]
  · rw [hs] at hsl; cases hsl
    exact slot_at hte (set_get hk)
  · by_cases hr : ref = x.1
    · subst hr; rw [he] at he'; cases he'; exact ⟨_, hte⟩
    · exact ⟨e'.slots, by rw [hto _ hr, he']⟩
  · by_cases hr' : ref = x.1
    · subst hr'; rw [he] at hr; cases hr
    · rw [hto _ hr']; exact hr
  · rw [ht]; cases x.1 <;> rfl

/-- The mark that the numbers have run out. -/
def State.fullMark (s : State) (p : Pos) : State := (s.addReason p .mapFull).raiseAll .mapFull

theorem addBit_addBit {w : Nat} (x : BitVec w) (i : Nat) : addBit (addBit x i) i = addBit x i := by
  unfold addBit; rw [BitVec.or_assoc, BitVec.or_self]

theorem fullMark_entry (s : State) (p : Pos) (ref : EntryRef) : (s.fullMark p).entry ref = s.entry ref := by cases ref <;> rfl

theorem fullMark_twice (s : State) (p : Pos) : (s.fullMark p).fullMark p = s.fullMark p := by
  have h1 : ∀ m : Mlu, (m.raise .mapFull).raise .mapFull = m.raise .mapFull := by
    intro m
    unfold Mlu.raise
    split
    · dsimp only
      rw [addBit_addBit]
    · rfl
  have h2 : ∀ r : PosRec, (r.addReason .mapFull).addReason .mapFull = r.addReason .mapFull := by
    intro r
    unfold PosRec.addReason
    dsimp only
    rw [addBit_addBit]
    congr 1
    generalize addBit r.reasons (reasonBit .mapFull) = x
    by_cases h : x = 0
    · cases r.state <;> simp only [PosState.follow, if_pos h]
    · cases r.state <;> simp only [PosState.follow, if_neg h]
  have h3 : ∀ u : State, (u.raiseAll .mapFull).raiseAll .mapFull = u.raiseAll .mapFull := by
    intro u
    have : ∀ o : Option Mlu, (o.map fun m => if hasBit (7 : RoleSet) (roleBit m.role.role) then m.raise .mapFull else m).map
        (fun m => if hasBit (7 : RoleSet) (roleBit m.role.role) then m.raise .mapFull else m) =
        o.map fun m => if hasBit (7 : RoleSet) (roleBit m.role.role) then m.raise .mapFull else m := by
      intro o
      cases o with
      | none => rfl
      | some m =>
        simp only [Option.map]
        congr 1
        have h7 : ∀ r : Role, hasBit (7 : RoleSet) (roleBit r) = true := by intro r; cases r <;> decide
        rw [if_pos (h7 _), if_pos (h7 _), h1]
    unfold State.raiseAll State.raiseFor
    simp only [this]
  have h4 : (s.fullMark p).addReason p .mapFull = s.fullMark p := by
    unfold State.fullMark State.addReason
    show (((s.modPos p fun r => r.addReason .mapFull).raiseAll .mapFull).modPos p fun r => r.addReason .mapFull) = _
    have : ((s.modPos p fun r => r.addReason .mapFull).modPos p fun r => r.addReason .mapFull) = s.modPos p fun r => r.addReason .mapFull := by
      unfold State.modPos State.setPos State.pos
      simp only [Tbl.set_set, Tbl.get_set_self, h2]
    show (State.raiseAll ((s.modPos p fun r => r.addReason .mapFull).modPos p fun r => r.addReason .mapFull) .mapFull) = _
    rw [this]
  show ((s.fullMark p).addReason p .mapFull).raiseAll .mapFull = _
  rw [h4]
  exact h3 _

theorem fullMark_free (s : State) (p : Pos) : (s.fullMark p).freeNumbers = s.freeNumbers :=
  freeNumbers_of_used fun n => by unfold State.holdsNumber; simp only [fullMark_entry]

theorem fullMark_slot (s : State) (p : Pos) (r : EntryRef) (k : Nat) : (s.fullMark p).slot r k = s.slot r k := by
  unfold State.slot; rw [fullMark_entry]

theorem fullMark_unnumbered (s : State) (p : Pos) (x : EntryRef × Nat) : (s.fullMark p).unnumbered x = s.unnumbered x := by
  unfold State.unnumbered; rw [fullMark_slot]

/-- Binding once the numbers have run out marks the position, and nothing else. -/
theorem bind_full (p : Pos) : ∀ (xs : List (EntryRef × Nat)) (s : State), s.freeNumbers = [] →
    xs.foldl (State.bindSlot p) s = if xs.any s.unnumbered then s.fullMark p else s
  | [], s, _ => rfl
  | x :: xs, s, h => by
    rw [List.foldl_cons, List.any_cons]
    obtain ⟨b1, b2, -⟩ := bindSlot_eq p s x
    by_cases hx : s.unnumbered x = true
    · rw [b2 hx h, hx, Bool.true_or, if_pos rfl]
      have := bind_full p xs (s.fullMark p) (by rw [fullMark_free]; exact h)
      rw [show (s.addReason p .mapFull).raiseAll .mapFull = s.fullMark p from rfl, this, fullMark_twice, ite_self]
    · rw [Bool.not_eq_true] at hx
      rw [b1 hx, hx, Bool.false_or]
      exact bind_full p xs s h

/-- The slots that ask for a number, each once, in order. -/
def State.wanting (s : State) (xs : List (EntryRef × Nat)) : List (EntryRef × Nat) := (xs.filter s.unnumbered).eraseDups

theorem bind_facts (p : Pos) : ∀ (xs : List (EntryRef × Nat)) (s : State),
    let t := xs.foldl (State.bindSlot p) s
    (∀ y : EntryRef × Nat, y ∉ s.wanting xs → t.slot y.1 y.2 = s.slot y.1 y.2) ∧
    (∀ (n : Nat) (y : EntryRef × Nat) sl, (s.wanting xs)[n]? = some y → s.slot y.1 y.2 = some sl →
      t.slot y.1 y.2 = some { sl with number := s.freeNumbers[n]? }) ∧
    (∀ ref e, s.entry ref = some e → ∃ slots, t.entry ref = some { e with slots := slots }) ∧
    (∀ ref, s.entry ref = none → t.entry ref = none) ∧
    (let u := if (s.wanting xs).length ≤ s.freeNumbers.length then s else s.fullMark p
     t = { u with map := { u.map with singles := t.map.singles, groups := t.map.groups } })
  | [], s => ⟨fun _ _ => rfl, fun n y sl h => by simp [State.wanting] at h, fun ref e h => ⟨e.slots, h⟩, fun _ h => h, by
      simp only [State.wanting, List.filter_nil, List.eraseDups_nil, List.length_nil, Nat.zero_le, if_true]; rfl⟩
  | x :: xs, s => by
    intro t
    by_cases hx : s.unnumbered x = true
    case neg =>
      rw [Bool.not_eq_true] at hx
      have ht : t = xs.foldl (State.bindSlot p) s := by
        show (x :: xs).foldl _ _ = _
        rw [List.foldl_cons, (bindSlot_eq p s x).1 hx]
      have hw : s.wanting (x :: xs) = s.wanting xs := by
        unfold State.wanting; rw [List.filter_cons_of_neg (by rw [hx]; simp)]
      rw [ht, hw]
      exact bind_facts p xs s
    case pos =>
      have hw : s.wanting (x :: xs) = x :: ((xs.filter s.unnumbered).filter fun y => !y == x).eraseDups := by
        unfold State.wanting
        rw [List.filter_cons_of_pos hx, List.eraseDups_cons]
      cases hf : s.freeNumbers with
      | nil =>
        have ht : t = s.fullMark p := by
          show (x :: xs).foldl _ _ = _
          rw [bind_full p (x :: xs) s hf, List.any_cons, hx, Bool.true_or, if_pos rfl]
        rw [ht]
        refine ⟨fun y _ => fullMark_slot .., fun n y sl hn hs => ?_, fun ref e he => ⟨e.slots, by rw [fullMark_entry]; exact he⟩,
          fun ref hr => by rw [fullMark_entry]; exact hr, ?_⟩
        · rw [fullMark_slot, hs]
          have hy : s.unnumbered y = true := by
            have := List.mem_of_getElem? hn
            unfold State.wanting at this
            rw [List.mem_eraseDups, List.mem_filter] at this
            exact this.2
          obtain ⟨e, sl', -, -, hnum, hs'⟩ := unnumbered_some hy
          rw [hs] at hs'; cases hs'
          show some sl = some { sl with number := none }
          rw [← hnum]
        · rw [if_neg (by rw [hw]; simp)]
      | cons n rest =>
        obtain ⟨f1, f2, f3, f4, f5, f6⟩ := number_facts hx hf
        have hb := (bindSlot_eq p s x).2.2 n rest hx hf
        generalize hs' : s.modSlot x.1 x.2 (fun y => { y with number := some n }) = s' at f1 f2 f3 f4 f5 f6 hb
        have ht : t = xs.foldl (State.bindSlot p) s' := by
          show (x :: xs).foldl _ _ = _
          rw [List.foldl_cons, hb]
        obtain ⟨g1, g2, g3, g4, g5⟩ := bind_facts p xs s'
        rw [← ht] at g1 g2 g3 g4 g5
        have hun : ∀ y, s'.unnumbered y = (s.unnumbered y && !y == x) := by
          intro y
          unfold State.unnumbered
          by_cases hy : y = x
          · subst hy
            obtain ⟨e, sl, -, -, -, hsl⟩ := unnumbered_some hx
            rw [f3 sl hsl]; simp
          · rw [f2 y hy]
            have : (!y == x) = true := by simpa using hy
            rw [this, Bool.and_true]
        have hw' : s.wanting (x :: xs) = x :: s'.wanting xs := by
          rw [hw]
          unfold State.wanting
          rw [List.filter_filter]
          congr 2
          apply List.filter_congr
          intro y _
          rw [hun y, Bool.and_comm]
        have hxw : x ∉ s'.wanting xs := by
          unfold State.wanting
          rw [List.mem_eraseDups, List.mem_filter, hun]
          simp
        rw [hw']
        refine ⟨fun y hy => ?_, fun m y sl hm hs => ?_, fun ref e he => ?_, fun ref hr => g4 ref (f5 ref hr), ?_⟩
        · rw [List.mem_cons, not_or] at hy
          rw [g1 y hy.2, f2 y hy.1]
        · cases m with
          | zero =>
            cases hm
            rw [g1 x hxw, f3 sl hs]
            rfl
          | succ m =>
            rw [List.getElem?_cons_succ] at hm
            have hne : y ≠ x := by
              rintro rfl
              exact hxw (List.mem_of_getElem? hm)
            rw [g2 m y sl hm (by rw [f2 y hne]; exact hs), f1]
            rfl
        · obtain ⟨sl1, h1⟩ := f4 ref e he
          obtain ⟨sl2, h2⟩ := g3 ref _ h1
          exact ⟨sl2, h2⟩
        · dsimp only at g5 ⊢
          rw [f1] at g5
          simp only [List.length_cons, Nat.add_le_add_iff_right]
          split
          · rename_i hl
            rw [if_pos hl] at g5
            rw [g5, f6]
          · rename_i hl
            rw [if_neg hl] at g5
            rw [g5, f6]
            rfl


/-- The slots of a position that ask for a number, as the statements list them. -/
theorem wanting_slots (s : State) (p : Pos) : s.wanting (s.slotsOf p) =
    ((s.pos p).refs.flatMap fun ref => (List.range (((s.entry ref).map fun e => e.slots.length).getD 0)).filterMap
      fun k => if (s.slot ref k).any (fun sl => sl.number.isNone) then some (ref, k) else none).eraseDups := by
  have hf : ∀ (ref : EntryRef) (ks : List Nat), (ks.map fun k => (ref, k)).filter s.unnumbered =
      ks.filterMap fun k => if (s.slot ref k).any (fun sl => sl.number.isNone) then some (ref, k) else none := by
    intro ref ks
    induction ks with
    | nil => rfl
    | cons k ks ih =>
      rw [List.map_cons, List.filter_cons, List.filterMap_cons, ih]
      have : s.unnumbered (ref, k) = (s.slot ref k).any (fun sl => sl.number.isNone) := rfl
      rw [this]
      by_cases h : (s.slot ref k).any (fun sl => sl.number.isNone) = true
      · rw [if_pos h, if_pos h]
      · rw [if_neg h, if_neg h]
  unfold State.wanting State.slotsOf
  congr 1
  generalize (s.pos p).refs = refs
  induction refs with
  | nil => rfl
  | cons ref refs ih =>
    rw [List.flatMap_cons, List.filter_append, ih, List.flatMap_cons]
    congr 1
    cases he : s.entry ref with
    | none => rfl
    | some e => exact hf ref _

/-- The fold that chooses the chain repeater finds a lowest ID (R5). -/
theorem lowerId_fold (s : State) : ∀ (xs : List SingleId) (best : Option SingleId),
    (xs.foldl s.lowerId best = none → best = none ∧ xs = []) ∧
    ∀ i, xs.foldl s.lowerId best = some i → (best = some i ∨ i ∈ xs) ∧
      ∀ j, best = some j ∨ j ∈ xs → (s.idOf (.single i)).toNat ≤ (s.idOf (.single j)).toNat
  | [], best => ⟨fun h => ⟨h, rfl⟩, fun i h => ⟨Or.inl h, fun j hj => by
      rcases hj with hj | hj
      · have : best = some i := h
        rw [this] at hj; cases hj; exact Nat.le_refl _
      · cases hj⟩⟩
  | x :: xs, best => by
    rw [List.foldl_cons]
    obtain ⟨h1, h2⟩ := lowerId_fold s xs (s.lowerId best x)
    have hb : ∃ y, s.lowerId best x = some y ∧ (best = some y ∨ y = x) ∧
        ∀ j, best = some j ∨ j = x → (s.idOf (.single y)).toNat ≤ (s.idOf (.single j)).toNat := by
      unfold State.lowerId
      cases best with
      | none => exact ⟨x, rfl, Or.inr rfl, fun j hj => by rcases hj with hj | rfl; cases hj; exact Nat.le_refl _⟩
      | some b =>
        dsimp only
        split
        · rename_i h
          refine ⟨x, rfl, Or.inr rfl, fun j hj => ?_⟩
          rcases hj with hj | rfl
          · cases hj; omega
          · exact Nat.le_refl _
        · rename_i h
          refine ⟨b, rfl, Or.inl rfl, fun j hj => ?_⟩
          rcases hj with hj | rfl
          · cases hj; exact Nat.le_refl _
          · omega
    obtain ⟨y, y1, y2, y3⟩ := hb
    rw [y1] at h1 h2
    rw [y1]
    refine ⟨fun h => (by have := (h1 h).1; cases this), fun i hi => ?_⟩
    obtain ⟨i1, i2⟩ := h2 i hi
    refine ⟨?_, fun j hj => ?_⟩
    · rcases i1 with i1 | i1
      · cases i1
        rcases y2 with y2 | y2
        · exact Or.inl y2
        · exact Or.inr (by rw [y2]; exact List.mem_cons_self)
      · exact Or.inr (List.mem_cons_of_mem _ i1)
    · have hy := i2 y (Or.inl rfl)
      rcases hj with hj | hj
      · exact Nat.le_trans hy (y3 j (Or.inl hj))
      · rcases List.mem_cons.mp hj with hj | hj
        · exact Nat.le_trans hy (y3 j (Or.inr hj))
        · exact i2 j (Or.inr hj)

theorem setPos_setPos (s : State) (p : Pos) (a b : PosRec) : (s.setPos p a).setPos p b = s.setPos p b := by
  unfold State.setPos; simp only [Tbl.set_set]

theorem pos_setPos (s : State) (p : Pos) (r : PosRec) : (s.setPos p r).pos p = r := by
  unfold State.setPos State.pos; simp

end Sys2Proof.Machine
end

