-- ==== Sys2Proof/Laws/ChannelActs.lean ====
section
/-! SUPPORT. What one channel does, as the statements say it: a changed demand taken (R45), a latch cleared (R54), a
temperature read (R57, R58) and a trip (R51 to R53). -/

namespace Sys2Proof.Machine

/-! ## A changed demand -/

theorem acceptDemand_off (r wasOn on : Bool) (d : Demand) (x : Channel) (hx : x.state = .off) :
    x.acceptDemand r wasOn on d = ({ x with demand := d } : Channel).takeDemand r on := by cases x; cases hx; rfl

theorem acceptDemand_drive (r wasOn on : Bool) (d : Demand) (x : Channel) (hx : x.state = .drive) :
    x.acceptDemand r wasOn on d = if d = .off then ({ x with demand := d } : Channel).toOff
      else ({ x with demand := d } : Channel).reMode wasOn on := by cases x; cases hx; rfl

theorem acceptDemand_other (r wasOn on : Bool) (d : Demand) (x : Channel) (h1 : x.state ≠ .off) (h2 : x.state ≠ .drive) :
    x.acceptDemand r wasOn on d = { x with demand := d } := by
  obtain ⟨st⟩ := x
  cases st <;> first | rfl | exact absurd rfl h1 | exact absurd rfl h2

/-- A changed demand taken by the channel's state (R45). -/
theorem acceptDemand_acts (r wasOn on : Bool) (d : Demand) (ch : Channel) :
    let handed := { ch with demand := d }
    let ch' := ch.acceptDemand r wasOn on d
    (ch.state = .off ∨ ch.state = .drive ∧ d = .off → handed.Took r on ch') ∧
    (ch.state = .drive → d ≠ .off → ch'.state = .drive ∧ ch'.demand = d ∧ ch'.held = ch.held ∧ ch.Switched ch' ∧
      let anew := ch.derated = true ∧ (d = .flashEmergency ∨ wasOn = false)
      (ch.derated = false ∨ anew → ch'.output = on) ∧ (anew → ch'.pwmOn = true ∧ ch'.pwmAge = 0) ∧
      (ch.derated = true → ¬anew → ch'.output = (on && ch.pwmOn) ∧ ch'.pwmOn = ch.pwmOn ∧ ch'.pwmAge = ch.pwmAge)) ∧
    (ch.state ≠ .off → ch.state ≠ .drive → ch' = handed) := by
  intro handed ch'
  have hheld := acceptDemand_held r wasOn on d ch
  have hout : ∀ (b : Bool) (x : Channel), (x.switchTo b).output = b ∧ (x.switchTo b).state = x.state ∧ (x.switchTo b).pwmOn = x.pwmOn ∧
      (x.switchTo b).pwmAge = x.pwmAge := by
    intro b x
    unfold Channel.switchTo
    cases b <;> cases hx : x.output <;> simp [hx, Channel.dropWindow]
  refine ⟨fun h => ?_, fun h hd => ?_, fun h1 h2 => ?_⟩
  · rcases h with h | ⟨h, rfl⟩
    · have : ch' = handed.takeDemand r on := acceptDemand_off r wasOn on d ch h
      rw [this]; exact took_takeDemand r on handed
    · have : ch' = handed.takeDemand r on := by
        refine (acceptDemand_drive r wasOn on .off ch h).trans ((if_pos rfl).trans ?_)
        unfold Channel.takeDemand
        exact (if_neg fun a => a.2 rfl).symm
      rw [this]; exact took_takeDemand r on handed
  · have he : ch' = handed.reMode wasOn on := (acceptDemand_drive r wasOn on d ch h).trans (if_neg hd)
    have hs : ch.Switched ch' := by
      rw [he]; exact (switched_reMode wasOn on handed).congr rfl rfl
    refine ⟨?_, hheld.2, hheld.1, hs, ?_⟩
    · rw [he]; unfold Channel.reMode
      split
      · split
        · exact (hout on handed).2.1.trans h
        · exact (hout _ handed).2.1.trans h
      · exact (hout on handed).2.1.trans h
    · intro anew
      rw [he]
      unfold Channel.reMode
      show (ch.derated = false ∨ anew → _) ∧ _
      refine ⟨fun a => ?_, fun a => ?_, fun a1 a2 => ?_⟩
      · rcases a with a | a
        · rw [if_neg (show ¬handed.derated = true by show ¬ch.derated = true; rw [a]; simp)]; exact (hout ..).1
        · rw [if_pos (show handed.derated = true from a.1), if_pos (show handed.demand = .flashEmergency ∨ _ from a.2)]
          exact (hout on handed).1
      · rw [if_pos (show handed.derated = true from a.1), if_pos (show handed.demand = .flashEmergency ∨ _ from a.2)]
        exact ⟨rfl, rfl⟩
      · rw [if_pos (show handed.derated = true from a1), if_neg (show ¬(handed.demand = .flashEmergency ∨ _) from fun b => a2 ⟨a1, b⟩)]
        exact ⟨(hout ..).1, (hout ..).2.2⟩
  · exact acceptDemand_other r wasOn on d ch h1 h2

/-! ## A latch cleared -/

/-- A LATCHED channel cleared (R54 (2)). -/
theorem clear_acts (r on : Bool) (ch : Channel) :
    let cleared := { ch with streakCount := 0, streakTimer := 0 }
    (170 ≤ ch.temperature → (ch.clear r on).state = .thermalOff ∧ (ch.clear r on).output = ch.output ∧
      (ch.clear r on).demand = ch.demand ∧ (ch.clear r on).held = cleared.held) ∧
    (ch.temperature < 170 → cleared.Took r on (ch.clear r on)) ∧ (ch.clear r on).streakCount = 0 := by
  intro cleared
  have hc : ch.clear r on = if 170 ≤ ch.temperature then cleared.enter .thermalOff else cleared.takeDemand r on := rfl
  have count : ∀ x : Channel, x.held = cleared.held → x.streakCount = 0 := by
    intro x h
    unfold Channel.held at h
    simp only [Prod.mk.injEq] at h
    exact h.2.2.1
  rw [hc]
  by_cases h : 170 ≤ ch.temperature
  · rw [if_pos h]
    exact ⟨fun _ => ⟨rfl, rfl, (lasting_eq (enter_lasting .thermalOff cleared)).1, enter_held ..⟩, fun h' => absurd h (Int.not_le.mpr h'),
      count _ (enter_held ..)⟩
  · rw [if_neg h]
    have := took_takeDemand r on cleared
    exact ⟨fun h' => absurd h' h, fun _ => this, count _ this.held⟩

/-! ## A temperature read -/

/-- A temperature reading of a channel (R57, R58). -/
theorem heat_acts (r on : Bool) (deg : Int) (ch : Channel) :
    let read := { ch with temperature := deg, temperatureAge := 0 }
    let cool := { read with derated := false }
    let stays := deg < 170 ∨ ch.state = .latched ∨ ch.state = .thermalOff
    let g := ch.heat r on deg
    (170 ≤ deg → ¬stays → g.2 = true ∧ g.1.state = .thermalOff ∧ g.1.output = false ∧ g.1.demand = ch.demand ∧
      ch.Switched g.1 ∧ g.1.held = { read with derated := true }.held) ∧
    (150 ≤ deg → stays → ch.derated = false → g.2 = true ∧ g.1.state = ch.state ∧ g.1.output = ch.output ∧
      g.1.demand = ch.demand ∧ ch.Switched g.1 ∧ g.1.pwmOn = true ∧ g.1.pwmAge = 0 ∧
      g.1.held = { read with derated := true }.held) ∧
    (150 ≤ deg → stays → ch.derated = true → g = (read, false)) ∧
    (130 ≤ deg → deg < 150 → g = (read, false)) ∧
    (deg < 130 → ch.derated = false → g = (read, false)) ∧
    (deg < 130 → ch.derated = true → g.2 = false ∧ g.1.derated = false ∧
      (ch.state = .thermalOff → cool.Took r on g.1) ∧
      (ch.state = .drive → g.1.state = .drive ∧ g.1.output = on ∧ g.1.demand = ch.demand ∧ g.1.held = cool.held ∧
        ch.Switched g.1) ∧
      (ch.state ≠ .thermalOff → ch.state ≠ .drive → g.1 = cool) ∧ (g.1.state = .thermalOff → ch.state = .thermalOff)) := by
  intro read cool stays g
  have hot : 170 ≤ deg → ¬stays → g = ({ (read.derate.switchTo false).enter .thermalOff with cooldown := 0 }, true) :=
    fun h1 h2 => if_pos ⟨h1, fun h => h2 (Or.inr (Or.inl h)), fun h => h2 (Or.inr (Or.inr h))⟩
  have nothot : stays → ¬(170 ≤ deg ∧ read.state ≠ .latched ∧ read.state ≠ .thermalOff) := by
    rintro (h | h | h) ⟨a, b, c⟩
    · omega
    · exact b h
    · exact c h
  refine ⟨fun h1 h2 => ?_, fun h1 h2 h3 => ?_, fun h1 h2 h3 => ?_, fun h1 h2 => ?_, fun h1 h2 => ?_, fun h1 h2 => ?_⟩
  · rw [hot h1 h2]
    refine ⟨rfl, rfl, ?_, ?_, ?_, ?_⟩
    · exact (Channel.enter_output ..).trans (Channel.switchTo_output ..)
    · exact ((lasting_eq (enter_lasting .thermalOff (read.derate.switchTo false))).1.trans
        (lasting_eq (switchTo_lasting false read.derate)).1).trans rfl
    · exact (switched_switchTo false read.derate).congr rfl (enter_times .thermalOff (read.derate.switchTo false))
    · exact (enter_held .thermalOff (read.derate.switchTo false)).trans ((switchTo_held false read.derate).trans rfl)
  · have : g = (read.derate, true) := (if_neg (nothot h2)).trans (if_pos ⟨h1, h3⟩)
    rw [this]
    exact ⟨rfl, rfl, rfl, rfl, switched_same rfl, rfl, rfl, rfl⟩
  · exact (if_neg (nothot h2)).trans ((if_neg fun x => by rw [show read.derated = true from h3] at x; cases x.2).trans
      (if_neg fun x => by omega))
  · exact (if_neg fun x => by omega).trans ((if_neg fun x => by omega).trans (if_neg fun x => by omega))
  · exact (if_neg fun x => by omega).trans ((if_neg fun x => by omega).trans
      (if_neg fun x => by rw [show read.derated = false from h2] at x; cases x.2))
  · have hg : g = match cool.state with
        | .thermalOff => (cool.takeDemand r on, false)
        | .drive => (cool.switchTo on, false)
        | .off | .probeGap | .probeOn | .tripped | .latched => (cool, false) :=
      (if_neg fun x => by omega).trans ((if_neg fun x => by omega).trans (if_pos ⟨h1, h2⟩))
    have hc : cool.state = ch.state := rfl
    rw [hg, hc]
    cases hs : ch.state <;> dsimp only
    case thermalOff =>
      have := took_takeDemand r on cool
      refine ⟨rfl, ?_, fun _ => this, fun h => (by cases h), fun h => absurd rfl h, fun _ => rfl⟩
      have hh := this.held
      unfold Channel.held at hh
      simp only [Prod.mk.injEq] at hh
      exact hh.1
    case drive =>
      have hh := switchTo_held on cool
      refine ⟨rfl, ?_, fun h => (by cases h), fun _ => ⟨(Channel.switchTo_state ..).trans hs, Channel.switchTo_output .., (lasting_eq (switchTo_lasting ..)).1, hh,
        (switched_switchTo on cool).congr rfl rfl⟩, fun _ h => absurd rfl h, fun h => ?_⟩
      · unfold Channel.held at hh
        simp only [Prod.mk.injEq] at hh
        exact hh.1
      · rw [Channel.switchTo_state, hc, hs] at h; cases h
    all_goals exact ⟨rfl, rfl, fun h => (by cases h), fun h => (by cases h), fun _ _ => rfl, fun h => (by rw [hc, hs] at h; cases h)⟩

/-! ## A trip -/

/-- A trip of a channel whose output is on (R51 to R53, R60). -/
theorem tripOut_acts (supply : Nat) (ch : Channel) :
    let g := ch.tripOut supply
    g.output = false ∧ g.demand = ch.demand ∧
    g.held = { ch with
      streakCount := ch.streakCount + 1, streakTimer := 0, trip := some (ch.tripRecord supply) }.held ∧
    (ch.streakCount < 3 → g.state = .tripped ∧ g.cooldown = 0) ∧ (3 ≤ ch.streakCount → g.state = .latched) ∧
    (ch.output = true → g.sinceOff = 0) ∧ ∀ w, g.window = some w ↔ ch.window = some w ∧ 16 ≤ w.samples.length := by
  intro g
  generalize hv : ({ ch with
    streakCount := ch.streakCount + 1, streakTimer := 0, trip := some (ch.tripRecord supply) } : Channel) = v
  have hd : v.demand = ch.demand ∧ v.output = ch.output ∧ v.window = ch.window := by subst hv; exact ⟨rfl, rfl, rfl⟩
  have hg : g = if ch.streakCount + 1 ≤ 3 then { (v.switchTo false).enter .tripped with cooldown := 0 }
      else (v.switchTo false).enter .latched := by subst hv; rfl
  have drop : ∀ (st : ChanState), st ≠ .drive → ((v.switchTo false).enter st).window =
      ch.window.filter fun w => windowSamples ≤ w.samples.length := by
    intro st hst
    have h1 : ((v.switchTo false).enter st).window = (v.switchTo false).dropWindow.window := by
      unfold Channel.enter; dsimp only; rw [if_neg hst]
    rw [h1]
    unfold Channel.switchTo Channel.dropWindow
    cases v.output <;> simp [hd.2.2, Option.filter_filter]
  have dark : ∀ st, ch.output = true → ((v.switchTo false).enter st).sinceOff = 0 := by
    intro st ho
    have : (v.switchTo false).sinceOff = 0 := (switched_switchTo false v).off (hd.2.1.trans ho) (Channel.switchTo_output ..)
    rw [← this]
    unfold Channel.enter; dsimp only; split <;> rfl
  have win : ∀ o : Option Window, ∀ w, (o.filter fun w => windowSamples ≤ w.samples.length) = some w ↔
      o = some w ∧ 16 ≤ w.samples.length := by
    intro o w
    rw [Option.filter_eq_some_iff]
    exact ⟨fun h => ⟨h.1, of_decide_eq_true h.2⟩, fun h => ⟨h.1, decide_eq_true h.2⟩⟩
  rw [hg]
  by_cases h : ch.streakCount + 1 ≤ 3
  · rw [if_pos h]
    refine ⟨?_, ?_, ?_, fun _ => ⟨rfl, rfl⟩, fun x => by omega, fun x => dark .tripped x, fun w => ?_⟩
    · show ((v.switchTo false).enter .tripped).output = false; simp
    · show ((v.switchTo false).enter .tripped).demand = _; simp [hd]
    · show ((v.switchTo false).enter .tripped).held = _; rw [enter_held, switchTo_held]
    · show ((v.switchTo false).enter .tripped).window = _ ↔ _; rw [drop _ (by decide)]; exact win ..
  · rw [if_neg h]
    refine ⟨?_, ?_, ?_, fun x => by omega, fun _ => rfl, fun x => dark .latched x, fun w => ?_⟩
    · simp
    · simp [hd]
    · rw [enter_held, switchTo_held]
    · rw [drop _ (by decide)]; exact win ..

end Sys2Proof.Machine
end

