-- ==== Sys2Proof/Laws/Coupled.lean ====
section
/-! SUPPORT. Position 1 coupled, a code change, a Map Rebuild. -/

namespace Sys2Proof.Machine

theorem chainLaw_setLink (s : State) (l : LinkId) (m : Mlu) : (s.setLink l m).chainLaw = s.chainLaw := by cases l <;> rfl

theorem codeChange_links (u : State) (e : Profile) : (u.codeChange e).matrix = u.matrix := by
  unfold State.codeChange State.stopDebounce State.startDebounce
  dsimp only
  repeat' split
  all_goals rfl

theorem codeChange_dead {u : State} (h : u.live .p1 = false) (e : Profile) : u.codeChange e =
    { u with det := { u.det with effective := e, debounce := if e = .none then none else some { candidate := e, length := 200 } } } := by
  unfold State.codeChange
  dsimp only
  rw [if_neg (by rw [show ({ u with det := { u.det with effective := e } } : State).live .p1 = u.live .p1 from rfl, h]; simp)]
  by_cases he : e = .none
  · rw [if_pos he, if_pos he]; rfl
  · rw [if_neg he, if_neg he]; rfl

theorem codeChange_live {u : State} (h : u.live .p1 = true) (e : Profile) : u.codeChange e =
    { u with det := { u.det with
        effective := e
        debounce := if e = u.matrix.active then none
          else if e = .none then some { candidate := .none, length := 500 } else some { candidate := e, length := 200 } } } := by
  have hl : ({ u with det := { u.det with effective := e } } : State).live .p1 = true := h
  unfold State.codeChange
  dsimp only
  rw [if_pos hl]
  by_cases h1 : e = u.matrix.active
  · rw [if_pos h1, if_pos h1]; rfl
  · rw [if_neg h1, if_neg h1]
    by_cases h2 : e = .none
    · rw [if_pos h2, if_pos h2]; rfl
    · rw [if_neg h2, if_neg h2]; rfl

theorem rebuild_dead {u : State} (h : u.live .p1 = false) : u.prune.restartDetection =
    { u with
        map := { u.map with singles := u.map.singles.map pruned, groups := u.map.groups.map pruned }
        det := { u.det with debounce := if u.det.effective = .none then none else some ({ candidate := u.det.effective, length := 200 } : Debounce) } } := by
  unfold State.restartDetection
  rw [codeChange_dead (show u.prune.live .p1 = false from h)]
  rfl

theorem torn_dead {s t : State} (h : Torn .p1 s t) : t.live .p1 = false := by
  obtain ⟨v, w, hD, ht, hw⟩ := h
  have hm : t.map = v.map := by rw [ht, (hw : FirstEnded v w).whole]; rfl
  unfold State.live
  rw [State.pos_of_map hm, hD.positions]
  split
  · rfl
  · rename_i e
    cases hl : (s.pos .p1).state.live
    · rfl
    · exact absurd (show Pos.p1 ∈ s.takes .p1 from List.mem_filter.mpr ⟨by decide, hl⟩) e

/-- A position in MEASURING or past it. -/
def Measured (st : PosState) : Prop := st = .measuring ∨ st = .online ∨ st = .degraded

theorem measured_follow {st : PosState} (h : Measured st) (rs : ReasonSet) : Measured (st.follow rs) := by
  rcases h with h | h | h <;> subst h <;> unfold Measured PosState.follow <;> dsimp only
  · exact Or.inl rfl
  all_goals split <;> simp

theorem measured_end (p : Pos) (s : State) (h : Measured (s.pos p).state) : Louder s (s.endMeasuring p) ∧
    Measured ((s.endMeasuring p).pos p).state := by
  unfold State.endMeasuring
  split
  · unfold State.commitRelearn
    dsimp only
    generalize hA : s.modPos p (PosRec.commit (s.det.relearn.any fun x => x.incomplete)) = A
    have hpos : (({ A with det := { A.det with relearn := none } } : State).formExpected.resetVerdicts allLamps).pos p = A.pos p :=
      State.pos_of_map (resetVerdicts_map' ..) p
    refine ⟨(louder_of_links (t := ({ A with det := { A.det with relearn := none } } : State).formExpected) (by rw [← hA]; rfl)).trans (louder_resetVerdicts _ _), ?_⟩
    rw [hpos, ← hA, State.pos_modPos, if_pos rfl]
    unfold PosRec.commit
    dsimp only
    split <;> exact measured_follow h _
  · unfold State.becomeReady
    dsimp only
    generalize hA : State.modPos ({ s with det := { s.det with bringUp := none } } : State) p PosRec.becomesReady = A
    generalize hB : (A.formExpected.resetVerdicts allLamps).raiseAll .positionReady = B
    have hBm : B.map = A.map := by rw [← hB]; exact resetVerdicts_map' ..
    have hBl : Louder A B := by
      rw [← hB]
      exact ((louder_of_links (t := A.formExpected) rfl).trans (louder_resetVerdicts _ _)).trans (louder_raiseAll _ _)
    have hsl : Louder s A := louder_of_links (by rw [← hA]; rfl)
    have main : ∀ t : State, t.map = B.map → t.links = B.links → Louder s t ∧ Measured (t.pos p).state := by
      intro t h1 h2
      refine ⟨(hsl.trans hBl).trans (louder_of_links h2), ?_⟩
      rw [State.pos_of_map (h1.trans hBm), ← hA, State.pos_modPos, if_pos rfl]
      unfold PosRec.becomesReady Measured
      dsimp only
      split <;> simp
    split
    · exact main _ rfl rfl
    · exact main _ rfl rfl

theorem measured_note (p : Pos) (s : State) (o : ProbeOutcome) (h : Measured (s.pos p).state) : Measured ((s.noteOutcome p o).pos p).state := by
  unfold State.noteOutcome
  split
  · split
    · exact h
    · unfold State.addReason
      rw [State.pos_modPos, if_pos rfl]
      exact measured_follow h _
  · exact h

theorem measured_measure (p : Pos) : ∀ (ls : List LampId) (s : State), Measured (s.pos p).state →
    Louder s (State.measure p ls s) ∧ Measured ((State.measure p ls s).pos p).state
  | [], s, h => measured_end p s h
  | j :: ls, s, h => by
    unfold State.measure
    split
    · have h1 : Measured ((s.modPos p (PosRec.putContribution j {})).pos p).state := by
        rw [State.pos_modPos, if_pos rfl]; unfold PosRec.putContribution; split <;> exact h
      obtain ⟨a, b⟩ := measured_measure p ls _ h1
      exact ⟨(louder_of_links rfl).trans a, b⟩
    · split
      · generalize hA : s.learnFor p j .failed = A
        have hLl : Louder s A := by
          rw [← hA]; unfold State.learnFor; dsimp only; split
          · exact (louder_of_links (t := s.modPos p _) rfl).trans (louder_raiseAll _ _)
          · exact louder_of_links rfl
        have h1 : Measured (A.pos p).state := by
          have : A.map = (s.modPos p (PosRec.putContribution j (learn .failed (s.eBefore p j) (s.pBefore p j)))).map := by
            rw [← hA]; unfold State.learnFor; dsimp only; split <;> rfl
          rw [State.pos_of_map this, State.pos_modPos, if_pos rfl]; unfold PosRec.putContribution; split <;> exact h
        obtain ⟨a, b⟩ := measured_measure p ls _ (measured_note p A .failed h1)
        exact ⟨(hLl.trans (louder_of_links (note_facts A p .failed).1)).trans a, b⟩
      · obtain ⟨t1, t2, -⟩ := testProbe_facts (s.setProbe (some { lamp := j, pos := p })) _ rfl
        exact ⟨louder_of_links t2, by rw [State.pos_of_map t1]; exact h⟩

theorem connect_list (p : Profile) : ∀ (cs : List ChanId), cs.Nodup → ∀ (s : State), s.det.bringUp = none → s.matrix.active = p →
    ∃ chans, cs.foldl State.connectChan s = { s with bank := { s.bank with channels := chans } } ∧
      ∀ c, chans.get c = if c ∈ cs ∧ routes p c = true then (s.chan c).connect (s.wantsOn (s.chan c).demand) else s.chan c
  | [], _, s, _, _ => ⟨s.bank.channels, rfl, fun c => by rw [if_neg (by simp)]; rfl⟩
  | d :: cs, hn, s, hb, hp => by
    rw [List.nodup_cons] at hn
    have hroute : s.routed d = routes p d := by unfold State.routed; rw [hp]
    by_cases hr : routes p d = true
    · have hstep : State.connectChan s d =
          { s with bank := { s.bank with channels := s.bank.channels.set d ((s.chan d).connect (s.wantsOn (s.chan d).demand)) } } := by
        unfold State.connectChan; rw [if_pos (hroute.trans hr), putChan_idle hb]
      rw [List.foldl_cons, hstep]
      generalize hx : (s.chan d).connect (s.wantsOn (s.chan d).demand) = x
      obtain ⟨chans, h1, h2⟩ := connect_list p cs hn.2 ({ s with bank := { s.bank with channels := s.bank.channels.set d x } } : State) hb hp
      refine ⟨chans, h1, fun c => ?_⟩
      have hw : ∀ dm, ({ s with bank := { s.bank with channels := s.bank.channels.set d x } } : State).wantsOn dm = s.wantsOn dm := by
        intro dm; cases dm <;> rfl
      rw [h2, hw]
      have hg : ({ s with bank := { s.bank with channels := s.bank.channels.set d x } } : State).chan c = if d = c then x else s.chan c := by
        show (s.bank.channels.set d x).get c = _
        by_cases h : d = c
        · subst h; rw [if_pos rfl]; exact Tbl.get_set_self ..
        · rw [if_neg h]; exact Tbl.get_set_of_ne _ _ h
      rw [hg]
      by_cases h : d = c
      · subst h
        rw [if_neg (fun e => hn.1 e.1), if_pos rfl, if_pos ⟨List.mem_cons_self .., hr⟩, hx]
      · rw [if_neg h]
        have : (c ∈ d :: cs) ↔ c ∈ cs := by rw [List.mem_cons]; exact or_iff_right (fun e => h e.symm)
        simp only [this]
    · have hstep : State.connectChan s d = s := by
        unfold State.connectChan; rw [if_neg (by rw [hroute]; exact hr)]
      rw [List.foldl_cons, hstep]
      obtain ⟨chans, h1, h2⟩ := connect_list p cs hn.2 s hb hp
      refine ⟨chans, h1, fun c => ?_⟩
      rw [h2]
      by_cases h : d = c
      · subst h
        rw [if_neg (fun e => hn.1 e.1), if_neg (fun e => hr e.2)]
      · have : (c ∈ d :: cs) ↔ c ∈ cs := by rw [List.mem_cons]; exact or_iff_right (fun e => h e.symm)
        simp only [this]

theorem handed_bringUp (before : State) {b : BringUp} (hb : b.restart = b) (cs : List ChanId) : ∀ (x : State), x.det.bringUp = some b →
    (cs.foldl (State.handDemand before) x).det.bringUp = some b := by
  induction cs with
  | nil => intro x hx; exact hx
  | cons c cs ih =>
    intro x hx
    refine ih _ ?_
    unfold State.handDemand
    dsimp only
    split
    · exact hx
    · unfold State.putChan
      dsimp only
      split
      · show x.det.bringUp.map BringUp.restart = _
        rw [hx]; exact congrArg some hb
      · exact hx

theorem reMode_state (w on : Bool) (x : Channel) : (x.reMode w on).state = x.state := by
  unfold Channel.reMode
  split
  · split
    · exact Channel.switchTo_state on x
    · exact Channel.switchTo_state _ x
  · exact Channel.switchTo_state on x

/-- An OFF channel connected, then handed its demand where that differs from the one it holds. -/
theorem off_connected (rt on1 w on2 : Bool) (d : Demand) (ch x : Channel) (h : ch.state = .off)
    (hx : x = if rt = true then ch.connect on1 else ch) :
    ((if d = x.demand then x else x.acceptDemand rt w on2 d).state = .drive) ↔ (rt = true ∧ d ≠ .off) := by
  have hacc : ∀ y : Channel, y.state = .off ∨ (y.state = .drive ∧ rt = true) →
      ((y.acceptDemand rt w on2 d).state = .drive ↔ (rt = true ∧ d ≠ .off)) := by
    intro y hy
    unfold Channel.acceptDemand
    dsimp only
    rcases hy with hy | ⟨hy, hr⟩
    · rw [hy]
      dsimp only
      rw [takeDemand_state]
      split
      · rename_i e; exact Iff.intro (fun _ => e) (fun _ => rfl)
      · rename_i e; exact Iff.intro (fun h' => by simp at h') (fun h' => absurd h' e)
    · rw [hy]
      dsimp only
      split
      · rename_i e
        constructor
        · intro e'; simp [Channel.toOff] at e'
        · intro e'; exact absurd e e'.2
      · rename_i e
        rw [reMode_state]
        exact ⟨fun _ => ⟨hr, e⟩, fun _ => rfl⟩
  cases hr : rt with
  | false =>
    rw [hr, if_neg (by simp)] at hx
    subst hx
    split
    · rw [h]; simp
    · have := hacc x (Or.inl h)
      rw [hr] at this; exact this
  | true =>
    rw [hr, if_pos rfl] at hx
    have hs : x.state = if ch.demand ≠ .off then .drive else .off := by
      rw [hx]; unfold Channel.connect; dsimp only; rw [if_pos h, takeDemand_state]; simp
    have hd : x.demand = ch.demand := by
      rw [hx]; unfold Channel.connect; dsimp only; rw [if_pos h]; unfold Channel.takeDemand; split <;> simp [Channel.toDrive, Channel.toOff]
    split
    · rename_i e
      rw [hs, e, hd]
      split
      · rename_i e2; simp [e2]
      · rename_i e2; simp at e2; simp [e2]
    · have := hacc x (by rw [hs]; split; exact Or.inr ⟨rfl, hr⟩; exact Or.inl rfl)
      rw [hr] at this; exact this

end Sys2Proof.Machine
end

