-- ==== Sys2Proof/Laws/PerInstr.lean ====
section
/-! SUPPORT. What well-formedness says of each command, one lemma for each: the limits of chapter 10 and of R49 and R50 on
what the commands that come from outside carry, and no limit on any other. -/

namespace Sys2Proof.Laws.Wf

open Sys2Proof

/-- The limits on what a command carries, said as bounds: a frame on a link has an extended identifier or a standard one
of 11 bits (R179), and at most eight bytes (chapter 10), a voltage reads 0 to 40,000 mV and a current 0 to 25,000 mA in
steps of 10 (R49, R50), a temperature -40 to 200 degrees (R49), a single entry has four slots and a group entry one
(Table 1-4, R19), a trailer bus frame at most twelve bytes (R196). -/
def Limits : Instr → Prop
  | .requestArrival _ frame => (frame.extended = true ∨ frame.id < 2048) ∧ frame.data.length ≤ 8
  | .supplyReading mv => mv ≤ 40000 ∧ 10 ∣ mv
  | .backfeedCheck _ mv => mv ≤ 40000 ∧ 10 ∣ mv
  | .currentSample _ ma => ma ≤ 25000 ∧ 10 ∣ ma
  | .temperatureReading _ deg => -40 ≤ deg ∧ deg ≤ 200
  | .cacheAgeExpiry (.single _) k => k < 4
  | .cacheAgeExpiry (.group _) k => k = 0
  | .trailerBusFrameReceived bytes _ => bytes.length ≤ 12
  | _ => True

/-- A command is well formed exactly when what it carries keeps its limits. -/
def Statement (i : Instr) : Prop := i.wf = true ↔ Limits i

theorem readingFits_iff (top v : Nat) : readingFits top v = true ↔ v ≤ top ∧ 10 ∣ v := by
  simp [readingFits, Nat.dvd_iff_mod_eq_zero]

theorem powerOnReset (strap1 strap0 : Bool) :
    Statement (.powerOnReset strap1 strap0) := Iff.intro (fun _ => trivial) fun _ => rfl
theorem requestArrival (link : LinkId) (frame : CanFrame) :
    Statement (.requestArrival link frame) := by simp [Statement, Limits, Instr.wf, CanFrame.wf, Request.frameFits]
theorem malformedRequest (link : LinkId) :
    Statement (.malformedRequest link) := Iff.intro (fun _ => trivial) fun _ => rfl
theorem lightingSet (link : LinkId) : Statement (.lightingSet link) := Iff.intro (fun _ => trivial) fun _ => rfl
theorem channelStatus (link : LinkId) : Statement (.channelStatus link) := Iff.intro (fun _ => trivial) fun _ => rfl
theorem channelClear (link : LinkId) : Statement (.channelClear link) := Iff.intro (fun _ => trivial) fun _ => rfl
theorem tripRecordRead (link : LinkId) : Statement (.tripRecordRead link) := Iff.intro (fun _ => trivial) fun _ => rfl
theorem functionRead (link : LinkId) : Statement (.functionRead link) := Iff.intro (fun _ => trivial) fun _ => rfl
theorem functionWrite (link : LinkId) : Statement (.functionWrite link) := Iff.intro (fun _ => trivial) fun _ => rfl
theorem watch (link : LinkId) : Statement (.watch link) := Iff.intro (fun _ => trivial) fun _ => rfl
theorem directoryQuery (link : LinkId) : Statement (.directoryQuery link) := Iff.intro (fun _ => trivial) fun _ => rfl
theorem positionRead (link : LinkId) : Statement (.positionRead link) := Iff.intro (fun _ => trivial) fun _ => rfl
theorem nodeRead (link : LinkId) : Statement (.nodeRead link) := Iff.intro (fun _ => trivial) fun _ => rfl
theorem pin (link : LinkId) : Statement (.pin link) := Iff.intro (fun _ => trivial) fun _ => rfl
theorem quarantine (link : LinkId) : Statement (.quarantine link) := Iff.intro (fun _ => trivial) fun _ => rfl
theorem relearn (link : LinkId) : Statement (.relearn link) := Iff.intro (fun _ => trivial) fun _ => rfl
theorem mapRebuild (link : LinkId) : Statement (.mapRebuild link) := Iff.intro (fun _ => trivial) fun _ => rfl
theorem profileForce (link : LinkId) : Statement (.profileForce link) := Iff.intro (fun _ => trivial) fun _ => rfl
theorem freshnessSet (link : LinkId) : Statement (.freshnessSet link) := Iff.intro (fun _ => trivial) fun _ => rfl
theorem workshopGrant (link : LinkId) : Statement (.workshopGrant link) := Iff.intro (fun _ => trivial) fun _ => rfl
theorem eventExchange (link : LinkId) : Statement (.eventExchange link) := Iff.intro (fun _ => trivial) fun _ => rfl
theorem interestSet (link : LinkId) : Statement (.interestSet link) := Iff.intro (fun _ => trivial) fun _ => rfl
theorem canFrameTransmitted (link : LinkId) :
    Statement (.canFrameTransmitted link) := Iff.intro (fun _ => trivial) fun _ => rfl
theorem canTransmitError (link : LinkId) :
    Statement (.canTransmitError link) := Iff.intro (fun _ => trivial) fun _ => rfl
theorem busOffRecovery (link : LinkId) : Statement (.busOffRecovery link) := Iff.intro (fun _ => trivial) fun _ => rfl
theorem silenceTimeout (link : LinkId) : Statement (.silenceTimeout link) := Iff.intro (fun _ => trivial) fun _ => rfl
theorem codeSample (ka kb : Nat) : Statement (.codeSample ka kb) := Iff.intro (fun _ => trivial) fun _ => rfl
theorem position1DebounceExpiry : Statement .position1DebounceExpiry := Iff.intro (fun _ => trivial) fun _ => rfl
theorem supplyReading (millivolts : Nat) : Statement (.supplyReading millivolts) := readingFits_iff _ _
theorem temperatureReading (channel : ChanId) (degrees : Int) :
    Statement (.temperatureReading channel degrees) := by simp [Statement, Limits, Instr.wf]
theorem currentSample (channel : ChanId) (milliamps : Nat) :
    Statement (.currentSample channel milliamps) := readingFits_iff _ _
theorem tripCooldownExpiry (channel : ChanId) :
    Statement (.tripCooldownExpiry channel) := Iff.intro (fun _ => trivial) fun _ => rfl
theorem streakTimerExpiry (channel : ChanId) :
    Statement (.streakTimerExpiry channel) := Iff.intro (fun _ => trivial) fun _ => rfl
theorem turnFlasherPhaseEnd : Statement .turnFlasherPhaseEnd := Iff.intro (fun _ => trivial) fun _ => rfl
theorem emergencyFlasherPhaseEnd : Statement .emergencyFlasherPhaseEnd := Iff.intro (fun _ => trivial) fun _ => rfl
theorem pwmPhaseEnd (channel : ChanId) : Statement (.pwmPhaseEnd channel) := Iff.intro (fun _ => trivial) fun _ => rfl
theorem backfeedCheck (channel : ChanId) (millivolts : Nat) :
    Statement (.backfeedCheck channel millivolts) := readingFits_iff _ _
theorem checkWindowComplete (channel : ChanId) :
    Statement (.checkWindowComplete channel) := Iff.intro (fun _ => trivial) fun _ => rfl
theorem probeGapEnd : Statement .probeGapEnd := Iff.intro (fun _ => trivial) fun _ => rfl
theorem probeAttemptComplete : Statement .probeAttemptComplete := Iff.intro (fun _ => trivial) fun _ => rfl
theorem probeLimitExpiry : Statement .probeLimitExpiry := Iff.intro (fun _ => trivial) fun _ => rfl
theorem settledOnlyComplete : Statement .settledOnlyComplete := Iff.intro (fun _ => trivial) fun _ => rfl
theorem poweringCountExpiry : Statement .poweringCountExpiry := Iff.intro (fun _ => trivial) fun _ => rfl
theorem coupledSecondTick (pos : Pos) : Statement (.coupledSecondTick pos) := Iff.intro (fun _ => trivial) fun _ => rfl
theorem cacheAgeExpiry (entry : EntryRef) (slot : Nat) :
    Statement (.cacheAgeExpiry entry slot) := by
  cases entry <;> simp [Statement, Limits, Instr.wf]
theorem pollTimerExpiry (pos : Pos) : Statement (.pollTimerExpiry pos) := Iff.intro (fun _ => trivial) fun _ => rfl
theorem trailerBusFrameReceived (frame : List Byte) (arbiterFirst : Bool) :
    Statement (.trailerBusFrameReceived frame arbiterFirst) := by simp [Statement, Limits, Instr.wf]
theorem responseTimeout : Statement .responseTimeout := Iff.intro (fun _ => trivial) fun _ => rfl
theorem broadcastSent : Statement .broadcastSent := Iff.intro (fun _ => trivial) fun _ => rfl

end Sys2Proof.Laws.Wf
end

