-- ==== Sys2Proof/Laws/Probes.lean ====
section
/-! SUPPORT. Probe requests: that an attempt begun, a request tested again, an attempt abandoned and a request struck do
what the statements say of them (R62, R64 to R66). -/

namespace Sys2Proof.Machine

/-- An attempt can begin exactly where nothing holds it back (R64). -/
theorem canProbe_iff (s : State) (c : ChanId) : s.canProbe c = true ↔ ¬s.probeHeld c := by
  unfold State.canProbe State.probeHeld
  dsimp only
  generalize s.chan c = ch
  by_cases h2 : c = 2 <;> by_cases hd : ch.demand = .off <;> cases ch.derated <;> cases s.bank.supplyInside <;>
    cases ch.state <;> simp [h2, hd]

theorem putChan_lamp (s : State) (l : LampId) (ch : Channel) :
    s.putChan (lampChan l) ch = { s with bank := { s.bank with channels := s.bank.channels.set (lampChan l) ch } } := by
  unfold State.putChan
  rw [if_neg fun h => lampChan_ne l h.1]

/-- PROBE_GAP and PROBE_ON as an attempt enters them. -/
theorem toGap_facts (ch : Channel) : ch.toGap.state = .probeGap ∧ ch.toGap.output = false ∧ ch.toGap.demand = ch.demand ∧
    ch.toGap.held = ch.held ∧ ch.Switched ch.toGap :=
  ⟨rfl, by unfold Channel.toGap; simp, by unfold Channel.toGap; simp,
    by unfold Channel.toGap; rw [enter_held, switchTo_held], switched_toGap ch⟩

/-- An attempt begun (R62). -/
theorem attemptBegun_beginAttempt (s : State) (q : Probe) : AttemptBegun s (s.beginAttempt q) q := by
  unfold AttemptBegun
  dsimp only
  have hput : ∀ x : Channel, let p : Probe := { q with phase := .attempt, inrush := 0, samples := [], gap := 0, armed := false };
      let t := (s.setProbe (some p)).putChan (lampChan q.lamp) x;
      t = { s with bank := { s.bank with probe := some p, channels := t.bank.channels } } ∧
        (∀ d, d ≠ lampChan q.lamp → t.chan d = s.chan d) ∧ t.chan (lampChan q.lamp) = x := fun x => by
    dsimp only
    refine ⟨?_, fun d hd => (State.chan_putChan ..).trans (if_neg fun h => hd h.symm), State.chan_putChan_self ..⟩
    rw [putChan_lamp]; rfl
  have hon := toProbeOn_facts (s.chan (lampChan q.lamp))
  have hgap := toGap_facts (s.chan (lampChan q.lamp))
  have hson := switched_toProbeOn (s.chan (lampChan q.lamp))
  unfold State.beginAttempt
  dsimp only
  generalize hp : ({ q with phase := .attempt, inrush := 0, samples := [], gap := 0, armed := false } : Probe) = p at *
  cases hs : (s.chan (lampChan q.lamp)).state <;> dsimp only
  case off =>
    obtain ⟨a, b, c⟩ := hput (if Config.blanking ≤ (s.chan (lampChan q.lamp)).sinceOff then (s.chan (lampChan q.lamp)).toProbeOn
      else (s.chan (lampChan q.lamp)).toGap)
    refine ⟨a, b, fun _ h => ?_, fun _ h => ?_, fun h => ?_, fun h => ?_, fun h => ?_⟩
    · rw [c, if_pos (show Config.blanking ≤ _ from h)]
      exact ⟨hon.1, hon.2.1, hon.2.2.1, hon.2.2.2.1, hson⟩
    · rw [c, if_neg (show ¬Config.blanking ≤ _ from Nat.not_le.mpr h)]
      exact hgap
    all_goals first | (cases h.1) | (cases h)
  case drive =>
    obtain ⟨a, b, c⟩ := hput (s.chan (lampChan q.lamp)).toGap
    have hw : (s.setProbe (some p)).wantsOn (s.chan (lampChan q.lamp)).demand = s.wantsOn (s.chan (lampChan q.lamp)).demand := by
      cases (s.chan (lampChan q.lamp)).demand <;> rfl
    have flashes : ∀ d, (s.chan (lampChan q.lamp)).demand = d → d = .flashTurn ∨ d = .flashEmergency →
        (s.wantsOn d = true → AttemptBegun s (s.setProbe (some p)) q) ∧
        (s.wantsOn d = false → AttemptBegun s ((s.setProbe (some p)).putChan (lampChan q.lamp) (s.chan (lampChan q.lamp)).toGap) q) := by
      intro d hd hf
      unfold AttemptBegun
      dsimp only
      rw [hp, hs, hd]
      have hns : d ≠ .steady := by rcases hf with rfl | rfl <;> simp
      refine ⟨fun hx => ⟨rfl, fun _ _ => rfl, fun h => ?_, fun h => ?_, fun _ h => absurd h hns, fun _ h => ?_, fun _ _ => rfl⟩,
        fun hx => ⟨a, b, fun h => ?_, fun h => ?_, fun _ h => absurd h hns, fun _ _ => ?_, fun _ h => ?_⟩⟩
      · cases h
      · cases h
      · rw [hx] at h; cases h
      · cases h
      · cases h
      · rw [c, ← hd]; exact hgap
      · rw [hx] at h; cases h
    unfold AttemptBegun at flashes
    dsimp only at flashes
    rw [hp, hs] at flashes
    cases hd : (s.chan (lampChan q.lamp)).demand <;> dsimp only
    case off =>
      refine ⟨a, b, fun h => ?_, fun h => ?_, fun _ h => ?_, fun h => ?_, fun h => ?_⟩
      · cases h
      · cases h
      · cases h
      · rcases h.2 with h | h <;> cases h
      · rcases h.2 with h | h <;> cases h
    case steady =>
      refine ⟨a, b, fun h => ?_, fun h => ?_, fun _ _ => ?_, fun h => ?_, fun h => ?_⟩
      · cases h
      · cases h
      · rw [c, ← hd]; exact hgap
      · rcases h.2 with h | h <;> cases h
      · rcases h.2 with h | h <;> cases h
    all_goals
      rw [hd] at hw flashes
      split
      · rename_i hx
        exact (flashes _ rfl (by simp)).1 (hw.symm.trans hx)
      · rename_i hx
        exact (flashes _ rfl (by simp)).2 (by rw [hw] at hx; simpa using hx)
  all_goals
    refine ⟨rfl, fun _ _ => rfl, fun h => ?_, fun h => ?_, fun h => ?_, fun h => ?_, fun h => ?_⟩
    all_goals first | (cases h.1) | (cases h)

/-- A request tested again (R64). -/
theorem probeTested_testProbe {s : State} {q : Probe} (h : s.bank.probe = some q) : ProbeTested s s.testProbe q := by
  unfold State.testProbe
  rw [h]
  dsimp only
  refine ⟨fun h1 h2 => ?_, fun h1 => ?_⟩
  · rw [if_pos ⟨h1, (canProbe_iff ..).mpr h2⟩]
    exact attemptBegun_beginAttempt s q
  · rw [if_neg]
    rintro ⟨h2, h3⟩
    rcases h1 with h1 | h1
    · exact h1 h2
    · exact (canProbe_iff ..).mp h3 h1

/-- A test reaches no link. -/
theorem links_testProbe (s : State) : s.testProbe.links = s.links := by
  cases h : s.bank.probe with
  | some q => exact (testProbe_facts s q h).2.1
  | none => unfold State.testProbe; rw [h]

/-- A request ended with FAILED (R74 (3)). -/
theorem probeFailed_handOutcome (s : State) {q q' : Probe} (hp : q'.pos = q.pos) (hl : q'.lamp = q.lamp) :
    ProbeFailed s (s.handOutcome q' .failed) q := by
  have h := handOutcome_facts s q' .failed
  dsimp only at h
  rw [hp, hl] at h
  refine ⟨⟨h.1, h.2.1, h.2.2.1, h.2.2.2.1⟩, ?_, louder_handOutcome s q' .failed⟩
  rw [← hl]
  exact chan_handOutcome s q' .failed

theorem steadyFor_iff (s : State) (q : Probe) : s.settledOnlyFits (lampChan q.lamp) = true ↔ s.steadyFor q := by
  have hl : lampChan q.lamp = 2 ↔ q.lamp = 2 := (by decide : ∀ x : LampId, lampChan x = 2 ↔ x = 2) q.lamp
  unfold State.settledOnlyFits State.steadyFor
  simp only [← hl, Bool.and_eq_true, decide_eq_true_eq, Bool.or_eq_true, Bool.not_eq_true', and_assoc]

/-- A request past its limit resolved (R65). -/
theorem probeResolved_resolveExpired (s : State) (q : Probe) : ProbeResolved s (s.resolveExpired q) q := by
  unfold State.resolveExpired
  dsimp only
  refine ⟨fun hs => if_pos ((steadyFor_iff s q).mpr hs), fun hs => ?_⟩
  rw [if_neg fun a => hs ((steadyFor_iff s q).mp a)]
  exact probeFailed_handOutcome s rfl rfl

/-- An attempt in progress abandoned (R66). -/
theorem attemptAbandoned_abandonAttempt (s : State) (q : Probe) : AttemptAbandoned s (s.abandonAttempt q) q := by
  have end_ : ∀ (q' : Probe) (v : State), v.bank.probe = some q' →
      (q.expired = false → ProbeTested v (if q.expired = true then v.resolveExpired q' else v.testProbe) q') ∧
      (q.expired = true → ProbeResolved v (if q.expired = true then v.resolveExpired q' else v.testProbe) q') :=
    fun q' v hv => by
      refine ⟨fun h => ?_, fun h => ?_⟩
      · rw [if_neg (by rw [h]; simp)]; exact probeTested_testProbe hv
      · rw [if_pos h]; exact probeResolved_resolveExpired v q'
  by_cases hpr : (s.chan (lampChan q.lamp)).state = .probeGap ∨ (s.chan (lampChan q.lamp)).state = .probeOn
  · refine ⟨_, fun _ => took_takeDemand .., fun h => absurd hpr h, ?_⟩
    have e : s.abandonAttempt q = (if q.expired = true then
        ((s.setProbe (some { q with phase := .postponed, samples := [] })).takeDemand (lampChan q.lamp)).resolveExpired
          { q with phase := .postponed, samples := [] }
      else ((s.setProbe (some { q with phase := .postponed, samples := [] })).takeDemand (lampChan q.lamp)).testProbe) := by
      unfold State.abandonAttempt
      exact congrArg (fun v : State => if q.expired = true then v.resolveExpired { q with phase := .postponed, samples := [] } else v.testProbe) (if_pos hpr)
    rw [e]
    exact end_ _ _ rfl
  · refine ⟨_, fun h => absurd h hpr, fun _ => rfl, ?_⟩
    have e : s.abandonAttempt q = (if q.expired = true then
        (s.setProbe (some { q with phase := .postponed, samples := [] })).resolveExpired { q with phase := .postponed, samples := [] }
      else (s.setProbe (some { q with phase := .postponed, samples := [] })).testProbe) := by
      unfold State.abandonAttempt
      exact congrArg (fun v : State => if q.expired = true then v.resolveExpired { q with phase := .postponed, samples := [] } else v.testProbe) (if_neg hpr)
    rw [e]
    have : (s.setProbe (some { q with phase := .postponed, samples := [] })).putChan (lampChan q.lamp) (s.chan (lampChan q.lamp)) =
      s.setProbe (some { q with phase := .postponed, samples := [] }) := putChan_same _ _ (lampChan_ne _)
    rw [this]
    exact end_ _ _ rfl

/-- An event that ends measurement strikes the request held (R64 to R66). -/
theorem probeStruck_disturbProbe {s : State} {q : Probe} (h : s.bank.probe = some q) : ProbeStruck s s.disturbProbe q := by
  unfold State.disturbProbe
  rw [h]
  dsimp only
  refine ⟨fun hp => ?_, fun hp => ?_, fun hp => ?_⟩ <;> rw [hp]
  · exact probeTested_testProbe h
  · exact attemptAbandoned_abandonAttempt s q
  · exact probeFailed_handOutcome s rfl rfl

end Sys2Proof.Machine
end

