-- ==== Sys2Proof/Laws/Ready.lean ====
section
/-! SUPPORT. The last outcome of a measurement: becoming ready (R128), and the commit of a relearn (R137). -/

namespace Sys2Proof.Machine

/-! ## What the last outcome leaves -/

theorem mem_later (l j : LampId) : j ∈ allLamps.drop (l.val + 1) ↔ l < j := by revert l j; decide

theorem setPos_same (s : State) (p : Pos) : s.setPos p (s.pos p) = s := by
  unfold State.setPos State.pos
  have : s.map.positions.set (posIdx p) (s.map.positions.get (posIdx p)) = s.map.positions := by
    unfold Tbl.set Tbl.get; simp
  rw [this]

/-- The records of unrouted lamp channels, all written alike (R39). -/
theorem fold_put (p : Pos) : ∀ (ls : List LampId) (s : State),
    ls.foldl (fun s l => s.modPos p (PosRec.putContribution l {})) s = s.setPos p
      (if (s.pos p).relearn then { s.pos p with shadow := ls.foldl (fun t l => t.set l {}) (s.pos p).shadow }
        else { s.pos p with contrib := ls.foldl (fun t l => t.set l {}) (s.pos p).contrib })
  | [], s => by
    simp only [List.foldl_nil]
    rw [ite_self]
    exact (setPos_same s p).symm
  | l :: ls, s => by
    rw [List.foldl_cons, fold_put p ls, List.foldl_cons, List.foldl_cons]
    have h1 : (s.modPos p (PosRec.putContribution l {})).pos p = (s.pos p).putContribution l {} := by
      unfold State.modPos; exact pos_setPos ..
    rw [h1]
    unfold State.modPos
    rw [setPos_setPos]
    congr 1
    unfold PosRec.putContribution
    by_cases h : (s.pos p).relearn = true
    · rw [if_pos h, if_pos h, if_pos h]
    · rw [if_neg h, if_neg h, if_neg h]

/-- With every channel left unrouted the measuring ends at once (R39, R127). -/
theorem measure_unrouted (p : Pos) : ∀ (ls : List LampId) (s : State), (∀ l ∈ ls, s.routed (lampChan l) = false) →
    State.measure p ls s = (ls.foldl (fun s l => s.modPos p (PosRec.putContribution l {})) s).endMeasuring p
  | [], s, _ => rfl
  | l :: ls, s, h => by
    unfold State.measure
    rw [if_pos (h l List.mem_cons_self), List.foldl_cons]
    exact measure_unrouted p ls _ fun x hx => h x (List.mem_cons_of_mem _ hx)

/-- Records of later channels that were never measured, and of earlier ones that stand. -/
def Learned (l : LampId) (was now : Tbl Contribution 10) : Prop :=
  (∀ j, l < j → now.get j = {}) ∧ ∀ j, j < l → now.get j = was.get j

/-- The last outcome of a measurement, up to what ends it. -/
theorem handOutcome_last (x : State) (q : Probe) (o : ProbeOutcome) (h : ∀ l, q.lamp < l → x.routed (lampChan l) = false) :
    ∃ C : State, x.handOutcome q o = C.endMeasuring q.pos ∧ (∀ p, p ≠ q.pos → C.pos p = x.pos p) ∧
      C.load = x.load ∧ C.light = x.light ∧ C.bus = x.bus ∧ C.bank.probe = none ∧
      C.map.singles = x.map.singles ∧ C.map.groups = x.map.groups ∧ LinksGrow x C ∧
      ((x.pos q.pos).relearn = false → C.det = x.det ∧ ∃ contrib, Learned q.lamp (x.pos q.pos).contrib contrib ∧
        C.pos q.pos = (if o.incomplete then ({ x.pos q.pos with contrib := contrib } : PosRec).addReason .probeIncomplete
          else { x.pos q.pos with contrib := contrib })) ∧
      ((x.pos q.pos).relearn = true →
        C.det = (if o.incomplete then { x.det with relearn := x.det.relearn.map fun y => { y with incomplete := true } } else x.det) ∧
        ∃ shadow, Learned q.lamp (x.pos q.pos).shadow shadow ∧ C.pos q.pos = { x.pos q.pos with shadow := shadow }) := by
  generalize hr : learn o ((x.setProbe none).eBefore q.pos q.lamp) ((x.setProbe none).pBefore q.pos q.lamp) = r
  generalize hA : (x.setProbe none).learnFor q.pos q.lamp o = A
  have hAm : A.map = ((x.setProbe none).modPos q.pos (PosRec.putContribution q.lamp r)).map := by
    rw [← hA, ← hr]; unfold State.learnFor; dsimp only; split <;> rfl
  have hAq : A.pos q.pos = (x.pos q.pos).putContribution q.lamp r := by
    rw [State.pos_of_map hAm, State.pos_modPos, if_pos rfl]; rfl
  have hAo : ∀ p, p ≠ q.pos → A.pos p = x.pos p := fun p hp => by
    rw [State.pos_of_map hAm, State.pos_modPos, if_neg (Ne.symm hp)]; rfl
  have hAr : A.load = x.load ∧ A.light = x.light ∧ A.bus = x.bus ∧ A.det = x.det ∧ A.bank.probe = none ∧ A.matrix = x.matrix := by
    rw [← hA]; unfold State.learnFor; dsimp only; split <;> exact ⟨rfl, rfl, rfl, rfl, rfl, rfl⟩
  have hAl : LinksGrow x A := by
    rw [← hA]; unfold State.learnFor; dsimp only; split
    · exact (LinksGrow.of_links (t := (x.setProbe none).modPos q.pos _) rfl).trans (linksGrow_raiseFor _ _ _)
    · exact LinksGrow.of_links rfl
  have hArl : (A.pos q.pos).relearn = (x.pos q.pos).relearn := by rw [hAq]; unfold PosRec.putContribution; split <;> rfl
  generalize hB : A.noteOutcome q.pos o = B
  have hBq : B.pos q.pos = if o.incomplete = true ∧ (x.pos q.pos).relearn = false then (A.pos q.pos).addReason .probeIncomplete else A.pos q.pos := by
    rw [← hB]
    unfold State.noteOutcome
    rw [hArl]
    by_cases h1 : o.incomplete = true
    · rw [if_pos h1]
      by_cases h2 : (x.pos q.pos).relearn = true
      · rw [if_pos h2, if_neg (by rw [h2]; simp)]; rfl
      · rw [if_neg h2, if_pos ⟨h1, by simpa using h2⟩]
        unfold State.addReason; rw [State.pos_modPos, if_pos rfl]
    · rw [if_neg h1, if_neg (fun e => h1 e.1)]
  have hBo : ∀ p, p ≠ q.pos → B.pos p = A.pos p := fun p hp => by
    rw [← hB]; unfold State.noteOutcome; split
    · split
      · rfl
      · unfold State.addReason; rw [State.pos_modPos, if_neg (Ne.symm hp)]
    · rfl
  have hBr : B.load = A.load ∧ B.light = A.light ∧ B.bus = A.bus ∧ B.bank = A.bank ∧ B.matrix = A.matrix ∧ B.links = A.links ∧
      B.map.singles = A.map.singles ∧ B.map.groups = A.map.groups := by
    rw [← hB]; unfold State.noteOutcome; split
    · split <;> exact ⟨rfl, rfl, rfl, rfl, rfl, rfl, rfl, rfl⟩
    · exact ⟨rfl, rfl, rfl, rfl, rfl, rfl, rfl, rfl⟩
  have hBd : B.det = if o.incomplete = true ∧ (x.pos q.pos).relearn = true then
      { A.det with relearn := A.det.relearn.map fun y => { y with incomplete := true } } else A.det := by
    rw [← hB]; unfold State.noteOutcome
    rw [hArl]
    by_cases h1 : o.incomplete = true
    · rw [if_pos h1]
      by_cases h2 : (x.pos q.pos).relearn = true
      · rw [if_pos h2, if_pos ⟨h1, h2⟩]
      · rw [if_neg h2, if_neg (fun e => h2 e.2)]; rfl
    · rw [if_neg h1, if_neg (fun e => h1 e.1)]
  have hex : x.handOutcome q o = State.measure q.pos (allLamps.drop (q.lamp.val + 1)) B := by rw [← hB, ← hA]; rfl
  rw [measure_unrouted _ _ _ (fun l hl => by
    have := h l ((mem_later q.lamp l).mp hl)
    unfold State.routed at this ⊢
    rw [hBr.2.2.2.2.1, hAr.2.2.2.2.2]; exact this), fold_put] at hex
  have hput : ∀ t : Tbl Contribution 10, Learned q.lamp t ((allLamps.drop (q.lamp.val + 1)).foldl (fun t l => t.set l {}) (t.set q.lamp r)) := by
    intro t
    refine ⟨fun j hj => ?_, fun j hj => ?_⟩
    · rw [fold_set_get (fun _ => ({} : Contribution)), if_pos ((mem_later ..).mpr hj)]
    · rw [fold_set_get (fun _ => ({} : Contribution)), if_neg (fun e => absurd ((mem_later ..).mp e) (Nat.lt_asymm hj)),
        Tbl.get_set_of_ne _ _ (fun e => by rw [e] at hj; exact Nat.lt_irrefl _ hj)]
  have hrl : (B.pos q.pos).relearn = (x.pos q.pos).relearn := by
    rw [hBq]; split
    · exact hArl
    · exact hArl
  refine ⟨_, hex, fun p hp => ?_, hBr.1.trans hAr.1, hBr.2.1.trans hAr.2.1, hBr.2.2.1.trans hAr.2.2.1, ?_, ?_, ?_, ?_, fun hf => ⟨?_, ?_⟩, fun ht => ⟨?_, ?_⟩⟩
  · rw [show (B.setPos q.pos _).pos p = (B.modPos q.pos fun _ => _).pos p from rfl, State.pos_modPos, if_neg (Ne.symm hp), hBo p hp, hAo p hp]
  · show B.bank.probe = none
    rw [hBr.2.2.2.1]; exact hAr.2.2.2.2.1
  · show B.map.singles = _
    rw [hBr.2.2.2.2.2.2.1, hAm]; rfl
  · show B.map.groups = _
    rw [hBr.2.2.2.2.2.2.2, hAm]; rfl
  · exact hAl.trans (LinksGrow.of_links hBr.2.2.2.2.2.1)
  · show B.det = _
    rw [hBd, if_neg (by rw [hf]; simp), hAr.2.2.2.1]
  · rw [pos_setPos, if_neg (by rw [hrl, hf]; simp), hBq]
    have hAq' : A.pos q.pos = { x.pos q.pos with contrib := (x.pos q.pos).contrib.set q.lamp r } := by
      rw [hAq]; unfold PosRec.putContribution; rw [if_neg (by rw [hf]; simp)]
    by_cases h1 : o.incomplete = true
    · rw [if_pos ⟨h1, hf⟩, hAq']
      exact ⟨_, hput (x.pos q.pos).contrib, by rw [if_pos h1]; rfl⟩
    · rw [if_neg (fun e => h1 e.1), hAq']
      exact ⟨_, hput (x.pos q.pos).contrib, by rw [if_neg h1]⟩
  · show B.det = _
    rw [hBd, hAr.2.2.2.1]
    by_cases h1 : o.incomplete = true
    · rw [if_pos ⟨h1, ht⟩, if_pos h1]
    · rw [if_neg (fun e => h1 e.1), if_neg h1]
  · rw [pos_setPos, if_pos (by rw [hrl, ht]), hBq, if_neg (by rw [ht]; simp)]
    have hAq' : A.pos q.pos = { x.pos q.pos with shadow := (x.pos q.pos).shadow.set q.lamp r } := by
      rw [hAq]; unfold PosRec.putContribution; rw [if_pos ht]
    rw [hAq']
    exact ⟨_, hput (x.pos q.pos).shadow, rfl⟩

theorem told_after_grow {s t u : State} {k : EventKind} (g : LinksGrow s t) (h : t.told u k) : s.told u k := by
  intro l m hm hi
  rcases g l with ⟨g1, -⟩ | ⟨x, x', g1, g2, g3, -⟩
  · rw [hm] at g1; cases g1
  · rw [hm] at g1; cases g1
    exact h l x' g2 (by rw [g3.1]; exact hi)

/-- The expected currents formed and every verdict reset (R76, R87, R154). -/
theorem judged_facts (A : State) (hf : A.flashLaw = true) :
    let J := A.formExpected.resetVerdicts allLamps
    (∀ l, J.load.verdicts.get l = {}) ∧ J.light.fast = false ∧
    (∀ l, J.load.expected.get l = ((allPos.filter fun x => A.ready x).map fun x => ((A.pos x).contrib.get l).settled).sum) ∧
    ((∃ l, (A.load.verdicts.get l).kind ≠ .unchecked) → A.told J .lampVerdict) ∧
    J.bank = A.bank ∧ J.map = A.map ∧ J.det = A.det ∧ J.bus = A.bus ∧ LinksGrow A J := by
  intro J
  obtain ⟨h1, h2, h3, h4⟩ := resetVerdicts_facts A.formExpected allLamps
  have h4' : A.heard J (fun _ => []) fun _ k => k = .lampVerdict ∧ ∃ l ∈ allLamps, (A.load.verdicts.get l).kind ≠ .unchecked := h4
  have hv : ∀ l, J.load.verdicts.get l = {} := fun l => (h2 l).trans (if_pos (mem_allLamps l))
  refine ⟨hv, ?_, fun l => ?_, fun h => ?_, by rw [show J = _ from h1]; rfl, by rw [show J = _ from h1]; rfl,
    by rw [show J = _ from h1]; rfl, by rw [show J = _ from h1]; rfl, grow_of_heard h4'⟩
  · have h5 := h3 hf
    unfold State.flashLaw at h5
    rw [show (A.formExpected.resetVerdicts allLamps).load.verdicts.get 0 = {} from hv 0,
      show (A.formExpected.resetVerdicts allLamps).load.verdicts.get 1 = {} from hv 1] at h5
    simp only [Bool.and_eq_true, decide_eq_true_eq] at h5
    obtain ⟨⟨k0, k1⟩, k2⟩ := h5
    show (A.formExpected.resetVerdicts allLamps).light.fast = false
    rw [k2, k0, k1]; decide
  · rw [show J = _ from h1]
    exact formExpected_get A l
  · obtain ⟨l, hl⟩ := h
    exact told_of_heard h4' fun _ => ⟨rfl, l, mem_allLamps l, hl⟩

end Sys2Proof.Machine
end

