-- ==== Sys2Proof/Tests/Slice0.lean ====
section
/-! SUPPORT. The model's own tests: ill-formed commands, worked figures of the spec, one or two effects of a command, and
for every statement with hypotheses a state and operands that meet them. -/

namespace Sys2Proof.Tests

open Machine

/-! ## States and readings -/

/-- Right after reset: BODY on link a, BRAKE on b, SERVICE on c. -/
def fresh : State := State.reset

/-- Right after reset with a BENCH link alone. -/
def bench : State := State.resetWith true true

/-- A slot of a node, cached and GOOD. -/
def slotOf (kind : FunKind) (access : Access) (number : Nat) : Slot :=
  { kind := kind, inst := 0, access := access, rangeMin := 0, rangeMax := 100, unit := .count, number := some number,
    cache := [5], age := 10, quality := .good }

/-- A node with a sensor 16, an actuator 17 and a setting 18. -/
def node : Entry :=
  { live := true, nodeId := 0x10, addr := 1, run := 0, pos := .p1, kind := .genericSensor, used := false,
    slots := [slotOf .bodyTemp .sensor 16, slotOf .tailLift .actuator 17, slotOf .refrigSetpoint .setting 18] }

/-- A chain repeater. -/
def rep : Entry := { live := true, nodeId := 0x20, addr := 2, run := 0, pos := .p1, kind := .repeater, used := false }

/-- Position 1 online under profile L, with the node, and the repeater polled on a closed segment. -/
def coupled : State :=
  let s := { fresh with
    matrix := { fresh.matrix with active := .l, kaGrounded := true, kbGrounded := true }
    det := { fresh.det with effective := .l, watches := fresh.det.watches.set 0 (some { closed := true }) }
    bus := { fresh.bus with polls := fresh.bus.polls.set 0 (some 0) } }
  ((s.setEntry (.single 0) (some node)).setEntry (.single 1) (some rep)).setPos .p1
    { state := .online, singles := [0, 1], repeater := some 1 }

/-- A request frame with tag 7. -/
def frameOf (r : Request) : List Byte := requestFrame 7 r

/-- A request at the head of a link's queue. -/
def asks (s : State) (l : LinkId) (r : Request) : State := s.modLink l fun m => { m with queue := [frameOf r] }

/-- The unit that then stands at the link. -/
def asker (role : LinkRole) (r : Request) : Mlu := { role := role, queue := [frameOf r] }

/-- The head can be taken. -/
def headOk (s : State) (l : LinkId) (role : LinkRole) (r : Request) : Bool :=
  decide ((asks s l r).link l = some (asker role r) ∧ parseRequest (frameOf r) = some r ∧
    (asks s l r).interlocked l r = false ∧ (reqKind r).room ≤ (asks s l r).freeRoom l (asker role r))

/-- The head of a link asked, as the statements say it. -/
abbrev HeadAt (s : State) (l : LinkId) (role : LinkRole) (r : Request) : Prop :=
  Head (asks s l r) l (asker role r) (frameOf r) [] r

theorem headAt {s : State} {l : LinkId} {role : LinkRole} {r : Request} (h : headOk s l role r = true) :
    HeadAt s l role r := by
  obtain ⟨h1, h2, h3, h4⟩ := of_decide_eq_true h
  exact ⟨h1, rfl, rfl, h2, h3, h4⟩

/-- The state a command leaves. -/
def after (c : Instr) (s : State) : State :=
  match exec c s with
  | .next t => t
  | .fault _ | .refused _ => s

/-- The frames a link holds after a command. -/
def sentBy (c : Instr) (s : State) (l : LinkId) : List (List Byte) :=
  (((after c s).link l).map fun m => m.buffer.map fun f => f.data).getD []

/-! ## Ill-formed commands -/

theorem test_illformed_request_of_nine_bytes :
    (Instr.requestArrival .a { id := 0x6A0, data := [1, 2, 3, 4, 5, 6, 7, 8, 9] }).wf = false := by decide
theorem test_illformed_identifier : (Instr.requestArrival .a { id := 0x800, data := [5, 1] }).wf = false := by decide
theorem test_illformed_supply_off_the_step : (Instr.supplyReading 20005).wf = false := by decide
theorem test_illformed_supply_too_high : (Instr.supplyReading 40010).wf = false := by decide
theorem test_illformed_temperature : (Instr.temperatureReading 0 201).wf = false := by decide
theorem test_illformed_current : (Instr.currentSample 0 25010).wf = false := by decide
theorem test_illformed_backfeed : (Instr.backfeedCheck 0 40010).wf = false := by decide
theorem test_illformed_single_slot : (Instr.cacheAgeExpiry (.single 0) 4).wf = false := by decide
theorem test_illformed_group_slot : (Instr.cacheAgeExpiry (.group 0) 1).wf = false := by decide
theorem test_illformed_bus_frame : (Instr.trailerBusFrameReceived (List.replicate 13 0) false).wf = false := by decide
theorem test_illformed_query_start : (Request.directoryQuery none none none false 15).wf = false := by decide
theorem test_illformed_query_instance : (Request.directoryQuery none none (some 16) false 16).wf = false := by decide

/-! ## Figures of the spec -/

theorem test_no_row_has_bits : decodeTableWord 16 0 = none := by decide
theorem test_crc_of_zero : crc8 [0x00] = 0xF3 := by decide
theorem test_tolerances : [0, 952, 1000, 3742].map tolerance = [60, 60, 63, 234] := by decide


/-! ## States that meet what the statements assume: the machine and its frames -/

/-- A channel replaced. -/
def withChan (s : State) (c : ChanId) (ch : Channel) : State :=
  { s with bank := { s.bank with channels := s.bank.channels.set c ch } }

/-- The probe request held. -/
def probing (s : State) (q : Probe) : State := { s with bank := { s.bank with probe := some q } }

/-- The transaction in flight. -/
def flying (s : State) (f : InFlight) : State := { s with bus := { s.bus with flight := some f } }

/-- A link's unit replaced. -/
def withUnit (s : State) (l : LinkId) (m : Mlu) : State := s.setLink l m

/-- Frames that fill a transmit buffer but for `free` places. -/
def filled (free : Nat) : List TxFrame := List.replicate (16 - free) ⟨.reply, []⟩

theorem noProbe {s : State} (h : s.bank.probe = none) (P : Probe → Prop) : ∀ q, s.bank.probe = some q → P q := by
  intro q e; rw [h] at e; cases e

theorem oneProbe {s : State} {q : Probe} (h : s.bank.probe = some q) (P : Probe → Prop) (hp : P q) :
    ∀ q', s.bank.probe = some q' → P q' := by
  intro q' e; rw [h] at e; cases e; exact hp

theorem test_meets_StepRunsFrontCommand :
    ({ fresh with pending := [.turnFlasherPhaseEnd] } : State).pending = .turnFlasherPhaseEnd :: [] := by decide

theorem test_meets_IdleStepIsOneMillisecond : coupled.pending = [] ∧
    coupled.slot (.single 0) 0 = some (slotOf .bodyTemp .sensor 16) ∧ (coupled.link .a).isSome = true ∧
    ((withChan coupled 0 { state := .tripped }).chan 0).state = .tripped := by decide

theorem test_meets_StrapsFixRoles : (State.resetWith true true).link .a = some { role := .bench } := by decide

/-- For the five statements on what every step keeps. -/
theorem test_meets_StepKeeps : (coupled.bounded = true ∧ coupled.channelsLawful = true ∧ coupled.chainLaw = true ∧
    coupled.flashLaw = true ∧ coupled.interestLaw = true) ∧ ∃ t, step coupled = .next t := ⟨by decide, _, rfl⟩

theorem test_meets_RequestFramesReadBack :
    (Request.directoryQuery (some .p3) (some .curtainTension) (some 15) true 127).wf = true ∧
    (Request.directoryQuery none none (some 0) false 16).wf = true ∧
    parseRequest [11, 9, 16, 1] = some (.pin 16 true) := by decide

theorem test_meets_BusFrameReadsBack : 4 < 256 ∧ (List.replicate 8 (0 : Byte)).length = replyLength 4 ∧
    255 < 256 ∧ ([] : List Byte).length = replyLength 255 := by decide

theorem test_meets_ReplyTrainCarriesContent : (List.replicate 79 (0 : Byte)).length ≤ 79 := by decide

/-! ## Arrival and taking -/

theorem test_meets_RequestArrives : [5, 1].length ≤ 8 ∧ bench.link .b = none ∧
    (∀ f ∈ [({ id := 0x69F, data := [5, 1] } : CanFrame), { id := 0x6A1, data := [5, 1] },
      { id := 0x6A0, extended := true, data := [5, 1] }, { id := 0x6A0, remote := true, data := [] }],
      f.id ≠ 0x6A0 ∨ f.extended = true ∨ f.remote = true) ∧
    (withUnit fresh .a { role := .body, busOff := true }).link .a = some { role := .body, busOff := true } ∧
    fresh.link .a = some { role := .body } ∧ [5].length < 2 ∧ 2 ≤ [5, 1].length ∧
    (let m : Mlu := { role := .body, queue := List.replicate 4 [5, 1] };
      (withUnit fresh .a m).link .a = some m ∧ 4 ≤ m.queue.length ∧ 1 ≤ (withUnit fresh .a m).freeRoom .a m) ∧
    (let m : Mlu := { role := .body, queue := List.replicate 4 [5, 1], buffer := filled 0 };
      (withUnit fresh .a m).link .a = some m ∧ (withUnit fresh .a m).freeRoom .a m = 0) := by decide

theorem test_meets_HeadsRefusedOrWaiting :
    (∀ free : Fin 2, let m : Mlu := { role := .body, queue := [[2]], buffer := filled free };
      (withUnit fresh .a m).link .a = some m ∧ parseRequest [2] = none ∧ (withUnit fresh .a m).freeRoom .a m = free) ∧
    (let m := asker .body (.functionRead 16);
      let s := { asks coupled .a (.functionRead 16) with
        dec := { deferred := [⟨.a, 1, 16, none, false, 1⟩], posted := [] } };
      s.link .a = some m ∧ parseRequest (frameOf (.functionRead 16)) = some (.functionRead 16) ∧
      requestNumber (.functionRead 16) = some 16 ∧ s.dec.deferred = [⟨.a, 1, 16, none, false, 1⟩]) ∧
    (let m := { asker .body (.pin 16 true) with buffer := filled 0 };
      (withUnit fresh .a m).link .a = some m ∧
      (withUnit fresh .a m).freeRoom .a m < (reqKind (.pin 16 true)).room) ∧
    HeadAt fresh .b .brake (.channelClear 0) ∧ HeadAt fresh .a .body (.nodeRead (.single 0)) ∧
    HeadAt fresh .c .service (.workshopGrant true) :=
  ⟨by decide, by decide, by decide, headAt (by decide), headAt (by decide), headAt (by decide)⟩

theorem test_meets_ReadsAnswerAsTabled : HeadAt coupled .a .body (.channelStatus 11) ∧
    HeadAt coupled .a .body (.channelStatus 12) ∧ HeadAt coupled .a .body (.positionRead .p1) ∧
    HeadAt coupled .c .service (.nodeRead (.single 0)) :=
  ⟨headAt (by decide), headAt (by decide), headAt (by decide), headAt (by decide)⟩

theorem test_meets_EventAndInterestSets : HeadAt fresh .a .body (.eventExchange 0xFFFF) ∧
    HeadAt fresh .a .body (.interestSet 0) := ⟨headAt (by decide), headAt (by decide)⟩

/-! ## Channels and lighting -/

/-- A LATCHED channel at a temperature. -/
def latchedAt (deg : Int) : Channel := { state := .latched, streakCount := 4, temperature := deg }

/-- A coupled trailer whose channel 0 is LATCHED, with a postponed probe request. -/
def latchedProbing (deg : Int) (inside : Bool) (lamp : LampId) : State :=
  let s := probing (withChan coupled 0 (latchedAt deg)) { lamp := lamp, pos := .p1 }
  { s with bank := { s.bank with supplyInside := inside } }

theorem test_meets_TripRecordsAndClears : HeadAt fresh .a .body (.tripRecordRead 0 true) ∧
    HeadAt fresh .a .body (.tripRecordRead 11 false) ∧ HeadAt fresh .c .service (.tripRecordRead 12 true) ∧
    HeadAt coupled .a .body (.channelClear 12) ∧ HeadAt coupled .a .body (.channelClear 11) ∧
    (HeadAt (withChan coupled 0 (latchedAt 169)) .a .body (.channelClear 0) ∧
      (asks (withChan coupled 0 (latchedAt 169)) .a (.channelClear 0)).bank.probe = none) ∧
    HeadAt (latchedProbing 170 true 0) .a .body (.channelClear 0) ∧ HeadAt (latchedProbing 20 true 1) .a .body (.channelClear 0) ∧
    HeadAt (latchedProbing 20 false 1) .a .body (.channelClear 0) ∧
    (∀ lamp ∈ [(0 : LampId), 1], (latchedProbing 20 true lamp).bank.probe = some { lamp := lamp, pos := .p1 } ∧
      ((latchedProbing 20 true lamp).chan 0).state = .latched ∧ lampChan 1 ≠ 0) :=
  ⟨headAt (by decide), headAt (by decide), headAt (by decide), headAt (by decide), headAt (by decide),
    ⟨headAt (by decide), by decide⟩, headAt (by decide), headAt (by decide), headAt (by decide), by decide⟩

theorem test_meets_LightingSetDone :
    (HeadAt coupled .a .body (.lightingSet 0x7FFF 1) ∧ (asks coupled .a (.lightingSet 0x7FFF 1)).chainLaw = true) ∧
    (HeadAt coupled .b .brake (.lightingSet 0x2004 4) ∧
      ∀ n, n < 15 → (0x2004 : Word16).getLsbD n = true → n = 2 ∨ n = 13) ∧
    (HeadAt coupled .c .service (.lightingSet 0 0) ∧ ∀ n, n < 15 → (0 : Word16).getLsbD n = false) ∧
    (let s := { coupled with light := { coupled.light with grant := true } };
      HeadAt s .c .service (.lightingSet 0x7FFF 1) ∧ s.light.grant = true) ∧
    -- refused: number 15, and functions outside the sender's rights
    HeadAt coupled .a .body (.lightingSet 0x8001 0) ∧
    (HeadAt coupled .b .brake (.lightingSet 0x0005 0) ∧ (1 : FunctionSet) ≠ 0 ∧
      ∀ n, n < 15 → ((1 : FunctionSet).getLsbD n = true ↔ (0x0005 : Word16).getLsbD n = true ∧ n ≠ 2 ∧ n ≠ 13)) ∧
    (HeadAt coupled .c .service (.lightingSet 0x4000 0) ∧ coupled.light.grant = false) :=
  ⟨⟨headAt (by decide), by decide⟩, ⟨headAt (by decide), by decide⟩, ⟨headAt (by decide), by decide⟩,
    ⟨headAt (by decide), by decide⟩, headAt (by decide), ⟨headAt (by decide), by decide, by decide⟩,
    headAt (by decide), by decide⟩

theorem test_meets_ChannelsActOnDemand :
    (HeadAt coupled .a .body (.lightingSet 0x1000 0x1000) ∧ (asks coupled .a (.lightingSet 0x1000 0x1000)).bank.probe = none) ∧
    (HeadAt coupled .b .brake (.lightingSet 0x2004 4) ∧
      ∀ n, n < 15 → (0x2004 : Word16).getLsbD n = true → n = 2 ∨ n = 13) ∧
    (HeadAt coupled .c .service (.lightingSet 0 0) ∧ ∀ n, n < 15 → (0 : Word16).getLsbD n = false) ∧
    (let s := { coupled with light := { coupled.light with grant := true } };
      HeadAt s .c .service (.lightingSet 0x7FFF 1) ∧ s.light.grant = true) ∧
    HeadAt bench .a .bench (.lightingSet 0x7FFF 1) ∧
    -- a probe request held for a channel whose demand does not change, and for one whose demand does, in each phase
    (let s := probing coupled { lamp := 3, pos := .p1 };
      HeadAt s .a .body (.lightingSet 0x1000 0x1000) ∧ s.bank.probe = some { lamp := 3, pos := .p1 } ∧
      demandOf 0x1000 s.det.couplingDemand 3 = (s.chan 3).demand) ∧
    (∀ phase ∈ [ProbePhase.postponed, .attempt, .settledOnly],
      let s := probing coupled { lamp := 0, pos := .p1, phase := phase };
      headOk s .a .body (.lightingSet 0x1000 0x1000) = true ∧ s.bank.probe = some { lamp := 0, pos := .p1, phase := phase } ∧
      demandOf 0x1000 s.det.couplingDemand 0 ≠ (s.chan 0).demand) :=
  ⟨⟨headAt (by decide), by decide⟩, ⟨headAt (by decide), by decide⟩, ⟨headAt (by decide), by decide⟩,
    ⟨headAt (by decide), by decide⟩, headAt (by decide), ⟨headAt (by decide), by decide, by decide⟩, by decide⟩

/-- CH0 and CH2 as they stand with a demand, derated or not, flashers running or idle. -/
def shining (running derated : Bool) (st : ChanState) (d : Demand) : State :=
  let ch : Channel := { state := st, demand := d, derated := derated, output := st = .drive && d = .steady }
  { withChan (withChan coupled 0 ch) 2 ch with bank := { (withChan (withChan coupled 0 ch) 2 ch).bank with
      turn := { running := running }, emergency := { running := running } } }

/-- The demands of a LIGHTING_SET change or not, over the states of a channel: Hazard and Emergency asked, the stop lamps
asked, or all dropped. -/
theorem test_meets_ChannelsActOnDemand_by_state :
    (∀ running derated : Bool, ∀ st ∈ [ChanState.off, .drive, .probeOn], ∀ d ∈ [Demand.off, .steady, .flashTurn],
      let s := shining running derated st d;
      (s.chan 0).state = st ∧ (s.chan 0).demand = d ∧ (s.chan 0).derated = derated ∧ s.bank.turn.running = running ∧
        s.bank.emergency.running = running ∧ s.bank.probe = none) ∧
    HeadAt (shining true true .drive .steady) .a .body (.lightingSet 0x3004 0x3000) ∧
    HeadAt (shining false true .drive .steady) .a .body (.lightingSet 0x3004 0) ∧
    [demandOf 0 false 0, demandOf 4 false 2, demandOf 0x3000 false 0, demandOf 0x3000 false 2] =
      [.off, .steady, .flashTurn, .flashEmergency] :=
  ⟨by decide, headAt (by decide), headAt (by decide), by decide⟩

theorem test_meets_WorkshopGrantSet : HeadAt coupled .a .body (.workshopGrant true) ∧ HeadAt bench .a .bench (.workshopGrant true) ∧
    HeadAt coupled .a .body (.workshopGrant false) ∧ (asks coupled .a (.workshopGrant false)).chainLaw = true :=
  ⟨headAt (by decide), headAt (by decide), headAt (by decide), by decide⟩

/-! ## Numbered functions -/

/-- A number of the node names a slot. -/
def namesOk (s : State) (b : Byte) (ref : EntryRef) (k : Nat) (e : Entry) (sl : Slot) : Bool :=
  decide (16 ≤ b.toNat ∧ b.toNat ≤ 127 ∧ s.binding b.toNat = some (ref, k) ∧ s.entry ref = some e ∧ e.slots[k]? = some sl)

theorem namesAt {s : State} {b : Byte} {ref : EntryRef} {k : Nat} {e : Entry} {sl : Slot}
    (h : namesOk s b ref k e sl = true) : Names s b ref k e sl := by
  obtain ⟨h1, h2, h3, h4, h5⟩ := of_decide_eq_true h
  exact ⟨h1, h2, h3, h4, h5⟩

/-- The node with other marks, in place of the node. -/
def withNode (s : State) (e : Entry) : State := s.setEntry (.single 0) (some e)

/-- The node with the quality of all its slots replaced. -/
def nodeOf (q : Quality) : Entry := { node with slots := node.slots.map fun sl => { sl with quality := q } }

/-- Position 1 in MEASURING. -/
def rising : State := coupled.modPos .p1 fun r => { r with state := .measuring }

/-- Deferred List entries and posted entries in place. -/
def waiting (s : State) (ds : List Deferred) (ps : List Posted) : State := { s with dec := { deferred := ds, posted := ps } }

/-- Four entries of link a. -/
def fourOfA : List Deferred := [⟨.a, 1, 17, some 0, false, 1⟩, ⟨.a, 2, 17, some 0, false, 1⟩, ⟨.a, 3, 17, some 0, false, 1⟩,
  ⟨.a, 4, 17, some 0, false, 1⟩]

theorem test_meets_NumbersDecoded : HeadAt coupled .a .body (.functionRead 15) ∧ HeadAt coupled .a .body (.functionRead 128) ∧
    (HeadAt coupled .a .body (.functionRead 19) ∧ (asks coupled .a (.functionRead 19)).binding 19 = none) ∧
    requestNumber (.functionRead 128) = some 128 ∧
    (let e := { node with live := false };
      HeadAt (withNode coupled e) .a .body (.functionWrite 17 0) ∧
      Names (asks (withNode coupled e) .a (.functionWrite 17 0)) 17 (.single 0) 1 e (slotOf .tailLift .actuator 17) ∧
      mayWrite .body (slotOf .tailLift .actuator 17) = true) ∧
    (HeadAt rising .a .body (.pin 16 true) ∧
      Names (asks rising .a (.pin 16 true)) 16 (.single 0) 0 node (slotOf .bodyTemp .sensor 16) ∧
      (asks rising .a (.pin 16 true)).ready node.pos = false) :=
  ⟨headAt (by decide), headAt (by decide), ⟨headAt (by decide), by decide⟩, by decide,
    ⟨headAt (by decide), namesAt (by decide), by decide⟩, headAt (by decide), namesAt (by decide), by decide⟩

theorem test_meets_FunctionReadAnswers :
    (HeadAt coupled .a .body (.functionRead 16) ∧
      Names (asks coupled .a (.functionRead 16)) 16 (.single 0) 0 node (slotOf .bodyTemp .sensor 16) ∧
      (asks coupled .a (.functionRead 16)).ready .p1 = true) ∧
    (let e := { nodeOf .failed with locked := true };
      HeadAt (withNode coupled e) .a .body (.functionRead 16) ∧
      Names (asks (withNode coupled e) .a (.functionRead 16)) 16 (.single 0) 0 e
        { slotOf .bodyTemp .sensor 16 with quality := .failed }) ∧
    -- the tag in use, the list's four places of the link full, and room
    ∀ ds ∈ [[], [⟨.a, 7, 17, some 0, false, 1⟩], fourOfA],
      HeadAt (waiting (withNode coupled (nodeOf .stale)) ds []) .a .body (.functionRead 16) ∧
      Names (asks (waiting (withNode coupled (nodeOf .stale)) ds []) .a (.functionRead 16)) 16 (.single 0) 0 (nodeOf .stale)
        { slotOf .bodyTemp .sensor 16 with quality := .stale } := by
  refine ⟨⟨headAt (by decide), namesAt (by decide), by decide⟩, ⟨headAt (by decide), namesAt (by decide)⟩, fun ds h => ?_⟩
  simp only [List.mem_cons, List.not_mem_nil, or_false] at h
  rcases h with h | h | h <;> subst h <;> exact ⟨headAt (by decide), namesAt (by decide)⟩

theorem test_meets_FunctionWriteAnswers :
    -- no right; a locked-out entry
    (HeadAt coupled .a .body (.functionWrite 16 5) ∧
      Names (asks coupled .a (.functionWrite 16 5)) 16 (.single 0) 0 node (slotOf .bodyTemp .sensor 16)) ∧
    (let e := { node with locked := true };
      HeadAt (withNode coupled e) .a .body (.functionWrite 17 5) ∧
      Names (asks (withNode coupled e) .a (.functionWrite 17 5)) 17 (.single 0) 1 e (slotOf .tailLift .actuator 17)) ∧
    -- the actuator: room, the tag in use, the list full
    (∀ ds ∈ [[], [⟨.a, 7, 16, none, false, 1⟩], [⟨.a, 1, 16, none, false, 1⟩, ⟨.a, 2, 16, none, false, 1⟩,
        ⟨.a, 3, 16, none, false, 1⟩, ⟨.a, 4, 16, none, false, 1⟩]],
      HeadAt (waiting coupled ds []) .a .body (.functionWrite 17 101) ∧
      Names (asks (waiting coupled ds []) .a (.functionWrite 17 101)) 17 (.single 0) 1 node
        (slotOf .tailLift .actuator 17)) ∧
    -- the setting: room, its own posted entry in flight, the buffer full
    ∀ ps ∈ [[], [⟨18, 1, .body, some (1, .body), false, false⟩],
        (List.range 8).map fun k => (⟨20 + k, 1, .body, none, false, false⟩ : Posted)],
      HeadAt (waiting coupled [] ps) .a .body (.functionWrite 18 100) ∧
      Names (asks (waiting coupled [] ps) .a (.functionWrite 18 100)) 18 (.single 0) 2 node
        (slotOf .refrigSetpoint .setting 18) := by
  refine ⟨⟨headAt (by decide), namesAt (by decide)⟩, ⟨headAt (by decide), namesAt (by decide)⟩, fun ds h => ?_,
    fun ps h => ?_⟩ <;> simp only [List.mem_cons, List.not_mem_nil, or_false] at h <;>
    rcases h with h | h | h <;> subst h <;> exact ⟨headAt (by decide), namesAt (by decide)⟩

theorem test_meets_WatchSets : ∀ add : Bool, HeadAt coupled .a .body (.watch 16 add 0) ∧
    Names (asks coupled .a (.watch 16 add 0)) 16 (.single 0) 0 node (slotOf .bodyTemp .sensor 16) ∧
    (slotOf .bodyTemp .sensor 16).watch = 0 ∧ -32768 ≤ (slotOf .bodyTemp .sensor 16).total ∧
    (slotOf .bodyTemp .sensor 16).total ≤ 32767 := by
  intro add
  cases add <;> exact ⟨headAt (by decide), namesAt (by decide), by decide, by decide, by decide⟩

theorem test_meets_DirectoryQueryLists : HeadAt coupled .a .body (.directoryQuery none none none false 16) ∧
    HeadAt coupled .a .body (.directoryQuery (some .p1) (some .bodyTemp) (some 0) true 127) :=
  ⟨headAt (by decide), headAt (by decide)⟩

theorem test_meets_PinAndFreshnessSet : (HeadAt coupled .a .body (.pin 16 true) ∧
      Names (asks coupled .a (.pin 16 true)) 16 (.single 0) 0 node (slotOf .bodyTemp .sensor 16) ∧
      (asks coupled .a (.pin 16 true)).ready .p1 = true) ∧
    (let e := { node with live := false };
      HeadAt (withNode coupled e) .a .body (.pin 16 false) ∧
      Names (asks (withNode coupled e) .a (.pin 16 false)) 16 (.single 0) 0 e (slotOf .bodyTemp .sensor 16)) ∧
    ∀ w ∈ [(99 : Word16), 100, 60000, 60001], HeadAt coupled .c .service (.freshnessSet 16 w) ∧
      Names (asks coupled .c (.freshnessSet 16 w)) 16 (.single 0) 0 node (slotOf .bodyTemp .sensor 16) := by
  refine ⟨⟨headAt (by decide), namesAt (by decide), by decide⟩, ⟨headAt (by decide), namesAt (by decide)⟩, fun w h => ?_⟩
  simp only [List.mem_cons, List.not_mem_nil, or_false] at h
  rcases h with h | h | h | h <;> subst h <;> exact ⟨headAt (by decide), namesAt (by decide)⟩

theorem test_meets_QuarantineSets :
    (∀ set : Bool, HeadAt coupled .c .service (.quarantine 16 set) ∧
      Names (asks coupled .c (.quarantine 16 set)) 16 (.single 0) 0 node (slotOf .bodyTemp .sensor 16) ∧
      (asks coupled .c (.quarantine 16 set)).bounded = true) ∧
    (let e := { node with locked := true, strikes := 3 };
      HeadAt (withNode coupled e) .c .service (.quarantine 16 false) ∧
      Names (asks (withNode coupled e) .c (.quarantine 16 false)) 16 (.single 0) 0 e (slotOf .bodyTemp .sensor 16) ∧
      (asks (withNode coupled e) .c (.quarantine 16 false)).bounded = true) ∧
    -- what waits for the node, and what is in flight to it
    (let s := waiting coupled [⟨.a, 1, 16, none, false, 1⟩, ⟨.b, 2, 17, some 5, true, 1⟩]
        [⟨18, 1, .body, none, false, false⟩, ⟨17, 1, .brake, some (2, .body), true, false⟩];
      HeadAt s .c .service (.quarantine 16 true) ∧
      Names (asks s .c (.quarantine 16 true)) 16 (.single 0) 0 node (slotOf .bodyTemp .sensor 16)) ∧
    ∀ locked : Bool, let e := { node with live := false, locked := locked };
      HeadAt (withNode coupled e) .c .service (.quarantine 16 (!locked)) ∧
      Names (asks (withNode coupled e) .c (.quarantine 16 (!locked))) 16 (.single 0) 0 e (slotOf .bodyTemp .sensor 16) := by
  refine ⟨fun set => ?_, ⟨headAt (by decide), namesAt (by decide), by decide⟩, ⟨headAt (by decide), namesAt (by decide)⟩,
    fun locked => ?_⟩
  · cases set <;> exact ⟨headAt (by decide), namesAt (by decide), by decide⟩
  · cases locked <;> exact ⟨headAt (by decide), namesAt (by decide)⟩

theorem test_meets_RelearnBegins : HeadAt coupled .c .service (.relearn 0) ∧ HeadAt coupled .c .service (.relearn 4) ∧
    (HeadAt coupled .c .service (.relearn 3) ∧ (asks coupled .c (.relearn 3)).live .p3 = false) ∧
    (HeadAt rising .c .service (.relearn 1) ∧ ((asks rising .c (.relearn 1)).pos .p1).state = .measuring) ∧
    (HeadAt coupled .c .service (.relearn 1) ∧ (asks coupled .c (.relearn 1)).live .p1 = true ∧
      (asks coupled .c (.relearn 1)).suspended = false ∧ (asks coupled .c (.relearn 1)).routed 0 = true) ∧
    -- the first lamp channel held back or not
    ∀ derated : Bool, let s := withChan coupled 0 { derated := derated };
      headOk s .c .service (.relearn 1) = true ∧ (s.chan 0).backfeed = false ∧ s.canProbe 0 = !derated :=
  ⟨headAt (by decide), headAt (by decide), ⟨headAt (by decide), by decide⟩, ⟨headAt (by decide), by decide⟩,
    ⟨headAt (by decide), by decide, by decide, by decide⟩, by decide⟩

theorem test_meets_RebuildAndForce :
    (HeadAt fresh .c .service .mapRebuild ∧ (asks fresh .c .mapRebuild).chainLaw = true ∧
      (asks fresh .c .mapRebuild).live .p1 = false) ∧
    (HeadAt coupled .c .service .mapRebuild ∧ (asks coupled .c .mapRebuild).chainLaw = true ∧
      (asks coupled .c .mapRebuild).live .p1 = true) ∧
    HeadAt coupled .c .service (.profileForce 4) ∧
    (HeadAt coupled .c .service (.profileForce 3) ∧ (asks coupled .c (.profileForce 3)).live .p1 = true ∧
      effectiveOf .d true true = .d ∧ Profile.d ≠ coupled.det.effective ∧ Profile.d ≠ coupled.matrix.active) ∧
    (HeadAt coupled .c .service (.profileForce 2) ∧ effectiveOf .l true true = coupled.det.effective) ∧
    (HeadAt fresh .c .service (.profileForce 1) ∧ effectiveOf .s false false = .none ∧
      (asks fresh .c (.profileForce 1)).live .p1 = false) ∧
    -- the open contacts of a coupled trailer, before the code sample that reads them
    (let s := { coupled with matrix := { coupled.matrix with kaGrounded := false, kbGrounded := false } };
      HeadAt s .c .service (.profileForce 2) ∧ effectiveOf .l false false = .none ∧ Profile.none ≠ s.matrix.active) ∧
    (let s := { coupled with det := { coupled.det with effective := .s } };
      HeadAt s .c .service (.profileForce 2) ∧ effectiveOf .l true true ≠ s.det.effective ∧
      effectiveOf .l true true = s.matrix.active) :=
  ⟨⟨headAt (by decide), by decide, by decide⟩, ⟨headAt (by decide), by decide, by decide⟩, headAt (by decide),
    ⟨headAt (by decide), by decide, by decide, by decide, by decide⟩, ⟨headAt (by decide), by decide⟩,
    ⟨headAt (by decide), by decide, by decide⟩, ⟨headAt (by decide), by decide, by decide⟩,
    headAt (by decide), by decide, by decide⟩

/-! ## The end of an act, the arbiter, the ports, the senses -/

theorem test_meets_EndOfActAttends :
    (coupled.link .a = some { role := .body } ∧ ({ role := .body } : Mlu).pending = 0) ∧
    (let m : Mlu := { role := .body, pending := 1 };
      (withUnit coupled .a m).link .a = some m ∧ m.pending ≠ 0 ∧ 1 ≤ (withUnit coupled .a m).freeRoom .a m) ∧
    (let m : Mlu := { role := .body, pending := 1, buffer := filled 0 };
      (withUnit coupled .a m).link .a = some m ∧ (withUnit coupled .a m).freeRoom .a m = 0) ∧
    (let m : Mlu := { role := .body, pending := 1, buffer := [⟨.attention, [0, 1]⟩] };
      (withUnit coupled .a m).link .a = some m ∧ m.buffer = [⟨.attention, [0, 1]⟩]) := by decide

/-- The bus with claims of classes 1 and 2. -/
def claiming (s : State) (c1 c2 : List Txn) : State := { s with bus := { s.bus with class1 := c1, class2 := c2 } }

/-- The node with its sensor watched and due, under a number or none. -/
def dueNode (number : Option Nat) : Entry :=
  { node with slots := [{ slotOf .bodyTemp .sensor 16 with number := number, watch := 1, age := 1000 }] }

theorem test_meets_ArbiterGrantsInOrder : fresh.matrix.active = .none ∧
    (coupled.matrix.active = .l ∧ coupled.bus.flight = none ∧ coupled.bus.class1 = [] ∧ coupled.bus.class2 = [] ∧
      coupled.dec.posted = [] ∧ coupled.allDue = []) ∧
    (claiming coupled [.poll .p1] [.rediscover (.single 0)]).bus.class1 = [.poll .p1] ∧
    (claiming coupled [] [.rediscover (.single 0)]).bus.class2 = [.rediscover (.single 0)] ∧
    (coupled.binding 17 = some (.single 0, 1) ∧ coupled.binding 16 = some (.single 0, 0) ∧
      coupled.binding 18 = some (.single 0, 2)) ∧
    (let ds : List Deferred := [⟨.a, 1, 16, none, false, 1⟩, ⟨.b, 1, 17, some 5, false, 1⟩];
      (waiting coupled ds []).dec.deferred = [⟨.a, 1, 16, none, false, 1⟩] ++ ⟨.b, 1, 17, some 5, false, 1⟩ :: []) ∧
    (waiting coupled [] [⟨18, 5, .body, none, false, false⟩]).dec.posted = ⟨18, 5, .body, none, false, false⟩ :: [] ∧
    (withNode coupled (dueNode none)).allDue = (.single 0, 0, none) :: [] ∧
    (.single 0, 0, some 16) ∈ (withNode coupled (dueNode (some 16))).allDue := by decide

theorem test_meets_PortEvents : bench.link .b = none ∧ fresh.link .a = some { role := .body } ∧
    (let m : Mlu := { role := .body, buffer := [⟨.reply, []⟩], txErrors := 247 };
      (withUnit fresh .a m).link .a = some m ∧ m.txErrors + 8 ≤ 255) ∧
    (let m : Mlu := { role := .body, buffer := [⟨.reply, []⟩], txErrors := 248, owed := true };
      (withUnit fresh .a m).link .a = some m ∧ 255 < m.txErrors + 8) ∧
    (let m : Mlu := { role := .body, buffer := [⟨.reply, []⟩, ⟨.attention, [0, 1]⟩], owed := true };
      (withUnit fresh .a m).link .a = some m) ∧
    (let m : Mlu := { role := .body, busOff := true }; (withUnit fresh .a m).link .a = some m) := by decide

theorem test_identifiers_sent : ([.reply, .completion, .attention].map fun k =>
    ((withUnit fresh .a { role := .body, buffer := [⟨k, [1]⟩] }).sending .a).map (·.id)) =
      [some 0x6A1, some 0x6A2, some 0x6A3] := by decide

theorem test_meets_SilenceClears : bench.link .b = none ∧
    (let m : Mlu := { role := .body, silent := true }; (withUnit fresh .a m).link .a = some m) ∧
    (let m : Mlu := { role := .body, silenceTimer := 1000 };
      let s := withUnit { coupled with light := { coupled.light with body := 0x1007 } } .a m;
      s.link .a = some m ∧ 1000 ≤ m.silenceTimer ∧ s.chainLaw = true ∧
      ∀ n, n < 15 → ((0x0004 : FunctionSet).getLsbD n = true ↔ (s.light.record .body).getLsbD n = true ∧
        (n ≠ 0 ∧ n ≠ 1 ∧ n ≠ 12))) := by decide

theorem test_meets_CodeSampled : 5 ≤ ({ coupled.matrix with sampleAge := 5 } : ContactMatrix).sampleAge := by decide

/-- Position 1 measured in the relearn of its first lamp channel. -/
def probed (phase : ProbePhase) (st : ChanState) : State :=
  probing (withChan coupled 0 { state := st, output := st = .probeOn, sinceOff := 40, temperatureAge := 10 })
    { lamp := 0, pos := .p1, phase := phase, elapsed := 10000 }

/-- The supply reading due, the last one in or out of range. -/
def supplied (s : State) (inside : Bool) : State :=
  { s with bank := { s.bank with supplyAge := 2, supplyInside := inside, supply := 24000 } }

theorem test_meets_SupplyRead :
    ([19990, 20000, 32000, 32010].map fun mv => (Instr.supplyReading mv).wf) = [true, true, true, true] ∧
    2 ≤ (supplied coupled true).bank.supplyAge ∧ (supplied coupled true).bank.supplyInside = true ∧
    (supplied coupled true).bank.probe = none ∧
    (∀ expired : Bool, (supplied (probing (probed .attempt .probeGap)
        { lamp := 0, pos := .p1, phase := .attempt, elapsed := 10000, expired := expired }) true).bank.probe =
      some { lamp := 0, pos := .p1, phase := .attempt, elapsed := 10000, expired := expired }) ∧
    (supplied (probed .postponed .off) false).bank.probe =
      some { lamp := 0, pos := .p1, phase := .postponed, elapsed := 10000 } ∧
    ((supplied (probed .postponed .latched) false).chan 0).state = .latched := by decide

theorem test_meets_TemperatureRead :
    ([129, 130, 149, 150, 169, 170].map fun deg => (Instr.temperatureReading 0 deg).wf) = [true, true, true, true, true, true] ∧
    (∀ derated : Bool, ∀ st ∈ [ChanState.off, .drive, .latched, .thermalOff],
      let s := withChan coupled 0 { state := st, derated := derated, temperatureAge := 10 };
      10 ≤ (s.chan 0).temperatureAge ∧ s.bank.probe = none ∧ (s.chan 0).state = st ∧ (s.chan 0).derated = derated) ∧
    -- a request postponed, attempted or settled-only, past its limit or not
    (∀ phase ∈ [ProbePhase.postponed, .attempt, .settledOnly], ∀ derated expired : Bool,
      ∀ st ∈ [ChanState.off, .drive, .probeGap, .probeOn, .latched, .thermalOff],
      let q : Probe := { lamp := 0, pos := .p1, phase := phase, elapsed := 10000, expired := expired };
      let s := probing (withChan coupled 0 { state := st, derated := derated, temperatureAge := 10 }) q;
      10 ≤ (s.chan 0).temperatureAge ∧ s.bank.probe = some q ∧ lampChan q.lamp = 0 ∧ (s.chan 0).state = st ∧
      (s.chan 0).derated = derated) := by decide

/-- A channel driving steadily. -/
def driving (sinceOn streak : Nat) (window : Option Window) : Channel :=
  { state := .drive, demand := .steady, output := true, sinceOn := sinceOn, streakCount := streak, window := window }

/-- A channel with its output on, its demand and time on given, and a probe request for it. -/
def sampling (lamp : LampId) (st : ChanState) (d : Demand) (on : Nat) (q : Probe) : State :=
  probing (withChan coupled (lampChan lamp) { state := st, demand := d, output := true, sinceOn := on })
    { q with lamp := lamp, pos := .p1 }

/-- Such a channel can be sampled. -/
def samplable (s : State) (lamp : LampId) : Bool :=
  decide ((s.chan (lampChan lamp)).output = true ∧ (s.chan (lampChan lamp)).sampled = false ∧
    1 ≤ (s.chan (lampChan lamp)).sinceOn ∧ s.chainLaw = true ∧ (s.bank.probe.any fun q => lampChan q.lamp = lampChan lamp) = true)

theorem test_meets_CurrentSampled :
    ([12000, 12010, 20000, 20010].map fun ma => (Instr.currentSample 0 ma).wf) = [true, true, true, true] ∧
    (coupled.chan 0).output = false ∧
    (∀ on ∈ [39, 40, 59, 60, 360], ∀ streak ∈ [0, 2, 3], ∀ w ∈ [none, some ⟨[10], 2, true, 10⟩, some ⟨List.replicate 16 10, 2, true, 10⟩],
      let s := withChan coupled 0 (driving on streak w);
      (s.chan 0).output = true ∧ (s.chan 0).sampled = false ∧ 1 ≤ (s.chan 0).sinceOn ∧ s.bank.probe = none ∧
      (s.chan 0).streakCount = streak ∧ (s.chan 0).window = w) ∧
    -- the probed channel, by phase, state and time on; the trips of each are at 40 ms and later
    (∀ on ∈ [10, 11, 40, 60], ∀ expired : Bool,
      samplable (sampling 0 .drive .steady on { phase := .postponed, lamp := 0, pos := .p1 }) 0 = true ∧
      (∀ st ∈ [ChanState.drive, .probeOn],
        samplable (sampling 0 st .steady on { phase := .attempt, expired := expired, lamp := 0, pos := .p1 }) 0 = true) ∧
      samplable (sampling 0 .drive .steady on { phase := .settledOnly, lamp := 0, pos := .p1 }) 0 = true) ∧
    ∀ armed : Bool, samplable (sampling 2 .drive .flashEmergency 60
      { phase := .settledOnly, armed := armed, lamp := 0, pos := .p1 }) 2 = true := by
  decide

/-! ## Timers and windows of the Channel Bank -/

theorem test_meets_ChannelTimersEnd : (coupled.chan 0).state ≠ .tripped ∧
    (let s := withChan coupled 0 { state := .tripped, cooldown := 1000 };
      (s.chan 0).state = .tripped ∧ 1000 ≤ (s.chan 0).cooldown ∧ s.bank.probe = none) ∧
    -- a postponed probe request on the channel or another, held back or not
    (∀ lamp ∈ [(0 : LampId), 2], ∀ derated : Bool, ∀ inside : Bool,
      let s := supplied (probing (withChan coupled 0 { state := .tripped, cooldown := 1000, derated := derated })
        { lamp := lamp, pos := .p1 }) inside;
      (s.chan 0).state = .tripped ∧ s.bank.probe = some { lamp := lamp, pos := .p1 } ∧ s.bank.supplyInside = inside ∧
      (s.chan 0).derated = derated ∧ (s.chan 2).demand = .off) ∧
    (let s := withChan coupled 0 { state := .probeGap, streakTimer := 10000 };
      (s.chan 0).state = .probeGap ∧ 10000 ≤ (s.chan 0).streakTimer) ∧
    (let s := withChan coupled 0 { driving 1 0 none with derated := true, pwmAge := 30 };
      (s.chan 0).state = .drive ∧ (s.chan 0).derated = true ∧ s.wantsOn (s.chan 0).demand = true ∧ (s.chan 0).pwmOn = true) ∧
    (let s := withChan coupled 0 { driving 1 0 none with derated := true, pwmAge := 10, pwmOn := false };
      (s.chan 0).pwmOn = false ∧ 10 ≤ (s.chan 0).pwmAge) := by decide

/-- Flashers at the end of a phase. -/
def flashing (turn emergency : Flasher) : State :=
  { coupled with bank := { coupled.bank with turn := turn, emergency := emergency } }

set_option maxRecDepth 20000 in
theorem test_meets_FlasherPhasesEnd : coupled.bank.turn.running = false ∧ coupled.bank.emergency.running = false ∧
    (∀ fast : Bool, let s := flashing ⟨true, true, if fast then 160 else 320, fast⟩ ⟨true, false, 120, false⟩;
      s.bank.turn.running = true ∧ (if s.bank.turn.fast then 160 else 320) ≤ s.bank.turn.age ∧
      s.bank.emergency.running = true ∧ 120 ≤ s.bank.emergency.age ∧ s.bank.probe = none) ∧
    -- an attempt that waits on the turn flasher, before and in its gap
    (∀ st ∈ [ChanState.drive, .probeGap],
      let s := probing (withChan (flashing ⟨true, st = .drive, 320, false⟩ {}) 0 { state := st, demand := .flashTurn })
        { lamp := 0, pos := .p1, phase := .attempt };
      s.bank.turn.running = true ∧ 320 ≤ s.bank.turn.age ∧ (s.chan 0).demand = .flashTurn ∧ (s.chan 0).state = st ∧
      (s.chan 0).output = false ∧ s.bank.probe = some { lamp := 0, pos := .p1, phase := .attempt }) ∧
    -- a settled-only measurement of CH2, before and after its on-phase
    (∀ armed : Bool, let q : Probe := { lamp := 2, pos := .p1, phase := .settledOnly, armed := armed };
      let s := probing (flashing {} ⟨true, false, 120, false⟩) q;
      s.bank.probe = some q ∧ s.bank.emergency.onPhase = false ∧ 120 ≤ s.bank.emergency.age ∧ s.chainLaw = true) := by decide

theorem test_meets_BackfeedChecked :
    ([5990, 6000, 12000, 12010].map fun mv => (Instr.backfeedCheck 0 mv).wf) = [true, true, true, true] ∧
    fresh.routed 0 = false ∧
    (∀ high ∈ [1, 2], ∀ low ∈ [1, 2], ∀ b : Bool,
      let s := withChan (supplied coupled true) 0 { backfeedAge := 300, highCount := high, lowCount := low, backfeed := b };
      s.routed 0 = true ∧ (s.chan 0).state = .off ∧ 300 ≤ (s.chan 0).backfeedAge ∧ s.bank.probe = none) ∧
    (let s := probing (withChan (supplied coupled true) 0 { backfeedAge := 300, highCount := 2 }) { lamp := 0, pos := .p1 };
      s.routed 0 = true ∧ (s.chan 0).state = .off ∧ 2 ≤ (s.chan 0).highCount ∧ (s.chan 0).backfeed = false ∧
      s.chainLaw = true ∧ s.bank.probe = some { lamp := 0, pos := .p1 }) ∧
    (24000 < 2 * 12010 ∧ ¬24000 < 2 * 12000 ∧ ¬4 * 6000 < 24000 ∧ 4 * 5990 < 24000) := by decide

/-- Sixteen samples of one value. -/
def sixteen (ma : Nat) : List Nat := List.replicate 16 ma

/-- Channel 0 with a complete window, position 1's contribution to it, and its verdict record. -/
def windowed (settled ma : Nat) (v : Verdict) : State :=
  let s := withChan coupled 0 { driving 400 0 none with window := some ⟨sixteen ma, 0, true, ma⟩ }
  { s.modPos .p1 (fun r => { r with contrib := r.contrib.set 0 { settled := settled, cls := .led } }) with
    load := { expected := s.load.expected.set 0 settled, verdicts := s.load.verdicts.set 0 v } }

set_option maxRecDepth 20000 in
theorem test_meets_CheckWindowEvaluated :
    (∀ ma ∈ [936, 937, 1063, 1064], let s := windowed 1000 ma {};
      (s.chan 0).window = some ⟨sixteen ma, 0, true, ma⟩ ∧ (sixteen ma).length = 16 ∧ (s.chan 0).backfeed = false ∧
      s.det.relearn = none ∧ (s.pos .p1).state = .online ∧ s.darkReports 0 = [] ∧ s.load.expected.get 0 = 1000) ∧
    (∀ n ∈ [1, 2], let v : Verdict := { pending := some ⟨.lampOut, 2⟩, agreement := n };
      ((windowed 1000 0 v).load.verdicts.get 0).agreement = n) ∧
    (let lamp : Slot := { slotOf .lampStatus .sensor 19 with cache := [1] };
      (withNode (windowed 1000 500 {}) { node with kind := .lampCluster, slots := [lamp] }).darkReports 0 = [.p1]) := by
  decide

theorem test_meets_ProbeMeasured :
    (∀ phase ∈ [ProbePhase.postponed, .attempt, .settledOnly], ∀ st ∈ [ChanState.off, .probeGap, .probeOn, .drive],
      (probed phase st).bank.probe = some { lamp := 0, pos := .p1, phase := phase, elapsed := 10000 } ∧
      (probed phase st).chainLaw = true ∧ ((probed phase st).chan 0).state = st ∧
      ((probed phase st).chan 0).demand = .off ∧ 40 ≤ ((probed phase st).chan 0).sinceOff) ∧
    (∀ ma ∈ [39, 40, 25000], let q : Probe := { lamp := 0, pos := .p1, phase := .attempt, inrush := ma, samples := sixteen ma };
      (probing (probed .attempt .probeOn) q).bank.probe = some q ∧ q.samples.length = 16) ∧
    (let q : Probe := { lamp := 0, pos := .p1, phase := .settledOnly, samples := sixteen 500, expired := true };
      (probing (withChan coupled 0 (driving 400 0 none)) q).bank.probe = some q ∧ q.samples.length = 16) ∧
    (let q : Probe := { lamp := 0, pos := .p1, elapsed := 10000 };
      let s := probing (withChan coupled 0 (driving 400 0 none)) q;
      s.bank.probe = some q ∧ s.chainLaw = true ∧ (s.chan 0).state = .drive ∧ (s.chan 0).demand = .steady) := by decide

/-! ## Bring-up, caches, the trailer bus -/

/-- Position 1 in POWERING, CH9 driving. -/
def powering (ms broadcasts : Nat) : State :=
  let s := withChan { fresh with matrix := { fresh.matrix with active := .l } } 9 (driving 200 0 none)
  { (s.setPos .p1 { state := .powering }) with
    det := { s.det with bringUp := some { pos := .p1, powering := ms, broadcasts := broadcasts } } }

theorem test_meets_PoweringEnds : coupled.live .p2 = false ∧
    (let s := coupled.modPos .p1 fun r => { r with secondMs := 1000 }; s.live .p1 = true ∧ 1000 ≤ (s.pos .p1).secondMs) ∧
    coupled.det.bringUp = none ∧ coupled.bus.flight = none ∧
    (flying coupled { txn := .segmentOpen, frame := [], discard := .teardown }).bus.flight =
      some { txn := .segmentOpen, frame := [], discard := .teardown } ∧
    (∀ n ∈ [0, 1, 2], ∀ ms ∈ [149, 150], (powering ms n).det.bringUp = some { pos := .p1, powering := ms, broadcasts := n } ∧
      ((powering ms n).pos .p1).state = .powering ∧ ((powering ms n).chan 9).state = .drive) ∧
    (∀ t ∈ [Txn.addressReset, .segmentOpen], (flying (powering 150 1) { txn := t, frame := [] }).bus.flight =
      some { txn := t, frame := [] }) ∧
    ((withChan (powering 150 0) 9 { state := .tripped }).chan 9).state ≠ .drive := by decide

/-- The node with the age and watch of its sensor. -/
def aged (age : Nat) (watch : RoleSet) (q : Quality) : Entry :=
  { node with slots := [{ slotOf .bodyTemp .sensor 16 with age := age, watch := watch, quality := q }] }

theorem test_meets_CacheAgesAndPolls : coupled.slot (.single 5) 0 = none ∧
    (∀ age ∈ [1000, 1001], ∀ w ∈ [(0 : RoleSet), 1], ∀ q ∈ [Quality.good, .stale],
      (withNode coupled (aged age w q)).entry (.single 0) = some (aged age w q) ∧ (aged age w q).slots.length = 1) ∧
    (coupled.dataRouted = true ∧ coupled.bus.flight = none ∧ coupled.ready .p1 = true) ∧
    coupled.bus.polls.get 1 = none ∧
    (let s := { coupled with bus := { coupled.bus with polls := coupled.bus.polls.set 0 (some 100) } };
      s.bus.polls.get (posIdx .p1) = some 100 ∧ s.bus.class1 = [] ∧ s.bus.flight = none) ∧
    .poll .p1 ∈ (claiming coupled [.poll .p1] []).bus.class1 := by decide

/-- A transaction awaiting its reply. -/
def sent (t : Txn) : InFlight := { txn := t, frame := [], waited := 5 }

/-- A transaction sent a second time. -/
def resent (t : Txn) (d : Discard) : InFlight := { sent t with repeated := true, discard := d }

/-- A frame that is no reply fails a sending. -/
theorem garbled {f : InFlight} (hw : f.waited ≤ 5) (hr : replyPayload f.txn.command [] = none) :
    Fails f (.trailerBusFrameReceived [] false) := .inl ⟨[], false, rfl, hw, hr⟩

/-- So does silence. -/
theorem timedOut {f : InFlight} (hw : 5 ≤ f.waited) : Fails f .responseTimeout := .inr ⟨rfl, hw⟩

/-- A deferred read and a deferred write in flight, and a posted write, replaced or not, its entry locked out in the
meantime or not. -/
def inFlight (replaced lockedOut : Bool) : State := waiting coupled
  [⟨.a, 7, 16, none, true, 1⟩, ⟨.a, 8, 17, some 5, true, 1⟩] [⟨18, 9, .body, some (5, .body), replaced, lockedOut⟩]

set_option maxRecDepth 20000 in
theorem test_meets_SendingsFail : coupled.bus.flight = none ∧
    (∀ replaced lockedOut : Bool, let s := inFlight replaced lockedOut;
      s.bounded = true ∧ s.entry (.single 0) = some node ∧
      ⟨.a, 7, 16, none, true, 1⟩ ∈ s.dec.deferred ∧ ⟨.a, 8, 17, some 5, true, 1⟩ ∈ s.dec.deferred ∧
      ⟨18, 9, .body, some (5, .body), replaced, lockedOut⟩ ∈ s.dec.posted ∧ s.binding 18 = some (.single 0, 2) ∧
      Txn.reassign (.single 0) true ∉ s.bus.class2) ∧
    (∀ strikes ∈ [1, 2, 3], ∀ locked lockedOut : Bool, let e := { node with strikes := strikes, locked := locked };
      (withNode (inFlight true lockedOut) e).bounded = true ∧ (withNode (inFlight true lockedOut) e).entry (.single 0) = some e) ∧
    (coupled.repeaterOf .p1 = some (.single 1) ∧ coupled.entry (.single 1) = some rep) ∧
    (5 < ({ sent (.poll .p1) with waited := 6 } : InFlight).waited) ∧
    ∀ t ∈ [Txn.read (.single 0) 0 none, .read (.single 0) 0 (some (.a, 7)), .write (.single 0) 1 5 (.deferred .a 8),
        .write (.single 0) 2 5 (.posted 18), .poll .p1],
      t.broadcast = false ∧ Fails (sent t) .responseTimeout ∧ Fails (sent t) (.trailerBusFrameReceived [] false) ∧
      ∀ d : Discard, Fails (resent t d) .responseTimeout ∧ Fails (resent t d) (.trailerBusFrameReceived [] false) := by
  refine ⟨by decide, by decide, by decide, by decide, by decide, fun t h => ?_⟩
  simp only [List.mem_cons, List.not_mem_nil, or_false] at h
  rcases h with h | h | h | h | h <;> subst h <;>
    exact ⟨rfl, timedOut (by decide), garbled (by decide) (by decide),
      fun d => ⟨timedOut (by cases d <;> decide), garbled (by cases d <;> decide) (by cases d <;> decide)⟩⟩

/-- A part's reply frame as a node sends it. -/
def nodeReply (cmd : Nat) (payload : List Byte) : List Byte := busFrame 1 cmd payload

/-- A group of two members with a sensor 20. -/
def pair : Entry :=
  { live := true, nodeId := 0x30, addr := 128, run := 2, pos := .p1, kind := .tyreHub, used := false,
    slots := [{ slotOf .tyrePressure .sensor 20 with cache := [5, 6], watch := 1 }] }

set_option maxRecDepth 20000 in
theorem test_meets_RepliesApplied :
    (replyPayload (Txn.read (.single 0) 0 none).command (nodeReply 5 [0, 9]) = some [0, 9] ∧ coupled.bounded = true ∧
      coupled.entry (.single 0) = some node ∧ node.run ≤ 1) ∧
    ((coupled.setEntry (.group 0) (some pair)).entry (.group 0) = some pair ∧ 0 + 1 < pair.run ∧ 1 + 1 = pair.run) ∧
    (∀ a ∈ [(0 : Byte), 1], replyPayload (Txn.write (.single 0) 1 5 (.deferred .a 7)).command (nodeReply 6 [a]) = some [a]) ∧
    (∀ replaced lockedOut : Bool, let p : Posted := ⟨18, 5, .body, some (5, .body), replaced, lockedOut⟩;
      p ∈ (waiting coupled [] [p]).dec.posted ∧ (waiting coupled [] [p]).bounded = true ∧
      (waiting coupled [] [p]).binding 18 = some (.single 0, 2) ∧
      -- a deferred read of the slot waits with it, and a link that is not in bus-off awaits it
      let d : Deferred := ⟨.a, 7, 18, none, false, 1⟩;
      (waiting coupled [d] [p]).bounded = true ∧
      ((waiting coupled [d] [p]).dec.deferred.filter fun d => some d.number = some 18 ∧ d.value = none) = [d] ∧
      (waiting coupled [d] [p]).link .a = some { role := .body }) ∧
    (∀ t ∈ [Txn.read (.single 0) 2 (some (.a, 7)), .write (.single 0) 2 5 (.posted 18), .write (.single 0) 1 5 (.deferred .a 7)],
      let f : InFlight := { sent t with discard := .busOff };
      (flying coupled f).bus.flight = some f ∧ f.waited ≤ 5 ∧ f.discard ≠ .teardown) ∧
    (node.slots[2]?.map (·.access) = some .setting ∧ node.slots[1]?.map (·.access) = some .actuator) := by decide

/-- Position 1 with position 2 behind it, both ready, under watch. -/
def behind (w : Watch) (live : Bool) : State :=
  let s := { coupled with det := { coupled.det with watches := coupled.det.watches.set 0 (some w) } }
  if live then s.setPos .p2 { state := .online } else s

/-- The chain repeater of position 3, watched. -/
def atEnd (w : Watch) : State :=
  { coupled.setPos .p3 { state := .online, repeater := some 1 } with
    det := { coupled.det with watches := coupled.det.watches.set 2 (some w) }
    bus := { coupled.bus with polls := coupled.bus.polls.set 2 (some 0) } }

/-- No repeater is polled. -/
def unpolled (s : State) : State := { s with bus := { s.bus with polls := Tbl.fill 3 none } }

set_option maxRecDepth 20000 in
theorem test_meets_PollReportsCounted :
    (∀ a ∈ [(0 : Byte), 1], replyPayload 7 (nodeReply 7 [a]) = some [a]) ∧
    (∀ n ∈ [0, 1, 3, 4], ∀ closed : Bool, ∀ live : Bool, let w : Watch := { present := n, absent := n, closed := closed };
      let s := flying (behind w live) (sent (.poll .p1));
      s.bus.flight = some (sent (.poll .p1)) ∧ s.repeaterOf .p1 = some (.single 1) ∧ s.entry (.single 1) = some rep ∧
      s.live .p2 = live ∧ s.det.watches.get (posIdx .p1) = some w ∧ s.bus.polls.get (posIdx .p1) ≠ none ∧
      (unpolled s).bus.polls.get (posIdx .p1) = none ∧ (unpolled s).bus.flight = some (sent (.poll .p1))) ∧
    ∀ n ∈ [0, 1, 2, 3, 4, 5], ∀ held : Bool, let w : Watch := { present := n, absent := n, held := held };
      let s := flying (atEnd w) (sent (.poll .p3));
      s.bus.flight = some (sent (.poll .p3)) ∧ s.repeaterOf .p3 = some (.single 1) ∧ s.entry (.single 1) = some rep ∧
      s.det.watches.get (posIdx .p3) = some w ∧ s.bus.polls.get (posIdx .p3) ≠ none := by decide

/-- A debounce that has run out. -/
def debounced (s : State) (p : Profile) (n : Nat) : State :=
  { s with det := { s.det with debounce := some { candidate := p, length := n, elapsed := n } } }

theorem test_meets_DebounceEnds : (fresh.chainLaw = true ∧ fresh.det.debounce = none) ∧
    (∀ p ∈ [Profile.none, .s, .l, .d], (debounced fresh p 200).chainLaw = true ∧ (debounced fresh p 200).live .p1 = false ∧
      (debounced fresh p 200).det.debounce = some { candidate := p, length := 200, elapsed := 200 }) ∧
    ((debounced coupled .none 500).chainLaw = true ∧ (debounced coupled .none 500).live .p1 = true) ∧
    ((debounced fresh .l 200).bus.flight = none ∧ (debounced fresh .l 200).bus.class1 = [] ∧
      (debounced fresh .l 200).bus.class2 = []) := by decide

/-! ## The search and the descriptions -/

/-- A reply of the node in time. -/
theorem repliesBy {f : InFlight} {payload : List Byte} (hw : f.waited ≤ 5)
    (h : replyPayload f.txn.command (nodeReply f.txn.command payload) = some payload) :
    Replies f (.trailerBusFrameReceived (nodeReply f.txn.command payload) false) payload := ⟨_, _, rfl, hw, h⟩

/-- Position 1 in ENUMERATING with a transaction in flight and an item waiting. -/
def searching (es : State) (f : InFlight) : State :=
  let s := es.modPos .p1 fun r => { r with state := .enumerating }
  { s with
    det := { s.det with bringUp := some { pos := .p1 } }
    bus := { s.bus with flight := some f, stack := [⟨0x80000000, 1⟩] } }

/-- A node ID that begins with bit 0, as a search of that bit may find it. -/
def found : Word32 := 0x1F002A10

/-- The Node Table full of one single entry and one group entry. -/
def full (e g : Entry) : State :=
  { fresh with map := { fresh.map with singles := Tbl.fill 48 (some e), groups := Tbl.fill 6 (some g) } }

theorem fullSingle (e g : Entry) (i : SingleId) : (full e g).entry (.single i) = some e := Tbl.get_fill ..

theorem fullGroup (e g : Entry) (j : GroupId) : (full e g).entry (.group j) = some g := Tbl.get_fill ..

/-- A stale entry of another node. -/
def stale (used : Bool) : Entry := { node with live := false, used := used }

theorem staleChosen (used : Bool) (g : Entry) :
    Chosen (fun i => (full (stale used) g).entry (.single i)) 0 true used := by
  have h0 : ∀ k : SingleId, ¬k < 0 := by decide
  cases used
  · exact ⟨fun k => by simp [fullSingle], ⟨_, fullSingle _ _ 0, rfl, rfl, fun _ => rfl⟩, fun k h => absurd h (h0 k)⟩
  · refine ⟨fun k => ⟨by simp [fullSingle], ?_⟩, ⟨_, fullSingle _ _ 0, rfl, rfl, fun h => absurd h (by decide)⟩,
      fun k h => absurd h (h0 k)⟩
    rintro ⟨x, hx, -, -, h⟩
    cases (fullSingle _ _ k).symm.trans hx
    exact absurd (h rfl) (by decide)

theorem noneLeft (g : Entry) : NoneLeft (fun i => (full node g).entry (.single i)) := by
  refine fun k => ⟨by simp [fullSingle], ?_⟩
  rintro ⟨x, hx, h, -⟩
  cases (fullSingle _ _ k).symm.trans hx
  exact absurd h (by decide)

set_option maxRecDepth 20000 in
theorem test_meets_SearchPlaces :
    (let s := searching fresh (sent (.search 0 1));
      s.bus.flight = some (sent (.search 0 1)) ∧ s.det.bringUp = some { pos := .p1 } ∧ s.bus.stack = ⟨0x80000000, 1⟩ :: []) ∧
    (∀ len ∈ [0, 1, 32], Fails (resent (.search 0 len) .kept) (.trailerBusFrameReceived [] false) ∧
      Fails (resent (.search 0 len) .kept) .responseTimeout) ∧
    (Replies (sent (.search 0 1)) (.trailerBusFrameReceived (nodeReply 1 [0x1F, 0, 0x2A, 0x10, 0]) false) [0x1F, 0, 0x2A, 0x10, 0] ∧
      Replies (sent (.search 0 1)) (.trailerBusFrameReceived (nodeReply 1 [0x9F, 0, 0x2A, 0x10, 3]) false) [0x9F, 0, 0x2A, 0x10, 3] ∧
      word32 0x1F 0 0x2A 0x10 = found ∧ (∀ n, n < 1 → found.getLsbD (31 - n) = (0 : Word32).getLsbD (31 - n)) ∧
      (word32 0x9F 0 0x2A 0x10).getLsbD 31 ≠ (0 : Word32).getLsbD 31) ∧
    -- a live group, the node's own stale entry (its address free or taken), a free entry, victims, and no entry left
    ((fresh.setEntry (.group 0) (some { node with nodeId := found })).entry (.group 0) = some { node with nodeId := found }) ∧
    (let e := { node with live := false, nodeId := found };
      (withNode fresh e).entry (.single 0) = some e ∧
      (searching ((withNode fresh e).setEntry (.single 1) (some { rep with addr := 1 })) (sent (.search 0 1))).lowestAddress = 2) ∧
    (∀ i : SingleId, fresh.entry (.single i) = none) ∧
    (∀ used : Bool, Chosen (fun i => (full (stale used) node).entry (.single i)) 0 true used) ∧
    NoneLeft (fun i => (full node node).entry (.single i)) ∧ ¬HasId found (some node) := by
  refine ⟨by decide, fun len h => ?_, ⟨repliesBy (f := sent (.search 0 1)) (by decide) (by decide),
    repliesBy (f := sent (.search 0 1)) (by decide) (by decide), by decide, by decide, by decide⟩, by decide, by decide,
    by decide, fun used => staleChosen used _, noneLeft _, ?_⟩
  · simp only [List.mem_cons, List.not_mem_nil, or_false] at h
    rcases h with h | h | h <;> subst h <;> exact ⟨garbled (by decide) (by decide), timedOut (by decide)⟩
  · rintro ⟨x, hx, h⟩
    cases hx
    exact absurd h (by decide)

set_option maxRecDepth 20000 in
theorem test_meets_GroupHeadsPlaced :
    (∀ run ∈ [(2 : Byte), 4, 8, 16], Replies (sent (.search 0 1))
      (.trailerBusFrameReceived (nodeReply 1 [0x1F, 0, 0x2A, 0x10, run]) false) [0x1F, 0, 0x2A, 0x10, run]) ∧
    HasIdLive found ((withNode fresh { node with nodeId := found }).entry (.single 0)) ∧
    (∀ i : SingleId, fresh.entry (.single i) = none) ∧ (∀ j : GroupId, fresh.entry (.group j) = none) ∧
    -- the lowest block of an empty table; its own stale entry, its base free
    (fresh.freeFor 16 128 ∧ ∀ n, fresh.freeFor 16 n → 128 ≤ n) ∧
    (let e := { pair with live := false, nodeId := found, addr := 142 };
      let s := fresh.setEntry (.group 0) (some e);
      FirstWith (fun j => s.entry (.group j)) (HasId found) 0 ∧ s.entry (.group 0) = some e ∧ s.freeFor 2 142) ∧
    -- every block taken, and no entry left
    (let s := fresh.setEntry (.group 0) (some { pair with addr := 128, run := 64 }); ∀ n, ¬s.freeFor 16 n) ∧
    NoneLeft (fun j => (full node node).entry (.group j)) := by
  have stands : ∀ j : GroupId, ((fresh.setEntry (.group 0)
      (some { pair with live := false, nodeId := found, addr := 142 })).entry (.group j)).all (fun e => !e.live) = true := by
    decide
  refine ⟨fun run h => ?_, ⟨_, rfl, rfl, rfl⟩, by decide, by decide, ⟨⟨⟨0, by decide, rfl⟩, fun j e he => ?_⟩, ?_⟩,
    ⟨⟨⟨_, rfl, rfl⟩, fun k h => absurd h (by revert k; decide)⟩, by decide, ⟨7, by decide, by decide⟩, fun j e he hl => ?_⟩,
    fun n ⟨⟨k, hk, hn⟩, h⟩ => ?_, fun k => ⟨by simp [fullGroup], ?_⟩⟩
  · simp only [List.mem_cons, List.not_mem_nil, or_false] at h
    rcases h with h | h | h | h <;> subst h <;> exact repliesBy (f := sent (.search 0 1)) (by decide) (by decide)
  · cases (show fresh.entry (.group j) = none from Tbl.get_fill ..).symm.trans he
  · rintro n ⟨⟨k, -, rfl⟩, -⟩
    omega
  · have := stands j
    rw [he] at this
    simp [hl] at this
  · have := h 0 { pair with addr := 128, run := 64 } rfl rfl
    simp at this
    omega
  · rintro ⟨x, hx, h, -⟩
    cases (fullGroup _ _ k).symm.trans hx
    exact absurd h (by decide)

set_option maxRecDepth 20000 in
theorem test_meets_PlacementsMade :
    (∀ t ∈ [Txn.releaseGroup found 128, .releaseSingle 0,
        .place { ref := .group 0, nodeId := found, addr := 128, run := 2, reuse := true, victim := false, clearUsed := false },
        .place { ref := .single 3, nodeId := found, addr := 9, run := 0, reuse := false, victim := true, clearUsed := true },
        .place { ref := .group 1, nodeId := found, addr := 128, run := 2, reuse := false, victim := false, clearUsed := false,
                 fromSingle := some 0 }],
      (searching coupled (sent t)).bus.flight = some (sent t) ∧ (sent t).discard = .kept ∧
      (searching coupled (sent t)).det.bringUp = some { pos := .p1 } ∧
      Replies (sent t) (.trailerBusFrameReceived (nodeReply t.command [1]) false) [1] ∧
      Replies (sent t) (.trailerBusFrameReceived (nodeReply t.command [0]) false) [0] ∧
      Fails (resent t .kept) .responseTimeout) ∧
    (∀ run ∈ [0, 2], ∀ locked : Bool, let e := { pair with live := false, run := run, locked := locked };
      (coupled.setEntry (.group 0) (some e)).entry (.group 0) = some e) ∧
    coupled.entry (.single 3) = none ∧ (coupled.pos .p1).singles.Pairwise (· < ·) ∧ (coupled.pos .p1).groups.Pairwise (· < ·) := by
  refine ⟨fun t h => ?_, by decide, by decide, by decide, by decide⟩
  simp only [List.mem_cons, List.not_mem_nil, or_false] at h
  rcases h with h | h | h | h | h <;> subst h <;>
    exact ⟨rfl, rfl, rfl, repliesBy (f := sent _) (by decide) (by decide), repliesBy (f := sent _) (by decide) (by decide),
      timedOut (by decide)⟩

/-- The search with a description in progress. -/
def describing (es : State) (d : Description) (f : InFlight) : State :=
  let s := searching es f
  { s with det := { s.det with bringUp := some { pos := .p1, desc := some d } } }

/-- A DESCRIBE of the node's entry, or of the group's. -/
def page (ref : EntryRef) (n : Nat) : InFlight := sent (.describe ref n)

set_option maxRecDepth 20000 in
theorem test_meets_NodesDescribed :
    (∀ ref ∈ [EntryRef.single 0, .group 0], ∀ p0 ∈ [none, some (⟨.repeater, 0, 0, 17⟩ : Page0), some ⟨.tyreHub, 1, 2, 0⟩,
        some ⟨.genericSensor, 4, 0, 0⟩],
      let s := describing (coupled.setEntry (.group 0) (some pair)) { ref := ref, page0 := p0 } (page ref 1);
      s.bus.flight = some (page ref 1) ∧ s.det.bringUp = some { pos := .p1, desc := some { ref := ref, page0 := p0 } } ∧
      s.entry ref = some (if ref = .single 0 then node else pair) ∧ s.bounded = true ∧
      Txn.reassign ref true ∉ s.bus.class2) ∧
    (∀ ref ∈ [EntryRef.single 0, .group 0], Fails (resent (.describe ref 1) .kept) .responseTimeout) ∧
    -- page 0: a single node, a head, a page of no kind; function pages at the ends of their ranges; an ident page
    (∀ x ∈ [[1, 0, 0, 17, 0, 0, 0, 0], [6, 4, 0, 0, 0, 0, 0, 0], [3, 1, 2, 0, 0, 0, 0, 0], [2, 1, 16, 0, 0, 0, 0, 0],
        [0, 0, 0, 0, 0, 0, 0, 0], [7, 0, 0, 0, 0, 0, 0, 0], [1, 5, 0, 0, 0, 0, 0, 0], [1, 1, 3, 0, 0, 0, 0, 0], [1, 0, 0, 18, 0, 0, 0, 0],
        [9, 15, 3, 6, 0, 5, 0, 5], [3, 11, 1, 1, 0x80, 0, 0x7F, 0xFF], [3, 12, 1, 1, 0, 0, 0, 1], [10, 0, 1, 1, 0, 0, 0, 1],
        [1, 0, 1, 1, 0, 1, 0, 0], [0x41, 0x42, 0x43, 0x44, 0x45, 0x46, 0x47, 0x48]],
      Replies (page (.single 0) 0) (.trailerBusFrameReceived (nodeReply 4 x) false) x ∧
      Replies (page (.group 0) 0) (.trailerBusFrameReceived (nodeReply 4 x) false) x) ∧
    (NodeKind.repeater.code = 1 ∧ NodeKind.genericSensor.code = 6 ∧ funCode .curtainTension = 9 ∧ Access.setting.code = 3) := by
  refine ⟨by decide, fun ref h => ?_, fun x h => ?_, by decide⟩
  · simp only [List.mem_cons, List.not_mem_nil, or_false] at h
    rcases h with h | h <;> subst h <;> exact timedOut (by decide)
  · have h4 : x.length = 8 ∧ replyPayload 4 (nodeReply 4 x) = some x := by
      revert x; decide
    exact ⟨repliesBy (f := page _ 0) (by decide) h4.2, repliesBy (f := page _ 0) (by decide) h4.2⟩

/-- Position 1 in ENUMERATING with entries passed and no item left. -/
def enumerated (passed : List EntryRef) : State :=
  let s := searching coupled (sent (.search 0 0))
  { s with det := { s.det with bringUp := some { pos := .p1, described := passed } }, bus := { s.bus with stack := [] } }

set_option maxRecDepth 20000 in
theorem test_meets_BringUpGoesOn :
    ((searching coupled (sent (.search 0 1))).det.bringUp = some { pos := .p1 } ∧
      (searching coupled (sent (.search 0 1))).bus.stack = ⟨0x80000000, 1⟩ :: []) ∧
    (∀ passed ∈ [[], [.single 0], [.single 0, .single 1]], (enumerated passed).bus.stack = [] ∧
      (enumerated passed).det.bringUp = some { pos := .p1, described := passed } ∧
      ((enumerated passed).pos .p1).refs = [.single 0, .single 1] ∧ (enumerated passed).entry (.single 1) = some rep) := by
  decide

/-! ## Chain repeaters, restarted nodes, and the end of the measuring -/

set_option maxRecDepth 20000 in
theorem test_meets_SegmentCloseSettled :
    (let s := flying coupled (sent (.segmentClose .p1));
      s.bus.flight = some (sent (.segmentClose .p1)) ∧ s.repeaterOf .p1 = some (.single 1) ∧ s.entry (.single 1) = some rep ∧
      s.bounded = true) ∧
    (∀ a ∈ [(0 : Byte), 1],
      Replies (sent (.segmentClose .p1)) (.trailerBusFrameReceived (nodeReply (Txn.segmentClose .p1).command [a]) false) [a]) ∧
    Fails (resent (.segmentClose .p1) .kept) (.trailerBusFrameReceived [] false) := by
  refine ⟨by decide, fun a h => ?_, garbled (by decide) (by decide)⟩
  simp only [List.mem_cons, List.not_mem_nil, or_false] at h
  rcases h with h | h <;> subst h <;> exact repliesBy (f := sent (.segmentClose .p1)) (by decide) (by decide)

set_option maxRecDepth 20000 in
theorem test_meets_RestartsReassigned :
    (∀ ref ∈ [EntryRef.single 0, .group 0], ∀ t ∈ [Txn.rediscover ref, .search 0 1, .reassign ref true, .reassign ref false],
      let s := searching (coupled.setEntry (.group 0) (some pair)) (sent t);
      s.bus.flight = some (sent t) ∧ s.entry ref = some (if ref = .single 0 then node else pair) ∧ s.bounded = true) ∧
    (∀ x ∈ [[0, 0, 0, 0x10, 0], [0, 0, 0, 0x30, 2], [0, 0, 0, 0x10, 3]], ∀ t ∈ [Txn.rediscover (.single 0), .rediscover (.group 0), .search 0 1],
      Replies (sent t) (.trailerBusFrameReceived (nodeReply 1 x) false) x ∧ Fails (resent t .kept) .responseTimeout) ∧
    (∀ a ∈ [(0 : Byte), 1], Replies (sent (.reassign (.single 0) true)) (.trailerBusFrameReceived (nodeReply 2 [a]) false) [a]) ∧
    -- the entries of the IDs found, and the prefix they fit
    (FirstWith (fun i => coupled.entry (.single i)) (HasId 0x10) 0 ∧ ∀ j, ¬HasIdLive 0x10 (coupled.entry (.group j))) ∧
    (let s := fresh.setEntry (.group 0) (some pair);
      FirstWith (fun j => s.entry (.group j)) (HasIdLive 0x30) 0 ∧ ∀ i, ¬HasIdLive 0x30 (s.entry (.single i))) ∧
    (word32 0 0 0 0x10 = node.nodeId ∧ word32 0 0 0 0x30 = pair.nodeId ∧
      ∀ n, n < 1 → node.nodeId.getLsbD (31 - n) = (0 : Word32).getLsbD (31 - n)) := by
  have none : ∀ {e : Option Entry} {id : Word32}, e = none → ¬HasIdLive id e := by
    rintro _ _ rfl ⟨_, h, -⟩
    cases h
  refine ⟨by decide, fun x hx t ht => ?_, fun a h => ?_,
    ⟨⟨⟨_, rfl, rfl⟩, fun k h => absurd h (by revert k; decide)⟩, fun j => none (by revert j; decide)⟩,
    ⟨⟨⟨_, rfl, rfl, rfl⟩, fun k h => absurd h (by revert k; decide)⟩, fun i => none (by revert i; decide)⟩, by decide⟩
  · have h1 : replyPayload 1 (nodeReply 1 x) = some x := by revert x; decide
    simp only [List.mem_cons, List.not_mem_nil, or_false] at ht
    rcases ht with h | h | h <;> subst h <;> exact ⟨repliesBy (f := sent _) (by decide) h1, timedOut (by decide)⟩
  · simp only [List.mem_cons, List.not_mem_nil, or_false] at h
    rcases h with h | h <;> subst h <;> exact repliesBy (f := sent _) (by decide) (by decide)

/-- Position 1, measured in its bring-up or in its relearn, with a probe request. -/
def measured (profile : Profile) (relearn : Bool) (q : Probe) (ch : Channel) : State :=
  let s := probing (withChan coupled (lampChan q.lamp) ch) q
  { (s.modPos .p1 fun r => { r with state := if relearn then .online else .measuring, relearn := relearn }) with
    matrix := { s.matrix with active := profile }
    det := { s.det with
      bringUp := if relearn then none else some { pos := .p1 }, relearn := if relearn then some { pos := .p1 } else none } }

/-- The last lamp channel that is routed under a profile. -/
def lastLamp : Profile → LampId
  | .s | .d => 7 | .l | .none => 9

set_option maxRecDepth 20000 in
theorem test_meets_MeasuringEnds :
    (∀ profile ∈ [Profile.s, .l, .d], ∀ relearn : Bool,
      ∀ x ∈ [(({ lamp := 0, pos := .p1, phase := .attempt, samples := sixteen 500 } : Probe), ({ state := .probeOn } : Channel)),
        ({ lamp := 0, pos := .p1, phase := .settledOnly, samples := sixteen 500, expired := true }, driving 400 0 none),
        ({ lamp := 0, pos := .p1, elapsed := 10000 }, { state := .latched })],
      let q := { x.1 with lamp := lastLamp profile };
      let s := measured profile relearn q x.2;
      s.bank.probe = some q ∧ s.flashLaw = true ∧ (s.chan (lampChan q.lamp)) = x.2 ∧ (s.pos .p1).relearn = relearn ∧
      (relearn = true → s.ready .p1 = true ∧ s.det.relearn = some { pos := .p1 }) ∧
      ∀ l, q.lamp < l → s.routed (lampChan l) = false) ∧
    (sixteen 500).length = 16 := by decide

/-! ## Effects of single commands -/

theorem test_power_on_reset_bench : after (.powerOnReset true true) coupled = bench := by decide
theorem test_idle_step_ages_a_cache : (match step coupled with
    | .next t => (t.slot (.single 0) 0).map fun sl => sl.age
    | .fault _ | .refused _ => none) = some 11 := by decide
theorem test_request_arrives :
    ((after (.requestArrival .a { id := 0x6A0, data := [5, 1, 16, 0] }) fresh).link .a).map (·.queue) = some [[5, 1, 16, 0]] := by
  decide
theorem test_frame_of_another_identifier_ignored :
    after (.requestArrival .a { id := 0x6A1, data := [5, 1, 16, 0] }) fresh = fresh := by decide
theorem test_malformed_answered : sentBy (.malformedRequest .a) (withUnit fresh .a { role := .body, queue := [[0x55, 9]] }) .a =
    [[0x55, 9, 0, byteOf Status.malformed.code, 0, 0, 0, 0]] := by decide
theorem test_function_read_from_cache : sentBy (.functionRead .a) (asks coupled .a (.functionRead 16)) .a =
    (contentFrames .reply 5 7 .ok [0, byteOf MeasureUnit.count.code, 0, 10, 1, 0, 5]).map (·.data) := by decide
theorem test_function_write_clamped : ((after (.functionWrite .a) (asks coupled .a (.functionWrite 18 0xFFFF))).dec.posted).map
    (·.value) = [0] := by decide
set_option maxRecDepth 60000 in
theorem test_actuator_write_granted : (after (.functionWrite .a) (asks coupled .a (.functionWrite 17 101))).bus.flight.map
    (·.frame) = some (busFrame 1 6 [1, 0, 100]) := by decide
theorem test_event_exchange_bytes : sentBy (.eventExchange .a) (withUnit fresh .a
    { asker .body (.eventExchange 0x0001) with pending := 0x0003 }) .a = [[18, 7, 0x01, 0, 0, 3, 0xFF, 0xFF], [18, 7, 0x11, 0, 0, 0, 0, 0]] := by
  decide
theorem test_interest_drops_pending : ((after (.interestSet .a) (withUnit fresh .a
    { asker .body (.interestSet 2) with pending := 3 })).link .a).map (·.pending) = some 2 := by decide
theorem test_turn_signal_drives : let t := after (.lightingSet .a) (asks coupled .a (.lightingSet 1 1));
    ((t.chan 0).state, (t.chan 0).demand, (t.chan 0).output, t.bank.turn.running) = (.drive, .flashTurn, true, true) := by decide
theorem test_hazard_starts_the_flasher : let t := after (.lightingSet .a) (asks coupled .a (.lightingSet 0x1000 0x1000));
    t.bank.turn = ⟨true, true, 0, false⟩ ∧ [t.chan 0, t.chan 1].map (fun ch => (ch.state, ch.output, ch.sinceOn)) =
      [(.drive, true, 0), (.drive, true, 0)] ∧
      (after (.lightingSet .a) (asks t .a (.lightingSet 0x1000 0))).bank.turn = {} := by decide
theorem test_brake_may_not_turn : sentBy (.lightingSet .b) (asks coupled .b (.lightingSet 1 1)) .b =
    (contentFrames .reply 1 7 .rights [0, 1]).map (·.data) := by decide
theorem test_pin_sets : ((after (.pin .a) (asks coupled .a (.pin 16 true))).entry (.single 0)).map (·.pins) = some 1 := by decide
set_option maxRecDepth 60000 in
theorem test_map_rebuild_tears_down : let t := after (.mapRebuild .c) (asks coupled .c .mapRebuild);
    ((t.pos .p1).state, t.matrix.active, (t.entry (.single 0)).isSome, t.det.debounce) =
      (.absent, .none, false, some { candidate := .l, length := 200 }) := by decide
set_option maxRecDepth 60000 in
theorem test_force_keeps_pinned : ((after (.mapRebuild .c) (asks (withNode coupled { node with pins := 1 }) .c .mapRebuild)).entry
    (.single 0)).map (·.live) = some false := by decide
theorem test_profile_force : (after (.profileForce .c) (asks coupled .c (.profileForce 3))).matrix.forced = .d := by decide
set_option maxRecDepth 60000 in
theorem test_quarantine_degrades : ((after (.quarantine .c) (asks coupled .c (.quarantine 16 true))).pos .p1).state = .degraded := by
  decide
set_option maxRecDepth 60000 in
-- a replaced write in flight, its entry locked out and released again before the outcome (log 35)
theorem test_lock_out_marks_the_write_in_flight : (after (.quarantine .c) (asks (inFlight true false) .c
    (.quarantine 16 true))).dec.posted.map (fun p => (p.number, p.lockedOut)) = [(18, true)] := by decide
set_option maxRecDepth 60000 in
theorem test_marked_replaced_write_removed :
    let t := after (.trailerBusFrameReceived (nodeReply 6 [1]) false)
      (flying (inFlight true true) (sent (.write (.single 0) 2 5 (.posted 18))));
    (t.dec.posted, (t.link .a).map (·.pending)) = ([], some 0x0800) := by decide
set_option maxRecDepth 60000 in
theorem test_code_sample_grounded : (after (.codeSample 1999 2000)
    { fresh with matrix := { fresh.matrix with sampleAge := 5 } }).det.debounce = some { candidate := .s, length := 200 } := by decide
theorem test_code_sample_between : (after (.codeSample 4000 4001)
    { coupled with matrix := { coupled.matrix with sampleAge := 5 } }).det.effective = .s := by decide
theorem test_contacts_under_d :
    let s := { coupled with matrix := { coupled.matrix with active := .d } };
    ([6, 8, 10, 11, 12, 13, 14, 15].map s.contact) = [.channel 6, .leftOpen, .channel 10, .leftOpen, .dataWire 0,
      .dataWire 1, .codeKA, .codeKB] := by decide
set_option maxRecDepth 60000 in
theorem test_coupling_confirmed : let t := after .position1DebounceExpiry (debounced fresh .l 200);
    ((t.pos .p1).state, t.matrix.active, (t.chan 9).state, t.bus.flight.map (·.frame)) =
      (.powering, .l, .drive, some (busFrame 0 9 [])) := by decide
set_option maxRecDepth 60000 in
theorem test_profile_s_measures : ((after .position1DebounceExpiry (debounced fresh .s 200)).pos .p1).state = .measuring := by decide
theorem test_supply_hold : ((after (.supplyReading 19990) (supplied coupled true)).link .a).map (·.pending) = some 0x1000 := by decide
theorem test_supply_at_the_edge : (after (.supplyReading 32000) (supplied coupled false)).bank.supplyInside = true := by decide
theorem test_thermal_at_170 : ((after (.temperatureReading 0 170)
    (withChan coupled 0 { driving 400 0 none with temperatureAge := 10 })).chan 0).state = .thermalOff := by decide
theorem test_derated_at_150 : let ch := (after (.temperatureReading 0 150)
    (withChan coupled 0 { driving 400 0 none with temperatureAge := 10 })).chan 0;
    (ch.state, ch.derated, ch.driveMode) = (.drive, true, .pwm) := by decide
theorem test_cooled_attempt_begins :
    let s := withChan (probed .postponed .off) 0 { derated := true, sinceOff := 40, temperatureAge := 10 };
    let t := after (.temperatureReading 0 129) s;
    (t.chan 0).state = .probeOn ∧ t.bank.probe.map (·.phase) = some .attempt := by decide
theorem test_derated_fails_settled_only : ((after (.temperatureReading 0 150)
    (probing (withChan coupled 0 { driving 60 0 none with temperatureAge := 10 })
      { lamp := 0, pos := .p1, phase := .settledOnly })).pos .p1).contrib.get 0 = failedRecord := by decide
theorem test_trip_above_12000 : let ch := (after (.currentSample 0 12010) (withChan coupled 0 (driving 40 0 none))).chan 0;
    (ch.state, ch.output, ch.streakCount) = (.tripped, false, 1) := by decide
theorem test_no_trip_while_blanked : ((after (.currentSample 0 25000) (withChan coupled 0 (driving 39 0 none))).chan 0).state =
    .drive := by decide
/-- Channel 0 flashing 60 ms into an on-phase, its output on for a time. -/
def flashingFor (onFor : Nat) : State := withChan (flashing ⟨true, true, 60, false⟩ {}) 0
  { state := .drive, demand := .flashTurn, output := true, sinceOn := 60, onFor := onFor }

-- the derating pattern had the output off 40 ms into this on-phase
theorem test_flash_window_needs_the_output_on : [59, 60].map (fun n =>
    ((after (.currentSample 0 500) (flashingFor n)).chan 0).window.isSome) = [false, true] := by decide
theorem test_pattern_on_edge_is_a_new_start :
    ((after (.pwmPhaseEnd 0) (withChan coupled 0
      { state := .drive, demand := .steady, derated := true, sinceOn := 40, onFor := 40, pwmOn := false, pwmAge := 10 })).chan 0).onFor
        = 0 := by decide
theorem test_backfeed_found :
    let t := after (.backfeedCheck 0 12010)
      (withChan (supplied coupled true) 0 { backfeedAge := 300, highCount := 2 });
    ((t.chan 0).backfeed, (t.link .a).map (·.pending)) = (true, some 0x0080) := by decide
set_option maxRecDepth 60000 in
theorem test_check_window_lamp_out : (after (.checkWindowComplete 0)
    (windowed 1000 936 { pending := some ⟨.lampOut, 2⟩, agreement := 2 })).light.fast = true := by decide
theorem test_probe_gap_ends : ((after .probeGapEnd (probed .attempt .probeGap)).chan 0).state = .probeOn := by decide
theorem test_enumerating_begins : (after .poweringCountExpiry (powering 150 0)).bus.flight.map (·.txn) = some (.search 0 0) := by decide
theorem test_silence_clears_turn : (after (.silenceTimeout .a) (withUnit
    { coupled with light := { coupled.light with body := 0x1007 } } .a { role := .body, silenceTimer := 1000 })).light.body = 4 := by decide
theorem test_bus_off : let t := after (.canTransmitError .a) (withUnit (waiting fresh [⟨.a, 1, 16, none, false, 1⟩] []) .a
    { role := .body, buffer := [⟨.reply, []⟩], txErrors := 248, queue := [[5, 1]] });
    ((t.link .a).map fun m => (m.busOff, m.queue, m.buffer), t.dec.deferred) = (some (true, [], []), []) := by decide
set_option maxRecDepth 60000 in
theorem test_fifth_absent_report_tears_down :
    let t := after (.trailerBusFrameReceived (nodeReply 7 [0]) false)
      (flying (behind { absent := 4, closed := true } true) (sent (.poll .p1)));
    ((t.pos .p2).state, (t.pos .p1).state) = (.absent, .online) := by decide
set_option maxRecDepth 60000 in
theorem test_locked_out_repeater_reports_no_more :
    let t := after (.trailerBusFrameReceived (nodeReply 7 [0]) false)
      (flying (unpolled (behind { absent := 4, closed := true } true)) (sent (.poll .p1)));
    ((t.pos .p2).state, t.det.watches.get 0) = (.online, some { absent := 4, closed := true }) := by decide
set_option maxRecDepth 60000 in
-- two re-assignments of one node: the second follows the ACK of the first (Table 5-2, Note 1)
theorem test_second_reassignment_goes_to_the_address :
    let s := claiming (withNode coupled { node with unassigned := true }) [] [.reassign (.single 0) false];
    s.requestOf (.reassign (.single 0) false) = busFrame 255 2 [0, 0, 0, 0x10, 1] ∧
    (after (.trailerBusFrameReceived (nodeReply 2 [1]) false) (flying s (sent (.reassign (.single 0) false)))).bus.flight.map
      (·.frame) = some (busFrame 1 2 [0, 0, 0, 0x10, 1]) := by decide
set_option maxRecDepth 60000 in
theorem test_reused_locked_group_forgets_its_slots :
    let e := { pair with live := false, run := 4, locked := true };
    let s := searching (fresh.setEntry (.group 0) (some e)) (sent (.place
      { ref := .group 0, nodeId := 0x30, addr := 128, run := 2, reuse := true, victim := false, clearUsed := false }));
    ((after (.trailerBusFrameReceived (nodeReply 3 [1]) false) s).slot (.group 0) 0).map
      (fun sl => (sl.number, sl.watch, sl.changed, sl.cache)) = some (none, 0, 0, [0, 0]) := by decide
set_option maxRecDepth 60000 in
theorem test_search_places_a_node : (after (.trailerBusFrameReceived (nodeReply 1 [0x1F, 0, 0x2A, 0x10, 0]) false)
    (searching coupled (sent (.search 0 1)))).bus.flight.map (·.frame) = some (busFrame 255 2 [0x1F, 0, 0x2A, 0x10, 3]) := by decide
set_option maxRecDepth 60000 in
theorem test_timeout_repeats : (after .responseTimeout (flying coupled (sent (.read (.single 0) 0 none)))).bus.flight.map
    (fun f => (f.repeated, f.waited)) = some (true, 0) := by decide

end Sys2Proof.Tests
end

section
/-! What each block holds right after a power-on reset, and O4 put together from it. -/

namespace Sys2Proof.Machine

/-! ## The Coupling Map at reset -/

/-- A directory number is unbound wherever no entry is valid: `State.binding` looks in the slots of valid entries alone
(R26). -/
theorem State.binding_eq_none_of_entries_invalid {s : State} (invalid : ∀ ref, s.entry ref = none) (number : Nat) :
    s.binding number = none :=
  List.findSome?_eq_none_iff.mpr fun ref _ => by simp only [invalid ref]

/-- The defaults of `PosRec` are the ABSENT values of Table 1-2. -/
@[simp] theorem State.pos_resetWith (strap1 strap0 : Bool) (p : Pos) : (State.resetWith strap1 strap0).pos p = {} :=
  Tbl.get_fill _ _

@[simp] theorem State.entry_resetWith (strap1 strap0 : Bool) (ref : EntryRef) :
    (State.resetWith strap1 strap0).entry ref = none := by
  cases ref with
  | single i => exact Tbl.get_fill _ i
  | group j => exact Tbl.get_fill _ j

/-! ## The Channel Bank and the Load Unit at reset -/

/-- The defaults of `Channel` are the reset condition of R44. -/
@[simp] theorem State.chan_resetWith (strap1 strap0 : Bool) (c : ChanId) :
    (State.resetWith strap1 strap0).chan c = {} :=
  Tbl.get_fill _ _

@[simp] theorem expected_resetWith (strap1 strap0 : Bool) (l : LampId) :
    (State.resetWith strap1 strap0).load.expected.get l = 0 :=
  Tbl.get_fill _ _

/-- The defaults of a verdict record are UNCHECKED and empty (R83). -/
@[simp] theorem verdict_resetWith (strap1 strap0 : Bool) (l : LampId) :
    (State.resetWith strap1 strap0).load.verdicts.get l = {} :=
  Tbl.get_fill _ _

/-! ## The trailer bus, the Detector and the command records at reset -/

@[simp] theorem poll_resetWith (strap1 strap0 : Bool) (p : Pos) :
    (State.resetWith strap1 strap0).bus.polls.get (posIdx p) = none :=
  Tbl.get_fill _ _

@[simp] theorem watch_resetWith (strap1 strap0 : Bool) (p : Pos) :
    (State.resetWith strap1 strap0).det.watches.get (posIdx p) = none :=
  Tbl.get_fill _ _

@[simp] theorem record_resetWith (strap1 strap0 : Bool) (r : Role) :
    (State.resetWith strap1 strap0).light.record r = 0 := by
  cases r <;> rfl

/-! ## The obligation -/

/-- POWER_ON_RESET answers the reset state, the model's own queue and free-value counter kept (log 27). -/
theorem exec_powerOnReset (strap1 strap0 : Bool) (s : State) : exec (.powerOnReset strap1 strap0) s =
    .next { State.resetWith strap1 strap0 with pending := s.pending, freeCount := s.freeCount } := rfl

/-- The model's own queue and free-value counter are no part of a channel. -/
@[simp] theorem State.chan_with_queue (s : State) (pending : List Instr) (freeCount : Nat) (c : ChanId) :
    State.chan { s with pending, freeCount } c = s.chan c := rfl

/-- Settles O4: the tables of each block by the lemmas above, the single fields by the definition of the reset state. -/
theorem powerOnResetState : Obligations.PowerOnResetState := by
  intro a b s
  refine ⟨_, exec_powerOnReset a b s, State.pos_resetWith a b, State.entry_resetWith a b,
    State.binding_eq_none_of_entries_invalid (State.entry_resetWith a b),
    rfl, rfl, rfl, rfl, ?channels,
    rfl, rfl, rfl, rfl, rfl, fun l => ⟨expected_resetWith a b l, verdict_resetWith a b l⟩,
    rfl, rfl, rfl, rfl, poll_resetWith a b,
    rfl, rfl, rfl, rfl, rfl, watch_resetWith a b,
    record_resetWith a b, rfl, rfl, rfl, rfl, rfl, rfl⟩
  case channels =>
    intro c
    simp only [State.chan_with_queue, State.chan_resetWith]
    decide

end Sys2Proof.Machine
end

section
/-! What the requests of the masters do to the laws of the part: each command keeps them, put together from the operations
it carries out (Laws/Keeps.lean and the files after it). -/

namespace Sys2Proof.Machine

/-- Whatever state a command answers has the laws of `s₀` and its command queue. -/
def ResultKeeps (s₀ : State) (r : Result) : Prop := ∀ t, r = .next t → Keeps s₀ t

@[simp] theorem resultKeeps_next {s₀ t : State} : ResultKeeps s₀ (.next t) ↔ Keeps s₀ t :=
  ⟨fun h => h t rfl, fun h u hu => by cases hu; exact h⟩

/-- A command that finds nothing to do. -/
theorem resultKeeps_refl (s : State) : ResultKeeps s (.next s) := resultKeeps_next.2 (Keeps.refl s)

variable {s₀ s : State}

/-! ## The two ends of a request -/

/-- A request that makes no claim: carried out on the state without it, then the attention frames. -/
theorem finishedRequest_keeps (s : State) (l : LinkId) (k : ReqKind) {act : Taken → State → State}
    (hact : ∀ t x, Keeps s x → Keeps s (act t x)) : ResultKeeps s (.next (s.finish (s.serve l k act))) :=
  resultKeeps_next.2 (keeps_finish (keeps_serve (Keeps.refl s) l k act hact))

/-- A request that may make a claim: the arbiter acts before the attention frames. -/
theorem settledRequest_keeps (s : State) (l : LinkId) (k : ReqKind) {act : Taken → State → State}
    (hact : ∀ t x, Keeps s x → Keeps s (act t x)) : ResultKeeps s (.next (s.settle (s.serve l k act))) :=
  resultKeeps_next.2 (keeps_settle (keeps_serve (Keeps.refl s) l k act hact))

/-! ## Arrival, and requests that fail the form step -/

theorem execRequestArrival_keeps (l : LinkId) (f : CanFrame) (s : State) : ResultKeeps s (execRequestArrival l f s) := by
  unfold execRequestArrival
  split
  · exact resultKeeps_refl s
  · rename_i m hm
    split
    · exact resultKeeps_refl s
    · exact resultKeeps_next.2 (keeps_arrive (Keeps.refl s) l hm _)

theorem keeps_serveMalformed (h : Keeps s₀ s) (l : LinkId) : Keeps s₀ (s.serveMalformed l) := by
  unfold State.serveMalformed
  split
  · exact h
  · split
    · exact h
    · split
      · exact keeps_reply (keeps_unqueue h l) _ _ _ _ _
      · exact h

theorem execMalformedRequest_keeps (l : LinkId) (s : State) : ResultKeeps s (execMalformedRequest l s) :=
  resultKeeps_next.2 (keeps_finish (keeps_serveMalformed (Keeps.refl s) l))

/-! ## Lighting -/

theorem keeps_lightingSet (h : Keeps s₀ s) (l : LinkId) (t : Taken) (named asked : Word16) :
    Keeps s₀ (s.lightingSet l t named asked) := by
  unfold State.lightingSet
  dsimp only
  split
  · exact keeps_answer h _ _ _ _ _
  · split
    · exact keeps_answer h _ _ _ _ _
    · exact keeps_answer (keeps_setRecord h _ _) _ _ _ _ _

theorem execLightingSet_keeps (l : LinkId) (s : State) : ResultKeeps s (execLightingSet l s) := by
  refine settledRequest_keeps s l _ fun t x hx => ?_
  split
  · exact keeps_lightingSet hx _ _ _ _
  · exact hx

theorem keeps_setGrant (h : Keeps s₀ s) (on : Bool) : Keeps s₀ (s.setGrant on) := by
  unfold State.setGrant
  split
  · exact h.same
  · exact keeps_setRecord (s := { s with light := { s.light with grant := false } }) h.same _ _

theorem execWorkshopGrant_keeps (l : LinkId) (s : State) : ResultKeeps s (execWorkshopGrant l s) := by
  refine settledRequest_keeps s l _ fun t x hx => ?_
  split
  · exact keeps_answer (keeps_setGrant hx _) _ _ _ _ _
  · exact hx

/-! ## Channels -/

theorem keeps_channelStatus (h : Keeps s₀ s) (l : LinkId) (tag b : Byte) : Keeps s₀ (s.channelStatus l tag b) := by
  unfold State.channelStatus
  split <;> exact keeps_answer h _ _ _ _ _

theorem execChannelStatus_keeps (l : LinkId) (s : State) : ResultKeeps s (execChannelStatus l s) := by
  refine finishedRequest_keeps s l _ fun t x hx => ?_
  split
  · exact keeps_channelStatus hx _ _ _
  · exact hx

theorem keeps_clearChan (h : Keeps s₀ s) (c : ChanId) : Keeps s₀ (s.clearChan c) := by
  unfold State.clearChan
  dsimp only
  split
  · rename_i latched
    exact keeps_testProbe (keeps_putChan h c fun hc => Channel.lawful_clear hc latched _ _)
  · exact h

theorem keeps_channelClear (h : Keeps s₀ s) (l : LinkId) (tag b : Byte) : Keeps s₀ (s.channelClear l tag b) := by
  unfold State.channelClear
  split
  · exact keeps_answer h _ _ _ _ _
  · exact keeps_answer (keeps_clearChan h _) _ _ _ _ _

theorem execChannelClear_keeps (l : LinkId) (s : State) : ResultKeeps s (execChannelClear l s) := by
  refine finishedRequest_keeps s l _ fun t x hx => ?_
  split
  · exact keeps_channelClear hx _ _ _
  · exact hx

theorem keeps_tripRecordRead (h : Keeps s₀ s) (l : LinkId) (t : Taken) (b : Byte) (clear : Bool) :
    Keeps s₀ (s.tripRecordRead l t b clear) := by
  unfold State.tripRecordRead
  split
  · exact keeps_answer h _ _ _ _ _
  · split
    · exact keeps_answer h _ _ _ _ _
    · refine keeps_answer ?_ _ _ _ _ _
      split
      · exact keeps_putChan h _ fun hc => Channel.lawful_of_fields hc rfl rfl rfl rfl
      · exact h

theorem execTripRecordRead_keeps (l : LinkId) (s : State) : ResultKeeps s (execTripRecordRead l s) := by
  refine finishedRequest_keeps s l _ fun t x hx => ?_
  split
  · exact keeps_tripRecordRead hx _ _ _ _
  · exact hx

/-! ## The Coupling Map -/

theorem execPositionRead_keeps (l : LinkId) (s : State) : ResultKeeps s (execPositionRead l s) := by
  refine finishedRequest_keeps s l _ fun t x hx => ?_
  split
  · exact keeps_answer hx _ _ _ _ _
  · exact hx

theorem execNodeRead_keeps (l : LinkId) (s : State) : ResultKeeps s (execNodeRead l s) := by
  refine finishedRequest_keeps s l _ fun t x hx => ?_
  split
  · exact keeps_answer hx _ _ _ _ _
  · exact hx

/-- A relearn is begun of a live position, which its probe requests then stand for (R136 (1)). -/
theorem keeps_startRelearn (h : Keeps s₀ s) {p : Pos} (live : s.live p = true) : Keeps s₀ (s.startRelearn p) := by
  have shadowed := keeps_modPos h p (f := fun r => { r with shadow := Tbl.fill 10 {}, relearn := true })
  have still := live_modPos (s := s) p p (f := fun r => { r with shadow := Tbl.fill 10 {}, relearn := true }) fun _ => rfl
  exact keeps_measure p allLamps shadowed.same fun _ => still.trans live

theorem keeps_relearn (h : Keeps s₀ s) (l : LinkId) (tag b : Byte) : Keeps s₀ (s.relearn l tag b) := by
  unfold State.relearn
  split
  · exact keeps_answer h _ _ _ _ _
  · split
    · exact keeps_answer h _ _ _ _ _
    · rename_i live
      split
      · exact keeps_answer h _ _ _ _ _
      · exact keeps_answer (keeps_startRelearn h (by simpa using live)) _ _ _ _ _

theorem execRelearn_keeps (l : LinkId) (s : State) : ResultKeeps s (execRelearn l s) := by
  refine finishedRequest_keeps s l _ fun t x hx => ?_
  split
  · exact keeps_relearn hx _ _ _
  · exact hx

theorem execMapRebuild_keeps (l : LinkId) (s : State) : ResultKeeps s (execMapRebuild l s) := by
  refine settledRequest_keeps s l _ fun t x hx => ?_
  split
  · exact keeps_answer (keeps_rebuild hx) _ _ _ _ _
  · exact hx

theorem keeps_forcedChange (h : Keeps s₀ s) (e : Profile) : Keeps s₀ (s.forcedChange e) := by
  unfold State.forcedChange
  split
  · exact keeps_teardown (s := { s with det := { s.det with effective := e } }) h.same _
  · exact keeps_codeChange h _

theorem keeps_force (h : Keeps s₀ s) (f : Forced) : Keeps s₀ (s.force f) := by
  have forced : Keeps s₀ { s with matrix := { s.matrix with forced := f } } := h.same
  unfold State.force
  dsimp only
  split
  · exact forced
  · exact keeps_forcedChange forced _

theorem keeps_profileForce (h : Keeps s₀ s) (l : LinkId) (tag b : Byte) : Keeps s₀ (s.profileForce l tag b) := by
  unfold State.profileForce
  split
  · exact keeps_answer h _ _ _ _ _
  · exact keeps_answer (keeps_force h _) _ _ _ _ _

theorem execProfileForce_keeps (l : LinkId) (s : State) : ResultKeeps s (execProfileForce l s) := by
  refine settledRequest_keeps s l _ fun t x hx => ?_
  split
  · exact keeps_profileForce hx _ _ _
  · exact hx

/-! ## Events of a link -/

theorem keeps_eventExchange (h : Keeps s₀ s) (l : LinkId) (tag : Byte) (clear : EventSet) :
    Keeps s₀ (s.eventExchange l tag clear) := by
  unfold State.eventExchange
  split
  · exact h
  · rename_i m hm
    refine keeps_answer (keeps_setLink h l hm ?_ ?_) _ _ _ _ _
    · exact id
    intro within
    show (m.pending &&& ~~~ clear) &&& ~~~ m.interest = 0
    rw [BitVec.and_assoc, BitVec.and_comm (~~~ clear), ← BitVec.and_assoc, within]
    exact BitVec.zero_and

theorem execEventExchange_keeps (l : LinkId) (s : State) : ResultKeeps s (execEventExchange l s) := by
  refine finishedRequest_keeps s l _ fun t x hx => ?_
  split
  · exact keeps_eventExchange hx _ _ _
  · exact hx

theorem keeps_interestSet (h : Keeps s₀ s) (l : LinkId) (tag : Byte) (interest : EventSet) :
    Keeps s₀ (s.interestSet l tag interest) := by
  unfold State.interestSet
  split
  · exact h
  · rename_i m hm
    refine keeps_answer (keeps_setLink h l hm ?_ ?_) _ _ _ _ _
    · exact id
    intro _
    show (m.pending &&& interest) &&& ~~~ interest = 0
    rw [BitVec.and_assoc, BitVec.and_not_self]
    exact BitVec.and_zero

theorem execInterestSet_keeps (l : LinkId) (s : State) : ResultKeeps s (execInterestSet l s) := by
  refine finishedRequest_keeps s l _ fun t x hx => ?_
  split
  · exact keeps_interestSet hx _ _ _
  · exact hx

/-! ## Numbered functions -/

theorem keeps_markUsed (h : Keeps s₀ s) (ref : EntryRef) : Keeps s₀ (s.markUsed ref) := keeps_modEntry h _ _

theorem keeps_readServed (h : Keeps s₀ s) (l : LinkId) (t : Taken) (n : Nat) (f : Found) :
    Keeps s₀ (s.readServed l t n f) := by
  have cached : ∀ q, Keeps s₀ (s.readCached l t f q) := fun _ => keeps_answer (keeps_dropChanged h _ _ _) _ _ _ _ _
  unfold State.readServed
  split
  · exact cached _
  · split
    · exact cached _
    · exact keeps_admit h l _ _ _ rfl

theorem keeps_functionRead (h : Keeps s₀ s) (l : LinkId) (t : Taken) (b : Byte) : Keeps s₀ (s.functionRead l t b) := by
  unfold State.functionRead
  split
  · exact keeps_answer h _ _ _ _ _
  · exact keeps_onServed h _ _ _ _ _ fun x hx => keeps_readServed hx _ _ _ _

theorem execFunctionRead_keeps (l : LinkId) (s : State) : ResultKeeps s (execFunctionRead l s) := by
  refine settledRequest_keeps s l _ fun t x hx => ?_
  split
  · exact keeps_functionRead hx _ _ _
  · exact hx

theorem keeps_writeServed (h : Keeps s₀ s) (l : LinkId) (t : Taken) (n : Nat) (f : Found) (v : Word16) :
    Keeps s₀ (s.writeServed l t n f v) := by
  unfold State.writeServed
  split
  · exact keeps_answer h _ _ _ _ _
  · dsimp only
    split
    · exact keeps_admit h l _ _ _ rfl
    · exact keeps_post h _ _ _ _
    · exact keeps_post h _ _ _ _

theorem keeps_functionWrite (h : Keeps s₀ s) (l : LinkId) (t : Taken) (b : Byte) (v : Word16) :
    Keeps s₀ (s.functionWrite l t b v) := by
  unfold State.functionWrite
  split
  · exact keeps_answer h _ _ _ _ _
  · split
    · exact keeps_onServed h _ _ _ _ _ fun x hx => keeps_writeServed hx _ _ _ _ _
    · exact keeps_answer h _ _ _ _ _

theorem execFunctionWrite_keeps (l : LinkId) (s : State) : ResultKeeps s (execFunctionWrite l s) := by
  refine settledRequest_keeps s l _ fun t x hx => ?_
  split
  · exact keeps_functionWrite hx _ _ _ _
  · exact hx

theorem keeps_setWatcher (h : Keeps s₀ s) (f : Found) (r : Role) (add : Bool) : Keeps s₀ (s.setWatcher f r add) := by
  unfold State.setWatcher
  split
  · refine keeps_modSlot ?_ _ _ _
    split
    · exact keeps_report h _ _
    · exact h
  · exact keeps_modSlot h _ _ _

theorem keeps_watch (h : Keeps s₀ s) (l : LinkId) (t : Taken) (b : Byte) (add : Bool) (delta : Word16) :
    Keeps s₀ (s.watch l t b add delta) := by
  unfold State.watch
  split
  · exact keeps_answer h _ _ _ _ _
  · exact keeps_onServed h _ _ _ _ _ fun x hx =>
      keeps_answer (keeps_modSlot (keeps_setWatcher hx _ _ _) _ _ _) _ _ _ _ _

theorem execWatch_keeps (l : LinkId) (s : State) : ResultKeeps s (execWatch l s) := by
  refine settledRequest_keeps s l _ fun t x hx => ?_
  split
  · exact keeps_watch hx _ _ _ _ _
  · exact hx

theorem keeps_directoryQuery (h : Keeps s₀ s) (l : LinkId) (t : Taken) (f : Filters) (start : Nat) :
    Keeps s₀ (s.directoryQuery l t f start) := by
  unfold State.directoryQuery
  refine keeps_answer ?_ _ _ _ _ _
  split
  · exact keeps_mapEntries h _
  · exact h

theorem execDirectoryQuery_keeps (l : LinkId) (s : State) : ResultKeeps s (execDirectoryQuery l s) := by
  refine finishedRequest_keeps s l _ fun t x hx => ?_
  split
  · exact keeps_directoryQuery hx _ _ _ _
  · exact hx

theorem keeps_pinDone (h : Keeps s₀ s) (l : LinkId) (t : Taken) (f : Found) (set : Bool) (st : Status) :
    Keeps s₀ (s.pinDone l t f set st) := keeps_answer (keeps_modEntry h _ _) _ _ _ _ _

theorem keeps_pin (h : Keeps s₀ s) (l : LinkId) (t : Taken) (b : Byte) (set : Bool) : Keeps s₀ (s.pin l t b set) := by
  unfold State.pin
  split
  · exact keeps_answer h _ _ _ _ _
  · dsimp only
    split
    · exact keeps_pinDone (keeps_markUsed h _) _ _ _ _ _
    · exact keeps_answer (keeps_markUsed h _) _ _ _ _ _
    · exact keeps_pinDone (keeps_markUsed h _) _ _ _ _ _

theorem execPin_keeps (l : LinkId) (s : State) : ResultKeeps s (execPin l s) := by
  refine finishedRequest_keeps s l _ fun t x hx => ?_
  split
  · exact keeps_pin hx _ _ _ _
  · exact hx

theorem keeps_quarantineLive (h : Keeps s₀ s) (f : Found) (set : Bool) : Keeps s₀ (s.quarantineLive f set) := by
  unfold State.quarantineLive
  split
  · exact h
  · split
    · exact keeps_lockOut h _
    · exact keeps_releaseEntry h _

theorem keeps_quarantineDone (h : Keeps s₀ s) (l : LinkId) (t : Taken) (f : Found) (st : Status) :
    Keeps s₀ (s.quarantineDone l t f st) := keeps_answer h _ _ _ _ _

theorem keeps_quarantine (h : Keeps s₀ s) (l : LinkId) (t : Taken) (b : Byte) (set : Bool) :
    Keeps s₀ (s.quarantine l t b set) := by
  unfold State.quarantine
  split
  · exact keeps_answer h _ _ _ _ _
  · dsimp only
    split
    · exact keeps_quarantineDone (keeps_modEntry (keeps_markUsed h _) _ _) _ _ _ _
    · exact keeps_answer (keeps_markUsed h _) _ _ _ _ _
    · exact keeps_quarantineDone (keeps_quarantineLive (keeps_markUsed h _) _ _) _ _ _ _

theorem execQuarantine_keeps (l : LinkId) (s : State) : ResultKeeps s (execQuarantine l s) := by
  refine settledRequest_keeps s l _ fun t x hx => ?_
  split
  · exact keeps_quarantine hx _ _ _ _
  · exact hx

theorem keeps_freshnessSet (h : Keeps s₀ s) (l : LinkId) (t : Taken) (b : Byte) (window : Word16) :
    Keeps s₀ (s.freshnessSet l t b window) := by
  unfold State.freshnessSet
  split
  · exact keeps_answer h _ _ _ _ _
  · exact keeps_onServed h _ _ _ _ _ fun x hx => keeps_answer (keeps_modSlot hx _ _ _) _ _ _ _ _

theorem execFreshnessSet_keeps (l : LinkId) (s : State) : ResultKeeps s (execFreshnessSet l s) := by
  refine settledRequest_keeps s l _ fun t x hx => ?_
  split
  · exact keeps_freshnessSet hx _ _ _ _
  · exact hx

end Sys2Proof.Machine
end

section
/-! What power-on reset and the events of the CAN ports, the Channel Bank, the Detector and the trailer bus do to the laws
of the part: each command keeps them. -/

namespace Sys2Proof.Machine

variable {s₀ s : State}

/-! ## Power-on reset and the CAN ports -/

/-- After reset the laws hold outright, whatever held before. -/
theorem execPowerOnReset_keeps (strap1 strap0 : Bool) (s : State) : ResultKeeps s (execPowerOnReset strap1 strap0 s) := by
  refine resultKeeps_next.2 ⟨rfl, fun _ => ?_, fun _ => ?_, fun _ => ?_, fun _ => ?_, fun _ => ?_⟩ <;>
    cases strap1 <;> cases strap0 <;> rfl

theorem execCanFrameTransmitted_keeps (l : LinkId) (s : State) : ResultKeeps s (execCanFrameTransmitted l s) := by
  unfold execCanFrameTransmitted
  split
  · exact resultKeeps_refl s
  · rename_i m hm
    have paid : m.sent.payOwed.queue = m.queue ∧ m.sent.payOwed.pending = m.pending ∧
        m.sent.payOwed.interest = m.interest := by
      unfold Mlu.payOwed
      split <;> exact ⟨rfl, rfl, rfl⟩
    obtain ⟨hqueue, hpending, hinterest⟩ := paid
    split
    · exact resultKeeps_refl s
    · exact resultKeeps_next.2 (keeps_setLink (Keeps.refl s) l hm (by rw [hqueue]; exact id)
        (by rw [hpending, hinterest]; exact id))

/-- The Deferred List entries of one link dropped, and their transaction in flight marked. -/
theorem keeps_flushDeferred (h : Keeps s₀ s) (l : LinkId) : Keeps s₀ { s with
    dec := { s.dec with deferred := s.dec.deferred.filter fun d => d.link ≠ l }
    bus := { s.bus with flight := s.bus.flight.map (InFlight.busOff l) } } := by
  have flushed := h.decoded (d := { s.dec with deferred := s.dec.deferred.filter fun d => d.link ≠ l })
    (bounded_deferred rfl (List.filter_sublist.map _))
  exact flushed.same

theorem keeps_enterBusOff (h : Keeps s₀ s) {l : LinkId} {m : Mlu} (hm : s.link l = some m) :
    Keeps s₀ (s.enterBusOff l m) :=
  keeps_flushDeferred (s := s.setLink l { m with busOff := true, queue := [], buffer := [], owed := false })
    (keeps_setLink h l hm fun _ => Nat.zero_le 4) l

theorem execCanTransmitError_keeps (l : LinkId) (s : State) : ResultKeeps s (execCanTransmitError l s) := by
  unfold execCanTransmitError
  split
  · exact resultKeeps_refl s
  · rename_i m hm
    split
    · exact resultKeeps_refl s
    · split
      · exact resultKeeps_next.2 (keeps_enterBusOff (Keeps.refl s) hm)
      · exact resultKeeps_next.2 (keeps_setLink (Keeps.refl s) l hm)

theorem execBusOffRecovery_keeps (l : LinkId) (s : State) : ResultKeeps s (execBusOffRecovery l s) := by
  unfold execBusOffRecovery
  split
  · exact resultKeeps_refl s
  · rename_i m hm
    split
    · exact resultKeeps_next.2 (keeps_setLink (Keeps.refl s) l hm)
    · exact resultKeeps_refl s

theorem keeps_fallSilent (h : Keeps s₀ s) (l : LinkId) (r : Role) : Keeps s₀ (s.fallSilent l r) :=
  keeps_raiseFor (keeps_setRecord (keeps_modLink h l (fun m => { m with silent := true }) (fun _ => Nat.le_refl _)
    fun _ => id) _ _) _ _

theorem execSilenceTimeout_keeps (l : LinkId) (s : State) : ResultKeeps s (execSilenceTimeout l s) := by
  unfold execSilenceTimeout
  split
  · exact resultKeeps_refl s
  · split
    · exact resultKeeps_refl s
    · exact resultKeeps_next.2 (keeps_settle (keeps_fallSilent (keeps_await (Keeps.refl s) _ _) _ _))

/-! ## Readings -/

theorem keeps_supplyLost (h : Keeps s₀ s) : Keeps s₀ s.supplyLost := by
  unfold State.supplyLost
  split
  · exact h
  · rename_i q hq
    split
    · exact keeps_abandonAttempt h q (h.probe_live hq)
    · exact h

/-- A supply reading reaches the channels through their check windows alone. -/
theorem keeps_supplyRead (h : Keeps s₀ s) (inside : Bool) (mv : Nat) : Keeps s₀ { s with bank := { s.bank with
    channels := s.bank.channels.map (Channel.supplyRead inside), supply := mv, supplyInside := inside,
    supplyAge := 0 } } := by
  refine h.step rfl id ?_ (fun _ => id) id id
  rw [channelsLawful_iff, channelsLawful_iff]
  intro lawful c
  simp only [State.chan, Tbl.get_map]
  exact Channel.lawful_of_fields (lawful c) rfl rfl rfl rfl

theorem keeps_readSupply (h : Keeps s₀ s) (mv : Nat) : Keeps s₀ (s.readSupply mv) := by
  have read := keeps_supplyRead h (supplyInside mv) mv
  unfold State.readSupply
  dsimp only
  split
  · exact keeps_supplyLost (keeps_raiseAll read _)
  · split
    · exact keeps_testProbe read
    · exact read

theorem execSupplyReading_keeps (mv : Nat) (s : State) : ResultKeeps s (execSupplyReading mv s) :=
  resultKeeps_next.2 (keeps_settle (keeps_readSupply (keeps_await (Keeps.refl s) _ _) _))

theorem keeps_readTemperature (h : Keeps s₀ s) (c : ChanId) (deg : Int) : Keeps s₀ (s.readTemperature c deg) := by
  have heated := keeps_putChan h c
    fun hc => Channel.lawful_heat hc (s.routed c) (s.wantsOn (s.chan c).demand) deg
  unfold State.readTemperature
  dsimp only
  generalize (s.chan c).heat (s.routed c) (s.wantsOn (s.chan c).demand) deg = r at heated ⊢
  obtain ⟨ch', raised⟩ := r
  dsimp only at heated ⊢
  have told : Keeps s₀ (if raised then (s.putChan c ch').raiseAll .thermal else s.putChan c ch') := by
    split
    · exact keeps_raiseAll heated _
    · exact heated
  generalize (if raised then (s.putChan c ch').raiseAll .thermal else s.putChan c ch') = x at told ⊢
  split
  · split
    · exact keeps_disturbProbe told
    · exact keeps_testProbe told
  · exact told

theorem execTemperatureReading_keeps (c : ChanId) (deg : Int) (s : State) :
    ResultKeeps s (execTemperatureReading c deg s) :=
  resultKeeps_next.2 (keeps_settle (keeps_readTemperature (keeps_await (Keeps.refl s) _ _) _ _))

theorem keeps_tripChan (h : Keeps s₀ s) (c : ChanId) : Keeps s₀ (s.tripChan c) := by
  have tripped := keeps_raiseAll (keeps_putChan h c fun hc => Channel.lawful_tripOut hc s.bank.supply) .channelTrip
  unfold State.tripChan
  dsimp only
  generalize (s.chan c).tripOut s.bank.supply = ch' at tripped ⊢
  have told : Keeps s₀ (if ch'.state = .latched then ((s.putChan c ch').raiseAll .channelTrip).raiseAll .channelLatched
      else (s.putChan c ch').raiseAll .channelTrip) := by
    split
    · exact keeps_raiseAll tripped _
    · exact tripped
  split
  · exact told
  · rename_i q hq
    split
    · exact told
    · split
      · exact keeps_handOutcome told q _ (told.probe_live hq)
      · exact keeps_disturbProbe told

theorem keeps_sampleChan (h : Keeps s₀ s) (c : ChanId) (ma : Nat) : Keeps s₀ (s.sampleChan c ma) := by
  have taken : ∀ w, Keeps s₀ (s.putChan c
      { s.chan c with sampled := true, peak := max (s.chan c).peak ma, window := w }) :=
    fun _ => keeps_putChan h c fun hc => Channel.lawful_of_fields hc rfl rfl rfl rfl
  unfold State.sampleChan
  dsimp only
  split
  · exact keeps_tripChan (taken _) c
  · exact keeps_probeSample (taken _) c ma

theorem execCurrentSample_keeps (c : ChanId) (ma : Nat) (s : State) : ResultKeeps s (execCurrentSample c ma s) := by
  unfold execCurrentSample
  dsimp only
  split
  · exact resultKeeps_refl s
  · refine resultKeeps_next.2 (keeps_settle (keeps_sampleChan ?_ c _))
    split
    · exact keeps_elapse (Keeps.refl s) 1
    · exact Keeps.refl s

/-! ## Timers and phases of the channels -/

theorem execTripCooldownExpiry_keeps (c : ChanId) (s : State) : ResultKeeps s (execTripCooldownExpiry c s) := by
  unfold execTripCooldownExpiry
  dsimp only
  split
  · exact resultKeeps_next.2 (keeps_finish (keeps_testProbe (keeps_takeDemand (keeps_await (Keeps.refl s) _ _) c)))
  · exact resultKeeps_refl s

theorem execStreakTimerExpiry_keeps (c : ChanId) (s : State) : ResultKeeps s (execStreakTimerExpiry c s) := by
  unfold execStreakTimerExpiry
  dsimp only
  split
  · exact resultKeeps_next.2 (keeps_putChan (keeps_await (Keeps.refl s) _ _) c
      fun hc => Channel.lawful_of_fields hc rfl rfl rfl rfl)
  · exact resultKeeps_refl s

theorem keeps_phaseChan (h : Keeps s₀ s) (d : Demand) (c : ChanId) : Keeps s₀ (State.phaseChan d s c) := by
  unfold State.phaseChan
  dsimp only
  split
  · exact h
  · split
    case h_1 drives =>
      split
      · exact keeps_putChan h c fun hc => Channel.lawful_phaseOn hc drives
      · split
        · exact keeps_putChan h c Channel.lawful_toGap
        · exact keeps_putChan h c fun hc => Channel.lawful_of_drive hc drives (by simp [drives]) (by simp) (by simp)
    case h_2 =>
      split
      · exact keeps_putChan h c Channel.lawful_toProbeOn
      · exact h
    all_goals exact h

theorem keeps_turnPhase (h : Keeps s₀ s) : Keeps s₀ s.turnPhase :=
  keeps_foldl (fun _ c hx => keeps_phaseChan hx .flashTurn c) [0, 1] h.same

theorem execTurnFlasherPhaseEnd_keeps (s : State) : ResultKeeps s (execTurnFlasherPhaseEnd s) := by
  unfold execTurnFlasherPhaseEnd
  dsimp only
  split
  · exact resultKeeps_next.2 (keeps_finish (keeps_turnPhase (keeps_await (Keeps.refl s) _ _)))
  · exact resultKeeps_refl s

theorem keeps_armSettledOnly (h : Keeps s₀ s) : Keeps s₀ s.armSettledOnly := by
  unfold State.armSettledOnly
  split
  · exact h
  · rename_i q hq
    have live := h.probe_live hq
    split
    · split
      · exact keeps_handOutcome h q _ live
      · exact keeps_setProbe h live
    · exact h

theorem keeps_emergencyPhase (h : Keeps s₀ s) : Keeps s₀ s.emergencyPhase :=
  keeps_armSettledOnly (keeps_phaseChan h.same .flashEmergency 2)

theorem execEmergencyFlasherPhaseEnd_keeps (s : State) : ResultKeeps s (execEmergencyFlasherPhaseEnd s) := by
  unfold execEmergencyFlasherPhaseEnd
  dsimp only
  split
  · exact resultKeeps_next.2 (keeps_settle (keeps_emergencyPhase (keeps_await (Keeps.refl s) _ _)))
  · exact resultKeeps_refl s

/-- Waiting changes no channel's state. -/
theorem chan_state_await (s : State) (e n : Nat) (c : ChanId) : ((s.await e n).chan c).state = (s.chan c).state := by
  unfold State.await
  rw [elapse_chan]
  split <;> rfl

theorem execPwmPhaseEnd_keeps (c : ChanId) (s : State) : ResultKeeps s (execPwmPhaseEnd c s) := by
  unfold execPwmPhaseEnd
  dsimp only
  split
  · rename_i under
    exact resultKeeps_next.2 (keeps_putChan (keeps_await (Keeps.refl s) _ _) c
      fun hc => Channel.lawful_pwmNext hc ((chan_state_await ..).trans under.1) _)
  · exact resultKeeps_refl s

theorem keeps_checkBackfeed (h : Keeps s₀ s) (c : ChanId) (mv : Nat) : Keeps s₀ (s.checkBackfeed c mv) := by
  have checked := keeps_putChan h c fun hc => Channel.lawful_backfeedCheck hc s.bank.supply mv
  unfold State.checkBackfeed
  generalize (s.chan c).backfeedCheck s.bank.supply mv = r at checked ⊢
  obtain ⟨ch, raised⟩ := r
  dsimp only at checked ⊢
  have told := keeps_raiseAll checked .backfeed
  split
  · split
    · exact told
    · rename_i q hq
      split
      · exact keeps_handOutcome told q _ (told.probe_live hq)
      · exact told
  · exact checked

theorem execBackfeedCheck_keeps (c : ChanId) (mv : Nat) (s : State) : ResultKeeps s (execBackfeedCheck c mv s) := by
  unfold execBackfeedCheck
  dsimp only
  split
  · exact resultKeeps_next.2 (keeps_settle (keeps_checkBackfeed (keeps_await (Keeps.refl s) _ _) _ _))
  · exact resultKeeps_refl s

theorem keeps_windowDone (h : Keeps s₀ s) (c : ChanId) (w : Window) : Keeps s₀ (s.windowDone c w) := by
  have closed : Keeps s₀ (s.putChan c { s.chan c with settledMean := meanOf w.samples, window := none }) :=
    keeps_putChan h c fun hc => Channel.lawful_of_fields hc rfl rfl rfl rfl
  unfold State.windowDone
  dsimp only
  split
  · split
    · exact keeps_evaluate closed _ _ _
    · exact closed
  · exact closed

theorem execCheckWindowComplete_keeps (c : ChanId) (s : State) : ResultKeeps s (execCheckWindowComplete c s) := by
  unfold execCheckWindowComplete
  split
  · exact resultKeeps_refl s
  · split
    · exact resultKeeps_next.2 (keeps_finish (keeps_windowDone (Keeps.refl s) _ _))
    · exact resultKeeps_refl s

/-! ## Probes -/

theorem execProbeGapEnd_keeps (s : State) : ResultKeeps s (execProbeGapEnd s) := by
  unfold execProbeGapEnd
  split
  · exact resultKeeps_refl s
  · dsimp only
    split
    · exact resultKeeps_next.2 (keeps_putChan (keeps_await (Keeps.refl s) _ _) _ Channel.lawful_toProbeOn)
    · exact resultKeeps_refl s

theorem keeps_keepMean (h : Keeps s₀ s) (q : Probe) : Keeps s₀ (s.keepMean q) :=
  keeps_putChan h _ fun hc => Channel.lawful_of_fields hc rfl rfl rfl rfl

theorem execProbeAttemptComplete_keeps (s : State) : ResultKeeps s (execProbeAttemptComplete s) := by
  unfold execProbeAttemptComplete
  split
  · exact resultKeeps_refl s
  · rename_i q hq
    dsimp only
    split
    · have taken := keeps_takeDemand (keeps_keepMean (Keeps.refl s) q) (lampChan q.lamp)
      exact resultKeeps_next.2 (keeps_settle (keeps_handOutcome taken q _ (taken.probe_live hq)))
    · exact resultKeeps_refl s

theorem execSettledOnlyComplete_keeps (s : State) : ResultKeeps s (execSettledOnlyComplete s) := by
  unfold execSettledOnlyComplete
  split
  · exact resultKeeps_refl s
  · rename_i q hq
    split
    · have kept := keeps_keepMean (Keeps.refl s) q
      exact resultKeeps_next.2 (keeps_settle (keeps_handOutcome kept q _ (kept.probe_live hq)))
    · exact resultKeeps_refl s

theorem keeps_limitOver (h : Keeps s₀ s) {q : Probe} (hq : s.bank.probe = some q) : Keeps s₀ (s.limitOver q) := by
  have live := h.probe_live hq
  unfold State.limitOver
  split
  · exact keeps_setProbe h live
  · exact keeps_resolveExpired h q live

theorem execProbeLimitExpiry_keeps (s : State) : ResultKeeps s (execProbeLimitExpiry s) := by
  unfold execProbeLimitExpiry
  split
  · exact resultKeeps_refl s
  · split
    · exact resultKeeps_refl s
    · have waited := fun e => keeps_await (Keeps.refl s) e Config.probeLimit
      dsimp only
      split
      · rename_i hq
        exact resultKeeps_next.2 (keeps_settle (keeps_limitOver (waited _) hq))
      · exact resultKeeps_next.2 (waited _)

/-! ## Code contacts -/

theorem keeps_sampleCode (h : Keeps s₀ s) (ka kb : Nat) : Keeps s₀ (s.sampleCode ka kb) := by
  have read : Keeps s₀ { s with matrix := { s.matrix with
      kaGrounded := readContact s.matrix.kaGrounded ka
      kbGrounded := readContact s.matrix.kbGrounded kb
      sampleAge := 0 } } := h.same
  unfold State.sampleCode
  dsimp only
  split
  · exact read
  · exact keeps_codeChange read _

theorem execCodeSample_keeps (ka kb : Nat) (s : State) : ResultKeeps s (execCodeSample ka kb s) :=
  resultKeeps_next.2 (keeps_finish (keeps_sampleCode (keeps_await (Keeps.refl s) _ _) _ _))

/-- A debounce that runs out tears position 1 down where it is live, and confirms it only where it is not. -/
theorem keeps_debounceOver (h : Keeps s₀ s) (candidate : Profile) : Keeps s₀ (s.debounceOver candidate) := by
  have stopped := keeps_stopDebounce h
  unfold State.debounceOver
  dsimp only
  split
  · exact keeps_teardown stopped _
  · rename_i absent
    split
    · exact stopped
    · exact keeps_confirmFirst stopped _ fun _ => by simpa using absent

theorem execPosition1DebounceExpiry_keeps (s : State) : ResultKeeps s (execPosition1DebounceExpiry s) := by
  unfold execPosition1DebounceExpiry
  split
  · exact resultKeeps_refl s
  · exact resultKeeps_next.2 (keeps_settle (keeps_debounceOver (keeps_await (Keeps.refl s) _ _) _))

/-! ## Time coupled, cache ages and polls -/

theorem execPoweringCountExpiry_keeps (s : State) : ResultKeeps s (execPoweringCountExpiry s) := by
  unfold execPoweringCountExpiry
  split
  · exact resultKeeps_refl s
  · split
    · exact resultKeeps_next.2 (keeps_settle (keeps_tryEndPowering (keeps_await (Keeps.refl s) _ _)))
    · exact resultKeeps_refl s

theorem execCoupledSecondTick_keeps (p : Pos) (s : State) : ResultKeeps s (execCoupledSecondTick p s) := by
  unfold execCoupledSecondTick
  split
  · exact resultKeeps_next.2 (keeps_modPos (keeps_await (Keeps.refl s) _ _) p)
  · exact resultKeeps_refl s

theorem execCacheAgeExpiry_keeps (ref : EntryRef) (k : Nat) (s : State) : ResultKeeps s (execCacheAgeExpiry ref k s) := by
  unfold execCacheAgeExpiry
  split
  · split
    · exact resultKeeps_next.2 (keeps_settle (keeps_await (Keeps.refl s) _ _))
    · split
      · exact resultKeeps_next.2 (keeps_settle (keeps_modSlot (keeps_await (Keeps.refl s) _ _) _ _ _))
      · exact resultKeeps_refl s
  · exact resultKeeps_refl s

theorem keeps_pollExpired (h : Keeps s₀ s) (p : Pos) : Keeps s₀ (s.pollExpired p) := by
  have restarted := keeps_setPoll h p (some 0)
  unfold State.pollExpired
  dsimp only
  split
  · exact restarted
  · split
    · exact keeps_claim1 (keeps_claim1 restarted _) _
    · exact keeps_claim1 restarted _

theorem execPollTimerExpiry_keeps (p : Pos) (s : State) : ResultKeeps s (execPollTimerExpiry p s) := by
  unfold execPollTimerExpiry
  split
  · exact resultKeeps_refl s
  · exact resultKeeps_next.2 (keeps_settle (keeps_pollExpired (keeps_await (Keeps.refl s) _ _) _))

/-! ## Frames on the data pair -/

theorem keeps_takeReply (h : Keeps s₀ s) (f : InFlight) (payload : List Byte) (arbiterFirst : Bool) :
    Keeps s₀ (s.takeReply f payload arbiterFirst) := by
  unfold State.takeReply
  split
  · exact keeps_endFlight h _ _ _
  · dsimp only
    split
    · exact h.same
    · exact keeps_endFlight h _ _ _

theorem keeps_receive (h : Keeps s₀ s) (f : InFlight) (bytes : List Byte) (arbiterFirst : Bool) :
    Keeps s₀ (s.receive f bytes arbiterFirst) := by
  unfold State.receive
  split
  · exact keeps_takeReply h _ _ _
  · exact keeps_failSending h _ _

theorem execTrailerBusFrameReceived_keeps (bytes : List Byte) (arbiterFirst : Bool) (s : State) :
    ResultKeeps s (execTrailerBusFrameReceived bytes arbiterFirst s) := by
  unfold execTrailerBusFrameReceived
  split
  · exact resultKeeps_refl s
  · split
    · exact resultKeeps_refl s
    · exact resultKeeps_next.2 (keeps_settle (keeps_receive (Keeps.refl s) _ _ _))

theorem execResponseTimeout_keeps (s : State) : ResultKeeps s (execResponseTimeout s) := by
  unfold execResponseTimeout
  split
  · exact resultKeeps_refl s
  · split
    · exact resultKeeps_refl s
    · exact resultKeeps_next.2 (keeps_settle (keeps_failSending (keeps_await (Keeps.refl s) _ _) _ _))

theorem keeps_broadcastOver (h : Keeps s₀ s) (t : Txn) : Keeps s₀ (s.broadcastOver t) := by
  have counted := keeps_modBringUp h (fun b => { b with broadcasts := b.broadcasts - 1 }) fun _ => rfl
  unfold State.broadcastOver
  refine keeps_tryEndPowering ?_
  split
  · exact keeps_claim2 counted _
  · exact counted

theorem execBroadcastSent_keeps (s : State) : ResultKeeps s (execBroadcastSent s) := by
  unfold execBroadcastSent
  split
  · exact resultKeeps_refl s
  · rename_i f _
    have idle : Keeps s { s with bus := { s.bus with flight := none } } := (Keeps.refl s).same
    split
    · refine resultKeeps_next.2 (keeps_settle ?_)
      split
      · exact keeps_broadcastOver idle _
      · exact idle
    · exact resultKeeps_refl s

end Sys2Proof.Machine
end

section
/-! Every step keeps the laws of the part, and O9 as its reading for the chain of positions. -/

namespace Sys2Proof.Machine

/-- Every command keeps the laws of the part: one lemma for each. -/
theorem exec_keeps (i : Instr) (s : State) : ResultKeeps s (exec i s) := by
  cases i with
  | powerOnReset strap1 strap0 => exact execPowerOnReset_keeps strap1 strap0 s
  | requestArrival link frame => exact execRequestArrival_keeps link frame s
  | malformedRequest link => exact execMalformedRequest_keeps link s
  | lightingSet link => exact execLightingSet_keeps link s
  | channelStatus link => exact execChannelStatus_keeps link s
  | channelClear link => exact execChannelClear_keeps link s
  | tripRecordRead link => exact execTripRecordRead_keeps link s
  | functionRead link => exact execFunctionRead_keeps link s
  | functionWrite link => exact execFunctionWrite_keeps link s
  | watch link => exact execWatch_keeps link s
  | directoryQuery link => exact execDirectoryQuery_keeps link s
  | positionRead link => exact execPositionRead_keeps link s
  | nodeRead link => exact execNodeRead_keeps link s
  | pin link => exact execPin_keeps link s
  | quarantine link => exact execQuarantine_keeps link s
  | relearn link => exact execRelearn_keeps link s
  | mapRebuild link => exact execMapRebuild_keeps link s
  | profileForce link => exact execProfileForce_keeps link s
  | freshnessSet link => exact execFreshnessSet_keeps link s
  | workshopGrant link => exact execWorkshopGrant_keeps link s
  | eventExchange link => exact execEventExchange_keeps link s
  | interestSet link => exact execInterestSet_keeps link s
  | canFrameTransmitted link => exact execCanFrameTransmitted_keeps link s
  | canTransmitError link => exact execCanTransmitError_keeps link s
  | busOffRecovery link => exact execBusOffRecovery_keeps link s
  | silenceTimeout link => exact execSilenceTimeout_keeps link s
  | codeSample ka kb => exact execCodeSample_keeps ka kb s
  | position1DebounceExpiry => exact execPosition1DebounceExpiry_keeps s
  | supplyReading millivolts => exact execSupplyReading_keeps millivolts s
  | temperatureReading channel degrees => exact execTemperatureReading_keeps channel degrees s
  | currentSample channel milliamps => exact execCurrentSample_keeps channel milliamps s
  | tripCooldownExpiry channel => exact execTripCooldownExpiry_keeps channel s
  | streakTimerExpiry channel => exact execStreakTimerExpiry_keeps channel s
  | turnFlasherPhaseEnd => exact execTurnFlasherPhaseEnd_keeps s
  | emergencyFlasherPhaseEnd => exact execEmergencyFlasherPhaseEnd_keeps s
  | pwmPhaseEnd channel => exact execPwmPhaseEnd_keeps channel s
  | backfeedCheck channel millivolts => exact execBackfeedCheck_keeps channel millivolts s
  | checkWindowComplete channel => exact execCheckWindowComplete_keeps channel s
  | probeGapEnd => exact execProbeGapEnd_keeps s
  | probeAttemptComplete => exact execProbeAttemptComplete_keeps s
  | probeLimitExpiry => exact execProbeLimitExpiry_keeps s
  | settledOnlyComplete => exact execSettledOnlyComplete_keeps s
  | poweringCountExpiry => exact execPoweringCountExpiry_keeps s
  | coupledSecondTick pos => exact execCoupledSecondTick_keeps pos s
  | cacheAgeExpiry entry slot => exact execCacheAgeExpiry_keeps entry slot s
  | pollTimerExpiry pos => exact execPollTimerExpiry_keeps pos s
  | trailerBusFrameReceived frame arbiterFirst => exact execTrailerBusFrameReceived_keeps frame arbiterFirst s
  | responseTimeout => exact execResponseTimeout_keeps s
  | broadcastSent => exact execBroadcastSent_keeps s

/-- A step keeps the laws of the state with the queue it leaves: the queue is no part of the laws. -/
theorem step_keeps {s t : State} (h : step s = .next t) : ∃ rest, Keeps (s.withPending rest) t := by
  unfold step at h
  split at h
  · rename_i empty
    have same : s.withPending [] = s := by rw [← empty]; rfl
    refine ⟨[], ?_⟩
    rw [same]
    exact resultKeeps_next.2 (keeps_elapse (Keeps.refl s) 1) t h
  · rename_i c rest _
    exact ⟨rest, exec_keeps c _ t h⟩

/-- Settles O9: the chain law reads no queue, and every step keeps the laws of the part. -/
theorem stepKeepsChain : Obligations.StepKeepsChain := by
  intro s t law h
  obtain ⟨rest, keeps⟩ := step_keeps h
  exact keeps.chain law

end Sys2Proof.Machine
end

section
/-! What the demand of each channel is, one lemma for each rule of section 7.6, and O20 from them. -/

namespace Sys2Proof.Machine

/-- R150. -/
theorem demandOf_turn (eff : FunctionSet) (coupling : Bool) :
    demandOf eff coupling 0 = (if hasBit eff 0 || hasBit eff 12 then .flashTurn else .off) ∧
    demandOf eff coupling 1 = (if hasBit eff 1 || hasBit eff 12 then .flashTurn else .off) :=
  ⟨rfl, rfl⟩

/-- R151: the Emergency Signal comes before Stop. -/
theorem demandOf_stop (eff : FunctionSet) (coupling : Bool) :
    demandOf eff coupling 2 = if hasBit eff 13 then .flashEmergency else steadyWhen (hasBit eff 2) :=
  rfl

/-- R152: CH3 to CH5 each follow their own function or Position Lamps. -/
theorem demandOf_positionLamps (eff : FunctionSet) (coupling : Bool) {c : ChanId} (h : c = 3 ∨ c = 4 ∨ c = 5) :
    demandOf eff coupling c = steadyWhen (hasBit eff c.val || hasBit eff 14) := by
  obtain rfl | rfl | rfl := h <;> rfl

/-- R153, for CH9. -/
theorem demandOf_bodySupply (eff : FunctionSet) (coupling : Bool) :
    demandOf eff coupling 9 = steadyWhen (hasBit eff 9 || coupling) :=
  rfl

/-- R153, for the channels that follow their own function alone. -/
theorem demandOf_ownFunction (eff : FunctionSet) (coupling : Bool) {c : ChanId}
    (h : c = 6 ∨ c = 7 ∨ c = 8 ∨ c = 10 ∨ c = 11) :
    demandOf eff coupling c = steadyWhen (hasBit eff c.val) := by
  obtain rfl | rfl | rfl | rfl | rfl := h <;> rfl

/-- Settles O20, channel by channel from R150 to R153. -/
theorem demandFollowsEffectiveStates : Obligations.DemandFollowsEffectiveStates := by
  intro eff coupling
  obtain ⟨ch0, ch1⟩ := demandOf_turn eff coupling
  have lamps {c : ChanId} := demandOf_positionLamps eff coupling (c := c)
  have own {c : ChanId} := demandOf_ownFunction eff coupling (c := c)
  exact ⟨ch0, ch1, demandOf_stop eff coupling, lamps (by decide), lamps (by decide), lamps (by decide),
    own (by decide), own (by decide), own (by decide), demandOf_bodySupply eff coupling,
    own (by decide), own (by decide)⟩

end Sys2Proof.Machine
end

section
/-! EVENT_EXCHANGE and INTEREST_SET only narrow the pending set of their own link, so that no attention frame follows
their reply (R190); what each of them makes of a head that is taken, and O18 from that. -/

namespace Sys2Proof.Machine

variable {s : State} {l : LinkId} {m : Mlu} {f : List Byte} {rest : List (List Byte)}

/-! ## A reply with the pending set narrowed -/

/-- The link may have been changed otherwise since its head left the queue. -/
theorem setLink_answer_eq_answered {m' : Mlu} (active : m'.busOff = false) (k : ReqKind) (tag : Byte) (st : Status)
    (content : List Byte) :
    (s.setLink l { m' with queue := rest }).answer l k tag st content = s.answered l m' rest k tag st content := by
  rw [answer_link (State.link_setLink_self s l { m' with queue := rest }) active, State.setLink_setLink]
  rfl

/-- An attention frame is due where the pending set goes from empty to non-empty, which dropping kinds never does
(R190). -/
theorem finish_answered_of_narrowed {m' : Mlu} {kept : EventSet} (link : s.link l = some m)
    (narrowed : m'.pending = m.pending &&& kept) (k : ReqKind) (tag : Byte) (st : Status) (content : List Byte) :
    s.finish (s.answered l m' rest k tag st content) = s.answered l m' rest k tag st content := by
  refine finish_setLink link ?_ rfl
  by_cases empty : m.pending = 0
  · refine .inr (?_ : m'.pending = 0)
    rw [narrowed, empty]
    exact BitVec.zero_and
  · exact .inl empty

/-! ## The two requests carried out on the link without its head -/

theorem eventExchange_unqueued (active : m.busOff = false) (tag : Byte) (clear : EventSet) :
    (s.setLink l { m with queue := rest }).eventExchange l tag clear =
      s.answered l { m with pending := m.pending &&& ~~~ clear } rest .eventExchange tag .ok m.exchangeContent := by
  unfold State.eventExchange
  rw [State.link_setLink_self]
  simp only [State.setLink_setLink]
  exact setLink_answer_eq_answered (m' := { m with pending := m.pending &&& ~~~ clear }) active _ _ _ _

theorem interestSet_unqueued (active : m.busOff = false) (tag : Byte) (interest : EventSet) :
    (s.setLink l { m with queue := rest }).interestSet l tag interest =
      s.answered l { m with interest := interest, pending := m.pending &&& interest } rest .interestSet tag .ok
        (Word16.bytes interest ++ Word16.bytes (m.pending &&& interest)) := by
  unfold State.interestSet
  rw [State.link_setLink_self]
  simp only [State.setLink_setLink]
  exact setLink_answer_eq_answered (m' := { m with interest := interest, pending := m.pending &&& interest })
    active _ _ _ _

/-! ## The two commands on a head that can be taken -/

theorem exec_eventExchange (s : State) (l : LinkId) : exec (.eventExchange l) s = execEventExchange l s := rfl

theorem exec_interestSet (s : State) (l : LinkId) : exec (.interestSet l) s = execInterestSet l s := rfl

theorem exec_eventExchange_head {clear : Word16} (head : Head s l m f rest (.eventExchange clear)) :
    exec (.eventExchange l) s = .next (s.answered l { m with pending := m.pending &&& ~~~ clear } rest .eventExchange
      (byteAt f 1) .ok m.exchangeContent) := by
  rw [exec_eventExchange]
  unfold execEventExchange
  rw [serve_take head (k := .eventExchange) rfl rfl]
  simp only [eventExchange_unqueued head.active]
  rw [finish_answered_of_narrowed head.link rfl]

theorem exec_interestSet_head {interest : Word16} (head : Head s l m f rest (.interestSet interest)) :
    exec (.interestSet l) s = .next (s.answered l { m with interest := interest, pending := m.pending &&& interest } rest
      .interestSet (byteAt f 1) .ok (Word16.bytes interest ++ Word16.bytes (m.pending &&& interest))) := by
  rw [exec_interestSet]
  unfold execInterestSet
  rw [serve_take head (k := .interestSet) rfl rfl]
  simp only [interestSet_unqueued head.active]
  rw [finish_answered_of_narrowed head.link rfl]

/-- Settles O18: the two commands as the lemmas above give them, the role code read off Table 10-2 role by role. -/
theorem eventAndInterestSets : Obligations.EventAndInterestSets := by
  intro l s m f rest
  refine ⟨fun clear head => ?exchange, fun interest head => exec_interestSet_head head⟩
  case exchange =>
    rw [exec_eventExchange_head head, Mlu.exchangeContent]
    cases m.role <;> rfl

end Sys2Proof.Machine
end

section
/-! The laws of the part that every step keeps, read off `step_keeps` one by one, and that they hold after reset: O6 to O8,
O10, O11. -/

namespace Sys2Proof.Machine

-- One proof at a time and no linter passes: together they take more memory than the check gives.
set_option Elab.async false
set_option linter.all false

/-- Settles O7: the bounds read no queue of commands, and every step keeps the laws of the part. -/
theorem stepKeepsBounds : Obligations.StepKeepsBounds := by
  intro s t law h
  obtain ⟨rest, keeps⟩ := step_keeps h
  exact keeps.bounded law

/-- Settles O8: the channels' laws read no queue of commands, and every step keeps the laws of the part. -/
theorem stepKeepsChannelsLawful : Obligations.StepKeepsChannelsLawful := by
  intro s t law h
  obtain ⟨rest, keeps⟩ := step_keeps h
  exact keeps.channels law

/-- Settles O10: the decision and the verdicts are no part of the queue, and every step keeps the laws of the part. -/
theorem stepKeepsFastFlash : Obligations.StepKeepsFastFlash := by
  intro s t law h
  obtain ⟨rest, keeps⟩ := step_keeps h
  exact keeps.flash law

/-- Settles O11: the links are no part of the queue, and every step keeps the laws of the part. -/
theorem stepKeepsInterest : Obligations.StepKeepsInterest := by
  intro s t law h
  obtain ⟨rest, keeps⟩ := step_keeps h
  exact keeps.interest law

/-- Settles O6: at reset queues and lists are empty, channels OFF and cool, positions ABSENT, verdicts UNCHECKED and
pending sets empty, whatever the straps. -/
theorem lawsHoldAtReset : Obligations.LawsHoldAtReset := by
  intro a b
  refine ⟨?_, ?_, ?_, ?_, ?_⟩ <;> cases a <;> cases b <;> rfl

end Sys2Proof.Machine
end

section
/-! The machine as a whole: the step, one millisecond on an empty queue, the roles the straps fix, what the contacts are
connected to, and that every command answers a next state: O1 to O3, O5, O50. -/

namespace Sys2Proof.Machine

-- One proof at a time and no linter passes: together they take more memory than the check gives.
set_option Elab.async false
set_option linter.all false

/-! ## Steps -/

/-- Settles O1. -/
theorem stepRunsFrontCommand : Obligations.StepRunsFrontCommand := by
  intro s c rest front
  unfold step
  rw [front]
  rfl

/-- No command faults or is refused: every branch of every arm is a next state, and most arms have one branch. -/
theorem exec_next (c : Instr) (s : State) : ∃ t, exec c s = .next t := by
  cases c with
  | requestArrival | canFrameTransmitted | canTransmitError | busOffRecovery | silenceTimeout | position1DebounceExpiry
  | currentSample | tripCooldownExpiry | streakTimerExpiry | turnFlasherPhaseEnd | emergencyFlasherPhaseEnd | pwmPhaseEnd
  | backfeedCheck | checkWindowComplete | probeGapEnd | probeAttemptComplete | probeLimitExpiry | settledOnlyComplete
  | poweringCountExpiry | coupledSecondTick | cacheAgeExpiry | pollTimerExpiry | trailerBusFrameReceived
  | responseTimeout | broadcastSent =>
    simp only [exec, execRequestArrival, execCanFrameTransmitted, execCanTransmitError, execBusOffRecovery,
      execSilenceTimeout, execPosition1DebounceExpiry, execCurrentSample, execTripCooldownExpiry, execStreakTimerExpiry,
      execTurnFlasherPhaseEnd, execEmergencyFlasherPhaseEnd, execPwmPhaseEnd, execBackfeedCheck, execCheckWindowComplete,
      execProbeGapEnd, execProbeAttemptComplete, execProbeLimitExpiry, execSettledOnlyComplete, execPoweringCountExpiry,
      execCoupledSecondTick, execCacheAgeExpiry, execPollTimerExpiry, execTrailerBusFrameReceived, execResponseTimeout,
      execBroadcastSent]
    repeat' split
    all_goals exact ⟨_, rfl⟩
  | _ => exact ⟨_, rfl⟩

/-- Settles O3: what a command answers is a next state, and its command queue is that of the act's start (`Keeps`). -/
theorem everyCommandAnswersNext : Obligations.EveryCommandAnswersNext := by
  refine ⟨fun c s => ?_, fun s => ?_⟩
  · obtain ⟨t, ht⟩ := exec_next c s
    exact ⟨t, ht, (exec_keeps c s t ht).pending⟩
  · unfold step
    split
    · exact ⟨_, rfl⟩
    · exact exec_next _ _

/-! ## One millisecond -/

theorem entry_elapse (s : State) {n : Nat} (pos : n ≠ 0) (ref : EntryRef) :
    (s.elapse n).entry ref = (s.entry ref).map fun e => { e with slots := e.slots.map (Slot.elapse n) } := by
  unfold State.elapse
  rw [if_neg pos]
  cases ref <;> exact Tbl.get_map _ _ _

/-- Every cache ages with the time (R13). -/
theorem slot_elapse (s : State) {n : Nat} (pos : n ≠ 0) (ref : EntryRef) (k : Nat) :
    (s.elapse n).slot ref k = (s.slot ref k).map (Slot.elapse n) := by
  unfold State.slot
  rw [entry_elapse s pos]
  cases s.entry ref with
  | none => rfl
  | some e => simp

/-- Settles O2, field by field from what the passing of time leaves and moves. -/
theorem idleStepIsOneMillisecond : Obligations.IdleStepIsOneMillisecond := by
  intro s empty
  have step_eq : step s = .next (s.elapse 1) := by
    unfold step
    rw [empty]
  refine ⟨s.elapse 1, step_eq, (elapse_pending s 1).trans empty, elapse_light s 1, elapse_load s 1, elapse_dec s 1,
    elapse_pos s 1, fun ref k sl hsl => ?slot, fun l m hm => ?link, fun c tripped => ?cooldown⟩
  case slot => rw [slot_elapse s Nat.one_ne_zero, hsl]; rfl
  case link => rw [elapse_link, if_neg Nat.one_ne_zero, hm]; rfl
  case cooldown =>
    rw [elapse_chan, if_neg Nat.one_ne_zero]
    simp only [Channel.elapse, tripped, if_true]
    rfl

/-! ## The straps -/

/-- Settles O5: the links are those of Table 9-1, and each starts at the defaults of `Mlu` (Table 9-2). -/
theorem strapsFixRoles : Obligations.StrapsFixRoles := by
  intro a b s
  refine ⟨_, exec_powerOnReset a b s, ?_, ?_, ?_, fun l m hm => ?_⟩
  · cases a <;> cases b <;> rfl
  · cases a <;> cases b <;> rfl
  · cases a <;> cases b <;> rfl
  · cases a <;> cases b <;> cases l <;> cases hm <;> exact ⟨rfl, rfl, rfl, rfl, rfl, rfl, rfl, rfl, rfl⟩

/-! ## The contacts (R32, R36) -/

/-- The channels of a profile, as Table 2-3 lists them. -/
theorem routes_iff (p : Profile) (c : ChanId) : routes p c = true ↔ match p with
    | .none => False
    | .s => c.val ≤ 5 ∨ c.val = 7
    | .l => True
    | .d => c.val ≤ 7 ∨ c.val = 9 ∨ c.val = 10 := by
  cases p <;> simp [routes, or_assoc]

/-- The data pair is routed under L and D (Table 2-3). -/
theorem routesData_iff (p : Profile) : routesData p = true ↔ p = .l ∨ p = .d := by
  cases p <;> decide

/-- The code contacts are sensed in every profile. -/
theorem contactUse_code (p : Profile) (k : Contact) :
    (contactUse p k = .codeKA ↔ k.val = 14) ∧ (contactUse p k = .codeKB ↔ k.val = 15) := by
  revert k; cases p <;> decide

/-- A contact is left open where what it can carry is not routed, be that a channel or a wire of the data pair. -/
theorem contactUse_leftOpen (p : Profile) (k : Contact) : contactUse p k = .leftOpen ↔
    (∃ c : ChanId, k.val = c.val ∧ routes p c = false) ∨ (k.val = 12 ∨ k.val = 13) ∧ routesData p = false := by
  revert k; cases p <;> decide

/-- Settles O50, a clause for each thing a contact can be connected to. -/
theorem contactsRouted : Obligations.ContactsRouted := by
  intro s k
  obtain ⟨codeKA, codeKB⟩ := contactUse_code s.matrix.active k
  refine ⟨fun c => ?channel, fun w => ?wire, codeKA, codeKB, ?leftOpen⟩
  case channel =>
    have same : k = chanContact c ↔ k.val = c.val := Fin.ext_iff
    exact (contactUse_channel _ k c).trans (and_congr same (routes_iff _ c))
  case wire => exact (contactUse_dataWire _ k w).trans (and_congr_right' (routesData_iff _))
  case leftOpen =>
    refine (contactUse_leftOpen _ k).trans (or_congr ?_ (and_congr_right' ?_))
    · constructor
      · rintro ⟨c, hk, off⟩
        refine ⟨by omega, fun d hd routed => ?_⟩
        obtain rfl : d = c := Fin.ext (hd.symm.trans hk)
        rw [(routes_iff _ d).2 routed] at off
        cases off
      · rintro ⟨hk, off⟩
        refine ⟨⟨k.val, by omega⟩, rfl, ?_⟩
        rw [Bool.eq_false_iff]
        exact fun routed => off _ rfl ((routes_iff _ _).1 routed)
    · rw [Bool.eq_false_iff, Ne, routesData_iff, not_or]

end Sys2Proof.Machine
end

section
/-! What crosses the part's edge as bytes reads back: request frames, trailer bus frames, reply trains: O12 to O14. -/

namespace Sys2Proof.Machine

-- One proof at a time and no linter passes: together they take more memory than the check gives.
set_option Elab.async false
set_option linter.all false

/-! ## Request frames (Table 10-3) -/

theorem posOfNumber_byteOf (p : Pos) : posOfNumber (byteOf (posNumber p)).toNat = some p := by
  cases p <;> rfl

theorem posFilter_byteOf (p : Option Pos) : posFilter (byteOf ((p.map posNumber).getD 0)) = some p := by
  obtain _ | p := p
  · rfl
  · cases p <;> rfl

theorem kindFilter_byteOf (k : Option FunKind) : kindFilter (byteOf ((k.map funCode).getD 0)) = some k := by
  obtain _ | k := k
  · rfl
  · cases k <;> rfl

theorem instFilter_byteOf {i : Option Nat} (small : ∀ n, i = some n → n ≤ 15) :
    instFilter (byteOf (i.getD 255)) = some i := by
  obtain _ | n := i
  · rfl
  · have hn := small n rfl
    unfold instFilter
    rw [Option.getD_some, byteOf_toNat (by omega), if_neg (by omega), if_pos hn]

/-- Every well-formed request reads back from its frame. -/
theorem parseRequest_requestFrame (tag : Byte) {r : Request} (wf : r.wf = true) :
    parseRequest (requestFrame tag r) = some r := by
  cases r with
  | directoryQuery p f i ch start =>
    simp only [Request.wf, Bool.and_eq_true, decide_eq_true_eq] at wf
    obtain ⟨inst, low, high⟩ := wf
    have small : ∀ n, i = some n → n ≤ 15 := by
      rintro n rfl
      simpa using inst
    have starts : (byteOf start).toNat = start := byteOf_toNat (by omega)
    have code : (byteOf (reqKind (.directoryQuery p f i ch start)).code).toNat = 8 := rfl
    simp only [requestFrame, requestFields, parseRequest]
    rw [if_pos code, posFilter_byteOf, kindFilter_byteOf, instFilter_byteOf small, flagOfByte_bit, starts]
    exact if_pos ⟨low, high⟩
  | positionRead p =>
    show (posOfNumber (byteOf (posNumber p)).toNat).map Request.positionRead = _
    rw [posOfNumber_byteOf]
    rfl
  | nodeRead e =>
    show (entryOfIndex (byteOf (entryIndex e)).toNat).map Request.nodeRead = _
    rw [entryOfIndex_index]
    rfl
  | lightingSet named asked =>
    show some (Request.lightingSet (word16 _ _) (word16 _ _)) = _
    rw [word16_split, word16_split]
  | functionWrite n v =>
    show some (Request.functionWrite n (word16 _ _)) = _
    rw [word16_split]
  | freshnessSet n w =>
    show some (Request.freshnessSet n (word16 _ _)) = _
    rw [word16_split]
  | eventExchange clear =>
    show some (Request.eventExchange (word16 _ _)) = _
    rw [word16_split]
  | interestSet set =>
    show some (Request.interestSet (word16 _ _)) = _
    rw [word16_split]
  | watch n add delta =>
    show (flagOfByte (byteOf (bit add))).map (fun add => Request.watch n add (word16 _ _)) = _
    rw [flagOfByte_bit, word16_split]
    rfl
  | tripRecordRead c clear =>
    show (flagOfByte (byteOf (bit clear))).map (Request.tripRecordRead c) = _
    rw [flagOfByte_bit]
    rfl
  | pin n set =>
    show (flagOfByte (byteOf (bit set))).map (Request.pin n) = _
    rw [flagOfByte_bit]
    rfl
  | quarantine n set =>
    show (flagOfByte (byteOf (bit set))).map (Request.quarantine n) = _
    rw [flagOfByte_bit]
    rfl
  | workshopGrant on =>
    show (flagOfByte (byteOf (bit on))).map Request.workshopGrant = _
    rw [flagOfByte_bit]
    rfl
  | channelStatus | channelClear | functionRead | relearn | mapRebuild | profileForce => rfl

/-- A frame is that of a request where its kind byte is the request's code and its other bytes are the request's
fields. -/
theorem eq_requestFrame {k tag : Byte} {fields : List Byte} {r : Request} (code : k.toNat = (reqKind r).code)
    (hfields : requestFields r = fields) : k :: tag :: fields = requestFrame tag r := by
  rw [requestFrame, hfields, byteOf_of_toNat code]

/-- A frame that reads as a request is that request's frame with the tag it carries: what each length and kind byte of
Table 10-3 leaves to the fields is given back by them. -/
theorem requestFrame_of_parseRequest {f : List Byte} {r : Request} (h : parseRequest f = some r) :
    f = requestFrame (byteAt f 1) r ∧ r.wf = true := by
  unfold parseRequest at h
  split at h
  case h_1 => -- two bytes
    split at h
    · rename_i code
      cases h
      exact ⟨eq_requestFrame code rfl, rfl⟩
    · cases h
  case h_2 x => -- three bytes
    split at h <;> rename_i code
    case h_4 =>
      obtain ⟨p, hp, rfl⟩ := Option.map_eq_some_iff.1 h
      exact ⟨eq_requestFrame code (by rw [requestFields, posOfNumber_eq hp, byteOf_of_toNat rfl]), rfl⟩
    case h_5 =>
      obtain ⟨e, he, rfl⟩ := Option.map_eq_some_iff.1 h
      exact ⟨eq_requestFrame code (by rw [requestFields, entryOfIndex_eq he, byteOf_of_toNat rfl]), rfl⟩
    case h_8 =>
      obtain ⟨flag, hflag, rfl⟩ := Option.map_eq_some_iff.1 h
      exact ⟨eq_requestFrame code (by rw [requestFields, flagOfByte_eq hflag]), rfl⟩
    case h_9 => cases h
    all_goals
      cases h
      exact ⟨eq_requestFrame code rfl, rfl⟩
  case h_3 x y => -- four bytes
    split at h <;> rename_i code
    case h_1 | h_2 | h_3 =>
      obtain ⟨flag, hflag, rfl⟩ := Option.map_eq_some_iff.1 h
      exact ⟨eq_requestFrame code (by rw [requestFields, flagOfByte_eq hflag]), rfl⟩
    case h_6 => cases h
    all_goals
      cases h
      exact ⟨eq_requestFrame code (split_word16 x y), rfl⟩
  case h_4 x y z => -- five bytes
    split at h <;> rename_i code
    case h_3 => cases h
    all_goals
      cases h
      exact ⟨eq_requestFrame code (by rw [requestFields, split_word16]), rfl⟩
  case h_5 x y z u => -- six bytes
    split at h <;> rename_i code
    case h_1 =>
      cases h
      exact ⟨eq_requestFrame code (by rw [requestFields, split_word16, split_word16]; rfl), rfl⟩
    case h_2 =>
      obtain ⟨flag, hflag, rfl⟩ := Option.map_eq_some_iff.1 h
      exact ⟨eq_requestFrame code (by rw [requestFields, flagOfByte_eq hflag, split_word16]; rfl), rfl⟩
    case h_3 => cases h
  case h_6 x y z u v => -- seven bytes
    split at h
    · rename_i code
      split at h
      · rename_i p k i ch hp hk hi hch
        split at h
        · rename_i start
          cases h
          obtain ⟨inst, small⟩ := instFilter_eq hi
          refine ⟨eq_requestFrame code ?_, ?_⟩
          · rw [requestFields, posFilter_eq hp, kindFilter_eq hk, inst, flagOfByte_eq hch, byteOf_of_toNat rfl]
          · simp only [Request.wf, Bool.and_eq_true, decide_eq_true_eq]
            refine ⟨?_, start⟩
            split
            · exact decide_eq_true (small _ rfl)
            · rfl
        · cases h
      · cases h
    · cases h
  case h_7 => cases h

/-- Settles O12. -/
theorem requestFramesReadBack : Obligations.RequestFramesReadBack :=
  ⟨fun tag _ => parseRequest_requestFrame tag, fun _ _ => requestFrame_of_parseRequest⟩

/-! ## Trailer bus frames (R196) -/

/-- Settles O13: the CRC closes the frame at 0, and command, length and payload are read where they were put. -/
theorem busFrameReadsBack : Obligations.BusFrameReadsBack := by
  intro addr cmd payload small len
  have crc := crc8_busFrame addr cmd payload
  refine ⟨crc, ?_⟩
  have command : (byteOf cmd).toNat = cmd := byteOf_toNat small
  have length : (byteOf payload.length).toNat = payload.length := byteOf_toNat (len ▸ replyLength_lt cmd)
  unfold replyPayload busFrame
  dsimp only [List.cons_append]
  rw [if_pos ⟨crc, command, length.trans len, by rw [length]; simp⟩, length]
  simp

/-! ## Reply trains (R194) -/

theorem length_padTo (n : Nat) (bs : List Byte) : (padTo n bs).length = n := by
  simp [padTo]
  omega

/-- Bytes that do not fill a frame are followed by zeros; bytes that do, by the rest of the content. -/
theorem padTo_append_padding (n m : Nat) (bs : List Byte) (h : bs.length ≤ n + m) :
    padTo n bs ++ (bs.drop n ++ List.replicate (m - (bs.length - n)) 0) =
      bs ++ List.replicate (n + m - bs.length) 0 := by
  unfold padTo
  rcases Nat.le_total bs.length n with short | long
  · rw [List.take_of_length_le short, List.drop_of_length_le short, Nat.sub_eq_zero_of_le short, List.nil_append,
      List.append_assoc, List.replicate_append_replicate]
    congr 2
    omega
  · rw [Nat.sub_eq_zero_of_le long, List.replicate_zero, List.append_nil, ← List.append_assoc, List.take_append_drop]
    congr 2
    omega

variable (id : FrameId) (kind tag : Byte) (last : Nat)

theorem length_laterFrames (left k : Nat) (content : List Byte) :
    (laterFrames id kind tag last left k content).length = left := by
  induction left generalizing k content with
  | zero => rfl
  | succ left ih => rw [laterFrames, List.length_cons, ih]

/-- The frame at a place of the later frames carries its own number. -/
theorem laterFrames_getElem? {left : Nat} : ∀ {k j : Nat} {content : List Byte} {fr : TxFrame},
    (laterFrames id kind tag last left k content)[j]? = some fr →
      ∃ bytes, bytes.length = 5 ∧ fr = ⟨id, [kind, tag, byteOf ((k + j) * 16 + last)] ++ bytes⟩ := by
  induction left with
  | zero => intro k j content fr h; cases h
  | succ left ih =>
    intro k j content fr h
    rw [laterFrames] at h
    cases j with
    | zero => cases h; exact ⟨padTo 5 content, length_padTo 5 content, rfl⟩
    | succ j =>
      obtain ⟨bytes, len, rfl⟩ := ih h
      exact ⟨bytes, len, by rw [Nat.add_assoc, Nat.add_comm 1 j]⟩

/-- Behind their headers the later frames carry the content, filled with 0. -/
theorem laterFrames_content {left : Nat} : ∀ {k : Nat} {content : List Byte}, content.length ≤ 5 * left →
    (laterFrames id kind tag last left k content).flatMap (fun fr => fr.data.drop 3) =
      content ++ List.replicate (5 * left - content.length) 0 := by
  induction left with
  | zero =>
    intro k content h
    obtain rfl : content = [] := List.eq_nil_of_length_eq_zero (by omega)
    rfl
  | succ left ih =>
    intro k content h
    rw [laterFrames, List.flatMap_cons, ih (by rw [List.length_drop]; omega), List.length_drop]
    have := padTo_append_padding 5 (5 * left) content (by omega)
    rw [show 5 * (left + 1) = 5 + 5 * left by omega, ← this]
    rfl

/-- Settles O14: the first frame takes four bytes of the content, each later one five. -/
theorem replyTrainCarriesContent : Obligations.ReplyTrainCarriesContent := by
  intro id kind tag st content short
  dsimp only
  obtain ⟨last, hlast⟩ : ∃ n, n = frameCount content.length - 1 := ⟨_, rfl⟩
  have count : last + 1 = if content.length ≤ 4 then 1 else 1 + content.length / 5 := by
    rw [hlast, frameCount]
    split <;> omega
  have fits : (content.drop 4).length ≤ 5 * last := by
    rw [List.length_drop]
    split at count <;> omega
  have frames : contentFrames id kind tag st content =
      ⟨id, [kind, tag, byteOf last, byteOf st.code] ++ padTo 4 content⟩ ::
        laterFrames id kind tag last last 1 (content.drop 4) := by
    rw [hlast]
    rfl
  have len : (contentFrames id kind tag st content).length = last + 1 := by
    rw [frames, List.length_cons, length_laterFrames]
  refine ⟨len.trans count, ?number, ?status, ?bytes⟩
  case number =>
    intro k fr hk
    rw [len, Nat.add_sub_cancel]
    rw [frames] at hk
    cases k with
    | zero => cases hk; exact ⟨rfl, by simp [length_padTo], by simp⟩
    | succ k =>
      obtain ⟨bytes, hbytes, rfl⟩ := laterFrames_getElem? id kind tag last hk
      refine ⟨rfl, by simp [hbytes], ?_⟩
      rw [Nat.add_comm 1 k, Nat.mul_comm]
      rfl
  case status => rw [frames]; rfl
  case bytes =>
    rw [len, Nat.add_sub_cancel, frames]
    have := padTo_append_padding 4 (5 * last) content (by rw [List.length_drop] at fits; omega)
    rw [List.drop_one, List.tail_cons, laterFrames_content id kind tag last fits, List.length_drop, ← this]
    rfl

end Sys2Proof.Machine
end

section
/-! Arrival of request frames, heads that fail the form step, heads that wait and heads without the right: O15, O16. -/

namespace Sys2Proof.Machine

-- One proof at a time and no linter passes: together they take more memory than the check gives.
set_option Elab.async false
set_option linter.all false

/-! ## Arrival (R181) -/

theorem exec_requestArrival (l : LinkId) (f : CanFrame) (s : State) :
    exec (.requestArrival l f) s = execRequestArrival l f s := rfl

/-- A frame is a request frame by its identifier and its two flags alone (R179). -/
theorem isRequest_iff (f : CanFrame) : isRequest f = true ↔ f.id = 0x6A0 ∧ f.extended = false ∧ f.remote = false := by
  unfold isRequest requestIdentifier
  simp only [Bool.and_eq_true, Bool.not_eq_true', decide_eq_true_eq, and_assoc]

theorem arrival_ignored {l : LinkId} {f : CanFrame} {s : State} {m : Mlu} (link : s.link l = some m)
    (ignored : m.busOff = true ∨ isRequest f = false) : exec (.requestArrival l f) s = .next s := by
  rw [exec_requestArrival]
  unfold execRequestArrival
  rw [link]
  refine if_pos ?_
  rcases ignored with h | h <;> simp [h]

theorem arrival_taken {l : LinkId} {f : CanFrame} {s : State} {m : Mlu} (link : s.link l = some m)
    (active : m.busOff = false) (request : isRequest f = true) :
    exec (.requestArrival l f) s = .next (s.arrive l m (f.data.take 8)) := by
  rw [exec_requestArrival]
  unfold execRequestArrival
  rw [link]
  refine if_neg ?_
  simp [active, request]

/-- The three things that come of a request's data: discarded, queued, or answered BUSY where there is room. -/
theorem arrive_cases (s : State) (l : LinkId) {m : Mlu} (active : m.busOff = false) (data : List Byte) :
    (data.length < 2 → s.arrive l m data = s.setLink l m.heard) ∧
    (2 ≤ data.length → m.queue.length < 4 →
      s.arrive l m data = s.setLink l { m.heard with queue := m.queue ++ [data] }) ∧
    (2 ≤ data.length → 4 ≤ m.queue.length → 1 ≤ s.freeRoom l m → s.arrive l m data = s.setLink l { m.heard with
      buffer := m.buffer ++ contentFrames .reply (byteAt data 0) (byteAt data 1) .busy [] }) ∧
    (2 ≤ data.length → 4 ≤ m.queue.length → s.freeRoom l m = 0 → s.arrive l m data = s.setLink l m.heard) := by
  have room : (s.setLink l m.heard).freeRoom l m.heard = s.freeRoom l m := State.freeRoom_of_dec (by simp) l m.heard
  match data with
  | [] => exact ⟨fun _ => rfl, fun h => absurd h (by simp), fun h => absurd h (by simp), fun h => absurd h (by simp)⟩
  | [_] => exact ⟨fun _ => rfl, fun h => absurd h (by simp), fun h => absurd h (by simp), fun h => absurd h (by simp)⟩
  | kind :: tag :: rest =>
    unfold State.arrive
    dsimp only
    refine ⟨fun h => absurd h (by simp), fun _ free => ?_, fun _ full enough => ?_, fun _ full none => ?_⟩
    · rw [if_pos free, State.setLink_setLink]
    · rw [if_neg (by omega), room, if_pos enough]
      unfold State.reply
      rw [State.place_active (State.link_setLink_self s l m.heard) active, State.setLink_setLink]
      rfl
    · rw [if_neg (by omega), room, if_neg (by omega)]

/-- Settles O15. -/
theorem requestArrives : Obligations.RequestArrives := by
  intro l f s fits
  have data : f.data.take 8 = f.data := List.take_of_length_le fits
  refine ⟨fun disabled => ?disabled, fun other => ?other, fun m link => ⟨fun off => ?busOff, fun active id ext remote => ?taken⟩⟩
  case disabled =>
    rw [exec_requestArrival]
    unfold execRequestArrival
    rw [disabled]
  case other =>
    have no : isRequest f = false := by
      rw [Bool.eq_false_iff, Ne, isRequest_iff]
      rintro ⟨id, ext, remote⟩
      rcases other with h | h | h
      · exact h id
      · rw [ext] at h; cases h
      · rw [remote] at h; cases h
    cases link : s.link l with
    | none =>
      rw [exec_requestArrival]
      unfold execRequestArrival
      rw [link]
    | some m => exact arrival_ignored link (.inr no)
  case busOff => exact arrival_ignored link (.inl off)
  case taken =>
    have exec_eq := arrival_taken link active ((isRequest_iff f).2 ⟨id, ext, remote⟩)
    rw [data] at exec_eq
    obtain ⟨short, queued, busy, full⟩ := arrive_cases s l active f.data
    simp only [exec_eq]
    exact ⟨fun h => congrArg _ (short h), fun h h' => congrArg _ (queued h h'), fun h h' h'' => congrArg _ (busy h h' h''),
      fun h h' h'' => congrArg _ (full h h' h'')⟩

/-! ## Heads that are not carried out (R186, R187, R195) -/

/-- A head that fails the form step is answered in its place where one frame has room, and stays where not. -/
theorem serveMalformed_head {s : State} {l : LinkId} {m : Mlu} {f : List Byte} {rest : List (List Byte)}
    (link : s.link l = some m) (queue : m.queue = f :: rest) (bad : parseRequest f = none) (active : m.busOff = false) :
    (1 ≤ s.freeRoom l m → s.serveMalformed l = s.setLink l { m with
      queue := rest, buffer := m.buffer ++ contentFrames .reply (byteAt f 0) (byteAt f 1) .malformed [] }) ∧
    (s.freeRoom l m = 0 → s.serveMalformed l = s) := by
  have unqueued : s.unqueue l = s.setLink l { m with queue := rest } := by
    unfold State.unqueue State.modLink
    rw [link]
    simp only [queue, List.drop_one, List.tail_cons]
  unfold State.serveMalformed
  rw [link]
  dsimp only
  rw [queue]
  dsimp only
  refine ⟨fun enough => ?_, fun none => ?_⟩
  · rw [if_pos ⟨bad, enough⟩, unqueued]
    unfold State.reply
    rw [State.place_active (State.link_setLink_self s l { m with queue := rest }) active, State.setLink_setLink]
  · rw [if_neg (by omega)]

/-- A head whose number the link's own deferred requests hold, or whose room is not free, cannot be taken (R186). -/
theorem take_waiting {s : State} {l : LinkId} {m : Mlu} {f : List Byte} {rest : List (List Byte)} {r : Request}
    (link : s.link l = some m) (queue : m.queue = f :: rest) (form : parseRequest f = some r)
    (waits : (∃ n d, requestNumber r = some n ∧ d ∈ s.dec.deferred ∧ d.link = l ∧ d.number = n) ∨
      s.freeRoom l m < (reqKind r).room) : s.take l (reqKind r) = none := by
  unfold State.take
  rw [link]
  dsimp only
  rw [queue]
  dsimp only
  rw [form]
  refine if_neg ?_
  rintro ⟨-, free, room⟩
  rcases waits with ⟨n, d, hn, hd, hl, hnum⟩ | small
  · have held : s.interlocked l r = true := by
      unfold State.interlocked
      rw [hn]
      exact List.any_eq_true.2 ⟨d, hd, by simp [hl, hnum]⟩
    rw [held] at free
    cases free
  · omega

/-- The requests that a role may not send (Table 9-4), but for what LIGHTING_SET and the like check themselves. -/
theorem roleMay_of_forbidden {r : LinkRole} {k : ReqKind}
    (h : (r = .brake ∧ k ∈ [ReqKind.channelClear, .tripRecordRead]) ∨
      ((r = .body ∨ r = .brake) ∧ k ∈ [ReqKind.nodeRead, .quarantine, .relearn, .mapRebuild, .profileForce, .freshnessSet]) ∨
      ((r = .brake ∨ r = .service) ∧ k = .workshopGrant)) : roleMay r k = false := by
  revert h
  cases r <;> cases k <;> decide

/-- Settles O16. -/
theorem headsRefusedOrWaiting : Obligations.HeadsRefusedOrWaiting := by
  intro l s m f rest link queue
  refine ⟨fun bad active => ?malformed, fun r form => ⟨fun waits => ?waits, fun head forbidden => ?refused⟩⟩
  case malformed =>
    obtain ⟨answered, stays⟩ := serveMalformed_head link queue bad active
    refine ⟨fun enough => ?_, fun none => ?_⟩
    · show Host.Outcome.next (s.finish (s.serveMalformed l)) = _
      rw [answered enough]
      exact congrArg _ (finish_setLink (t := s) link (Decidable.em (m.pending = 0)).symm rfl)
    · show Host.Outcome.next (s.finish (s.serveMalformed l)) = _
      rw [stays none, links_same rfl]
  case waits =>
    have idle : ∀ act, s.serve l (reqKind r) act = s := by
      intro act
      unfold State.serve
      rw [take_waiting link queue form waits]
    obtain ⟨act, ends | ends⟩ := exec_take l (reqKind r) s
    · exact .inl (by rw [ends, idle, links_same rfl])
    · exact .inr (by rw [ends, idle, settle_same rfl])
  case refused =>
    have refusal : ∀ act, s.serve l (reqKind r) act = s.answered l m rest (reqKind r) (byteAt f 1) .rights [] := by
      intro act
      rw [serve_head head, roleMay_of_forbidden forbidden, if_neg Bool.false_ne_true, answer_head head]
      rfl
    obtain ⟨act, ends | ends⟩ := exec_take l (reqKind r) s
    · exact .inl (by rw [ends, refusal, finish_answered link rfl])
    · exact .inr (by rw [ends, refusal, settle_answered link rfl])

end Sys2Proof.Machine
end

section
/-! CHANNEL_STATUS, POSITION_READ and NODE_READ: their replies on a head that is taken, and their contents field by field
as Table 10-2 lists them: O17. -/

namespace Sys2Proof.Machine

-- One proof at a time and no linter passes: together they take more memory than the check gives.
set_option Elab.async false
set_option linter.all false

variable {s : State} {l : LinkId} {m : Mlu} {f : List Byte} {rest : List (List Byte)}

/-! ## The replies -/

theorem exec_channelStatus_head {b : Byte} (head : Head s l m f rest (.channelStatus b)) :
    exec (.channelStatus l) s =
      .next (s.finish ((s.setLink l { m with queue := rest }).channelStatus l (byteAt f 1) b)) := by
  show Host.Outcome.next (s.finish (s.serve l .channelStatus _)) = _
  rw [serve_take head (k := .channelStatus) rfl rfl]

theorem exec_channelStatus_named {b : Byte} {c : ChanId} (head : Head s l m f rest (.channelStatus b))
    (named : b.toNat = c.val) : exec (.channelStatus l) s =
      .next (s.answered l m rest .channelStatus (byteAt f 1) .ok (s.statusContent c)) := by
  rw [exec_channelStatus_head head]
  unfold State.channelStatus
  rw [chanOf_val named]
  dsimp only
  rw [statusContent_setLink, setLink_answer head, finish_answered head.link rfl]

theorem exec_channelStatus_unknown {b : Byte} (head : Head s l m f rest (.channelStatus b)) (unknown : 12 ≤ b.toNat) :
    exec (.channelStatus l) s = .next (s.answered l m rest .channelStatus (byteAt f 1) .noFunction []) := by
  rw [exec_channelStatus_head head]
  unfold State.channelStatus
  rw [chanOf_none unknown]
  dsimp only
  rw [setLink_answer head, finish_answered head.link rfl]

theorem exec_positionRead_head {p : Pos} (head : Head s l m f rest (.positionRead p)) :
    exec (.positionRead l) s =
      .next (s.answered l m rest .positionRead (byteAt f 1) .ok (s.positionContent p)) := by
  show Host.Outcome.next (s.finish (s.serve l .positionRead _)) = _
  rw [serve_take head (k := .positionRead) rfl rfl]
  dsimp only
  rw [positionContent_setLink, setLink_answer head, finish_answered head.link rfl]

theorem exec_nodeRead_head {ref : EntryRef} (head : Head s l m f rest (.nodeRead ref))
    (role : m.role = .service ∨ m.role = .bench) : exec (.nodeRead l) s =
      .next (s.answered l m rest .nodeRead (byteAt f 1) .ok (nodeContent ref (s.entry ref))) := by
  have may : roleMay m.role .nodeRead = true := by
    rcases role with h | h <;> rw [h] <;> rfl
  show Host.Outcome.next (s.finish (s.serve l .nodeRead _)) = _
  rw [serve_take head (k := .nodeRead) rfl may]
  dsimp only
  rw [entry_setLink, setLink_answer head, finish_answered head.link rfl]

/-! ## The contents -/

/-- A reply of 45 bytes for every channel: 12 of the channel, and 33 of its verdict or of zeros. -/
theorem length_statusContent (s : State) (c : ChanId) : (s.statusContent c).length = 45 := by
  unfold State.statusContent
  split <;> rfl

/-- The 76 bytes of a position, of which the ident takes 17 whatever its length. -/
theorem length_positionContent (s : State) (p : Pos) : (s.positionContent p).length = 76 := by
  unfold State.positionContent
  simp [length_padTo, bytes2, bytes4, classBytes, allLamps]

theorem length_slotContent (sl : Slot) : (slotContent sl).length = 14 := rfl

theorem length_nodeContent (ref : EntryRef) (e : Entry) :
    (nodeContent ref (some e)).length = 12 + 14 * e.slots.length := by
  have slots : (e.slots.flatMap slotContent).length = 14 * e.slots.length := by
    rw [List.length_flatMap]
    simp only [length_slotContent, List.map_const', List.sum_replicate_nat, Nat.mul_comm]
  unfold nodeContent
  simp [slots, Word32.bytes]
  omega

theorem padTo_eq (bs : List Byte) (n : Nat) : padTo n bs = (bs ++ List.replicate n 0).take n := by
  unfold padTo
  rw [List.take_append, List.take_replicate]
  congr 2
  omega

theorem chanOnPhase_eq (s : State) (c : ChanId) : s.chanOnPhase c =
    if c = 0 ∨ c = 1 then s.bank.turn.onPhase else if c = 2 then s.bank.emergency.onPhase else false := by
  have turn : c.val ≤ 1 ↔ c = 0 ∨ c = 1 := by revert c; decide
  have stop : c.val = 2 ↔ c = 2 := by revert c; decide
  unfold State.chanOnPhase
  simp only [turn, stop]

/-- The probe condition of a channel reads the request held on it, and nothing of a request on another (R68 (9)). -/
theorem probeCondition_cases (s : State) (c : ChanId) :
    ((∀ q, s.bank.probe = some q → lampChan q.lamp ≠ c) → s.probeCondition c = (0, 0)) ∧
    ∀ q, s.bank.probe = some q → lampChan q.lamp = c → s.probeCondition c =
      ((match q.phase with | .postponed => 1 | .attempt => 2 | .settledOnly => 3), 10000 - q.elapsed) := by
  unfold State.probeCondition
  refine ⟨fun other => ?_, fun q held on => ?_⟩
  · split
    · rfl
    · rename_i q held
      rw [if_neg (other q held)]
  · rw [held]
    exact if_pos on

theorem statusContent_supply (s : State) {c : ChanId} (supply : c = 9 ∨ c = 10) :
    s.statusContent c = s.chanPart c ++ 0xFF :: List.replicate 32 0 := by
  unfold State.statusContent
  rw [chanLamp_none supply]

theorem statusContent_lamp (s : State) (lamp : LampId) : s.statusContent (lampChan lamp) =
    s.chanPart (lampChan lamp) ++ (s.verdictPart lamp ++ allPos.flatMap (s.sharePart lamp)) := by
  unfold State.statusContent
  rw [chanLamp_lampChan]

/-- The pending kind and suspect set of a verdict as they are sent, by the candidate there is. -/
theorem verdictPart_eq (s : State) (lamp : LampId) {kind suspects : Byte}
    (none : (s.load.verdicts.get lamp).pending = none → kind = 0xFF ∧ suspects = 0)
    (some : ∀ x, (s.load.verdicts.get lamp).pending = some x →
      kind = byteOf x.kind.code ∧ suspects = x.suspects.setWidth 8) :
    let v := s.load.verdicts.get lamp
    let e := s.load.expected.get lamp
    s.verdictPart lamp = [byteOf v.kind.code, v.suspects.setWidth 8, byteOf v.attribution] ++ bytes3 v.deviation ++
      [kind, suspects, byteOf v.agreement] ++ bytes2 v.lastM ++ bytes2 v.lastPeak ++ bytes3 e ++
      bytes2 (max 60 ((e + 8) / 16)) := by
  unfold State.verdictPart
  dsimp only
  cases pending : (s.load.verdicts.get lamp).pending with
  | none =>
    obtain ⟨rfl, rfl⟩ := none pending
    rfl
  | some x =>
    obtain ⟨rfl, rfl⟩ := some x pending
    rfl

/-- Settles O17: the replies as the lemmas above give them, and the contents field by field. -/
theorem readsAnswerAsTabled : Obligations.ReadsAnswerAsTabled := by
  intro l s m f rest
  refine ⟨fun b c head named => exec_channelStatus_named head named, fun b head unknown => exec_channelStatus_unknown head unknown,
    fun p head => exec_positionRead_head head, fun ref head role => exec_nodeRead_head head role,
    fun c => ⟨length_statusContent s c, ?status⟩, fun p => ⟨length_positionContent s p, ?position⟩, fun _ => rfl,
    fun ref e => ⟨length_nodeContent ref e, ?node⟩⟩
  case status =>
    dsimp only
    obtain ⟨none, held⟩ := probeCondition_cases s c
    refine ⟨(s.probeCondition c).1, (s.probeCondition c).2, fun other => ?_, fun q hq on => ?_, fun supply => ?_,
      fun lamp hc kind suspects hnone hsome => ?_⟩
    · rw [none other]
      exact ⟨rfl, rfl⟩
    · rw [held q hq on]
      exact ⟨rfl, rfl⟩
    · rw [statusContent_supply s supply, ← chanOnPhase_eq]
      rfl
    · subst hc
      rw [statusContent_lamp, verdictPart_eq s lamp hnone hsome, ← chanOnPhase_eq]
      simp only [List.append_assoc]
      rfl
  case position =>
    refine ⟨indexBits (s.pos p).singles, indexBits (s.pos p).groups, indexBits_testBit _, indexBits_testBit _, ?_⟩
    unfold State.positionContent
    dsimp only
    rw [padTo_eq]
    cases (s.pos p).repeater <;> cases (s.pos p).ident <;> rfl
  case node =>
    unfold nodeContent
    simp only [List.cons_append, List.nil_append]
    congr 3
    funext sl
    rw [slotContent]
    cases sl.number <;> rfl

end Sys2Proof.Machine
end

section
/-! TRIP_RECORD_READ and CHANNEL_CLEAR: O19. -/

namespace Sys2Proof.Machine

-- One proof at a time and no linter passes: together they take more memory than the check gives.
set_option Elab.async false
set_option linter.all false

variable {s : State} {l : LinkId} {m : Mlu} {f : List Byte} {rest : List (List Byte)} {b : Byte}

/-! ## TRIP_RECORD_READ (R56) -/

theorem exec_tripRecordRead_head {clear : Bool} (head : Head s l m f rest (.tripRecordRead b clear)) (role : m.role ≠ .brake) :
    exec (.tripRecordRead l) s = .next (s.finish ((s.setLink l { m with queue := rest }).tripRecordRead l
      ⟨m.role, byteAt f 1, .tripRecordRead b clear⟩ b clear)) := by
  have may : roleMay m.role .tripRecordRead = true := by
    revert role
    cases m.role <;> decide
  show Host.Outcome.next (s.finish (s.serve l .tripRecordRead _)) = _
  rw [serve_take head (k := .tripRecordRead) rfl may]

/-- The clear option is not BODY's, and that is looked at before the number. -/
theorem exec_tripRecordRead_rights (head : Head s l m f rest (.tripRecordRead b true)) (role : m.role = .body) :
    exec (.tripRecordRead l) s = .next (s.answered l m rest .tripRecordRead (byteAt f 1) .rights []) := by
  rw [exec_tripRecordRead_head head (by rw [role]; decide)]
  unfold State.tripRecordRead
  rw [if_pos ⟨rfl, role⟩, setLink_answer head, finish_answered head.link rfl]

theorem exec_tripRecordRead_unknown {clear : Bool} (head : Head s l m f rest (.tripRecordRead b clear))
    (role : m.role ≠ .brake) (right : ¬(clear = true ∧ m.role = .body)) (unknown : 12 ≤ b.toNat) :
    exec (.tripRecordRead l) s = .next (s.answered l m rest .tripRecordRead (byteAt f 1) .noFunction []) := by
  rw [exec_tripRecordRead_head head role]
  unfold State.tripRecordRead
  rw [if_neg right, chanOf_none unknown]
  dsimp only
  rw [setLink_answer head, finish_answered head.link rfl]

/-- The record is answered as it stood; the clear option empties it and nothing else. -/
theorem exec_tripRecordRead_named {clear : Bool} {c : ChanId} (head : Head s l m f rest (.tripRecordRead b clear))
    (role : m.role ≠ .brake) (right : ¬(clear = true ∧ m.role = .body)) (named : b.toNat = c.val) :
    exec (.tripRecordRead l) s =
      .next ((if clear then s.putChan c { s.chan c with trip := none } else s).answered l m rest .tripRecordRead
        (byteAt f 1) .ok (tripContent (s.chan c).trip)) := by
  rw [exec_tripRecordRead_head head role]
  unfold State.tripRecordRead
  rw [if_neg right, chanOf_val named]
  dsimp only
  rw [chan_setLink]
  cases clear with
  | false => rw [if_neg Bool.false_ne_true, if_neg Bool.false_ne_true, setLink_answer head, finish_answered head.link rfl]
  | true => rw [if_pos rfl, if_pos rfl, putChan_setLink, setLink_answer head,
      finish_answered head.link (State.putChan_links ..)]

/-! ## CHANNEL_CLEAR (R54) -/

theorem exec_channelClear_head (head : Head s l m f rest (.channelClear b)) (role : m.role ≠ .brake) :
    exec (.channelClear l) s =
      .next (s.finish ((s.setLink l { m with queue := rest }).channelClear l (byteAt f 1) b)) := by
  have may : roleMay m.role .channelClear = true := by
    revert role
    cases m.role <;> decide
  show Host.Outcome.next (s.finish (s.serve l .channelClear _)) = _
  rw [serve_take head (k := .channelClear) rfl may]

theorem exec_channelClear_unknown (head : Head s l m f rest (.channelClear b)) (role : m.role ≠ .brake)
    (unknown : 12 ≤ b.toNat) :
    exec (.channelClear l) s = .next (s.answered l m rest .channelClear (byteAt f 1) .noFunction []) := by
  rw [exec_channelClear_head head role]
  unfold State.channelClear
  rw [chanOf_none unknown]
  dsimp only
  rw [setLink_answer head, finish_answered head.link rfl]

theorem clearChan_setLink (s : State) (l : LinkId) (m : Mlu) (c : ChanId) :
    (s.setLink l m).clearChan c = (s.clearChan c).setLink l m := by
  have wants : ∀ d, (s.setLink l m).wantsOn d = s.wantsOn d := by intro d; cases l <;> rfl
  have routed : (s.setLink l m).routed c = s.routed c := by cases l <;> rfl
  unfold State.clearChan
  dsimp only
  rw [chan_setLink, wants, routed]
  split
  · rw [putChan_setLink, setLink_testProbe]
  · rfl

theorem links_clearChan (s : State) (c : ChanId) : (s.clearChan c).links = s.links := by
  unfold State.clearChan
  dsimp only
  split
  · exact links_testProbe _
  · rfl

theorem exec_channelClear_named {c : ChanId} (head : Head s l m f rest (.channelClear b)) (role : m.role ≠ .brake)
    (named : b.toNat = c.val) : exec (.channelClear l) s = .next ((s.clearChan c).answered l m rest .channelClear
      (byteAt f 1) .ok [byteOf ((s.clearChan c).chan c).state.code, byteOf ((s.clearChan c).chan c).streakCount]) := by
  rw [exec_channelClear_head head role]
  unfold State.channelClear
  rw [chanOf_val named]
  dsimp only
  rw [clearChan_setLink, chan_setLink, setLink_answer head, finish_answered head.link (links_clearChan s c)]

theorem clearChan_other {c : ChanId} (h : (s.chan c).state ≠ .latched) : s.clearChan c = s := if_neg h

theorem clearChan_latched {c : ChanId} (h : (s.chan c).state = .latched) : s.clearChan c =
    (s.putChan c ((s.chan c).clear (s.routed c) (s.wantsOn (s.chan c).demand))).testProbe := if_pos h

/-- A request tested again changes no channel's streak. -/
theorem streakCount_testProbe (s : State) (c : ChanId) : (s.testProbe.chan c).streakCount = (s.chan c).streakCount :=
  (lasting_eq ((calm_testProbe (Calm.refl s)).channels c)).2.2.2.1

/-- Settles O19: the released channel is that of `Channel.clear`, and the request tested again that of `testProbe`. -/
theorem tripRecordsAndClears : Obligations.TripRecordsAndClears := by
  intro l s m f rest b role
  refine ⟨rfl, fun clear head => ⟨?rights, fun right => ⟨exec_tripRecordRead_unknown head role (right ∘ And.symm),
    fun c => exec_tripRecordRead_named head role (right ∘ And.symm)⟩⟩,
    fun head => ⟨exec_channelClear_unknown head role, fun c named => ⟨fun other => ?other, fun latched => ?latched⟩⟩⟩
  case rights =>
    rintro body rfl
    exact exec_tripRecordRead_rights head body
  case other => rw [exec_channelClear_named head role named, clearChan_other other]
  case latched =>
    obtain ⟨hot, cool, streak⟩ := clear_acts (s.routed c) (s.wantsOn (s.chan c).demand) (s.chan c)
    have exec_eq := exec_channelClear_named head role named
    rw [clearChan_latched latched, streakCount_testProbe, State.chan_putChan_self, streak] at exec_eq
    dsimp only
    refine ⟨_, hot, cool, fun none => ?_, fun q held postponed => ⟨_, probeTested_testProbe held, exec_eq⟩⟩
    rw [exec_eq, testProbe_idle (s := s.putChan c _) none, State.chan_putChan_self]
    rfl

end Sys2Proof.Machine
end

section
/-! LIGHTING_SET and WORKSHOP_GRANT: what they record, what the channels and flashers do on the demands that follow, and
what a LIGHTING_SET outside its sender's rights is answered: O21 to O23. -/

namespace Sys2Proof.Machine

-- One proof at a time and no linter passes: together they take more memory than the check gives.
set_option Elab.async false
set_option linter.all false

variable {s : State} {l : LinkId} {m : Mlu} {f : List Byte} {rest : List (List Byte)} {named asked : Word16}

/-! ## LIGHTING_SET refused (R145) -/

theorem exec_lightingSet_head (head : Head s l m f rest (.lightingSet named asked)) :
    exec (.lightingSet l) s = .next (s.settle ((s.setLink l { m with queue := rest }).lightingSet l
      ⟨m.role, byteAt f 1, .lightingSet named asked⟩ named asked)) := by
  show Host.Outcome.next (s.settle (s.serve l .lightingSet _)) = _
  rw [serve_take head (k := .lightingSet) rfl rfl]

/-- Number 15 first, then rights, then whole or not at all (R145). -/
theorem lightingSet_cases (s : State) (l : LinkId) (t : Taken) (named asked : Word16) :
    let outside := named.setWidth 15 &&& ~~~ lightingRights t.role s.light.grant
    (named.getLsbD 15 = true → s.lightingSet l t named asked = s.answer l .lightingSet t.tag .noFunction []) ∧
    (named.getLsbD 15 = false → outside ≠ 0 →
      s.lightingSet l t named asked = s.answer l .lightingSet t.tag .rights (functionBytes outside)) ∧
    (named.getLsbD 15 = false → outside = 0 →
      s.lightingSet l t named asked = s.lightingCarried l t (named.setWidth 15) (asked.setWidth 15)) := by
  refine ⟨fun fifteen => if_pos fifteen, fun known some => ?_, fun known none => ?_⟩
  · exact (if_neg (Bool.eq_false_iff.1 known)).trans (if_pos some)
  · exact (if_neg (Bool.eq_false_iff.1 known)).trans (if_neg (not_not_intro none))

theorem exec_lightingSet_unknown (head : Head s l m f rest (.lightingSet named asked)) (fifteen : named.getLsbD 15 = true) :
    exec (.lightingSet l) s = .next (s.answered l m rest .lightingSet (byteAt f 1) .noFunction []).grantIfIdle := by
  rw [exec_lightingSet_head head, (lightingSet_cases ..).1 fifteen, setLink_answer head, settle_answered head.link rfl]

/-- BRAKE may set functions 2 and 13, SERVICE any while the grant is on and none without it, BODY and BENCH any (Table
7-2). -/
theorem lightingRights_bit (r : LinkRole) (grant : Bool) {n : Nat} (hn : n < 15) :
    (lightingRights r grant).getLsbD n = true ↔
      ¬((r = .brake ∧ n ≠ 2 ∧ n ≠ 13) ∨ (r = .service ∧ grant = false)) := by
  cases r with
  | body | bench => simpa [lightingRights] using allF n hn
  | brake =>
    have bits : ∀ k : Fin 15, (lightingRights .brake grant).getLsbD k.val = true ↔ ¬(k.val ≠ 2 ∧ k.val ≠ 13) := by
      simp only [lightingRights]
      decide
    simpa using bits ⟨n, hn⟩
  | service =>
    cases grant with
    | true => simpa [lightingRights] using allF n hn
    | false => simp [lightingRights]

theorem exec_lightingSet_rights (head : Head s l m f rest (.lightingSet named asked)) (known : named.getLsbD 15 = false)
    {outside : FunctionSet} (some : outside ≠ 0)
    (bits : ∀ n, n < 15 → (outside.getLsbD n = true ↔ named.getLsbD n = true ∧
      ((m.role = .brake ∧ n ≠ 2 ∧ n ≠ 13) ∨ (m.role = .service ∧ s.light.grant = false)))) :
    exec (.lightingSet l) s = .next
      (s.answered l m rest .lightingSet (byteAt f 1) .rights (functionBytes outside)).grantIfIdle := by
  have refused : named.setWidth 15 &&& ~~~ lightingRights m.role s.light.grant = outside := by
    refine fs_ext fun n hn => Bool.eq_iff_iff.2 ?_
    have forbidden := not_congr (lightingRights_bit m.role s.light.grant hn)
    rw [Classical.not_not] at forbidden
    rw [bits n hn, ← forbidden]
    simp [hn]
  have cases := lightingSet_cases (s.setLink l { m with queue := rest }) l ⟨m.role, byteAt f 1, .lightingSet named asked⟩
    named asked
  dsimp only at cases
  rw [State.setLink_light, refused] at cases
  rw [exec_lightingSet_head head, cases.2.1 known some, setLink_answer head, settle_answered head.link rfl]

/-! ## LIGHTING_SET carried out (R145, R146) -/

/-- The record a LIGHTING_SET leaves: each named function takes the state asked for. -/
def State.lightingRecord (s : State) (r : Role) (named asked : Word16) : FunctionSet :=
  (s.light.record r &&& ~~~ named.setWidth 15) ||| (named.setWidth 15 &&& asked.setWidth 15)

/-- The part with a record replaced, before the demands are formed. -/
def State.withRecord (s : State) (r : Role) (f : FunctionSet) : State := { s with light := s.light.setRecord r f }

theorem withRecord_setLink (s : State) (l : LinkId) (m : Mlu) (r : Role) (f : FunctionSet) :
    (s.setLink l m).withRecord r f = (s.withRecord r f).setLink l m := setRecord_setLink s l m r f

theorem darkSet_iff (s : State) (named : Word16) {n : Nat} (hn : n < 15) :
    (s.darkSet (named.setWidth 15)).getLsbD n = true ↔
      named.getLsbD n = true ∧ ∃ c ∈ functionChans n, s.routed c = false := by
  rw [darkSet_bit s _ n hn]
  simp [State.darkFunction, hn]

/-- The reply of a LIGHTING_SET carried out: record, effective states and dark set as they stand (R146). -/
def State.lightingAnswered (t : State) (l : LinkId) (tag : Byte) (r : Role) (names : FunctionSet) : State :=
  t.answer l .lightingSet tag (if t.darkSet names = 0 then .ok else .dark)
    (functionBytes (t.light.record r) ++ functionBytes t.effective ++ functionBytes (t.darkSet names))

/-- What a LIGHTING_SET within its rights comes to: the record taken, the demands formed, the reply with what then
stands. -/
theorem exec_lightingSet_carried (head : Head s l m f rest (.lightingSet named asked)) (known : named.getLsbD 15 = false)
    (brake : m.role = .brake → ∀ n, n < 15 → named.getLsbD n = true → n = 2 ∨ n = 13)
    (service : m.role = .service → s.light.grant = true ∨ ∀ n, n < 15 → named.getLsbD n = false) :
    let u := s.withRecord m.role.role (s.lightingRecord m.role.role named asked)
    exec (.lightingSet l) s = .next (s.settle ((u.setLink l { m with queue := rest }).formDemand.lightingAnswered l
      (byteAt f 1) m.role.role (named.setWidth 15))) := by
  intro u
  have taken : (s.setLink l { m with queue := rest }).setRecord m.role.role (s.lightingRecord m.role.role named asked) =
      (u.setLink l { m with queue := rest }).formDemand :=
    congrArg State.formDemand (withRecord_setLink s l _ m.role.role _)
  have carried := (lightingSet_cases (s.setLink l { m with queue := rest }) l
    ⟨m.role, byteAt f 1, .lightingSet named asked⟩ named asked).2.2 known
      (by rw [State.setLink_light]; exact within_rights brake service)
  rw [exec_lightingSet_head head, carried]
  unfold State.lightingCarried
  dsimp only
  rw [State.setLink_light]
  exact congrArg (fun t : State => Host.Outcome.next (s.settle (t.lightingAnswered l (byteAt f 1) m.role.role
    (named.setWidth 15)))) taken

/-- A demand formed past a link is the one formed without it. -/
theorem demand_setLink_formDemand {u : State} {m' : Mlu} (live : ∀ q, u.bank.probe = some q → u.live q.pos = true)
    (c : ChanId) : ((u.setLink l m').formDemand.chan c).demand = u.newDemand c := by
  have disturbed := formDemand_disturbs (s := u.setLink l m')
    (by simpa only [State.setLink_bank, live_setLink] using live)
  rw [disturbed.2.1, newDemand_setLink]

/-- The reply of an act that formed the demands of `u` disturbs nothing but channel states, outputs and the link that is
answered. -/
theorem undisturbed_settle_answer {u : State} (before : State) (active : m.busOff = false)
    (live : ∀ q, u.bank.probe = some q → u.live q.pos = true) (k : ReqKind) (tag : Byte) (st : Status) (c : List Byte) :
    Undisturbed (u.answered l m rest k tag st c)
      (before.settle ((u.setLink l { m with queue := rest }).formDemand.answer l k tag st c)) := by
  obtain ⟨undisturbed, -, quiet⟩ := formDemand_disturbs (s := u.setLink l { m with queue := rest })
    (by simpa only [State.setLink_bank, live_setLink] using live)
  have answered := undisturbed_answer (State.link_setLink_self u l { m with queue := rest }) active undisturbed (quiet l)
    k tag st c
  unfold State.answered at answered ⊢
  rw [State.setLink_setLink] at answered
  exact answered.trans (undisturbed_settle before _)

/-- Settles O21. -/
theorem lightingSetDone : Obligations.LightingSetDone := by
  intro l s m f rest named asked head
  refine ⟨fun chain known brake service => ⟨fun n hn => darkSet_iff s named hn, ?carried⟩, exec_lightingSet_unknown head,
    fun known outside some bits => exec_lightingSet_rights head known some bits⟩
  case carried =>
    obtain ⟨u, hu⟩ : ∃ u, u = s.withRecord m.role.role (s.lightingRecord m.role.role named asked) := ⟨_, rfl⟩
    have live : ∀ q, u.bank.probe = Option.some q → u.live q.pos = true := by
      rw [hu]
      exact probeLive_of_chain chain
    obtain ⟨undisturbed, -, -⟩ := formDemand_disturbs (s := u.setLink l { m with queue := rest })
      (by simpa only [State.setLink_bank, live_setLink] using live)
    have exec_eq := exec_lightingSet_carried head known brake service
    dsimp only at exec_eq
    rw [← hu] at exec_eq
    refine ⟨_, exec_eq, fun c => ?_, ?_⟩
    · rw [chan_settle, State.lightingAnswered, State.chan_of_bank (congrArg _ (State.answer_bank ..)),
        demand_setLink_formDemand live, hu]
      rfl
    · have record : (u.setLink l { m with queue := rest }).formDemand.light.record m.role.role =
          s.lightingRecord m.role.role named asked := by
        rw [undisturbed.records.1, State.setLink_light, hu]
        exact record_setRecord ..
      have effective : (u.setLink l { m with queue := rest }).formDemand.effective = u.effective := by
        rw [undisturbed.effective, effective_setLink]
      have dark : (u.setLink l { m with queue := rest }).formDemand.darkSet (named.setWidth 15) =
          s.darkSet (named.setWidth 15) := by
        refine darkSet_matrix ?_ _
        rw [undisturbed.matrix, State.setLink_matrix, hu]
        rfl
      rw [State.lightingAnswered, record, effective, dark]
      have done := undisturbed_settle_answer (l := l) (rest := rest) s head.active live .lightingSet (byteAt f 1)
        (if s.darkSet (named.setWidth 15) = 0 then .ok else .dark)
        (functionBytes (s.lightingRecord m.role.role named asked) ++ functionBytes u.effective ++
          functionBytes (s.darkSet (named.setWidth 15)))
      rw [hu] at done ⊢
      exact done

/-! ## Channels and flashers on the demands formed (R45, R47, R48, R149) -/

/-- A flasher that is wanted runs on or starts with an on-phase, and one that is not is idle. -/
theorem want_paced {wanted : Prop} [Decidable wanted] (fast : Bool) (f : Flasher) :
    (wanted → f.running = true → f.want (decide wanted) fast = f) ∧
    (wanted → f.running = false →
      f.want (decide wanted) fast = { running := true, onPhase := true, age := 0, fast := fast }) ∧
    (¬wanted → f.want (decide wanted) fast = {}) := by
  unfold Flasher.want
  refine ⟨fun h on => ?_, fun h off => ?_, fun h => ?_⟩
  · rw [if_pos (decide_eq_true h), if_pos on]
  · rw [if_pos (decide_eq_true h), if_neg (Bool.eq_false_iff.1 off)]
  · rw [if_neg (by simpa using h)]

/-- The flashers once the demands are handed over, as those demands want them. -/
theorem Handed.paced {v t : State} (h : Handed v.stepFlashers t) :
    t.bank.turn = v.bank.turn.want (decide (v.newDemand 0 = .flashTurn ∨ v.newDemand 1 = .flashTurn)) v.light.fast ∧
    t.bank.emergency = v.bank.emergency.want (decide (v.newDemand 2 = .flashEmergency)) false := by
  refine ⟨h.flashers.1.trans ?_, h.flashers.2⟩
  rw [Bool.decide_or]
  rfl

theorem Handed.wantsOn {a b : State} (h : Handed a b) (d : Demand) : b.wantsOn d = a.wantsOn d := by
  unfold State.wantsOn
  rw [h.flashers.1, h.flashers.2]

/-- Settles O22: the demands handed over channel by channel, then the probe struck where its channel's demand changed. -/
theorem channelsActOnDemand : Obligations.ChannelsActOnDemand := by
  intro l s m f rest named asked head known brake service
  obtain ⟨u, hu⟩ : ∃ u, u = s.withRecord m.role.role (s.lightingRecord m.role.role named asked) := ⟨_, rfl⟩
  obtain ⟨v, hv⟩ : ∃ v, v = u.setLink l { m with queue := rest } := ⟨_, rfl⟩
  obtain ⟨x, chans, handed, ends⟩ := formed v
  have exec_eq := exec_lightingSet_carried head known brake service
  dsimp only at exec_eq ⊢
  rw [← hu, ← hv] at exec_eq
  -- what the record and the link leave alone
  have matrix : v.matrix = s.matrix := by rw [hv, State.setLink_matrix, hu]; rfl
  have bank : v.bank = s.bank := by rw [hv, State.setLink_bank, hu]; rfl
  have fast : v.light.fast = s.light.fast := by rw [hv, State.setLink_light, hu]; cases m.role <;> rfl
  have demand : ∀ c, v.newDemand c = demandOf u.effective s.det.couplingDemand c := by
    intro c
    rw [hv, newDemand_setLink, State.newDemand, hu]
    rfl
  have chan : ∀ c, v.chan c = s.chan c := fun c => State.chan_of_bank (congrArg _ bank) c
  have routed : ∀ c, v.routed c = s.routed c := fun c => by unfold State.routed; rw [matrix]
  have wants : ∀ d, v.wantsOn d = s.wantsOn d := fun d => by unfold State.wantsOn; rw [bank]
  obtain ⟨turn, emergency⟩ := handed.paced
  rw [demand, demand, bank, fast] at turn
  rw [demand, bank] at emergency
  have probe : x.bank.probe = s.bank.probe :=
    handed.probe.trans (show v.bank.probe = s.bank.probe from congrArg _ bank)
  have probeChan : v.probeChan = s.bank.probe.map fun q => lampChan q.lamp := by rw [State.probeChan, bank]
  rw [hu] at demand turn emergency
  refine ⟨_, v.formDemand, x, exec_eq, (State.settle_bank ..).trans (State.answer_bank ..),
    (State.settle_map ..).trans (State.answer_map ..), (State.settle_load ..).trans (State.answer_load ..),
    ?map, ?load, handed.matrix.trans matrix, probe, ?supply, ?inside, ?turn, ?emergency, fun c => ⟨fun same => ?_, fun changed => ?_⟩,
    fun same => ?kept, fun q held changed => ?struck⟩
  case map => rw [handed.map]; show v.map = _; rw [hv, State.setLink_map, hu]; rfl
  case load => rw [handed.load]; show v.load = _; rw [hv, State.setLink_load, hu]; rfl
  case supply => exact handed.supply.1.trans (show v.bank.supply = _ from congrArg _ bank)
  case inside => exact handed.supply.2.trans (show v.bank.supplyInside = _ from congrArg _ bank)
  case turn => rw [turn]; exact want_paced _ _
  case emergency => rw [emergency]; exact want_paced _ _
  · rw [chans, if_pos ((demand c).trans (same.trans (by rw [chan]))), chan]
  · rw [chans, if_neg (fun h => changed ((demand c).symm.trans (h.trans (by rw [chan])))), chan, routed, wants,
      ← handed.wantsOn, demand]
    exact acceptDemand_acts _ _ _ _ _
  case kept =>
    rw [ends, probeChan]
    cases held : s.bank.probe with
    | none => rfl
    | some q =>
      refine if_pos ?_
      rw [demand, chan]
      exact same q held
  case struck =>
    have disturbed : v.formDemand = x.disturbProbe := by
      rw [ends, probeChan, held]
      refine if_neg ?_
      rw [demand, chan]
      exact changed
    rw [disturbed]
    exact probeStruck_disturbProbe (probe.trans held)

/-! ## WORKSHOP_GRANT (R147) -/

theorem exec_workshopGrant_head {on : Bool} (head : Head s l m f rest (.workshopGrant on))
    (role : m.role = .body ∨ m.role = .bench) : exec (.workshopGrant l) s =
      .next (s.settle (((s.setLink l { m with queue := rest }).setGrant on).answer l .workshopGrant (byteAt f 1) .ok
        [byteOf (bit ((s.setLink l { m with queue := rest }).setGrant on).light.grant)])) := by
  have may : roleMay m.role .workshopGrant = true := by
    rcases role with h | h <;> rw [h] <;> rfl
  show Host.Outcome.next (s.settle (s.serve l .workshopGrant _)) = _
  rw [serve_take head (k := .workshopGrant) rfl may]

/-- Settles O23. -/
theorem workshopGrantSet : Obligations.WorkshopGrantSet := by
  intro l s m f rest on head role
  have exec_eq := exec_workshopGrant_head head role
  refine ⟨?on, ?off⟩
  case on =>
    rintro rfl
    have granted : (s.setLink l { m with queue := rest }).setGrant true =
        ({ s with light := { s.light with grant := true } } : State).setLink l { m with queue := rest } := by
      cases l <;> rfl
    rw [exec_eq, granted, setLink_answer head, State.setLink_light]
    exact congrArg _ (settle_answered (t := { s with light := { s.light with grant := true } }) head.link rfl ..)
  case off =>
    rintro rfl chain
    obtain ⟨u, hu⟩ : ∃ u : State, u = { s with light := { s.light with grant := false, service := 0 } } := ⟨_, rfl⟩
    have live : ∀ q, u.bank.probe = some q → u.live q.pos = true := by
      rw [hu]
      exact probeLive_of_chain chain
    have revoked : (s.setLink l { m with queue := rest }).setGrant false =
        (u.setLink l { m with queue := rest }).formDemand := by
      refine congrArg State.formDemand ?_
      rw [hu]
      cases l <;> rfl
    obtain ⟨undisturbed, -, -⟩ := formDemand_disturbs (s := u.setLink l { m with queue := rest })
      (by simpa only [State.setLink_bank, live_setLink] using live)
    have grant : (u.setLink l { m with queue := rest }).formDemand.light.grant = false := by
      rw [undisturbed.records.2, State.setLink_light, hu]
    rw [revoked, grant] at exec_eq
    dsimp only
    refine ⟨_, exec_eq, fun c => ?_, ?_⟩
    · rw [chan_settle, State.chan_of_bank (congrArg _ (State.answer_bank ..)), demand_setLink_formDemand live, hu]
      rfl
    · rw [← hu]
      exact undisturbed_settle_answer s head.active live .workshopGrant (byteAt f 1) .ok [0]

end Sys2Proof.Machine
end

section
/-! The requests about numbered functions: what a number decodes to, and what a served request of each kind sets and
answers: O24 to O29. -/

namespace Sys2Proof.Machine

-- One proof at a time and no linter passes: together they take more memory than the check gives.
set_option Elab.async false
set_option linter.all false

variable {s : State} {l : LinkId} {m : Mlu} {f : List Byte} {rest : List (List Byte)} {r : Request} {b : Byte}
variable {ref : EntryRef} {k : Nat} {e : Entry} {sl : Slot}

/-! ## Decoding (R29, R160, Table 1-9) -/

/-- What Table 1-9 answers for an entry depends on the positions alone. -/
theorem decodeAnswer_taken (s : State) (l : LinkId) (m : Mlu) (ref : EntryRef) (e : Entry) :
    ((s.setLink l m).markUsed ref).decodeAnswer e = s.decodeAnswer e := by
  have ready : ∀ u : State, (u.markUsed ref).ready = u.ready := by
    intro u
    funext p
    unfold State.markUsed State.modEntry
    cases u.entry ref with
    | none => rfl
    | some e => exact ready_setEntry ..
  rw [decodeAnswer_names, decodeAnswer_names, ready, ready_setLink]

/-- The requests that name a number all begin alike: NO_FUNCTION where it leads nowhere, the slot's rights before
anything else, then GONE or RETRY on the entry marked used (R160). -/
theorem exec_numbered (head : Head s l m f rest r) (number : requestNumber r = some b.toNat)
    (may : roleMay m.role (reqKind r) = true) : ∃ body : State,
    (exec (takeCommand l (reqKind r)) s = .next (s.finish body) ∨
      exec (takeCommand l (reqKind r)) s = .next (s.settle body)) ∧
    (s.lookup b = none →
      body = (s.setLink l { m with queue := rest }).answer l (reqKind r) (byteAt f 1) .noFunction []) ∧
    ∀ (found : Found) (st : Status), s.lookup b = some found →
      (reqKind r = .functionWrite → mayWrite m.role found.slot = true) → s.decodeAnswer found.entry = some st →
      (st = .gone → reqKind r ≠ .pin ∧ reqKind r ≠ .quarantine) →
      body = ((s.setLink l { m with queue := rest }).markUsed found.ref).answer l (reqKind r) (byteAt f 1) st [] := by
  have served : ∀ (kind : ReqKind) (found : Found) (st : Status) (act : State → State),
      s.decodeAnswer found.entry = some st →
      (s.setLink l { m with queue := rest }).onServed l kind (byteAt f 1) found act =
        ((s.setLink l { m with queue := rest }).markUsed found.ref).answer l kind (byteAt f 1) st [] := by
    intro kind found st act decoded
    rw [State.onServed, decodeAnswer_taken, decoded]
  have sameByte : ∀ c : Byte, some c.toNat = some b.toNat → c = b := fun c h => byte_ext (Option.some.inj h)
  cases r with
  | functionRead c =>
    obtain rfl := sameByte c number
    refine ⟨_, .inr (exec_functionRead head), fun none => ?_, fun found st looked _ decoded _ => ?_⟩
    · rw [State.functionRead, lookup_setLink, none]; rfl
    · rw [State.functionRead, lookup_setLink, looked]; exact served .functionRead found st _ decoded
  | functionWrite c v =>
    obtain rfl := sameByte c number
    refine ⟨_, .inr (exec_functionWrite head), fun none => ?_, fun found st looked right decoded _ => ?_⟩
    · rw [State.functionWrite, lookup_setLink, none]; rfl
    · rw [State.functionWrite, lookup_setLink, looked]
      exact (if_pos (right rfl)).trans (served .functionWrite found st _ decoded)
  | watch c add delta =>
    obtain rfl := sameByte c number
    refine ⟨_, .inr (exec_watch head), fun none => ?_, fun found st looked _ decoded _ => ?_⟩
    · rw [State.watch, lookup_setLink, none]; rfl
    · rw [State.watch, lookup_setLink, looked]; exact served .watch found st _ decoded
  | freshnessSet c w =>
    obtain rfl := sameByte c number
    refine ⟨_, .inr (exec_freshness head may), fun none => ?_, fun found st looked _ decoded _ => ?_⟩
    · rw [State.freshnessSet, lookup_setLink, none]; rfl
    · rw [State.freshnessSet, lookup_setLink, looked]; exact served .freshnessSet found st _ decoded
  | pin c set =>
    obtain rfl := sameByte c number
    refine ⟨_, .inl (exec_pin head), fun none => ?_, fun found st looked _ decoded notGone => ?_⟩
    · rw [State.pin, lookup_setLink, none]; rfl
    · rw [State.pin, lookup_setLink, looked]
      dsimp only
      rw [decodeAnswer_taken, decoded]
      cases st with
      | gone => exact absurd rfl (notGone rfl).1
      | _ => rfl
  | quarantine c set =>
    obtain rfl := sameByte c number
    refine ⟨_, .inr (exec_quarantine head may), fun none => ?_, fun found st looked _ decoded notGone => ?_⟩
    · rw [State.quarantine, lookup_setLink, none]; rfl
    · rw [State.quarantine, lookup_setLink, looked]
      dsimp only
      rw [decodeAnswer_taken, decoded]
      cases st with
      | gone => exact absurd rfl (notGone rfl).2
      | _ => rfl
  | _ => nomatch number

/-- The two ends a request that is answered alone can have. -/
theorem ends_answered (head : Head s l m f rest r) {u body : State} (links : u.links = s.links) {kind : ReqKind}
    {st : Status} (ends : exec (takeCommand l kind) s = .next (s.finish body) ∨
      exec (takeCommand l kind) s = .next (s.settle body))
    (answered : body = (u.setLink l { m with queue := rest }).answer l kind (byteAt f 1) st []) :
    exec (takeCommand l kind) s = .next (u.answered l m rest kind (byteAt f 1) st []) ∨
    exec (takeCommand l kind) s = .next (u.answered l m rest kind (byteAt f 1) st []).grantIfIdle := by
  subst answered
  rw [setLink_answer head] at ends
  rwa [finish_answered head.link links, settle_answered head.link links] at ends

/-- Settles O24: a number leads to a slot or is answered NO_FUNCTION; a stale entry answers GONE and one of a position in
bring-up RETRY. -/
theorem numbersDecoded : Obligations.NumbersDecoded := by
  intro l s m f rest r b head number may
  obtain ⟨body, ends, unknown, early⟩ := exec_numbered head number may
  have marked : ∀ {ref k e sl}, Names s b ref k e sl → (s.setLink l { m with queue := rest }).markUsed ref =
      (s.setEntry ref (some (e.served k sl))).setLink l { m with queue := rest } := by
    intro ref k e sl names
    rw [markUsed_setLink, markUsed_names names]
  refine ⟨fun none => ends_answered head rfl ends (unknown (lookup_none none)), fun ref k e sl names right => ⟨?_, ?_⟩⟩
  · intro stale notPin notQuarantine
    refine ends_answered head (links_setEntry ..) ends ((early _ .gone (lookup_names names) right (if_pos stale)
      fun _ => ⟨notPin, notQuarantine⟩).trans ?_)
    rw [marked names]
  · intro live waiting
    have retry : s.decodeAnswer e = some .retry := by rw [decodeAnswer_names, live, waiting]; rfl
    refine ends_answered head (links_setEntry ..) ends ((early _ .retry (lookup_names names) right retry nofun).trans ?_)
    rw [marked names]

/-! ## FUNCTION_READ (R161) -/

/-- On a live entry of a ready position, what a request does is its act on the entry marked used. -/
theorem onServed_served (head : Head s l m f rest r) (names : Names s b ref k e sl) (live : e.live = true)
    (ready : s.ready e.pos = true) (kind : ReqKind) (tag : Byte) (act : State → State) :
    (s.setLink l { m with queue := rest }).onServed l kind tag ⟨ref, k, e, sl⟩ act =
      act ((s.setEntry ref (some (e.served k sl))).setLink l { m with queue := rest }) := by
  rw [onServed_names head names, if_neg (by simp [live]), if_neg (by simp [ready])]

theorem exec_functionRead_served (head : Head s l m f rest (.functionRead b)) (names : Names s b ref k e sl)
    (live : e.live = true) (ready : s.ready e.pos = true) : exec (.functionRead l) s = .next (s.settle
      (((s.setEntry ref (some (e.served k sl))).setLink l { m with queue := rest }).readServed l
        ⟨m.role, byteAt f 1, .functionRead b⟩ b.toNat ⟨ref, k, e, sl⟩)) := by
  rw [exec_functionRead head, State.functionRead, lookup_setLink, lookup_names names]
  dsimp only
  rw [onServed_served head names live ready]

/-- A read answered from the cache, its role out of the changed-since-read set (R161, R171). -/
theorem settle_readCached (head : Head s l m f rest (.functionRead b)) (names : Names s b ref k e sl) (q : Quality) :
    s.settle (((s.setEntry ref (some (e.served k sl))).setLink l { m with queue := rest }).readCached l
        ⟨m.role, byteAt f 1, .functionRead b⟩ ⟨ref, k, e, sl⟩ q) =
      ((s.setEntry ref (some (e.served k { sl with changed := dropBit sl.changed (roleBit m.role.role) }))).answered l m
        rest .functionRead (byteAt f 1) .ok (readContent sl q)).grantIfIdle := by
  unfold State.readCached
  rw [dropChanged_setLink]
  dsimp only [State.dropChanged]
  rw [modSlot_served names.slot, setLink_answer head, settle_answered head.link (links_setEntry ..)]

/-- Settles O25. -/
theorem functionReadAnswers : Obligations.FunctionReadAnswers := by
  intro l s m f rest b ref k e sl head names live ready
  rw [exec_functionRead_served head names live ready]
  unfold State.readServed
  dsimp only
  refine ⟨fun cached => ?_, fun free stale => ?_⟩
  · cases locked : e.locked with
    | true =>
      rw [if_pos rfl, settle_readCached head names]
      rfl
    | false =>
      have good : sl.quality = .good := cached.resolve_left (by simp [locked])
      rw [if_neg nofun, if_pos good, settle_readCached head names]
      rfl
  · rw [free, if_neg nofun, if_neg stale]
    obtain ⟨inUse, full, room⟩ := admit_cases head (u := s.setEntry ref (some (e.served k sl))) (links_setEntry ..)
      (State.setEntry_dec ..) .functionRead
      { link := l, tag := byteAt f 1, number := b.toNat, value := none, reserved := readReserve sl } rfl []
    exact ⟨fun h => congrArg _ (inUse h), fun h h' => congrArg _ (full h h'), fun h h' => congrArg _ (room h h')⟩

/-! ## FUNCTION_WRITE (R164 to R167) -/

theorem exec_functionWrite_named {v : Word16} (head : Head s l m f rest (.functionWrite b v))
    (names : Names s b ref k e sl) : exec (.functionWrite l) s = .next (s.settle
      (if mayWrite m.role sl then
        (s.setLink l { m with queue := rest }).onServed l .functionWrite (byteAt f 1) ⟨ref, k, e, sl⟩ fun u =>
          u.writeServed l ⟨m.role, byteAt f 1, .functionWrite b v⟩ b.toNat ⟨ref, k, e, sl⟩ v
      else (s.setLink l { m with queue := rest }).answer l .functionWrite (byteAt f 1) .rights [])) := by
  rw [exec_functionWrite head, State.functionWrite, lookup_setLink, lookup_names names]

theorem exec_functionWrite_served {v : Word16} (head : Head s l m f rest (.functionWrite b v))
    (names : Names s b ref k e sl) (may : mayWrite m.role sl = true) (live : e.live = true)
    (ready : s.ready e.pos = true) : exec (.functionWrite l) s = .next (s.settle
      (((s.setEntry ref (some (e.served k sl))).setLink l { m with queue := rest }).writeServed l
        ⟨m.role, byteAt f 1, .functionWrite b v⟩ b.toNat ⟨ref, k, e, sl⟩ v)) := by
  rw [exec_functionWrite_named head names, if_pos may, onServed_served head names live ready]

/-- Where a number's post stands, a write replaces value and poster (R167); else it joins the tail of a buffer with
room, or finds it full. -/
theorem post_cases (u : State) (l : LinkId) (t : Taken) (n : Nat) (v : Word16) :
    ((∃ p ∈ u.dec.posted, p.number = n) → u.post l t n v =
      (u.modPosted n fun p => { p with value := v, poster := t.role.role, replaced := p.carried.isSome }).answer l
        .functionWrite t.tag .accepted (Word16.bytes v)) ∧
    ((∀ p ∈ u.dec.posted, p.number ≠ n) → u.dec.posted.length < 8 → u.post l t n v =
      ({ u with dec := { u.dec with
          posted := u.dec.posted ++ [{ number := n, value := v, poster := t.role.role }] } } : State).answer l
        .functionWrite t.tag .accepted (Word16.bytes v)) ∧
    ((∀ p ∈ u.dec.posted, p.number ≠ n) → 8 ≤ u.dec.posted.length →
      u.post l t n v = u.answer l .functionWrite t.tag .busy []) := by
  have none : (∀ p ∈ u.dec.posted, p.number ≠ n) → ¬(u.dec.posted.any fun p => p.number = n) = true := by simp
  refine ⟨fun some => if_pos (by simpa using some), fun absent room => ?_, fun absent full => ?_⟩
  · exact (if_neg (none absent)).trans (if_pos room)
  · exact (if_neg (none absent)).trans (if_neg (Nat.not_lt.2 full))

/-- The answer to a setting write after an act on the posted entries alone. -/
theorem settle_posted {v : Word16} (head : Head s l m f rest (.functionWrite b v)) {u u' : State}
    (links : u.links = s.links) (past : u' = u.setLink l { m with queue := rest }) (st : Status) (content : List Byte) :
    s.settle (u'.answer l .functionWrite (byteAt f 1) st content) =
      (u.answered l m rest .functionWrite (byteAt f 1) st content).grantIfIdle := by
  rw [past, setLink_answer head, settle_answered head.link links]

theorem addPosted_setLink (s : State) (l : LinkId) (m : Mlu) (ps : List Posted) :
    ({ s.setLink l m with dec := { (s.setLink l m).dec with posted := ps } } : State) =
      ({ s with dec := { s.dec with posted := ps } } : State).setLink l m := by cases l <;> rfl

/-- Settles O26. -/
theorem functionWriteAnswers : Obligations.FunctionWriteAnswers := by
  intro l s m f rest b v ref k e sl head names may value u inUse full
  have mayIff : mayWrite m.role sl = true ↔ may := mayWrite_iff ..
  have links : u.links = s.links := links_setEntry ..
  refine ⟨fun forbidden => ?_, fun right live ready locked => ?_, fun right actuator live ready free => ?_,
    fun right setting live ready free => ?_⟩
  · rw [exec_functionWrite_named head names, if_neg (mt mayIff.1 forbidden), setLink_answer head,
      settle_answered head.link rfl]
  · rw [exec_functionWrite_served head names (mayIff.2 right) live ready]
    unfold State.writeServed
    dsimp only
    rw [locked, if_pos rfl, setLink_answer head, settle_answered head.link links]
  · rw [exec_functionWrite_served head names (mayIff.2 right) live ready]
    unfold State.writeServed
    dsimp only
    rw [free, if_neg nofun, actuator]
    obtain ⟨used, none, room⟩ := admit_cases head links (State.setEntry_dec ..) .functionWrite
      { link := l, tag := byteAt f 1, number := b.toNat, value := some value, reserved := 1 } rfl (Word16.bytes value)
    exact ⟨fun h => congrArg _ (used h), fun h h' => congrArg _ (none h h'), fun h h' => congrArg _ (room h h')⟩
  · intro accept
    rw [exec_functionWrite_served head names (mayIff.2 right) live ready]
    unfold State.writeServed
    dsimp only
    rw [free, if_neg nofun, setting]
    dsimp only
    have dec : u.dec = s.dec := State.setEntry_dec ..
    have posted : (u.setLink l { m with queue := rest }).dec.posted = s.dec.posted := by rw [State.setLink_dec, dec]
    obtain ⟨replaced, added, full⟩ := post_cases (u.setLink l { m with queue := rest }) l
      ⟨m.role, byteAt f 1, .functionWrite b v⟩ b.toNat value
    rw [posted] at replaced added full
    refine ⟨fun some => ?_, fun absent room => ?_, fun absent noRoom => ?_⟩
    · refine congrArg _ ((congrArg _ (replaced some)).trans ?_)
      rw [← dec]
      exact settle_posted head (by exact links) (modPosted_setLink ..) .accepted (Word16.bytes value)
    · refine congrArg _ ((congrArg _ (added absent room)).trans ?_)
      exact settle_posted head (by exact links) (addPosted_setLink ..) .accepted (Word16.bytes value)
    · refine congrArg _ ((congrArg _ (full absent noRoom)).trans ?_)
      exact settle_posted head links rfl .busy []

/-! ## WATCH (R170) -/

theorem setWatcher_setLink (s : State) (l : LinkId) (m : Mlu) (found : Found) (role : Role) (add : Bool) :
    (s.setLink l m).setWatcher found role add = (s.setWatcher found role add).setLink l m := by
  unfold State.setWatcher
  cases add with
  | false => exact modSlot_setLink ..
  | true =>
    by_cases first : found.slot.watch = 0
    · simp only [first, if_true, report_setLink, modSlot_setLink]
    · simp only [first, if_true, if_false, modSlot_setLink]

theorem slot_setLink (s : State) (l : LinkId) (m : Mlu) (ref : EntryRef) (k : Nat) :
    (s.setLink l m).slot ref k = s.slot ref k := by
  unfold State.slot
  rw [entry_setLink]

/-- The last reported value set to the cached one, which is free where a sum lies outside 16 bits (log 13). -/
theorem report_served (slot : e.slots[k]? = some sl) : ∃ reported n,
    (s.setEntry ref (some (e.served k sl))).report ref k =
      ({ s with freeCount := n } : State).setEntry ref (some (e.served k { sl with lastReported := reported })) ∧
    (-32768 ≤ sl.total → sl.total ≤ 32767 → reported.toInt = sl.total ∧ n = s.freeCount) := by
  unfold State.report
  rw [slot_served slot]
  dsimp only
  rw [modSlot_served slot]
  by_cases fits : (BitVec.ofInt 16 sl.total).toInt = sl.total
  · rw [if_pos fits]
    refine ⟨_, s.freeCount, rfl, fun _ _ => ⟨?_, rfl⟩⟩
    rw [reportedValue, if_pos fits, fits]
  · rw [if_neg fits, setEntry_freeCount]
    exact ⟨_, _, rfl, fun low high => absurd (ofInt16 low high) fits⟩

/-- The watch set and the changed-since-read set a role joins or leaves (R170 (1), (2)). -/
theorem setWatcher_served (slot : e.slots[k]? = some sl) (role : Role) (add : Bool) : ∃ reported n,
    (s.setEntry ref (some (e.served k sl))).setWatcher ⟨ref, k, e, sl⟩ role add =
      ({ s with freeCount := n } : State).setEntry ref (some (e.served k { sl with
        watch := if add then addBit sl.watch (roleBit role) else dropBit sl.watch (roleBit role)
        changed := if add then sl.changed else dropBit sl.changed (roleBit role)
        lastReported := reported })) ∧
    (add = false ∨ sl.watch ≠ 0 → reported = sl.lastReported ∧ n = s.freeCount) ∧
    (add = true → sl.watch = 0 → -32768 ≤ sl.total → sl.total ≤ 32767 →
      reported.toInt = sl.total ∧ n = s.freeCount) := by
  unfold State.setWatcher
  cases add with
  | false =>
    refine ⟨sl.lastReported, s.freeCount, ?_, fun _ => ⟨rfl, rfl⟩, nofun⟩
    exact modSlot_served slot _
  | true =>
    dsimp only
    rw [if_pos rfl]
    by_cases first : sl.watch = 0
    · obtain ⟨reported, n, set, inside⟩ := report_served (s := s) (ref := ref) slot
      rw [if_pos first, set]
      exact ⟨reported, n, modSlot_served slot _, fun h => absurd first (h.resolve_left nofun), fun _ _ => inside⟩
    · rw [if_neg first]
      exact ⟨sl.lastReported, s.freeCount, modSlot_served slot _, fun _ => ⟨rfl, rfl⟩, fun _ h => absurd h first⟩

/-- Settles O27. -/
theorem watchSets : Obligations.WatchSets := by
  intro l s m f rest b add delta ref k e sl head names live ready role watch changed
  obtain ⟨reported, n, set, kept, first⟩ :=
    setWatcher_served (s := s) (ref := ref) names.slot m.role.role add
  refine ⟨reported, n, ?_, kept, first⟩
  rw [exec_watch head, State.watch, lookup_setLink, lookup_names names]
  dsimp only
  rw [onServed_served head names live ready]
  unfold State.watchServed
  dsimp only
  rw [setWatcher_setLink, set, modSlot_setLink, modSlot_served names.slot, slot_setLink, slot_served names.slot,
    setLink_answer head]
  exact congrArg _ (settle_answered head.link (links_setEntry { s with freeCount := n } ref _) ..)

/-! ## DIRECTORY_QUERY (R172) -/

theorem mem_matching (s : State) (filters : Filters) (role : Role) (n : Nat) :
    n ∈ s.matching filters role ↔ ∃ ref e sl, s.entry ref = some e ∧ e.live = true ∧ s.ready e.pos = true ∧
      sl ∈ e.slots ∧ sl.number = some n ∧ filters.pass role e sl = true := by
  unfold State.matching
  rw [List.mem_flatMap]
  constructor
  · rintro ⟨ref, -, found⟩
    cases entry : s.entry ref with
    | none => simp [entry] at found
    | some e =>
      simp only [entry] at found
      split at found
      next served =>
        obtain ⟨sl, slot, number⟩ := List.mem_filterMap.1 found
        obtain ⟨pass, number⟩ := Option.ite_none_right_eq_some.1 number
        obtain ⟨live, ready⟩ := Bool.and_eq_true_iff.1 served
        exact ⟨ref, e, sl, entry, live, ready, slot, number, pass⟩
      next => exact absurd found List.not_mem_nil
  · rintro ⟨ref, e, sl, entry, live, ready, slot, number, pass⟩
    refine ⟨ref, mem_allEntries ref, ?_⟩
    simp only [entry, live, ready, Bool.and_self, if_true]
    exact List.mem_filterMap.2 ⟨sl, slot, (if_pos pass).trans number⟩

theorem pass_iff (filters : Filters) (role : Role) (e : Entry) (sl : Slot) : filters.pass role e sl = true ↔
    (∀ p, filters.pos = some p → p = e.pos) ∧ (∀ x, filters.kind = some x → x = sl.kind) ∧
    (∀ i, filters.inst = some i → i = sl.inst) ∧
    (filters.changedOnly = true → hasBit sl.changed (roleBit role) = true) := by
  simp [Filters.pass, Option.all_eq_true, and_assoc, ← Bool.not_eq_true, ← Decidable.imp_iff_not_or]

theorem mem_listed (s : State) (filters : Filters) (role : Role) (start n : Nat) :
    n ∈ s.listed filters role start ↔ start ≤ n ∧ n ≤ 127 ∧ n ∈ s.matching filters role := by
  unfold State.listed
  rw [List.mem_filter, List.mem_range'_1, List.contains_iff_mem, ← and_assoc]
  refine and_congr_left fun _ => ?_
  omega

/-- Settles O28. -/
theorem directoryQueryLists : Obligations.DirectoryQueryLists := by
  intro l s m f rest pos kind inst changedOnly start head role
  refine ⟨s.listed ⟨pos, kind, inst, changedOnly⟩ m.role.role start, ?_, fun n => ?_, ?_⟩
  · exact List.Pairwise.filter _ (List.pairwise_lt_range' ..)
  · rw [mem_listed, mem_matching]
    simp only [pass_iff]
    rfl
  · rw [exec_dir head]
    unfold State.directoryQuery
    dsimp only
    rw [listed_setLink]
    cases changedOnly with
    | false => rw [if_neg nofun, setLink_answer head, finish_answered head.link rfl]; rfl
    | true =>
      rw [if_pos rfl, mapEntries_setLink, setLink_answer head]
      exact congrArg _ (finish_answered (t := s.mapEntries _) head.link rfl ..)

/-! ## PIN and FRESHNESS_SET (R173, R175) -/

theorem exec_pin_named {set : Bool} (head : Head s l m f rest (.pin b set)) (names : Names s b ref k e sl)
    (ready : e.live = true → s.ready e.pos = true) : exec (.pin l) s = .next (s.finish
      (((s.setEntry ref (some (e.served k sl))).setLink l { m with queue := rest }).pinDone l
        ⟨m.role, byteAt f 1, .pin b set⟩ ⟨ref, k, e, sl⟩ set (if e.live then .ok else .gone))) := by
  rw [exec_pin head, State.pin, lookup_setLink, lookup_names names]
  dsimp only
  rw [decodeAnswer_taken, markUsed_setLink, markUsed_names names, decodeAnswer_names]
  cases live : e.live with
  | false => rfl
  | true =>
    rw [if_neg nofun, ready live]
    rfl

theorem clampWindow_eq (w : Nat) : clampWindow w = if w < 100 then 100 else if 60000 < w then 60000 else w := by
  unfold clampWindow
  grind

/-- Settles O29. -/
theorem pinAndFreshnessSet : Obligations.PinAndFreshnessSet := by
  intro l s m f rest b ref k e sl names
  constructor
  · intro set head ready role pins
    rw [exec_pin_named head names ready]
    unfold State.pinDone
    dsimp only
    rw [pin_state names, entry_setLink, entry_setEntry, setLink_answer head,
      finish_answered head.link (links_setEntry ..)]
    rfl
  · intro w head service live ready window quality
    have may : roleMay m.role .freshnessSet = true := by
      rcases service with h | h <;> rw [h] <;> rfl
    rw [exec_freshness head may, State.freshnessSet, lookup_setLink, lookup_names names]
    dsimp only
    rw [onServed_served head names live ready, modSlot_setLink, modSlot_served names.slot, setLink_answer head,
      settle_answered head.link (links_setEntry ..), clampWindow_eq]
    rfl

end Sys2Proof.Machine
end

section
/-! The end of an act, the arbiter and the ports: O30 to O33. -/

namespace Sys2Proof.Machine

-- One proof at a time and no linter passes: together they take more memory than the check gives.
set_option Elab.async false
set_option linter.all false

variable {s : State}

/-! ## The end of an act (R185, R190) -/

theorem attend_links_alone (before s : State) (l : LinkId) :
    before.attend s l = { s with links := (before.attend s l).links } := by
  unfold State.attend State.attentionDue
  split
  · split
    · split
      · rfl
      · split <;> cases l <;> rfl
    · rfl
  · rfl

theorem finish_links_alone (before s : State) : before.finish s = { s with links := (before.finish s).links } := by
  have chained : ∀ {u v : State} {l}, u = { s with links := u.links } → v = before.attend u l →
      v = { s with links := v.links } := by
    intro u v l hu hv
    rw [attend_links_alone, hu] at hv
    rw [hv]
  exact chained (chained (attend_links_alone ..) rfl) rfl

/-- Settles O30. -/
theorem endOfActAttends : Obligations.EndOfActAttends := by
  intro before after t
  obtain ⟨strap1, strap0⟩ := (undisturbed_finish before after).straps
  refine ⟨finish_links_alone .., strap1, strap0, fun l => finish_link_none, fun l m m' was now => ?_⟩
  have link : t.link l = some (after.attended l m m') := finish_link was now
  intro holds due
  have holdsIff : m'.holdsAttention = true ↔ holds := holds_iff m'
  unfold State.attended at link
  refine ⟨fun served => ?_, fun isDue none room => ?_, fun isDue none full => ?_⟩
  · by_cases isDue : due
    · rw [link, if_pos isDue, if_pos (holdsIff.2 (served.resolve_left (not_not_intro isDue)))]
    · rw [link, if_neg isDue]
  · rw [link, if_pos isDue, if_neg (mt holdsIff.1 none), if_pos room]
    rfl
  · rw [link, if_pos isDue, if_neg (mt holdsIff.1 none), if_neg (by omega)]

/-! ## The arbiter (R96, Table 5-3) -/

theorem nextDeferred_front {writes : Bool} {front back : List Deferred} {d : Deferred} {ref : EntryRef} {k : Nat}
    (split : s.dec.deferred = front ++ d :: back)
    (first : ∀ x ∈ front, ¬(x.inFlight = false ∧ x.value.isSome = writes)) (waits : d.inFlight = false)
    (kind : d.value.isSome = writes) (bound : s.binding d.number = some (ref, k)) :
    s.nextDeferred writes = some (d, match d.value with
      | none => .read ref k (some (d.link, d.tag))
      | some v => .write ref k v (.deferred d.link d.tag)) := by
  unfold State.nextDeferred
  rw [split]
  refine findSome_front _ front d back _ (fun x hx => if_neg ?_) ?_
  · simpa using first x hx
  · rw [if_pos (by simp [waits, kind]), State.deferredTxn, bound]
    rfl

theorem nextDeferred_none {writes : Bool}
    (nobody : ∀ x ∈ s.dec.deferred, ¬(x.inFlight = false ∧ x.value.isSome = writes)) :
    s.nextDeferred writes = none := by
  unfold State.nextDeferred
  exact findSome_none _ _ fun x hx => if_neg (by simpa using nobody x hx)

theorem nextPosted_waiting {p : Posted} {rest : List Posted} {ref : EntryRef} {k : Nat} (head : s.dec.posted = p :: rest)
    (waits : p.carried = none) (bound : s.binding p.number = some (ref, k)) :
    s.nextPosted = some (p, .write ref k p.value (.posted p.number)) := by
  unfold State.nextPosted
  rw [head]
  dsimp only
  rw [waits, bound]
  rfl

theorem nextPosted_none (taken : ∀ p rest, s.dec.posted = p :: rest → p.carried ≠ none) : s.nextPosted = none := by
  unfold State.nextPosted
  split
  · rfl
  next p rest head => exact if_pos (Option.isSome_iff_ne_none.2 (taken p rest head))

/-- The refresh of a slot: the numbered one with the lowest number, else the first due. -/
theorem nextRefresh_cases (s : State) :
    (s.allDue = [] → s.nextRefresh = none) ∧
    (∀ ref k rest, s.allDue = (ref, k, none) :: rest → (∀ x ∈ rest, x.2.2 = none) → s.nextRefresh = some (ref, k)) ∧
    ∀ ref k n, (ref, k, some n) ∈ s.allDue →
      (∀ x ∈ s.allDue, ∀ y, x.2.2 = some y → n < y ∨ x = (ref, k, some n)) → s.nextRefresh = some (ref, k) := by
  unfold State.nextRefresh
  refine ⟨fun none => by rw [none], fun ref k rest due unnumbered => ?_, fun ref k n due least => ?_⟩
  · rw [due]
    dsimp only
    rw [fold_firstDue_none rest _ rfl unnumbered]
  · cases all : s.allDue with
    | nil => rw [all] at due; exact absurd due List.not_mem_nil
    | cons d rest =>
      rw [all] at due least
      dsimp only
      rw [fold_firstDue n (ref, k, some n) rfl rest d least ((List.mem_cons.1 due).imp Eq.symm id)]

theorem grantIfIdle_idle (routed : s.matrix.active = .l ∨ s.matrix.active = .d) (idle : s.bus.flight = none) :
    s.grantIfIdle = s.grant := by
  have data : s.dataRouted = true := (routesData_iff _).2 routed
  unfold State.grantIfIdle
  rw [data, idle]
  rfl

theorem grantIfIdle_not (no : s.matrix.active = .none ∨ s.matrix.active = .s ∨ s.bus.flight ≠ none) :
    s.grantIfIdle = s := by
  unfold State.grantIfIdle State.dataRouted
  refine if_neg ?_
  rcases no with h | h | h
  · simp [h, routesData]
  · simp [h, routesData]
  · simp [h]

theorem grant_bus_dec (s : State) : s.grant = { s with bus := s.grant.bus, dec := s.grant.dec } := by
  unfold State.grant
  repeat' split
  all_goals rfl

/-- Settles O31. -/
theorem arbiterGrantsInOrder : Obligations.ArbiterGrantsInOrder := by
  intro s t sent granted
  refine ⟨?_, grantIfIdle_not, fun routed idle => ?_⟩
  · show s.grantIfIdle = { s with bus := s.grantIfIdle.bus, dec := s.grantIfIdle.dec }
    unfold State.grantIfIdle
    split
    · exact grant_bus_dec s
    · rfl
  have eq : t = s.grant := grantIfIdle_idle routed idle
  rw [eq]
  unfold State.grant
  refine ⟨fun x rest one => by rw [one]; rfl, fun one x rest two => by rw [one, two]; rfl, ?_⟩
  intro one two waits
  rw [one, two]
  dsimp only
  refine ⟨fun front d back v ref k split first free value bound => ?_, fun noWrite => ?_⟩
  · rw [nextDeferred_front split first free (by rw [value]; rfl) bound, value]
    rfl
  rw [nextDeferred_none noWrite]
  refine ⟨fun front d back ref k split first free value bound => ?_, fun noRead => ?_⟩
  · rw [nextDeferred_front split first free (by rw [value]; rfl) bound, value]
    rfl
  rw [nextDeferred_none noRead]
  refine ⟨fun p rest ref k head free bound => ?_, fun noPosted => ?_⟩
  · rw [nextPosted_waiting head free bound]
    rfl
  rw [nextPosted_none noPosted]
  obtain ⟨nothing, unnumbered, numbered⟩ := nextRefresh_cases s
  refine ⟨fun none => by rw [nothing none], fun ref k rest due h => ?_, fun ref k n due h => ?_⟩
  · rw [unnumbered ref k rest due h]
    rfl
  · rw [numbered ref k n due h]
    rfl

/-! ## The ports (R179, R180, R185, R189) -/

theorem ports_disabled {l : LinkId} (disabled : s.link l = none) :
    ∀ c ∈ [Instr.canFrameTransmitted l, .canTransmitError l, .busOffRecovery l], exec c s = .next s := by
  intro c hc
  simp only [List.mem_cons, List.not_mem_nil, or_false] at hc
  rcases hc with rfl | rfl | rfl
  · show execCanFrameTransmitted l s = _
    rw [execCanFrameTransmitted, disabled]
  · show execCanTransmitError l s = _
    rw [execCanTransmitError, disabled]
  · show execBusOffRecovery l s = _
    rw [execBusOffRecovery, disabled]

theorem exec_canFrameTransmitted {l : LinkId} {m : Mlu} {fr : TxFrame} {rest : List TxFrame} (link : s.link l = some m)
    (buffer : m.buffer = fr :: rest) : exec (.canFrameTransmitted l) s = .next (s.setLink l m.sent.payOwed) := by
  show execCanFrameTransmitted l s = _
  rw [execCanFrameTransmitted, link]
  exact if_neg (by rw [buffer]; exact List.cons_ne_nil fr rest)

/-- An owed attention frame takes the place a sent frame frees, unless one stands in the buffer (log 11). -/
theorem payOwed_sent {m : Mlu} {fr : TxFrame} {rest : List TxFrame} (buffer : m.buffer = fr :: rest) :
    let sent := { m with buffer := rest, txErrors := m.txErrors - 1 }
    (m.owed = false → m.sent.payOwed = sent) ∧
    (m.owed = true → (∃ x ∈ rest, x.kind = .attention) → m.sent.payOwed = { sent with owed := false }) ∧
    (m.owed = true → ¬(∃ x ∈ rest, x.kind = .attention) →
      m.sent.payOwed = { sent with owed := false, buffer := rest ++ [⟨.attention, Word16.bytes m.pending⟩] }) := by
  intro sent
  have isSent : m.sent = sent := by rw [Mlu.sent, buffer, List.drop_one, List.tail_cons]
  rw [isSent]
  unfold Mlu.payOwed
  refine ⟨fun none => if_neg (by simp [sent, none]), fun owed held => ?_, fun owed none => ?_⟩
  · rw [if_pos (by exact owed), if_pos ((holds_iff sent).2 held)]
  · rw [if_pos (by exact owed), if_neg (mt (holds_iff sent).1 none)]
    rfl

theorem exec_canTransmitError {l : LinkId} {m : Mlu} (link : s.link l = some m) : exec (.canTransmitError l) s =
    if m.buffer = [] then .next s
    else if 255 < m.txErrors + 8 then .next (s.enterBusOff l m)
    else .next (s.setLink l { m with txErrors := m.txErrors + 8 }) := by
  show execCanTransmitError l s = _
  rw [execCanTransmitError, link]

theorem exec_busOffRecovery {l : LinkId} {m : Mlu} (link : s.link l = some m) : exec (.busOffRecovery l) s =
    if m.busOff then .next (s.setLink l { m with busOff := false, txErrors := 0 }) else .next s := by
  show execBusOffRecovery l s = _
  rw [execBusOffRecovery, link]

theorem sending_link {l : LinkId} {m : Mlu} (link : s.link l = some m) :
    s.sending l = m.buffer.head?.map TxFrame.onWire := by
  rw [State.sending, link]
  rfl

/-- Settles O32. -/
theorem portEvents : Obligations.PortEvents := by
  refine fun l s => ⟨ports_disabled, fun m link => ⟨fun empty => ?_, fun fr rest buffer => ?_, fun some low => ?_,
    fun some high => ?_, fun off => ?_, fun on => ?_⟩⟩
  · refine ⟨by rw [sending_link link, empty]; rfl, ?_, by rw [exec_canTransmitError link, if_pos empty]⟩
    show execCanFrameTransmitted l s = _
    rw [execCanFrameTransmitted, link]
    exact if_pos empty
  · obtain ⟨unowed, held, placed⟩ := payOwed_sent buffer
    rw [sending_link link, buffer, exec_canFrameTransmitted link buffer]
    refine ⟨?_, fun h => by rw [unowed h], fun h h' => by rw [held h h'], fun h h' => by rw [placed h h']⟩
    rw [List.head?_cons, Option.map_some, TxFrame.onWire]
    cases fr.kind <;> rfl
  · rw [exec_canTransmitError link, if_neg some, if_neg (by omega)]
  · rw [exec_canTransmitError link, if_neg some, if_pos high]
    unfold State.enterBusOff
    cases l <;> rfl
  · rw [exec_busOffRecovery link, if_pos off]
  · rw [exec_busOffRecovery link, on]
    rfl

/-! ## Silence (R155 to R158, R188) -/

theorem exec_silenceTimeout {l : LinkId} {m : Mlu} (link : s.link l = some m) : exec (.silenceTimeout l) s =
    if m.silent then .next s
    else .next (s.settle ((s.await m.silenceTimer Config.silenceLimit).fallSilent l m.role.role)) := by
  show execSilenceTimeout l s = _
  rw [execSilenceTimeout, link]

/-- What silence leaves of a role's record (R156 to R158). -/
theorem silencedRecord_bit (r : LinkRole) (f : FunctionSet) {n : Nat} (hn : n < 15) :
    (silencedRecord r.role f).getLsbD n = true ↔ f.getLsbD n = true ∧ match r with
      | .body => n ≠ 0 ∧ n ≠ 1 ∧ n ≠ 12
      | .brake => n ≠ 2 ∧ n ≠ 13
      | .service | .bench => False := by
  cases r with
  | body => simp [silencedRecord, LinkRole.role, dropBit_get _ _ _ hn, and_assoc]
  | brake => simp [silencedRecord, LinkRole.role, dropBit_get _ _ _ hn, and_assoc]
  | service => simp [silencedRecord, LinkRole.role]
  | bench => simp [silencedRecord, LinkRole.role]

/-- An event raised for the other roles is pending at every link of another role that is interested. -/
theorem raiseFor_others {u v : State} {j : LinkId} {mj : Mlu} {r : Role} {k : EventKind} (link : u.link j = some mj)
    (quiet : (v.link j).map Mlu.quiet = (u.link j).map Mlu.quiet) (other : mj.role.role ≠ r)
    (interest : hasBit mj.interest (eventBit k) = true) :
    ∃ m', (v.raiseFor (dropBit 7 (roleBit r)) k).link j = some m' ∧ hasBit m'.pending (eventBit k) = true := by
  rw [link] at quiet
  obtain ⟨mv, linkV, same⟩ := Option.map_eq_some_iff.1 quiet
  have role : mv.role = mj.role := by
    show mv.quiet.role = mj.quiet.role
    rw [same]
  have interested : mv.interest = mj.interest := by
    show mv.quiet.interest = mj.quiet.interest
    rw [same]
  refine ⟨mv.raise k, ?_, raise_told mv k (by rw [interested]; exact interest)⟩
  have named : hasBit (dropBit (7 : RoleSet) (roleBit r)) (roleBit mv.role.role) = true := by
    rw [role]
    revert other
    generalize mj.role.role = x
    cases r <;> cases x <;> decide
  rw [State.link_raiseFor, linkV, Option.map_some, if_pos named]

/-- Settles O33. -/
theorem silenceClears : Obligations.SilenceClears := by
  refine fun l s => ⟨fun disabled => ?_, fun m link => ⟨fun silent => ?_, fun speaking elapsed chain record bits => ?_⟩⟩
  · show execSilenceTimeout l s = _
    rw [execSilenceTimeout, disabled]
  · rw [exec_silenceTimeout link, if_pos silent]
  intro u
  have isRecord : silencedRecord m.role.role (s.light.record m.role.role) = record :=
    fs_ext fun n hn => Bool.eq_iff_iff.2 ((silencedRecord_bit m.role _ hn).trans (bits n hn).symm)
  have live : ∀ q, u.bank.probe = some q → u.live q.pos = true := probeLive_of_chain chain
  have silenced : s.fallSilent l m.role.role =
      (u.setLink l { m with silent := true }).formDemand.raiseFor (dropBit 7 (roleBit m.role.role)) .masterSilent := by
    have muted : s.modLink l (fun m => { m with silent := true }) = s.setLink l { m with silent := true } := by
      rw [State.modLink, link]
    rw [State.fallSilent, isRecord, muted, State.setRecord, setRecord_setLink]
  obtain ⟨undisturbed, -, quiet⟩ := formDemand_disturbs (s := u.setLink l { m with silent := true })
    (by simpa only [State.setLink_bank, live_setLink] using live)
  refine ⟨s.settle ((u.setLink l { m with silent := true }).formDemand.raiseFor (dropBit 7 (roleBit m.role.role))
      .masterSilent), ?_, (undisturbed.trans (undisturbed_raiseFor ..)).trans (undisturbed_settle s _), fun c => ?_,
    fun j mj linkJ other interest => ?_⟩
  · rw [exec_silenceTimeout link, speaking, if_neg nofun, State.await_of_le (limit := Config.silenceLimit) elapsed, silenced]
  · rw [chan_settle, State.chan_of_bank (congrArg _ (State.raiseFor_bank ..)), demand_setLink_formDemand live]
    rfl
  · have elsewhere : l ≠ j := by
      rintro rfl
      rw [link] at linkJ
      exact other (by rw [Option.some.inj linkJ])
    have linkU : (u.setLink l { m with silent := true }).link j = some mj := by
      rw [State.link_setLink, if_neg elsewhere]
      exact linkJ
    obtain ⟨m', raised, pending⟩ := raiseFor_others (k := .masterSilent) linkU (quiet j) other interest
    exact told_settle raised _ pending

end Sys2Proof.Machine
end

section
/-! The contacts and the readings of the Channel Bank: O34 to O37. -/

namespace Sys2Proof.Machine

-- One proof at a time and no linter passes: together they take more memory than the check gives.
set_option Elab.async false
set_option linter.all false

variable {s : State}

/-! ## Code contacts (R33, R34, R115, R116) -/

theorem codeChange_eq (u : State) (e : Profile) : u.codeChange e = { u with det := { u.det with
    effective := e
    debounce := if u.live .p1 then
        (if e = u.matrix.active then none else some { candidate := e, length := if e = .none then 500 else 200 })
      else if e = .none then none else some { candidate := e, length := 200 } } } := by
  cases live : u.live .p1 with
  | false => exact codeChange_dead live e
  | true =>
    rw [codeChange_live live, if_pos rfl]
    by_cases none : e = .none
    · rw [if_pos none, if_pos none, none]
    · rw [if_neg none, if_neg none]

theorem readContact_eq (was : Bool) (mv : Nat) :
    readContact was mv = if mv < 2000 then true else if mv ≤ 4000 then was else false := by
  show (if mv < 2000 then true else if 4000 < mv then false else was) = _
  split
  · rfl
  · split
    · rw [if_neg (by omega)]
    · rw [if_pos (by omega)]

/-- Settles O34. -/
theorem codeSampled : Obligations.CodeSampled := by
  intro ka kb s due read a b whenCoupled e u debounce
  have code : effectiveOf s.matrix.forced a b = e := by
    show _ = match s.matrix.forced with
      | .auto => _
      | .s => _
      | .l => _
      | .d => _
    cases s.matrix.forced with
    | auto => cases a <;> cases b <;> rfl
    | s | l | d => rfl
  have sampled : s.sampleCode ka kb = if e = s.det.effective then u else u.codeChange e := by
    unfold State.sampleCode
    rw [readContact_eq, readContact_eq]
    dsimp only
    rw [code]
  show Host.Outcome.next (s.finish ((s.await s.matrix.sampleAge Config.codeInterval).sampleCode ka kb)) = _
  rw [State.await_of_le (limit := Config.codeInterval) due, sampled]
  split
  · exact congrArg Host.Outcome.next (links_same rfl)
  · rw [codeChange_eq]
    exact congrArg Host.Outcome.next (links_same rfl)

/-! ## Supply (R50) -/

theorem exec_supplyReading {mv : Nat} (fits : (Instr.supplyReading mv).wf = true) (due : 2 ≤ s.bank.supplyAge) :
    exec (.supplyReading mv) s = .next (s.settle (s.readSupply mv)) := by
  show Host.Outcome.next (s.settle ((s.await s.bank.supplyAge Config.supplyInterval).readSupply (quantise 40000 mv))) = _
  rw [State.await_of_le (limit := Config.supplyInterval) due, quantise_wf fits]

/-- An attempt in progress is abandoned as the supply goes outside, and nothing else is (R65, R66). -/
theorem supplyLost_cases (u : State) :
    ((∀ q, u.bank.probe = some q → q.phase ≠ .attempt) → u.supplyLost = u) ∧
    ∀ q, u.bank.probe = some q → q.phase = .attempt → AttemptAbandoned u u.supplyLost q := by
  unfold State.supplyLost
  refine ⟨fun none => ?_, fun q held attempt => ?_⟩
  · split
    · rfl
    next q held => exact if_neg (none q held)
  · rw [held]
    dsimp only
    rw [if_pos attempt]
    exact attemptAbandoned_abandonAttempt u q

/-- Settles O35. -/
theorem supplyRead : Obligations.SupplyRead := by
  intro mv s fits due inside u
  rw [exec_supplyReading fits due]
  have read : s.readSupply mv = if s.bank.supplyInside = true ∧ inside = false then (u.raiseAll .supplyHold).supplyLost
      else if s.bank.supplyInside = false ∧ inside = true then u.testProbe else u := by
    unfold State.readSupply
    rw [supplyInside_eq]
    rfl
  rw [read]
  have links : u.links = s.links := rfl
  refine ⟨fun same => ?_, fun outside was => ?_, fun back was => ?_⟩
  · rw [if_neg (by rw [same]; simp), if_neg (by rw [same]; simp), settle_same links]
  · rw [if_pos ⟨was, outside⟩]
    obtain ⟨kept, abandoned⟩ := supplyLost_cases (u.raiseAll .supplyHold)
    exact ⟨fun none => by rw [kept none], fun q held attempt => ⟨_, abandoned q held attempt, rfl⟩⟩
  · rw [if_neg (by simp [was]), if_pos ⟨was, back⟩]
    refine ⟨fun none => ?_, fun q held _ => ⟨_, probeTested_testProbe (by exact held), ?_⟩⟩
    · rw [testProbe_idle (by exact none), settle_same links]
    · rw [settle_same ((links_testProbe u).trans links)]

/-! ## Temperature (R57, R58) -/

theorem exec_temperatureReading {c : ChanId} {deg : Int} (fits : (Instr.temperatureReading c deg).wf = true)
    (due : 10 ≤ (s.chan c).temperatureAge) :
    exec (.temperatureReading c deg) s = .next (s.settle (s.readTemperature c deg)) := by
  obtain ⟨low, high⟩ := of_decide_eq_true fits
  show Host.Outcome.next (s.settle ((s.await (s.chan c).temperatureAge Config.temperatureInterval).readTemperature c
    (clampTemperature deg))) = _
  rw [State.await_of_le (limit := Config.temperatureInterval) due, tempclamp low high]

/-- A reading strikes the request held on the channel, or has it tested again. -/
def State.afterReading (u : State) (c : ChanId) (strikes : Bool) : State :=
  if u.probeChan = some c then (if strikes then u.disturbProbe else u.testProbe) else u

theorem afterReading_cases (u : State) (c : ChanId) (strikes : Bool) :
    ((∀ q, u.bank.probe = some q → lampChan q.lamp ≠ c) → u.afterReading c strikes = u) ∧
    ∀ q, u.bank.probe = some q → lampChan q.lamp = c →
      (strikes = true → ProbeStruck u (u.afterReading c strikes) q) ∧
      (strikes = false → ProbeTested u (u.afterReading c strikes) q) := by
  unfold State.afterReading State.probeChan
  refine ⟨fun elsewhere => if_neg ?_, fun q held here => ?_⟩
  · intro some
    obtain ⟨q, held, here⟩ := Option.map_eq_some_iff.1 some
    exact elsewhere q held here
  · rw [held, Option.map_some, if_pos (congrArg some here)]
    refine ⟨fun struck => ?_, fun tested => ?_⟩
    · rw [if_pos struck]
      exact probeStruck_disturbProbe held
    · rw [if_neg (by simp [tested])]
      exact probeTested_testProbe held

/-- Whether a reading that takes a channel to another strikes the request held on it (R64, R66). -/
def Channel.struckBy (ch ch' : Channel) : Bool :=
  (ch'.derated && !ch.derated) || (decide (ch'.state = .thermalOff) && decide (ch.state ≠ .thermalOff))

theorem readTemperature_after (s : State) (c : ChanId) (deg : Int) :
    let g := (s.chan c).heat (s.routed c) (s.wantsOn (s.chan c).demand) deg
    s.readTemperature c deg =
      (if g.2 = true then (s.putChan c g.1).raiseAll .thermal else s.putChan c g.1).afterReading c
        ((s.chan c).struckBy g.1) := readTemperature_eq s c deg

/-- Settles O36. -/
theorem temperatureRead : Obligations.TemperatureRead := by
  intro c deg s fits due ch read ends stays
  obtain ⟨g, hg⟩ : ∃ g, g = ch.heat (s.routed c) (s.wantsOn ch.demand) deg := ⟨_, rfl⟩
  have exec_eq : exec (.temperatureReading c deg) s = .next (s.settle
      ((if g.2 = true then (s.putChan c g.1).raiseAll .thermal else s.putChan c g.1).afterReading c
        (ch.struckBy g.1))) := by
    rw [exec_temperatureReading fits due, readTemperature_after, hg]
  have struck : g.2 = true → ch.struckBy g.1 = true → ends ProbeStruck ((s.putChan c g.1).raiseAll .thermal) := by
    intro raised strikes
    rw [if_pos raised, strikes] at exec_eq
    obtain ⟨elsewhere, here⟩ := afterReading_cases ((s.putChan c g.1).raiseAll .thermal) c true
    exact ⟨fun none => by rw [exec_eq, elsewhere none], fun q held at' => ⟨_, (here q held at').1 rfl, exec_eq⟩⟩
  have tested : g.2 = false → ch.struckBy g.1 = false → ends ProbeTested (s.putChan c g.1) := by
    intro quiet spares
    rw [if_neg (by simp [quiet]), spares] at exec_eq
    obtain ⟨elsewhere, here⟩ := afterReading_cases (s.putChan c g.1) c false
    exact ⟨fun none => by rw [exec_eq, elsewhere none], fun q held at' => ⟨_, (here q held at').2 rfl, exec_eq⟩⟩
  have onlyRead : g = (read, false) → ends ProbeTested (s.putChan c read) := by
    intro eq
    have same : ch.struckBy g.1 = false := by
      rw [eq]
      simp [Channel.struckBy, read]
    simpa only [eq] using tested (by rw [eq]) same
  obtain ⟨hot, derated, still, mild, cool, cooled⟩ := heat_acts (s.routed c) (s.wantsOn ch.demand) deg ch
  rw [← hg] at hot derated still mild cool cooled
  refine ⟨fun above moves => ?_, fun above stay was => ?_, fun above stay was => onlyRead (still above stay was),
    fun low high => onlyRead (mild low high), fun low was => onlyRead (cool low was), fun low was => ?_⟩
  · obtain ⟨raised, state, rest⟩ := hot above moves
    refine ⟨g.1, struck raised ?_, state, rest⟩
    have notOff : ch.state ≠ .thermalOff := fun h => moves (.inr (.inr h))
    simp [Channel.struckBy, state, notOff]
  · obtain ⟨raised, state, output, demand, switched, pwm, age, held⟩ := derated above stay was
    refine ⟨g.1, struck raised ?_, state, output, demand, switched, pwm, age, held⟩
    have set : g.1.derated = true := congrArg (fun h => h.1) held
    simp [Channel.struckBy, set, was]
  · obtain ⟨quiet, clear, took, drives, other, stayed⟩ := cooled low was
    refine ⟨g.1, tested quiet ?_, took, drives, other⟩
    simpa [Channel.struckBy, clear] using stayed

/-! ## Current samples (R46, R49, R51 to R53, R60, R63, R65, R67) -/

/-- A channel as a current sample finds it: the sample counts toward the peak. -/
def Channel.peaked (ma : Nat) (ch : Channel) : Channel := { ch with sampled := true, peak := max ch.peak ma }

theorem exec_currentSample {c : ChanId} {ma : Nat} (fits : (Instr.currentSample c ma).wf = true)
    (on : (s.chan c).output = true) (unsampled : (s.chan c).sampled = false) (due : 1 ≤ (s.chan c).sinceOn) :
    exec (.currentSample c ma) s = .next (s.settle
      (if ((s.chan c).peaked ma).trips (tripThreshold c) ma then (s.putChan c ((s.chan c).peaked ma)).tripChan c
      else (s.putChan c (((s.chan c).peaked ma).sample (s.flasherOf (s.chan c).demand) ma)).probeSample c ma)) := by
  show execCurrentSample c ma s = _
  unfold execCurrentSample
  dsimp only
  rw [if_neg (by simp [on]), if_neg (by rw [unsampled]; simp; omega), quantise_wf fits]
  rfl

theorem trips_iff (c : ChanId) (ma : Nat) (ch : Channel) : (ch.peaked ma).trips (tripThreshold c) ma = true ↔
    (ch.state = .drive ∨ ch.state = .probeOn) ∧ 40 ≤ ch.sinceOn ∧ (if c = 9 ∨ c = 10 then 20000 else 12000) < ma := by
  rw [threshold_eq]
  show ((decide (ch.state = .drive) || decide (ch.state = .probeOn)) && decide (40 ≤ ch.sinceOn) &&
    decide ((if c = 9 ∨ c = 10 then 20000 else 12000) < ma)) = true ↔ _
  simp only [Bool.and_eq_true, Bool.or_eq_true, decide_eq_true_eq, and_assoc]

/-- Settled samples of a settled-only measurement are taken from 60 ms after switch-on, and under FLASH in the armed
on-phase (R65 (1)). -/
theorem settledOnlyOpen_iff (u : State) (q : Probe) :
    let ch := u.chan (lampChan q.lamp)
    u.settledOnlyOpen q = true ↔ (ch.demand ≠ .flashEmergency ∨ q.armed = true) ∧
      if ch.demand = .flashEmergency then u.bank.emergency.onPhase = true ∧ 60 ≤ u.bank.emergency.age
      else 60 ≤ ch.sinceOn := by
  intro ch
  have meaning : u.settledOnlyOpen q = match ch.demand with
      | .flashEmergency => q.armed && u.bank.emergency.onPhase && decide (60 ≤ u.bank.emergency.age)
      | .steady | .flashTurn | .off => decide (60 ≤ ch.sinceOn) := rfl
  rw [meaning]
  cases ch.demand with
  | flashEmergency => simp [and_assoc]
  | off | steady | flashTurn => simp

/-- The request held as a sample that did not trip leaves it (R63, R65). -/
theorem probeSample_cases (u : State) (c : ChanId) (ma : Nat) :
    let ch := u.chan c
    let settled := if ch.demand = .flashEmergency then u.bank.emergency.onPhase = true ∧ 60 ≤ u.bank.emergency.age
      else 60 ≤ ch.sinceOn
    let takes := fun q : Probe => if (q.samples = [] ∨ 2 ≤ q.gap) ∧ q.samples.length < 16 then
      { q with samples := q.samples ++ [ma], gap := 0 } else q
    let inrush := fun q : Probe => if ch.sinceOn ≤ 10 then { q with inrush := max q.inrush ma } else q
    ((∀ q, u.bank.probe = some q → lampChan q.lamp ≠ c) → u.probeSample c ma = u) ∧
    ∀ q, u.bank.probe = some q → lampChan q.lamp = c →
      (q.phase = .postponed ∨ q.phase = .attempt ∧ ch.state ≠ .probeOn → u.probeSample c ma = u.setProbe (some q)) ∧
      (q.phase = .attempt → ch.state = .probeOn →
        u.probeSample c ma = u.setProbe (some (if 60 ≤ ch.sinceOn then takes (inrush q) else inrush q))) ∧
      (q.phase = .settledOnly → ch.demand ≠ .flashEmergency ∨ q.armed = true → settled →
        u.probeSample c ma = u.setProbe (some (takes q))) ∧
      (q.phase = .settledOnly → (ch.demand = .flashEmergency ∧ q.armed = false) ∨ ¬settled →
        u.probeSample c ma = u.setProbe (some q)) := by
  intro ch settled takes inrush
  unfold State.probeSample
  refine ⟨fun elsewhere => ?_, fun q held here => ?_⟩
  · split
    · rfl
    next q held => exact if_pos (elsewhere q held)
  rw [held, setProbe_same held]
  dsimp only
  rw [if_neg (not_not_intro here)]
  have due : ∀ p : Probe, p.sampleDue = true ↔ (p.samples = [] ∨ 2 ≤ p.gap) ∧ p.samples.length < 16 := sampleDue_iff
  have taking : ∀ p : Probe, (if p.sampleDue = true then p.addSample ma else p) = takes p :=
    fun p => ite_congr (propext (due p)) (fun _ => rfl) fun _ => rfl
  have opened : u.settledOnlyOpen q = true ↔ (ch.demand ≠ .flashEmergency ∨ q.armed = true) ∧ settled := by
    simpa only [here] using settledOnlyOpen_iff u q
  refine ⟨fun idle => ?_, fun attempt probing => ?_, fun only armed ready => ?_, fun only closed => ?_⟩
  · rcases idle with postponed | ⟨attempt, notProbing⟩
    · rw [postponed]
    · rw [attempt]
      exact if_neg notProbing
  · rw [attempt]
    dsimp only
    rw [← attempt, if_pos probing]
    by_cases steady : 60 ≤ ch.sinceOn
    · rw [if_pos steady, ← taking]
      exact congrArg (fun p => u.setProbe (some p))
        (ite_congr (propext (and_iff_right steady)) (fun _ => rfl) fun _ => rfl)
    · rw [if_neg steady]
      exact congrArg (fun p => u.setProbe (some p)) (if_neg fun h => steady h.1)
  · rw [only]
    dsimp only
    by_cases takesOne : q.sampleDue = true
    · rw [if_pos ⟨opened.2 ⟨armed, ready⟩, takesOne⟩, ← taking, if_pos takesOne]
    · rw [if_neg fun h => takesOne h.2, ← taking, if_neg takesOne, setProbe_same held]
  · rw [only]
    refine if_neg ?_
    rintro ⟨isOpen, -⟩
    obtain ⟨armed, ready⟩ := opened.1 isOpen
    rcases closed with ⟨flash, unarmed⟩ | notReady
    · exact armed.elim (fun h => h flash) (by simp [unarmed])
    · exact notReady ready

/-- Under FLASH a check window starts 60 ms into an on-phase throughout which the output has been on (R60). -/
theorem windowStarts_flash {f : Flasher} {ch : Channel} (flashes : ch.demand = .flashTurn ∨ ch.demand = .flashEmergency) :
    ch.windowStarts f = true ↔ ch.state = .drive ∧ ch.derated = false ∧ f.onPhase = true ∧ f.age = 60 ∧ 60 ≤ ch.onFor := by
  have meaning : ch.windowStarts f = (decide (ch.state = .drive) && !ch.derated &&
      (f.onPhase && decide (f.age = 60) && decide (f.age ≤ ch.onFor))) := by
    unfold Channel.windowStarts
    rcases flashes with h | h <;> rw [h] <;> rfl
  rw [meaning]
  simp only [Bool.and_eq_true, decide_eq_true_eq, Bool.not_eq_true', and_assoc]
  refine and_congr_right fun _ => and_congr_right fun _ => and_congr_right fun _ => and_congr_right fun age => ?_
  rw [age]

/-- When a check window starts (R60). -/
theorem windowStarts_iff (s : State) (ch : Channel) :
    let flasher := if ch.demand = .flashEmergency then s.bank.emergency else s.bank.turn
    ch.windowStarts (s.flasherOf ch.demand) = true ↔ ch.state = .drive ∧ ch.derated = false ∧
      ((ch.demand = .steady ∧ 60 ≤ ch.sinceOn ∧ (ch.sinceOn - 60) % 300 = 0) ∨
        ((ch.demand = .flashTurn ∨ ch.demand = .flashEmergency) ∧ flasher.onPhase = true ∧ flasher.age = 60 ∧
          60 ≤ ch.onFor)) := by
  intro flasher
  cases demand : ch.demand with
  | off => simp [Channel.windowStarts, demand]
  | steady =>
    have meaning : ch.windowStarts (s.flasherOf .steady) = (decide (ch.state = .drive) && !ch.derated &&
        (decide (60 ≤ ch.sinceOn) && decide ((ch.sinceOn - 60) % 300 = 0))) := by
      unfold Channel.windowStarts
      rw [demand]
      rfl
    rw [meaning]
    simp [and_assoc]
  | flashTurn =>
    rw [windowStarts_flash (.inl demand)]
    simp [flasher, demand, State.flasherOf]
  | flashEmergency =>
    rw [windowStarts_flash (.inr demand)]
    simp [flasher, demand, State.flasherOf]

/-- The check window a sample leaves (R60). -/
theorem sampleWindow_cases (f : Flasher) (ma : Nat) (ch : Channel) :
    (∀ w, ch.window = some w → ch.sampleWindow f ma = some (if w.samples.length < 16 ∧ 2 ≤ w.gap then
      { w with samples := w.samples ++ [ma], gap := 0, peak := ch.peak } else w)) ∧
    (ch.window = none → ch.windowStarts f = true →
      ch.sampleWindow f ma = some { samples := [ma], gap := 0, supplyOk := true, peak := ch.peak }) ∧
    (ch.window = none → ¬ch.windowStarts f = true → ch.sampleWindow f ma = none) := by
  unfold Channel.sampleWindow
  refine ⟨fun w under => ?_, fun none starts => ?_, fun none rests => ?_⟩
  · rw [under]
    exact (apply_ite some _ _ _).symm
  · rw [none]
    exact if_pos starts
  · rw [none]
    exact if_neg rests

/-- A trip, and the request held on the channel (R51 to R53, R67 (1), log 15). -/
theorem tripChan_cases (u : State) (c : ChanId) :
    let ch := u.chan c
    let ch' := ch.tripOut u.bank.supply
    let tripped := if ch.streakCount < 3 then (u.putChan c ch').raiseAll .channelTrip
      else ((u.putChan c ch').raiseAll .channelTrip).raiseAll .channelLatched
    ((∀ q, u.bank.probe = some q → lampChan q.lamp ≠ c) → u.tripChan c = tripped) ∧
    ∀ q, u.bank.probe = some q → lampChan q.lamp = c →
      (ch.state = .probeOn → ProbeFailed tripped (u.tripChan c) q) ∧
      (ch.state = .drive → ProbeStruck tripped (u.tripChan c) q) := by
  intro ch ch' tripped
  obtain ⟨-, -, -, first, fourth, -⟩ := tripOut_acts u.bank.supply ch
  have raised : (if ch'.state = .latched then ((u.putChan c ch').raiseAll .channelTrip).raiseAll .channelLatched
      else (u.putChan c ch').raiseAll .channelTrip) = tripped := by
    by_cases few : ch.streakCount < 3
    · rw [if_neg (by rw [(first few).1]; decide)]
      exact (if_pos few).symm
    · rw [if_pos (fourth (by omega))]
      exact (if_neg few).symm
  have probe : tripped.bank.probe = u.bank.probe := by
    rw [← raised]
    split <;> rfl
  have meaning : u.tripChan c = match tripped.bank.probe with
      | none => tripped
      | some q => if lampChan q.lamp ≠ c then tripped
        else if ch.state = .probeOn then tripped.handOutcome q .failed else tripped.disturbProbe := by
    rw [← raised]
    rfl
  rw [meaning, probe]
  refine ⟨fun elsewhere => ?_, fun q held here => ?_⟩
  · split
    · rfl
    next q held => exact if_pos (elsewhere q held)
  · rw [held]
    dsimp only
    rw [if_neg (not_not_intro here)]
    refine ⟨fun probing => ?_, fun driving => ?_⟩
    · rw [if_pos probing]
      exact probeFailed_handOutcome tripped rfl rfl
    · rw [if_neg (by rw [driving]; decide)]
      exact probeStruck_disturbProbe (probe.trans held)

theorem tripRecord_eq (supply : Nat) (ch : Channel) : ch.tripRecord supply = {
    peak := ch.peak, mean := ch.settledMean, supply := supply, temperature := ch.temperature,
    mode := if ch.state = .probeOn then .probe else if ch.derated then .pwm
      else if ch.demand = .flashTurn ∨ ch.demand = .flashEmergency then .flash else .steady,
    count := ch.streakCount + 1 } := by
  unfold Channel.tripRecord Channel.driveMode
  cases ch.demand <;> rfl

/-- Settles O37. -/
theorem currentSampled : Obligations.CurrentSampled := by
  intro c ma s fits
  refine ⟨fun off => if_pos off, ?_⟩
  intro on unsampled due ch peak threshold trips flasher starts unprobed settled takes inrush
  have peakIs : peak = max ch.peak ma := by
    simp only [peak]
    split <;> omega
  have tripsIff : (ch.peaked ma).trips (tripThreshold c) ma = true ↔ trips := trips_iff c ma ch
  rw [exec_currentSample fits on unsampled due]
  refine ⟨fun holds => ?_, fun trip => ?_⟩
  · rw [if_neg (mt tripsIff.1 holds)]
    refine ⟨(ch.peaked ma).sampleWindow (s.flasherOf ch.demand) ma, ?_⟩
    intro sampled probe
    have startsIff : (ch.peaked ma).windowStarts (s.flasherOf ch.demand) = true ↔ starts := windowStarts_iff s ch
    obtain ⟨under, started, rests⟩ := sampleWindow_cases (s.flasherOf ch.demand) ma (ch.peaked ma)
    have isSampled : s.putChan c ((ch.peaked ma).sample (s.flasherOf ch.demand) ma) = sampled := by
      simp only [sampled, peakIs]
      rfl
    have chan : sampled.chan c = (ch.peaked ma).sample (s.flasherOf ch.demand) ma := by
      rw [← isSampled, State.chan_putChan_self]
    rw [isSampled]
    obtain ⟨elsewhere, here⟩ := probeSample_cases sampled c ma
    rw [chan] at here
    refine ⟨fun w held => ?_, fun none first => ?_, fun none rest => rests none (mt startsIff.1 rest), fun away => ?_,
      fun q held at' => ?_⟩
    · rw [under w held, peakIs]
      rfl
    · rw [started none (startsIff.2 first), peakIs]
      rfl
    · rw [elsewhere (by exact away)]
      exact congrArg Host.Outcome.next (settle_putChan ..)
    · obtain ⟨idle, probing, only, closed⟩ := here q (by exact held) at'
      have settles : ∀ q', sampled.probeSample c ma = sampled.setProbe (some q') → probe q' := by
        intro q' eq
        show Host.Outcome.next (s.settle
          ((s.putChan c ((ch.peaked ma).sample (s.flasherOf ch.demand) ma)).probeSample c ma)) = _
        rw [isSampled, eq]
        exact congrArg Host.Outcome.next (settle_same rfl)
      exact ⟨fun h => settles _ (idle h), fun h h' => settles _ (probing h h'), fun h h' h'' => settles _ (only h h' h''),
        fun h h' => settles _ (closed h h')⟩
  · rw [if_pos (tripsIff.2 trip)]
    obtain ⟨elsewhere, here⟩ := tripChan_cases (s.putChan c (ch.peaked ma)) c
    obtain ⟨ch', isCh'⟩ : ∃ ch', ch' = (ch.peaked ma).tripOut s.bank.supply := ⟨_, rfl⟩
    obtain ⟨dark, demand, held, first, fourth, off, window⟩ := tripOut_acts s.bank.supply (ch.peaked ma)
    rw [← isCh'] at dark demand held first fourth off window
    have notDrive : ch'.state ≠ .drive := by
      by_cases few : ch.streakCount < 3
      · rw [(first few).1]
        decide
      · rw [fourth (Nat.not_lt.1 few)]
        decide
    rw [State.chan_putChan_self] at elsewhere here
    have put : (s.putChan c (ch.peaked ma)).putChan c ch' = s.putChan c ch' :=
      putChan_putChan' s c _ _ (.inr (.inl notDrive))
    have supply : (s.putChan c (ch.peaked ma)).bank.supply = s.bank.supply := rfl
    rw [supply, ← isCh', put] at elsewhere here
    refine ⟨ch', dark, demand, held.trans ?_, first, fourth, off on, window, fun away => ?_, fun q held at' => ?_⟩
    · rw [tripRecord_eq, peakIs]
      rfl
    · exact congrArg _ (congrArg _ (elsewhere away))
    · exact ⟨_, rfl, here q held at'⟩

end Sys2Proof.Machine
end

section
/-! The timers of the channels, the flashers and the backfeed checks: O38 to O40. -/

namespace Sys2Proof.Machine

-- One proof at a time and no linter passes: together they take more memory than the check gives.
set_option Elab.async false
set_option linter.all false

variable {s : State} {c : ChanId}

/-! ## Timers of a channel (R52, R53, R57) -/

theorem exec_tripCooldownExpiry (tripped : (s.chan c).state = .tripped) (elapsed : 1000 ≤ (s.chan c).cooldown) :
    exec (.tripCooldownExpiry c) s = .next (s.takeDemand c).testProbe := by
  show (if (s.chan c).state = .tripped then _ else _) = _
  rw [if_pos tripped, State.await_of_le (limit := Config.cooldown) elapsed]
  exact congrArg Host.Outcome.next (links_same (links_testProbe _))

theorem exec_streakTimerExpiry (runs : (s.chan c).state.streakRuns = true) (elapsed : 10000 ≤ (s.chan c).streakTimer) :
    exec (.streakTimerExpiry c) s = .next (s.putChan c { s.chan c with streakCount := 0, streakTimer := 0 }) := by
  show (if (s.chan c).state.streakRuns = true then _ else _) = _
  rw [if_pos runs, State.await_of_le (limit := Config.streakLimit) elapsed]

theorem streakRuns_iff (st : ChanState) : st.streakRuns = true ↔ st = .drive ∨ st = .probeGap ∨ st = .probeOn := by
  cases st <;> simp [ChanState.streakRuns]

theorem exec_pwmPhaseEnd (pattern : (s.chan c).state = .drive ∧ (s.chan c).derated = true ∧
    s.wantsOn (s.chan c).demand = true) (elapsed : (if (s.chan c).pwmOn then 30 else 10) ≤ (s.chan c).pwmAge) :
    exec (.pwmPhaseEnd c) s = .next (s.putChan c ((s.chan c).pwmNext (s.wantsOn (s.chan c).demand))) := by
  show (if (s.chan c).state = .drive ∧ (s.chan c).derated = true ∧ s.wantsOn (s.chan c).demand = true then _ else _) = _
  rw [if_pos pattern, State.await_of_le (limit := (s.chan c).pwmLength) elapsed]

/-- Settles O38. -/
theorem channelTimersEnd : Obligations.ChannelTimersEnd := by
  intro c s ch
  refine ⟨fun elsewhere => if_neg elsewhere, fun tripped elapsed => ?_, ?_⟩
  · refine ⟨_, took_takeDemand .., ?_⟩
    intro u
    rw [exec_tripCooldownExpiry tripped elapsed]
    refine ⟨fun none => congrArg _ (testProbe_idle (by exact none)), fun q held _ => ⟨_, ?_, rfl⟩⟩
    exact probeTested_testProbe (by exact held)
  intro streakRuns
  refine ⟨fun stops => if_neg (mt (streakRuns_iff _).1 stops),
    fun runs elapsed => exec_streakTimerExpiry ((streakRuns_iff _).2 runs) elapsed, ?_⟩
  intro pattern
  refine ⟨fun rests => if_neg rests, fun runs elapsed => ⟨_, exec_pwmPhaseEnd runs elapsed, ?_⟩⟩
  exact pwmNext_facts (s.wantsOn ch.demand) ch runs.1 runs.2.2

/-! ## Flashers (R47, R48, R62 (3), R65 (1)) -/

/-- Under a settled-only measurement of CH2 the first on-phase arms it and a further one fails it (R65 (1)). -/
theorem armSettledOnly_cases (u : State) :
    let settles := fun q : Probe => q.lamp = 2 ∧ q.phase = .settledOnly ∧ u.bank.emergency.onPhase = true
    ((∀ q, u.bank.probe = some q → ¬(settles q ∧ q.armed = true)) → u.armSettledOnly =
      u.setProbe (u.bank.probe.map fun q => if q.lamp = 2 ∧ q.phase = .settledOnly ∧ u.bank.emergency.onPhase = true
        then { q with armed := true } else q)) ∧
    ∀ q, u.bank.probe = some q → settles q → q.armed = true → u.armSettledOnly = u.handOutcome q .failed := by
  intro settles
  unfold State.armSettledOnly
  refine ⟨fun notYet => ?_, fun q held ⟨lamp, phase, on⟩ armed => ?_⟩
  · split
    next none => rw [none, Option.map_none, State.setProbe, ← none]
    next q held =>
      rw [held, Option.map_some]
      by_cases isSettling : settles q
      · have unarmed : ¬q.armed = true := fun armed => notYet q held ⟨isSettling, armed⟩
        obtain ⟨lamp, phase, on⟩ := isSettling
        rw [if_pos ⟨phase, lamp, on⟩, if_neg unarmed]
        exact congrArg _ (congrArg _ (if_pos (And.intro lamp (And.intro phase on))).symm)
      · rw [if_neg isSettling, setProbe_same held]
        exact if_neg fun h => isSettling ⟨h.2.1, h.1, h.2.2⟩
  · rw [held]
    dsimp only
    rw [if_pos ⟨phase, lamp, on⟩, if_pos armed]

theorem links_phaseChan (d : Demand) (u : State) (not9 : c ≠ 9) : (u.phaseChan d c).links = u.links := by
  obtain ⟨ch', eq, -⟩ := phaseChan_eq d u c not9
  rw [eq]
  rfl

theorem exec_turnFlasherPhaseEnd (running : s.bank.turn.running = true)
    (elapsed : (if s.bank.turn.fast then 160 else 320) ≤ s.bank.turn.age) :
    exec .turnFlasherPhaseEnd s = .next s.turnPhase := by
  show (if s.bank.turn.running = true then _ else _) = _
  rw [if_pos running, State.await_of_le (limit := s.bank.turn.turnLength) elapsed]
  exact congrArg Host.Outcome.next (links_same ((links_phaseChan _ _ (by decide)).trans (links_phaseChan _ _ (by decide))))

theorem exec_emergencyFlasherPhaseEnd (running : s.bank.emergency.running = true) (elapsed : 120 ≤ s.bank.emergency.age) :
    exec .emergencyFlasherPhaseEnd s = .next (s.settle s.emergencyPhase) := by
  show (if s.bank.emergency.running = true then _ else _) = _
  rw [if_pos running, State.await_of_le elapsed]

/-- Settles O39. -/
theorem flasherPhasesEnd : Obligations.FlasherPhasesEnd := by
  intro s follows
  refine ⟨fun idle => if_neg (by simp [idle]), fun idle => if_neg (by simp [idle]), fun running elapsed => ?_,
    fun running elapsed => ?_⟩
  · obtain ⟨u, hu⟩ : ∃ u : State, u = { s with bank := { s.bank with turn := s.bank.turn.next s.light.fast } } := ⟨_, rfl⟩
    obtain ⟨ch0, eq0, facts0⟩ := phaseChan_eq .flashTurn u 0 (by decide)
    obtain ⟨ch1, eq1, facts1⟩ := phaseChan_eq .flashTurn (u.putChan 0 ch0) 1 (by decide)
    have phase : s.turnPhase = (u.putChan 0 ch0).putChan 1 ch1 := by
      rw [← eq1, ← eq0, hu]
      rfl
    have chans : ∀ c, ((u.putChan 0 ch0).putChan 1 ch1).chan c =
        if 1 = c then ch1 else if 0 = c then ch0 else s.chan c := by
      intro c
      rw [State.chan_putChan, State.chan_putChan, hu]
      rfl
    have turn : s.bank.turn.next s.light.fast =
        { running := true, onPhase := !s.bank.turn.onPhase, age := 0, fast := s.light.fast } := by
      rw [Flasher.next, running]
    refine ⟨((u.putChan 0 ch0).putChan 1 ch1).bank, ?_, ?_, fun c => ⟨fun not0 not1 => ?_, fun named => ?_⟩⟩
    · rw [exec_turnFlasherPhaseEnd running elapsed, phase, hu]
      rfl
    · rw [← turn, hu]
      rfl
    · exact (chans c).trans ((if_neg (Ne.symm not1)).trans (if_neg (Ne.symm not0)))
    · rcases named with rfl | rfl
      · rw [show ((u.putChan 0 ch0).putChan 1 ch1).bank.channels.get 0 = ch0 from chans 0]
        rw [hu] at facts0
        exact facts0
      · rw [show ((u.putChan 0 ch0).putChan 1 ch1).bank.channels.get 1 = ch1 from chans 1]
        rw [hu, State.chan_putChan, if_neg (by decide)] at facts1
        exact facts1
  · intro on settles
    obtain ⟨u, hu⟩ : ∃ u : State, u = { s with bank := { s.bank with emergency := s.bank.emergency.next false } } :=
      ⟨_, rfl⟩
    obtain ⟨ch2, eq2, facts2⟩ := phaseChan_eq .flashEmergency u 2 (by decide)
    have phase : s.emergencyPhase = (u.putChan 2 ch2).armSettledOnly := by
      rw [← eq2, hu]
      rfl
    obtain ⟨v, hv⟩ : ∃ v, v = u.putChan 2 ch2 := ⟨_, rfl⟩
    have probe : v.bank.probe = s.bank.probe := by rw [hv, hu]; rfl
    have onPhase : v.bank.emergency.onPhase = on := by rw [hv, hu]; rfl
    rw [exec_emergencyFlasherPhaseEnd running elapsed, phase, ← hv]
    obtain ⟨arms, fails⟩ := armSettledOnly_cases v
    rw [probe, onPhase] at arms fails
    refine ⟨fun notYet => ?_, fun q held settling armed _ => ?_⟩
    · rw [arms notYet, hv, hu]
      refine ⟨_, congrArg _ (settle_same rfl), rfl, fun c => ⟨fun not2 => ?_, fun is2 => ?_⟩⟩
      · exact (State.chan_putChan ..).trans (if_neg (Ne.symm not2))
      · subst is2
        rw [hu] at facts2
        rw [show Tbl.get _ 2 = ch2 from State.chan_putChan_self ..]
        exact facts2
    · have map : v.map = s.map := by rw [hv, hu]; rfl
      rw [fails q held settling armed]
      exact ⟨_, rfl, outcomeWritten_handOutcome map rfl rfl s .failed⟩

/-! ## Backfeed (R59, R67 (2)) -/

theorem exec_backfeedCheck {mv : Nat} (fits : (Instr.backfeedCheck c mv).wf = true)
    (checked : s.routed c = true ∧ c ≠ 9 ∧ c ≠ 10 ∧ (s.chan c).state = .off) (due : 300 ≤ (s.chan c).backfeedAge) :
    exec (.backfeedCheck c mv) s = .next (s.settle (s.checkBackfeed c mv)) := by
  obtain ⟨routed, not9, not10, off⟩ := checked
  show (if s.routed c = true ∧ (chanLamp c).isSome = true ∧ (s.chan c).state = .off then _ else _) = _
  rw [if_pos ⟨routed, (supplyChan c).2 ⟨not9, not10⟩, off⟩, State.await_of_le (limit := Config.backfeedInterval) due,
    quantise_wf fits]

/-- A check that raises BACKFEED fails the request held on the channel; any other only counts (R59, R67 (2)). -/
theorem checkBackfeed_cases {mv : Nat} {ch : Channel} :
    ((s.chan c).backfeedCheck s.bank.supply mv = (ch, false) → s.checkBackfeed c mv = s.putChan c ch) ∧
    ((s.chan c).backfeedCheck s.bank.supply mv = (ch, true) →
      let u := (s.putChan c ch).raiseAll .backfeed
      ((∀ q, s.bank.probe = some q → lampChan q.lamp ≠ c) → s.checkBackfeed c mv = u) ∧
      ∀ q, s.bank.probe = some q → lampChan q.lamp = c → s.checkBackfeed c mv = u.handOutcome q .failed) := by
  unfold State.checkBackfeed
  refine ⟨fun quiet => by rw [quiet]; rfl, fun raised => ?_⟩
  intro u
  have meaning : s.checkBackfeed c mv = match s.bank.probe with
      | none => u
      | some q => if lampChan q.lamp = c then u.handOutcome q .failed else u := by
    unfold State.checkBackfeed
    rw [raised]
    rfl
  unfold State.checkBackfeed at meaning
  rw [meaning]
  refine ⟨fun elsewhere => ?_, fun q held here => ?_⟩
  · split
    · rfl
    next q held => exact if_neg (elsewhere q held)
  · rw [held]
    exact if_pos here

/-- Settles O40. -/
theorem backfeedChecked : Obligations.BackfeedChecked := by
  intro c mv s fits ch checked
  refine ⟨fun elsewhere => if_neg ?_, fun here due => ?_⟩
  · rintro ⟨routed, lamp, off⟩
    obtain ⟨not9, not10⟩ := (supplyChan c).1 lamp
    exact elsewhere ⟨routed, not9, not10, off⟩
  intro high low put
  rw [exec_backfeedCheck fits here due]
  obtain ⟨highs, third, lows, thirdLow, between⟩ := backfeed_facts ch s.bank.supply mv
  have counted : ∀ {b h l}, ch.backfeedCheck s.bank.supply mv =
      ({ ch with backfeedAge := 0, backfeed := b, highCount := h, lowCount := l }, false) →
      (.next (s.settle (s.checkBackfeed c mv)) : Result) = .next (put b h l).grantIfIdle := by
    intro b h l eq
    rw [checkBackfeed_cases.1 eq, settle_putChan]
  refine ⟨fun h h' => counted (highs h h'), fun h h' h'' none => ?_, fun h h' h'' q held at' => ?_,
    fun h h' => counted (lows h h'), fun h h' h'' => counted (thirdLow h h' h''), fun h h' => counted (between h h')⟩
  · rw [(checkBackfeed_cases.2 (third h h' h'')).1 none]
  · rw [(checkBackfeed_cases.2 (third h h' h'')).2 q held at']
    exact ⟨_, rfl, probeFailed_handOutcome _ rfl rfl⟩

end Sys2Proof.Machine
end

section
/-! Check windows evaluated and probes measured: O41 and O42. -/

namespace Sys2Proof.Machine

-- One proof at a time and no linter passes: together they take more memory than the check gives.
set_option Elab.async false
set_option linter.all false

variable {s : State} {c : ChanId} {q : Probe}

/-! ## Check windows (R60, R78 to R85) -/

theorem exec_checkWindowComplete {w : Window} (window : (s.chan c).window = some w) (full : w.samples.length = 16) :
    exec (.checkWindowComplete c) s = .next (s.finish (s.windowDone c w)) := by
  show (match (s.chan c).window with
    | none => _
    | some w => _) = _
  rw [window]
  exact if_pos full

theorem handsOn_iff (s : State) (c : ChanId) (w : Window) (ch : Channel) (clear : ch.backfeed = (s.chan c).backfeed) :
    (s.putChan c ch).handsOn c w = true ↔ w.supplyOk = true ∧ (s.chan c).backfeed = false ∧ s.det.relearn = none ∧
      ∀ p, (s.pos p).state ≠ .powering ∧ (s.pos p).state ≠ .enumerating ∧ (s.pos p).state ≠ .measuring := by
  have suspended : (s.putChan c ch).suspended = s.suspended := by
    have relearn : (s.putChan c ch).det.relearn = s.det.relearn := by
      unfold State.putChan
      dsimp only
      split <;> rfl
    unfold State.suspended
    rw [relearn]
    rfl
  unfold State.handsOn
  rw [← not_suspended, suspended, State.chan_putChan_self, clear]
  simp only [Bool.and_eq_true, Bool.not_eq_true', and_assoc]
  exact and_rotate

theorem mem_suspects (s : State) (l : LampId) (least : Nat) (p : Pos) : p ∈ s.suspects l least ↔
    s.ready p = true ∧ 0 < ((s.pos p).contrib.get l).settled ∧ least ≤ ((s.pos p).contrib.get l).settled ∧
      ¬(((s.pos p).contrib.get l).cls = .led ∧ ∃ sl ∈ s.countedSlots p l, sl.total = 0 ∧ sl.quality = .good) := by
  unfold State.suspects
  rw [mem_readyWhere]
  simp [and_assoc, ← Decidable.imp_iff_not_or]

/-- The candidate of a check window (R79 to R81). -/
theorem candidate_cases (s : State) (l : LampId) (mean : Nat) :
    let e := s.load.expected.get l
    let t := max 60 ((e + 8) / 16)
    let cand := s.candidate l mean
    (s.darkReports l ≠ [] → cand.kind = .lampOut ∧
      ∀ p, hasBit cand.suspects (posNumber p) = true ↔ p ∈ s.darkReports l) ∧
    (s.darkReports l = [] →
      (mean + t < e → cand.kind = .lampOut ∧ ∀ p, hasBit cand.suspects (posNumber p) = true ↔
        s.ready p = true ∧ 0 < ((s.pos p).contrib.get l).settled ∧ e ≤ mean + t + ((s.pos p).contrib.get l).settled ∧
          ¬(((s.pos p).contrib.get l).cls = .led ∧ ∃ sl ∈ s.countedSlots p l, sl.total = 0 ∧ sl.quality = .good)) ∧
      (e + t < mean → cand = ⟨.extraLoad, 0⟩) ∧
      (e ≤ mean + t → mean ≤ e + t → cand = if 0 < e then ⟨.ok, 0⟩ else ⟨.none, 0⟩)) := by
  intro e t cand
  have meaning : cand = if s.darkReports l ≠ [] then ⟨.lampOut, suspectsOf (s.darkReports l)⟩
      else if mean + t < e then ⟨.lampOut, suspectsOf (s.suspects l (e - mean - t))⟩
      else if e + t < mean then ⟨.extraLoad, 0⟩
      else if 0 < e then ⟨.ok, 0⟩
      else ⟨.none, 0⟩ := rfl
  rw [meaning]
  refine ⟨fun dark => ?_, fun none => ?_⟩
  · rw [if_pos dark]
    exact ⟨rfl, suspectsOf_bit _⟩
  rw [if_neg (not_not_intro none)]
  refine ⟨fun below => ?_, fun above => ?_, fun low high => ?_⟩
  · rw [if_pos below]
    refine ⟨rfl, fun p => (suspectsOf_bit _ p).trans ((mem_suspects ..).trans ?_)⟩
    refine and_congr_right fun _ => and_congr_right fun _ => and_congr_left fun _ => ?_
    omega
  · rw [if_neg (by omega), if_pos above]
  · rw [if_neg (by omega), if_neg (by omega)]

/-- Settles O41. -/
theorem checkWindowEvaluated : Obligations.CheckWindowEvaluated := by
  intro c s w window full mean u taken
  have exec_eq := exec_checkWindowComplete window full
  have handsOn : u.handsOn c w = true ↔ taken := handsOn_iff s c w _ rfl
  have done : s.windowDone c w = match chanLamp c with
      | some l => if u.handsOn c w then u.evaluate l mean w.peak else u
      | none => u := by
    unfold State.windowDone
    rw [meanOf_eq] <;> rfl
  refine ⟨fun skipped => ?_, fun l named isTaken => ?_⟩
  · have kept : s.windowDone c w = u := by
      rw [done]
      rcases skipped with nine | ten | notTaken
      · rw [chanLamp_none (.inl nine)]
      · rw [chanLamp_none (.inr ten)]
      · split
        · exact if_neg (mt handsOn.1 notTaken)
        · rfl
    rw [exec_eq, kept]
    exact congrArg _ (finish_putChan ..)
  intro v e t put
  have evaluated : s.windowDone c w = u.evaluate l mean w.peak := by
    rw [done, named, chanLamp_lampChan, ← named]
    exact if_pos (handsOn.2 isTaken)
  obtain ⟨cand, hcand⟩ : ∃ cand, cand = s.candidate l mean := ⟨_, rfl⟩
  obtain ⟨dark, light⟩ := candidate_cases s l mean
  rw [← hcand] at dark light
  refine ⟨cand, dark, light, ?_⟩
  intro attribution deviation agrees
  obtain ⟨same, second, third, first⟩ := debounce_facts v cand attribution deviation
  have meaning : s.windowDone c w = if (v.debounce cand attribution deviation).2 = true then
      ((put (v.debounce cand attribution deviation).1).raiseAll .lampVerdict).handKind l cand.kind
      else put (v.debounce cand attribution deviation).1 := by
    have attributed : attributionOf cand = attribution := attribution_eq cand
    have deviated : deviationOf cand e mean = deviation := deviation_eq cand e mean
    rw [evaluated, evaluate_eq, ← attributed, ← deviated, hcand]
    rfl
  have unconfirmed : ∀ v', v.debounce cand attribution deviation = (v', false) →
      exec (.checkWindowComplete c) s = .next (put v') := by
    intro v' eq
    rw [exec_eq, meaning, eq]
    exact congrArg Host.Outcome.next (links_same rfl)
  refine ⟨fun h => unconfirmed _ (same h), fun h h' h'' => unconfirmed _ (second h h' h''), fun h h' h'' => ?_,
    fun h h' => unconfirmed _ (first h h')⟩
  rw [exec_eq, meaning, third h h' h'']
  rfl

/-! ## Probes (R62 to R65, R71 to R75) -/

theorem exec_probeGapEnd (held : s.bank.probe = some q) (gap : (s.chan (lampChan q.lamp)).state = .probeGap)
    (still : (s.chan (lampChan q.lamp)).demand = .off ∨ (s.chan (lampChan q.lamp)).demand = .steady)
    (blanked : 40 ≤ (s.chan (lampChan q.lamp)).sinceOff) :
    exec .probeGapEnd s = .next (s.putChan (lampChan q.lamp) (s.chan (lampChan q.lamp)).toProbeOn) := by
  show execProbeGapEnd s = _
  unfold execProbeGapEnd
  rw [held]
  dsimp only
  rw [if_pos ⟨gap, still⟩, State.await_of_le (limit := Config.blanking) blanked]

theorem exec_probeAttemptComplete (held : s.bank.probe = some q) (attempt : q.phase = .attempt)
    (probing : (s.chan (lampChan q.lamp)).state = .probeOn) (full : q.samples.length = 16) :
    exec .probeAttemptComplete s = .next (s.settle
      (((s.keepMean q).takeDemand (lampChan q.lamp)).handOutcome q (.complete q.inrush q.samples))) := by
  show execProbeAttemptComplete s = _
  unfold execProbeAttemptComplete
  rw [held]
  exact if_pos ⟨attempt, probing, full⟩

theorem exec_settledOnlyComplete (held : s.bank.probe = some q) (only : q.phase = .settledOnly)
    (full : q.samples.length = 16) :
    exec .settledOnlyComplete s = .next (s.settle ((s.keepMean q).handOutcome q (.settledOnly q.samples))) := by
  show execSettledOnlyComplete s = _
  unfold execSettledOnlyComplete
  rw [held]
  exact if_pos ⟨only, full⟩

theorem exec_probeLimitExpiry (held : s.bank.probe = some q) (fresh : q.expired = false) (late : 10000 ≤ q.elapsed) :
    exec .probeLimitExpiry s = .next (s.settle (s.limitOver q)) := by
  show execProbeLimitExpiry s = _
  unfold execProbeLimitExpiry
  rw [held]
  dsimp only
  rw [if_neg (by simp [fresh]), State.await_of_le (limit := Config.probeLimit) late, held]

theorem settledShare_eq (samples : List Nat) (before : Nat) :
    let mean := (samples.sum + 8) / 16
    settledShare (meanOf samples) before = if mean < before + 40 then 0 else min 25000 (mean - before) := by
  rw [meanOf_eq]
  rfl

/-- The record of a completed attempt (R71 to R74). -/
theorem learn_complete (inrush : Nat) (samples : List Nat) (before peakBefore : Nat) :
    let mean := (samples.sum + 8) / 16
    let share := if mean < before + 40 then 0 else min 25000 (mean - before)
    let saturated := decide (inrush = 25000)
    let peak := if saturated then 25000 - peakBefore else min 25000 (inrush - peakBefore)
    let cls : LoadClass := if saturated then (if 400 ≤ share then .filament else .mixed)
      else if 64 ≤ peak * 16 / share then .filament else if peak * 16 / share ≤ 24 then .led else .mixed
    learn (.complete inrush samples) before peakBefore =
      if share = 0 then {} else { settled := share, peak := peak, clamped := saturated, cls := cls } := by
  intro mean share saturated peak cls
  have isShare : settledShare (meanOf samples) before = share := settledShare_eq samples before
  have isPeak : peakShare inrush peakBefore = peak := by
    simp only [peak, saturated, decide_eq_true_eq]
    rfl
  unfold learn
  dsimp only
  rw [isShare, isPeak]
  rfl

/-- What an outcome handed on writes and raises, where the Map and the links are those of `s` (R61, R71 (1), R75). -/
theorem handOutcome_told {x : State} (map : x.map = s.map) (links : x.links = s.links) {o : ProbeOutcome}
    (shift : baselineShift o (s.eBefore q.pos q.lamp) = true) (before : State) :
    s.told (before.settle (x.handOutcome q o)) .baselineShift := by
  refine told_of_raise .baselineShift fun l m link interest => ?_
  obtain ⟨-, -, -, -, raised⟩ := handOutcome_facts x q o
  rw [(eBefore_of_map map q.pos q.lamp).1] at raised
  exact raised shift l m (by rw [State.link_of_links links]; exact link) interest

theorem keepMean_eq (s : State) (q : Probe) : s.keepMean q = s.putChan (lampChan q.lamp)
    { s.chan (lampChan q.lamp) with settledMean := (q.samples.sum + 8) / 16 } := by
  rw [State.keepMean, meanOf_eq]

/-- Settles O42. -/
theorem probeMeasured : Obligations.ProbeMeasured := by
  intro s q held chain c ch recorded before mean share
  have shifts : mean < before → ∀ samples, samples = q.samples → decide (meanOf samples < before) = true := by
    rintro below samples rfl
    rw [meanOf_eq]
    exact decide_eq_true below
  refine ⟨fun gap still blanked => ?_, fun attempt probing full => ?_, fun only full => ?_, fun fresh late => ?_⟩
  · exact ⟨_, exec_probeGapEnd held gap still blanked, toProbeOn_facts ch⟩
  · intro saturated peak cls
    have written := outcomeWritten_handOutcome (s := s) (x := (s.keepMean q).takeDemand c) (q := q) (q' := q) rfl rfl rfl s
      (.complete q.inrush q.samples)
    rw [learn_complete] at written
    refine ⟨_, exec_probeAttemptComplete held attempt probing full, ?_, written, fun below => ?_⟩
    · rw [chan_settle, chan_handOutcome, keepMean_eq, State.takeDemand, State.chan_putChan_self,
        State.chan_putChan_self]
      exact took_takeDemand ..
    · exact handOutcome_told (s := s) (q := q) (x := (s.keepMean q).takeDemand c)
        (o := .complete q.inrush q.samples) rfl rfl (shifts below _ rfl) s
  · have written := outcomeWritten_handOutcome (s := s) (x := s.keepMean q) (q := q) (q' := q) rfl rfl rfl s
      (.settledOnly q.samples)
    refine ⟨_, exec_settledOnlyComplete held only full, ?_, ?_, fun below => ?_⟩
    · rw [chan_settle, chan_handOutcome, keepMean_eq, State.chan_putChan_self]
    · have record : learn (.settledOnly q.samples) (s.eBefore q.pos q.lamp) (s.pBefore q.pos q.lamp) =
          { settled := share, peak := 0, clamped := false, cls := .unknown } := by
        unfold learn
        dsimp only
        rw [settledShare_eq]
      rw [record] at written
      exact written
    · exact handOutcome_told (s := s) (q := q) (x := s.keepMean q) (o := .settledOnly q.samples) rfl rfl
        (shifts below _ rfl) s
  · intro steady
    rw [exec_probeLimitExpiry held fresh late]
    have fits : s.settledOnlyFits (lampChan q.lamp) = true ↔ steady := steadyFor_iff s q
    unfold State.limitOver
    refine ⟨fun attempt => ?_, fun waiting isSteady => ?_, fun waiting unsteady => ?_⟩
    · rw [if_pos attempt]
      exact congrArg Host.Outcome.next (settle_same rfl)
    · rw [if_neg waiting, State.resolveExpired, if_pos (fits.2 isSteady)]
      exact congrArg Host.Outcome.next (settle_same rfl)
    · rw [if_neg waiting, State.resolveExpired, if_neg (mt fits.1 unsteady)]
      refine ⟨_, rfl, ?_, outcomeWritten_handOutcome rfl rfl rfl s .failed⟩
      rw [chan_settle]
      exact chan_handOutcome ..

end Sys2Proof.Machine
end

section
/-! The timers of the coupled positions, the cache ages and the polls: O43 and O44. -/

namespace Sys2Proof.Machine

-- One proof at a time and no linter passes: together they take more memory than the check gives.
set_option Elab.async false
set_option linter.all false

variable {s : State} {p : Pos}

/-! ## Time coupled and POWERING (R3, R117 (6), R125) -/

theorem exec_coupledSecondTick (live : s.live p = true) (full : 1000 ≤ (s.pos p).secondMs) :
    exec (.coupledSecondTick p) s = .next (s.setPos p { s.pos p with
      coupledSeconds := min 65535 ((s.pos p).coupledSeconds + 1), secondMs := (s.pos p).secondMs - 1000 }) := by
  show (if s.live p = true then _ else _) = _
  rw [if_pos live, State.await_of_le full]
  rfl

/-- ENUMERATING entered with its search claimed (R99, R125). -/
def State.enumerating (u : State) (p : Pos) : State :=
  let v := u.setPos p { u.pos p with state := .enumerating }
  { v with bus := { v.bus with stack := [], class2 := v.bus.class2 ++ [Txn.search 0 0] } }

theorem enterEnumerating_eq {u : State} {b : BringUp} (bringUp : u.det.bringUp = some b) :
    u.enterEnumerating p = u.enumerating p := by
  unfold State.enterEnumerating State.bringUpNext
  dsimp only
  rw [show (u.modPos p (PosRec.stage .enumerating)).det.bringUp = some b from bringUp]
  rfl

/-- POWERING ends once both of its conditions are met (R125). -/
theorem tryEndPowering_cases {u : State} {b : BringUp} (bringUp : u.det.bringUp = some b) :
    ((u.pos b.pos).state = .powering → 150 ≤ b.powering → b.broadcasts = 0 →
      u.tryEndPowering = u.enumerating b.pos) ∧
    (b.powering < 150 ∨ b.broadcasts ≠ 0 → u.tryEndPowering = u) := by
  unfold State.tryEndPowering
  rw [bringUp]
  refine ⟨fun state counted sent => (if_pos ⟨state, counted, sent⟩).trans (enterEnumerating_eq bringUp), fun waits => if_neg ?_⟩
  rintro ⟨-, counted, sent⟩
  have limit : 150 ≤ b.powering := counted
  exact waits.elim (by omega) (fun h => h sent)

theorem exec_poweringCountExpiry {b : BringUp} (bringUp : s.det.bringUp = some b) : exec .poweringCountExpiry s =
    if (s.pos b.pos).state = .powering ∧ (s.chan 9).state = .drive then
      .next (s.settle ((s.await b.powering Config.poweringTime).tryEndPowering))
    else .next s := by
  show execPoweringCountExpiry s = _
  unfold execPoweringCountExpiry
  rw [bringUp]

theorem exec_broadcastSent {f : InFlight} (flight : s.bus.flight = some f) : exec .broadcastSent s =
    if f.txn.broadcast then
      .next (s.settle (if f.discard = .kept then s.idle.broadcastOver f.txn else s.idle))
    else .next s := by
  show execBroadcastSent s = _
  unfold execBroadcastSent
  rw [flight]
  rfl

theorem links_enumerating (u : State) (p : Pos) : (u.enumerating p).links = u.links := rfl

/-- The broadcast counted at its end (R117 (6)). -/
theorem broadcastOver_eq {b : BringUp} (bringUp : s.det.bringUp = some b) (t : Txn) :
    let sent := { s with
      bus := { s.bus with flight := none }
      det := { s.det with bringUp := some { b with broadcasts := b.broadcasts - 1 } } }
    s.idle.broadcastOver t = (if t = .addressReset then sent.claim2 .segmentOpen else sent).tryEndPowering := by
  intro sent
  have counted : s.idle.modBringUp (fun b => { b with broadcasts := b.broadcasts - 1 }) = sent := by
    unfold State.modBringUp State.idle
    rw [bringUp]
    rfl
  unfold State.broadcastOver
  rw [counted]

/-- Settles O43. -/
theorem poweringEnds : Obligations.PoweringEnds := by
  intro s
  refine ⟨fun p dead => if_neg (by simp [dead]), fun p live full => exec_coupledSecondTick live full, fun none => ?_,
    fun f flight lost broadcast => ?_, fun silent => ?_, fun b bringUp => ?_⟩
  · show execPoweringCountExpiry s = _
    rw [execPoweringCountExpiry, none]
  · rw [exec_broadcastSent flight, if_pos broadcast, if_neg lost]
    exact congrArg Host.Outcome.next (settle_same rfl)
  · cases flight : s.bus.flight with
    | none =>
      show execBroadcastSent s = _
      rw [execBroadcastSent, flight]
    | some f => rw [exec_broadcastSent flight, if_neg (by simp [silent f flight])]
  intro counts enumerating sent
  have isPowering : 150 ≤ b.powering → s.await b.powering Config.poweringTime = s :=
    State.await_of_le (limit := Config.poweringTime)
  obtain ⟨ends, waits⟩ := tryEndPowering_cases bringUp
  refine ⟨fun still => ?_, fun counted full pending => ?_, fun counted full done => ?_, fun f flight kept => ?_⟩
  · rw [exec_poweringCountExpiry bringUp, if_neg still]
  · rw [exec_poweringCountExpiry bringUp, if_pos counted, isPowering full, waits (.inr pending)]
    exact congrArg Host.Outcome.next (settle_same rfl)
  · rw [exec_poweringCountExpiry bringUp, if_pos counted, isPowering full, ends counted.1 full done]
    exact congrArg Host.Outcome.next (settle_same (links_enumerating ..))
  have sentIs : f.txn.broadcast = true → exec .broadcastSent s = .next (s.settle
      (if f.txn = .addressReset then sent.claim2 .segmentOpen else sent).tryEndPowering) := by
    intro broadcast
    rw [exec_broadcastSent flight, if_pos broadcast, if_pos kept, broadcastOver_eq bringUp]
  refine ⟨fun reset two => ?_, fun opened one short => ?_, fun opened one full powering => ?_⟩
  · have pending : b.broadcasts - 1 ≠ 0 := by omega
    rw [sentIs (by rw [reset]; rfl), reset, if_pos rfl, (tryEndPowering_cases (u := sent.claim2 .segmentOpen) rfl).2 (.inr pending)]
    exact congrArg Host.Outcome.next (settle_same rfl)
  · rw [sentIs (by rw [opened]; rfl), opened, if_neg nofun, (tryEndPowering_cases (u := sent) rfl).2 (.inl short)]
    exact congrArg Host.Outcome.next (settle_same rfl)
  · have done : b.broadcasts - 1 = 0 := by omega
    rw [sentIs (by rw [opened]; rfl), opened, if_neg nofun, (tryEndPowering_cases (u := sent) rfl).1 powering full done]
    exact congrArg Host.Outcome.next (settle_same rfl)

/-! ## Cache ages (R13, R113) -/

theorem exec_cacheAgeExpiry {ref : EntryRef} {k : Nat} {e : Entry} {sl : Slot} (entry : s.entry ref = some e)
    (slot : e.slots[k]? = some sl) : exec (.cacheAgeExpiry ref k) s =
      if s.comesDue e sl then .next (s.settle (s.await sl.age sl.window))
      else if sl.quality = .good then
        .next (s.settle ((s.await sl.age (sl.window + 1)).modSlot ref k fun x => { x with quality := .stale }))
      else .next s := by
  have found : s.slot ref k = some sl := by
    unfold State.slot
    rw [entry]
    exact slot
  show execCacheAgeExpiry ref k s = _
  unfold execCacheAgeExpiry
  rw [entry, found]

theorem refreshed_iff (s : State) (e : Entry) (sl : Slot) : s.refreshed e sl = true ↔
    e.live = true ∧ e.locked = false ∧ s.ready e.pos = true ∧ (sl.kind = .lampStatus ∨ sl.watch ≠ 0) := by
  simp [State.refreshed, and_assoc]

theorem comesDue_iff (s : State) (e : Entry) (sl : Slot) : s.comesDue e sl = true ↔ s.refreshed e sl = true ∧
    (sl.age < sl.window ∨ sl.age = sl.window ∧ s.dataRouted = true ∧ s.bus.flight = none) := by
  simp [State.comesDue, and_assoc]

/-- A refreshed slot whose age has reached its window is due unless a deferred read claims it (R113). -/
theorem due_of_unclaimed {e : Entry} {sl : Slot} (refreshed : s.refreshed e sl = true) (age : sl.age = sl.window)
    (unclaimed : ∀ n, sl.number = some n → ∀ d ∈ s.dec.deferred, d.number = n → d.value.isSome = true) :
    s.due e sl = true := by
  have free : s.readClaimed sl = false := by
    unfold State.readClaimed
    split
    next n number =>
      rw [List.any_eq_false]
      intro d hd
      simp only [Bool.and_eq_true, decide_eq_true_eq, Option.isNone_iff_eq_none, not_and]
      exact fun same => Option.isSome_iff_ne_none.1 (unclaimed n number d hd same)
    · rfl
  unfold State.due
  rw [refreshed, free, age]
  simp

/-- A slot of an entry replaced by what a change makes of it. -/
theorem modSlot_set {ref : EntryRef} {k : Nat} {e : Entry} {sl : Slot} (entry : s.entry ref = some e)
    (slot : e.slots[k]? = some sl) (g : Slot → Slot) :
    s.modSlot ref k g = s.setEntry ref (some { e with slots := e.slots.set k (g sl) }) := by
  unfold State.modSlot
  rw [modEntry_eq entry, modify_eq slot]

/-! ## Polls (R109, R110) -/

theorem exec_pollTimerExpiry {t : Nat} (timer : s.bus.polls.get (posIdx p) = some t) (elapsed : 100 ≤ t) :
    exec (.pollTimerExpiry p) s = .next (s.settle (s.pollExpired p)) := by
  show execPollTimerExpiry p s = _
  unfold execPollTimerExpiry
  rw [timer]
  dsimp only
  rw [State.await_of_le (limit := Config.pollInterval) elapsed]

theorem pollOut_iff (s : State) (p : Pos) : s.pollOut p = true ↔
    .poll p ∈ s.bus.class1 ∨ ∃ f, s.bus.flight = some f ∧ f.txn = .poll p := by
  simp [State.pollOut, Option.any_eq_true]

theorem pollExpired_cases (s : State) (p : Pos) :
    let polls := s.bus.polls.set (posIdx p) (some 0)
    let claims := if hasBit (s.pos p).reasons 4 then [Txn.poll p, .segmentClose p] else [.poll p]
    (s.pollOut p = true → s.pollExpired p = { s with bus := { s.bus with polls := polls } }) ∧
    (¬s.pollOut p = true → s.pollExpired p =
      { s with bus := { s.bus with polls := polls, class1 := s.bus.class1 ++ claims } }) := by
  intro polls claims
  refine ⟨fun out => if_pos out, fun idle => (if_neg idle).trans ?_⟩
  show (if hasBit (s.pos p).reasons 4 = true then _ else _) = _
  cases held : hasBit (s.pos p).reasons 4 with
  | true =>
    simp only [claims, held, if_true]
    rw [List.append_cons]
    rfl
  | false =>
    simp only [claims, held]
    rfl

/-- Settles O44. -/
theorem cacheAgesAndPolls : Obligations.CacheAgesAndPolls := by
  intro s
  refine ⟨fun ref k none => ?_, fun ref k e sl entry slot => ?_, fun p none => ?_, fun p t timer elapsed => ?_⟩
  · show execCacheAgeExpiry ref k s = _
    unfold execCacheAgeExpiry
    rw [none]
    cases s.entry ref <;> rfl
  · intro refreshed
    have refreshedIff : s.refreshed e sl = true ↔ refreshed := refreshed_iff s e sl
    refine ⟨fun good stale => ?_, fun bad late => ?_, fun isRefreshed due routed idle => ⟨?_, fun unclaimed => ?_⟩⟩
    · have early : ¬s.comesDue e sl = true := by
        rw [comesDue_iff]
        omega
      rw [exec_cacheAgeExpiry entry slot, if_neg early, if_pos good, State.await_of_le (by omega),
        modSlot_set entry slot]
      exact congrArg Host.Outcome.next (settle_same (links_setEntry ..))
    · have early : ¬s.comesDue e sl = true := by
        rw [comesDue_iff, refreshedIff]
        rintro ⟨isRefreshed, age⟩
        exact late.elim (fun h => h isRefreshed) (by omega)
      rw [exec_cacheAgeExpiry entry slot, if_neg early, if_neg bad]
    · rw [exec_cacheAgeExpiry entry slot,
        if_pos ((comesDue_iff ..).2 ⟨refreshedIff.2 isRefreshed, .inr ⟨due, routed, idle⟩⟩), State.await_of_le (by omega)]
      exact congrArg Host.Outcome.next (settle_same rfl)
    · exact due_of_unclaimed (refreshedIff.2 isRefreshed) due unclaimed
  · show execPollTimerExpiry p s = _
    rw [execPollTimerExpiry, none]
  · intro out polls claims
    obtain ⟨isOut, isIdle⟩ := pollExpired_cases s p
    refine ⟨fun h => ?_, fun h => ?_⟩
    · rw [exec_pollTimerExpiry timer elapsed, isOut ((pollOut_iff s p).2 h)]
      exact congrArg Host.Outcome.next (settle_same rfl)
    · rw [exec_pollTimerExpiry timer elapsed, isIdle (mt (pollOut_iff s p).1 h)]
      exact congrArg Host.Outcome.next (settle_same rfl)

end Sys2Proof.Machine
end

section
/-! RELEARN and QUARANTINE: O45 and O46. -/

namespace Sys2Proof.Machine

-- One proof at a time and no linter passes: together they take more memory than the check gives.
set_option Elab.async false
set_option linter.all false

variable {s : State} {l : LinkId} {m : Mlu} {f : List Byte} {rest : List (List Byte)} {b : Byte} {p : Pos}
variable {ref : EntryRef} {k : Nat} {e : Entry} {sl : Slot}

/-! ## RELEARN (R136) -/

theorem exec_relearn_head (head : Head s l m f rest (.relearn b)) (service : m.role = .service ∨ m.role = .bench) :
    exec (.relearn l) s = .next (s.finish ((s.setLink l { m with queue := rest }).relearn l (byteAt f 1) b)) := by
  have may : roleMay m.role .relearn = true := by
    rcases service with h | h <;> rw [h] <;> rfl
  show Host.Outcome.next (s.finish (s.serve l .relearn _)) = _
  rw [serve_take head (k := .relearn) rfl may]

/-- A probe request tested again changes nothing but the Channel Bank (R62, R64). -/
theorem testProbe_bank (s : State) : s.testProbe = { s with bank := s.testProbe.bank } := by
  cases held : s.bank.probe with
  | none => rw [testProbe_idle (by simp [held])]
  | some q =>
    obtain ⟨begins, stays⟩ := probeTested_testProbe held
    by_cases free : q.phase = .postponed ∧ ¬s.probeHeld (lampChan q.lamp)
    · obtain ⟨whole, -⟩ := begins free.1 free.2
      generalize s.testProbe = t at whole ⊢
      rw [whole]
    · rw [stays ((Classical.not_and_iff_not_or_not.1 free).imp id Classical.not_not.1)]

theorem posOfNumber_number (p : Pos) : posOfNumber (posNumber p) = some p := by cases p <;> rfl

/-- The relearn begun, before its first lamp channel is taken (R8, R136 (5)). -/
def State.relearning (s : State) (p : Pos) : State :=
  let s := s.modPos p fun r => { r with shadow := Tbl.fill 10 {}, relearn := true }
  { s with det := { s.det with relearn := some { pos := p } } }

theorem startRelearn_eq (s : State) (p : Pos) : s.startRelearn p = (s.relearning p).measure p allLamps := rfl

theorem calm_startRelearn (live : s.live p = true) : Calm s (s.startRelearn p) := by
  rw [startRelearn_eq]
  exact calm_measure p live allLamps (calm_setRelearn
    (calm_modPos (f := fun r => { r with shadow := Tbl.fill 10 {}, relearn := true }) (Calm.refl s) p (.inr fun _ => rfl)) _)

/-- The first lamp channel of a relearn goes to the Bank where it can be measured (R61, R137). -/
theorem startRelearn_probes (routed : s.routed 0 = true) (clear : (s.chan 0).backfeed = false) :
    s.startRelearn p = ((s.relearning p).setProbe (some { lamp := 0, pos := p })).testProbe := by
  rw [startRelearn_eq]
  refine (if_neg ?_).trans (if_neg ?_)
  · show ¬s.routed 0 = false
    simp [routed]
  · show ¬(s.chan 0).backfeed = true
    simp [clear]

/-- A reply after an act that leaves alone what probes leave alone (R184). -/
theorem undisturbed_finish_answer {u t : State} (before : State) (active : m.busOff = false)
    (calm : Calm (u.setLink l { m with queue := rest }) t) (k : ReqKind) (tag : Byte) (st : Status) (c : List Byte) :
    Undisturbed (u.answered l m rest k tag st c) (before.finish (t.answer l k tag st c)) := by
  have answered := undisturbed_answer (State.link_setLink_self u l { m with queue := rest }) active
    (Undisturbed.of_calm calm) (calm.links l) k tag st c
  unfold State.answered at answered ⊢
  rw [State.setLink_setLink] at answered
  exact answered.trans (undisturbed_finish before _)

/-- Settles O45. -/
theorem relearnBegins : Obligations.RelearnBegins := by
  intro l s m f rest b head service reply suspended
  have exec_eq := exec_relearn_head head service
  unfold State.relearn at exec_eq
  have replies : ∀ st, s.finish ((s.setLink l { m with queue := rest }).answer l .relearn (byteAt f 1) st []) =
      reply st := by
    intro st
    rw [setLink_answer head, finish_answered head.link rfl]
  refine ⟨fun outside => ?_, fun p number => ?_⟩
  · rw [exec_eq, posOfNumber_none outside]
    exact congrArg _ (replies .malformed)
  rw [number, posOfNumber_number] at exec_eq
  dsimp only at exec_eq
  rw [live_setLink] at exec_eq
  have suspendedIff : (s.setLink l { m with queue := rest }).suspended = true ↔ suspended := by
    rw [suspended_iff]
    simp only [pos_setLink, State.setLink_det]
    rfl
  refine ⟨fun dead => ?_, fun live busy => ?_, fun live free => ?_⟩
  · rw [exec_eq, if_pos dead]
    exact congrArg _ (replies .gone)
  · rw [exec_eq, if_neg (by simp [live]), if_pos (suspendedIff.2 busy)]
    exact congrArg _ (replies .retry)
  · obtain ⟨v, hv⟩ : ∃ v, v = s.setLink l { m with queue := rest } := ⟨_, rfl⟩
    have liveV : v.live p = true := by rw [hv, live_setLink, live]
    rw [if_neg (by simp [live]), if_neg (mt suspendedIff.1 free), ← hv] at exec_eq
    refine ⟨_, exec_eq, ?_, fun routed clear => ?_⟩
    · rw [hv] at liveV ⊢
      exact undisturbed_finish_answer s head.active (calm_startRelearn liveV) .relearn (byteAt f 1) .ok []
    · have bank : v.bank = s.bank := by rw [hv, State.setLink_bank]
      have det : v.det = s.det := by rw [hv, State.setLink_det]
      have pos : ∀ p, v.pos p = s.pos p := fun p => by rw [hv, pos_setLink]
      have routedV : v.routed 0 = true := by
        rw [hv]
        cases l <;> exact routed
      have clearV : (v.chan 0).backfeed = false := by rw [hv, chan_setLink, clear]
      obtain ⟨u, hu⟩ : ∃ u, u = (v.relearning p).setProbe (some { lamp := 0, pos := p }) := ⟨_, rfl⟩
      have started : v.startRelearn p = { u with bank := u.testProbe.bank } := by
        rw [startRelearn_probes routedV clearV, ← hu]
        exact testProbe_bank u
      have tested : ProbeTested u u.testProbe { lamp := 0, pos := p } := probeTested_testProbe (by rw [hu]; rfl)
      have positions : ∀ p', (s.finish ((v.startRelearn p).answer l .relearn (byteAt f 1) .ok [])).pos p' =
          (v.modPos p fun r => { r with shadow := Tbl.fill 10 {}, relearn := true }).pos p' := by
        intro p'
        refine State.pos_of_map ?_ p'
        rw [State.finish_map, State.answer_map, started, hu]
        rfl
      refine ⟨?_, ?_, fun p' other => ?_, u, u.testProbe, ?_, tested, ?_⟩
      · rw [State.finish_det, State.answer_det, started, hu]
        rfl
      · rw [positions, State.pos_modPos, if_pos rfl, pos]
      · rw [positions, State.pos_modPos, if_neg (Ne.symm other), pos]
      · rw [hu, ← bank]
        rfl
      · rw [State.finish_bank, State.answer_bank, started]

/-! ## QUARANTINE (R174) -/

theorem exec_quarantine_named {set : Bool} (head : Head s l m f rest (.quarantine b set)) (names : Names s b ref k e sl)
    (service : m.role = .service ∨ m.role = .bench) (ready : e.live = false ∨ s.ready e.pos = true) {v : State}
    (taken : v = (s.setEntry ref (some { e with used := true })).setLink l { m with queue := rest }) : exec (.quarantine l) s = .next (s.settle (State.quarantineDone
      (if e.live then v.quarantineLive ⟨ref, k, e, sl⟩ set else v.quarantineStale ⟨ref, k, e, sl⟩ set) l
      ⟨m.role, byteAt f 1, .quarantine b set⟩ ⟨ref, k, e, sl⟩ (if e.live then .ok else .gone))) := by
  have may : roleMay m.role .quarantine = true := by
    rcases service with h | h <;> rw [h] <;> rfl
  rw [exec_quarantine head may, State.quarantine, lookup_setLink, lookup_names names]
  dsimp only
  rw [decodeAnswer_taken, markUsed_setLink, markUsed_names names, served_used names.slot, ← taken,
    decodeAnswer_names]
  cases live : e.live with
  | false => rfl
  | true =>
    rw [if_neg nofun, ready.resolve_left (by simp [live])]
    rfl

/-- A reply with the mark and the strikes of an entry as they stand (R174). -/
theorem settle_quarantineDone {t : State} {e' : Entry} {r : Request} (head : Head s l m f rest r)
    (links : t.links = s.links) (entry : t.entry ref = some e') (x : Taken) (k : Nat) (old : Entry) (sl : Slot)
    (st : Status) : s.settle ((t.setLink l { m with queue := rest }).quarantineDone l x ⟨ref, k, old, sl⟩ st) =
      (t.answered l m rest .quarantine x.tag st [byteOf (bit e'.locked), byteOf e'.strikes]).grantIfIdle := by
  unfold State.quarantineDone
  dsimp only
  rw [entry_setLink, entry, setLink_answer head, settle_answered head.link links]
  rfl

/-- Another entry of a position is locked out (R17). -/
theorem anyLocked_setEntry_unlocked {e' : Entry} (unlocked : e'.locked = false) :
    (s.setEntry ref (some e')).anyLocked p = true ↔
      ∃ r ∈ (s.pos p).refs, r ≠ ref ∧ ∃ x, s.entry r = some x ∧ x.locked = true := by
  unfold State.anyLocked
  rw [pos_setEntry, List.any_eq_true]
  refine exists_congr fun r => and_congr_right fun _ => ?_
  by_cases same : r = ref
  · subst same
    simp [entry_setEntry, unlocked]
  · rw [entry_setEntry_ne s same, Option.any_eq_true]
    exact ⟨fun locked => ⟨same, locked⟩, fun locked => locked.2⟩

/-- A lock-out that sets out from the entry marked used (R14, R174 (1)). -/
theorem lockOut_used (entry : s.entry ref = some e) : ∃ w, LockedOut s w ref { e with used := true } ∧
    (s.setEntry ref (some { e with used := true })).lockOut ref =
      if Txn.reassign ref true ∈ s.bus.class2 then w.bringUpNext else w := by
  have used := entry_setEntry s ref (some { e with used := true })
  refine ⟨_, lockedOut_rebase entry rfl (lockedOut used), (lockOut_eq used).trans ?_⟩
  rw [State.setEntry_bus]
  exact ite_congr (propext (reassigns_iff ..)) (fun _ => rfl) fun _ => rfl

theorem quarantineDone_marks {t : State} {locked : Bool} {strikes : Nat}
    (marks : (t.entry ref).map (fun e => (e.locked, e.strikes)) = some (locked, strikes)) (x : Taken) (k : Nat)
    (old : Entry) (sl : Slot) (st : Status) : t.quarantineDone l x ⟨ref, k, old, sl⟩ st =
      t.answer l .quarantine x.tag st [byteOf (bit locked), byteOf strikes] := by
  unfold State.quarantineDone
  obtain ⟨e, entry, pair⟩ := Option.map_eq_some_iff.1 marks
  obtain ⟨rfl, rfl⟩ := Prod.mk.inj pair
  rw [entry]
  rfl

/-- What QUARANTINE makes of a stale entry, and what it answers (R174 (3)). -/
theorem exec_quarantine_stale {set : Bool} (head : Head s l m f rest (.quarantine b set)) (names : Names s b ref k e sl)
    (service : m.role = .service ∨ m.role = .bench) (stale : e.live = false) {e' : Entry}
    (becomes : (if set then (if e.locked then { e with used := true } else Entry.lockOut { e with used := true }) else
      if e.locked then { e with used := true, locked := false, strikes := 0 } else { e with used := true }) = e') :
    exec (.quarantine l) s = .next ((s.setEntry ref (some e')).answered l m rest .quarantine (byteAt f 1) .gone
      [byteOf (bit e'.locked), byteOf e'.strikes]).grantIfIdle := by
  rw [exec_quarantine_named head names service (.inl stale) rfl, if_neg (by simp [stale]), if_neg (by simp [stale]),
    State.quarantineStale, modEntry_setLink, modEntry_eq (entry_setEntry ..), setEntry_setEntry]
  dsimp only
  rw [becomes, settle_quarantineDone head (links_setEntry ..) (entry_setEntry ..)]

/-- A set or release that changes nothing only answers (R174). -/
theorem exec_quarantine_unchanged (head : Head s l m f rest (.quarantine b e.locked)) (names : Names s b ref k e sl)
    (service : m.role = .service ∨ m.role = .bench) (live : e.live = true) (ready : s.ready e.pos = true) :
    exec (.quarantine l) s = .next ((s.setEntry ref (some { e with used := true })).answered l m rest .quarantine
      (byteAt f 1) .ok [byteOf (bit e.locked), byteOf e.strikes]).grantIfIdle := by
  rw [exec_quarantine_named head names service (.inr ready) rfl, if_pos live, if_pos live, State.quarantineLive,
    if_pos rfl, settle_quarantineDone head (links_setEntry ..) (entry_setEntry ..)]

/-- An entry in service is locked out (R174 (1)). -/
theorem exec_quarantine_locks (head : Head s l m f rest (.quarantine b true)) (names : Names s b ref k e sl)
    (service : m.role = .service ∨ m.role = .bench) (free : e.locked = false) (live : e.live = true)
    (ready : s.ready e.pos = true) : ∃ w, LockedOut (s.setLink l { m with queue := rest }) w ref { e with used := true } ∧
      exec (.quarantine l) s = .next (s.settle
        ((if Txn.reassign ref true ∈ s.bus.class2 then w.bringUpNext else w).answer l .quarantine (byteAt f 1) .ok
          [1, byteOf e.strikes])) := by
  obtain ⟨w, out, locks⟩ := lockOut_used (s := s.setLink l { m with queue := rest }) (ref := ref)
    ((entry_setLink ..).trans names.entry)
  refine ⟨w, out, ?_⟩
  have marks : ((if Txn.reassign ref true ∈ s.bus.class2 then w.bringUpNext else w).entry ref).map
      (fun e => (e.locked, e.strikes)) = some (true, e.strikes) := by
    have onEntry : (w.entry ref).map (fun e => (e.locked, e.strikes)) = some (true, e.strikes) := by
      rw [out.entry]
      rfl
    split
    · exact (bringUpNext_marks w ref).1.trans onEntry
    · exact onEntry
  rw [exec_quarantine_named head names service (.inr ready) rfl, if_pos live, if_pos live, State.quarantineLive,
    if_neg (by simp [free]), if_pos rfl, ← setEntry_setLink, locks, State.setLink_bus,
    quarantineDone_marks marks]
  rfl

theorem entry_dropReason (s : State) (p : Pos) (x : Reason) (ref : EntryRef) :
    (s.dropReason p x).entry ref = s.entry ref := by
  cases ref <;> cases p <;> rfl

theorem links_dropReason (s : State) (p : Pos) (x : Reason) : (s.dropReason p x).links = s.links := by
  cases p <;> rfl

theorem setLink_releaseEntry (s : State) (l : LinkId) (m : Mlu) (ref : EntryRef) :
    (s.setLink l m).releaseEntry ref = (s.releaseEntry ref).setLink l m := by
  unfold State.releaseEntry
  rw [entry_setLink]
  cases s.entry ref with
  | none => rfl
  | some e =>
    dsimp only
    rw [setEntry_setLink]
    cases e.live with
    | false => rfl
    | true =>
      rw [if_pos rfl, if_pos rfl, apply_ite fun t : State => t.setLink l m]
      cases l <;> rfl

/-- An entry in service is released (R17, R174 (2)). -/
theorem exec_quarantine_releases (head : Head s l m f rest (.quarantine b false)) (names : Names s b ref k e sl)
    (service : m.role = .service ∨ m.role = .bench) (locked : e.locked = true) (live : e.live = true)
    (ready : s.ready e.pos = true) :
    let u := s.setEntry ref (some { e with used := true, locked := false, strikes := 0 })
    let v := { u with bus := { u.bus with class2 := u.bus.class2 ++ [Txn.rediscover ref] } }
    exec (.quarantine l) s = .next ((if u.anyLocked e.pos then v else v.dropReason e.pos .quarantine).answered l m rest
      .quarantine (byteAt f 1) .ok [0, 0]).grantIfIdle := by
  intro u v
  have released : ((s.setEntry ref (some { e with used := true })).setLink l { m with queue := rest }).releaseEntry ref =
      (if u.anyLocked e.pos then v else v.dropReason e.pos .quarantine).setLink l { m with queue := rest } := by
    rw [setLink_releaseEntry, State.releaseEntry, entry_setEntry]
    dsimp only
    rw [if_pos live, setEntry_setEntry]
    rfl
  have entry : (if u.anyLocked e.pos then v else v.dropReason e.pos .quarantine).entry ref =
      some { e with used := true, locked := false, strikes := 0 } := by
    split
    · exact entry_setEntry ..
    · exact (entry_dropReason ..).trans (entry_setEntry ..)
  rw [exec_quarantine_named head names service (.inr ready) rfl, if_pos live, if_pos live, State.quarantineLive,
    if_neg (by simp [locked]), if_neg (by simp), released,
    settle_quarantineDone head ?_ entry]
  · rfl
  · split
    · exact links_setEntry ..
    · exact (links_dropReason ..).trans (links_setEntry ..)

/-- Settles O46. -/
theorem quarantineSets : Obligations.QuarantineSets := by
  intro l s m f rest b set ref k e sl head names service _
  refine ⟨fun same ready => ?_, fun sets free stale => ?_, fun releases locked stale => ?_,
    fun sets free live ready => ?_, fun releases locked live ready => ?_⟩
  · subst same
    by_cases live : e.live = true
    · rw [if_pos live]
      exact exec_quarantine_unchanged head names service live (ready.resolve_left (by simp [live]))
    · rw [if_neg live]
      refine exec_quarantine_stale head names service (Bool.eq_false_iff.2 live) ?_
      by_cases locked : e.locked = true
      · rw [if_pos locked, if_pos locked]
      · rw [if_neg locked, if_neg locked]
  · subst sets
    exact exec_quarantine_stale head names service stale (by rw [if_pos rfl, if_neg (by simp [free])]; rfl)
  · subst releases
    exact exec_quarantine_stale head names service stale (by rw [if_neg (by simp), if_pos locked])
  · subst sets
    exact exec_quarantine_locks head names service free live ready
  · subst releases
    have exec_eq := exec_quarantine_releases head names service locked live ready
    have others := anyLocked_setEntry_unlocked (s := s) (p := e.pos) (ref := ref)
      (e' := { e with used := true, locked := false, strikes := 0 }) rfl
    exact ⟨fun locked => exec_eq.trans (by rw [if_pos (others.2 locked)]),
      fun none => exec_eq.trans (by rw [if_neg (mt others.1 none)])⟩

end Sys2Proof.Machine
end

section
/-! Sendings that fail (R94, R106, R169): O47. -/

namespace Sys2Proof.Machine

-- One proof at a time and no linter passes: together they take more memory than the check gives.
set_option Elab.async false
set_option linter.all false

variable {s : State} {f : InFlight} {c : Instr} {o : BusOutcome} {ref : EntryRef} {k : Nat} {e : Entry}

/-! ## The end of a transaction (R94, R98) -/

theorem endFlight_teardown (torn : f.discard = .teardown) (o : BusOutcome) (first : Bool) :
    s.endFlight f o first = s.idle :=
  if_pos torn

theorem endFlight_poll {p : Pos} (poll : f.txn = .poll p) (alive : f.discard ≠ .teardown) (o : BusOutcome)
    (first : Bool) : s.endFlight f o first = s.idle.pollOutcome p o first := by
  refine (if_neg alive).trans ?_
  rw [poll]
  rfl

theorem endFlight_read {owner : Option (LinkId × Byte)} (read : f.txn = .read ref k owner)
    (alive : f.discard ≠ .teardown) (o : BusOutcome) (first : Bool) :
    s.endFlight f o first = s.idle.readOutcome ref k (if f.discard = .kept then owner else none) o := by
  refine (if_neg alive).trans ?_
  rw [read]
  by_cases kept : f.discard = .kept
  · rw [if_pos kept, kept]
    rfl
  · rw [if_neg kept, decide_eq_false kept]
    rfl

theorem endFlight_write {x : Word16} {owner : WriteOwner} (write : f.txn = .write ref k x owner)
    (alive : f.discard ≠ .teardown) (o : BusOutcome) (first : Bool) :
    s.endFlight f o first = s.idle.writeOutcome ref k x owner (decide (f.discard = .kept)) o := by
  refine (if_neg alive).trans ?_
  rw [write]
  rfl

/-! ## The decoder's collections (R162, R168, R169) -/

theorem find?_of_unique {α : Type} {xs : List α} {test : α → Bool} {x : α} (mem : x ∈ xs) (holds : test x = true)
    (unique : ∀ y ∈ xs, test y = true → y = x) : xs.find? test = some x := by
  cases found : xs.find? test with
  | none => exact absurd holds (List.find?_eq_none.1 found x mem)
  | some y => rw [unique y (List.mem_of_find?_eq_some found) (List.find?_some found)]

theorem completeFor_deferred {d : Deferred} (mem : d ∈ s.dec.deferred)
    (unique : ∀ x ∈ s.dec.deferred, x.link = d.link → x.tag = d.tag → x = d) (st : Status) (content : List Byte) :
    s.completeFor (some (d.link, d.tag)) st content = s.complete d st content := by
  unfold State.completeFor
  dsimp only
  rw [findDeferred_eq mem unique]

/-- A posted entry at the outcome of its WRITE (R168, R169 (1), log 35). -/
theorem settlePosted_carried {p : Posted} {x : Word16} {poster : Role} (mem : p ∈ s.dec.posted)
    (carried : p.carried = some (x, poster)) (unique : ∀ q ∈ s.dec.posted, q.number = p.number → q = p) (ok : Bool) :
    s.settlePosted p.number ok =
      if p.replaced then
        if p.lockedOut then ((s.dropPosted p.number).postedFailed ok poster).postedFailed false p.poster
        else (s.modPosted p.number fun x => { x with carried := none, replaced := false }).postedFailed ok poster
      else (s.dropPosted p.number).postedFailed ok poster := by
  have found : (s.dec.posted.find? fun q => q.number = p.number && q.carried.isSome) = some p := by
    refine find?_of_unique mem (by simp [carried]) fun q member test => unique q member ?_
    exact of_decide_eq_true (Bool.and_eq_true_iff.1 test).1
  unfold State.settlePosted
  rw [found]
  dsimp only
  rw [carried]
  rfl

/-! ## A final sending that fails -/

/-- A sending that fails finally ends its transaction (R94). -/
theorem exec_finallyFails (flight : s.bus.flight = some f) (fails : Fails f c) (awaits : f.txn.broadcast = false)
    (repeated : f.repeated = true) : ∃ o : BusOutcome, (o = .garbled ∨ o = .silence) ∧
      exec c s = .next (s.settle (s.endFlight f o false)) := by
  obtain ⟨o, kind, exec_eq⟩ := exec_fails flight fails awaits
  refine ⟨o, kind.imp And.left And.left, exec_eq.trans ?_⟩
  unfold State.failSending
  rw [if_pos repeated]

/-- Nothing is granted while a transaction is in flight (R96). -/
theorem settle_flying {t : State} (flight : t.bus.flight = some f) (links : t.links = s.links) : s.settle t = t := by
  rw [settle_same links, grantIfIdle_flying flight]

theorem exec_sentAgain (flight : s.bus.flight = some f) (fails : Fails f c) (awaits : f.txn.broadcast = false)
    (first : f.repeated = false) : exec c s =
      .next { s with bus := { s.bus with flight := some { f with repeated := true, waited := 0, members := [] } } } := by
  obtain ⟨o, -, exec_eq⟩ := exec_fails flight fails awaits
  rw [exec_eq]
  unfold State.failSending
  rw [if_neg (by simp [first])]
  exact congrArg _ (settle_flying (f := { f with repeated := true, waited := 0, members := [] }) rfl rfl)

theorem readOutcome_failed (failed : o = .garbled ∨ o = .silence) (owner : Option (LinkId × Byte)) :
    s.readOutcome ref k owner o = (s.strike ref).completeFor owner .noReply [] := by
  rcases failed with rfl | rfl <;> rfl

theorem writeOutcome_failed (failed : o = .garbled ∨ o = .silence) (x : Word16) (owner : WriteOwner) (heard : Bool) :
    s.writeOutcome ref k x owner heard o = if heard then (s.strike ref).writeHeard owner x .failed else s.strike ref := by
  rcases failed with rfl | rfl <;> rfl

theorem idle_struck (entry : s.entry ref = some e) : State.struck s.idle (s.idle.strike ref) ref e :=
  strike_struck ((entry_bus ..).trans entry)

/-- A deferred request in flight at a strike is still on the list after it, alone under its link and tag (R108 (4)). -/
theorem completeFor_struck {v : State} {d : Deferred} (bounded : s.bounded = true)
    (struck : State.struck s.idle v ref e) (mem : d ∈ s.dec.deferred) (flying : d.inFlight = true) (st : Status)
    (content : List Byte) : v.completeFor (some (d.link, d.tag)) st content = v.complete d st content := by
  obtain ⟨old, stays, -, -⟩ := struck_dec struck
  exact completeFor_deferred (stays d mem flying)
    (fun x member => (bounded_keys bounded).1 x d (old x member) mem) st content

/-- A posted write in flight at a strike, and what the failure of its WRITE then makes of it (R169 (1), log 35). -/
theorem settlePosted_struck {v : State} {p : Posted} {x : Word16} {poster : Role} (bounded : s.bounded = true)
    (struck : State.struck s.idle v ref e) (mem : p ∈ s.dec.posted) (carried : p.carried = some (x, poster)) :
    v.settlePosted p.number false =
      if p.replaced then
        if (s.idle.struckPosted ref e p).lockedOut then
          ((v.dropPosted p.number).raiseRole poster .postedWriteFailed).raiseRole p.poster .postedWriteFailed
        else (v.modPosted p.number fun x => { x with carried := none, replaced := false }).raiseRole poster
          .postedWriteFailed
      else (v.dropPosted p.number).raiseRole poster .postedWriteFailed := by
  obtain ⟨-, -, old, stays⟩ := struck_dec struck
  have number : ∀ q, (s.idle.struckPosted ref e q).number = q.number := by
    intro q
    unfold State.struckPosted
    split <;> rfl
  have fields : (s.idle.struckPosted ref e p).carried = p.carried ∧ (s.idle.struckPosted ref e p).replaced = p.replaced ∧
      (s.idle.struckPosted ref e p).poster = p.poster := by
    unfold State.struckPosted
    split <;> exact ⟨rfl, rfl, rfl⟩
  obtain ⟨carries, replaced, hisPoster⟩ := fields
  have settled := settlePosted_carried (stays p mem (by simp [carried])) (carries.trans carried) (fun y member same => by
    obtain ⟨q, posted, rfl⟩ := old y member
    rw [number, number] at same
    rw [(bounded_keys bounded).2 q p posted mem same]) false
  rwa [number, replaced, hisPoster] at settled

theorem struckPosted_lockedOut {p : Posted} (bound : s.binding p.number = some (ref, k)) :
    (s.idle.struckPosted ref e p).lockedOut = true ↔ p.lockedOut = true ∨ e.locked = false ∧ 2 ≤ e.strikes := by
  have here : s.idle.bound p.number ref = true := by
    have binding : s.idle.binding p.number = some (ref, k) := bound
    simp [State.bound, binding]
  unfold State.struckPosted
  by_cases out : e.locked = false ∧ 2 ≤ e.strikes
  · simp [here, out]
  · rw [if_neg fun h => out ⟨h.1, h.2.1⟩]
    simp [out]

/-- Settles O47. -/
theorem sendingsFail : Obligations.SendingsFail := by
  intro s bytes first
  refine ⟨fun none => ?_, fun f flight awaits => ⟨fun late => ?_, fun c fails => ⟨?_, ?_, ?_⟩⟩⟩
  · constructor
    · show execTrailerBusFrameReceived bytes first s = _
      unfold execTrailerBusFrameReceived
      cases flight : s.bus.flight with
      | none => rfl
      | some f => exact if_pos (.inl (none f flight))
    · show execResponseTimeout s = _
      unfold execResponseTimeout
      cases flight : s.bus.flight with
      | none => rfl
      | some f => exact if_pos (none f flight)
  · show execTrailerBusFrameReceived bytes first s = _
    unfold execTrailerBusFrameReceived
    rw [flight]
    exact if_pos (.inr late)
  · exact exec_sentAgain flight fails awaits
  · intro repeated torn
    obtain ⟨o, -, exec_eq⟩ := exec_finallyFails flight fails awaits repeated
    rw [exec_eq, endFlight_teardown torn]
    exact next_settle rfl
  · intro repeated alive bounded ref e entry ends
    obtain ⟨o, failed, exec_eq⟩ := exec_finallyFails flight fails awaits repeated
    have struck := idle_struck entry
    have ended : ∀ x : State → State, s.endFlight f o false = x (s.idle.strike ref) → ends x :=
      fun x becomes => ⟨_, struck, exec_eq.trans (by rw [becomes])⟩
    have read : ∀ k owner, f.txn = .read ref k owner → s.endFlight f o false =
        (s.idle.strike ref).completeFor (if f.discard = .kept then owner else none) .noReply [] := fun k owner read =>
      (endFlight_read read alive o false).trans (readOutcome_failed failed _)
    have write : ∀ k x owner, f.txn = .write ref k x owner → s.endFlight f o false =
        if decide (f.discard = .kept) then (s.idle.strike ref).writeHeard owner x .failed else s.idle.strike ref :=
      fun k x owner write => (endFlight_write write alive o false).trans (writeOutcome_failed failed ..)
    refine ⟨fun k own => ended _ ?_, fun k owner own off => ended _ ?_, fun k x owner own off => ended _ ?_,
      fun p poll repeater => ended _ ?_, fun kept => ⟨fun k d own mem flying => ended _ ?_,
        fun k x d own mem flying => ended _ ?_, fun k x p poster own mem carried => ⟨fun alone => ended _ ?_,
          fun replaced bound => ⟨fun stays => ended _ ?_, fun out => ended _ ?_⟩⟩⟩⟩
    · rw [read k none own]
      split <;> rfl
    · rw [read k owner own, if_neg (by simp [off])]
      rfl
    · rw [write k x owner own, if_neg (by simp [off])]
      rfl
    · exact (endFlight_poll poll alive o false).trans (pollOutcome_fail failed repeater)
    · rw [read k _ own, if_pos kept]
      exact completeFor_struck bounded struck mem flying ..
    · rw [write k x _ own, if_pos (by simp [kept])]
      exact completeFor_struck bounded struck mem flying ..
    all_goals
      have settled : s.endFlight f o false = (s.idle.strike ref).settlePosted p.number false := by
        rw [write k x _ own, if_pos (by simp [kept])]
        rfl
      rw [settled, settlePosted_struck bounded struck mem carried]
    · exact if_neg (by simp [alone])
    · exact (if_pos replaced).trans (if_neg (mt (struckPosted_lockedOut bound).1 stays))
    · exact (if_pos replaced).trans (if_pos ((struckPosted_lockedOut bound).2 out))

end Sys2Proof.Machine
end

section
/-! Replies on the trailer bus applied (R94, R106, R111, R112): O48. -/

namespace Sys2Proof.Machine

-- One proof at a time and no linter passes: together they take more memory than the check gives.
set_option Elab.async false
set_option linter.all false

variable {s v : State} {f : InFlight} {ref : EntryRef} {k : Nat} {e : Entry} {sl : Slot} {bytes payload : List Byte}
variable {first : Bool} {values : List Word16} {a : Byte} {x : Word16} {owner : WriteOwner}

theorem next_settle_congr {t u : State} (same : t = u) :
    (Host.Outcome.next (s.settle t) : Result) = .next (s.settle u) := by rw [same]

/-! ## Frames taken (R92, R111) -/

theorem readValues_two (hi lo : Byte) : readValues [hi, lo] = [word16 hi lo] := rfl

theorem replyFrames_read (entry : s.entry ref = some e) (owner : Option (LinkId × Byte)) :
    s.replyFrames (.read ref k owner) = max 1 e.run := by
  show max 1 (((s.entry ref).map (·.run)).getD 0) = _
  rw [entry]
  rfl

/-- A reply of one frame ends its transaction at once (R94). -/
theorem takeReply_alone (alone : s.replyFrames f.txn = 1) :
    s.takeReply f payload first = s.endFlight f (.reply payload) first := if_pos alone

theorem settle_takeReply_awaits {n : Nat} (frames : s.replyFrames f.txn = n) (group : n ≠ 1)
    (more : (f.members ++ readValues payload).length < n) : s.settle (s.takeReply f payload first) =
      { s with bus := { s.bus with flight := some { f with members := f.members ++ readValues payload, waited := 0 } } } := by
  unfold State.takeReply
  dsimp only
  rw [frames, if_neg group, if_pos more]
  exact settle_flying (f := { f with members := f.members ++ readValues payload, waited := 0 }) rfl rfl

theorem takeReply_last {n : Nat} (frames : s.replyFrames f.txn = n) (group : n ≠ 1)
    (whole : (f.members ++ readValues payload).length = n) : s.takeReply f payload first =
      s.endFlight f (.reply ((f.members ++ readValues payload).flatMap Word16.bytes)) first := by
  unfold State.takeReply
  dsimp only
  rw [frames, if_neg group, if_neg (by omega)]

/-! ## A fresh value on the cleared entry (R106, R111) -/

/-- A reply of a node at its address: the bus is idle, the strikes are 0, the node is at its address and its rediscovery
is withdrawn (R94, R106, log 33). -/
def State.cleared (s : State) (ref : EntryRef) (e : Entry) (n : Nat) : State :=
  let v := ({ s with freeCount := n } : State).setEntry ref (some { e with strikes := 0, unassigned := false })
  { v with bus := { s.bus with
      flight := none
      class1 := s.bus.class1.filter fun x => !decide (x = Txn.rediscover ref)
      class2 := s.bus.class2.filter fun x => !decide (x = Txn.rediscover ref) } }

theorem idle_answeredThere_cleared (entry : s.entry ref = some e) :
    s.idle.answeredThere ref = s.cleared ref e s.freeCount := idle_answeredThere entry

theorem entry_cleared (s : State) (ref : EntryRef) (e : Entry) (n : Nat) :
    (s.cleared ref e n).entry ref = some { e with strikes := 0, unassigned := false } :=
  (entry_bus ..).trans (entry_setEntry ..)

theorem cleared_dec (s : State) (ref : EntryRef) (e : Entry) (n : Nat) : (s.cleared ref e n).dec = s.dec := by
  cases ref <;> rfl

theorem cleared_freeCount (s : State) (ref : EntryRef) (e : Entry) (n : Nat) : (s.cleared ref e n).freeCount = n := by
  cases ref <;> rfl

theorem setEntry_cleared (s : State) (ref : EntryRef) (e : Entry) (n n' : Nat) (slots : List Slot) :
    ({ s.cleared ref e n with freeCount := n' } : State).setEntry ref
      (some { e with strikes := 0, unassigned := false, slots := slots }) = s.cleared ref { e with slots := slots } n' := by
  unfold State.cleared
  show ({ ({ ({ s with freeCount := n } : State).setEntry ref (some { e with strikes := 0, unassigned := false }) with
    freeCount := n' } : State) with bus := _ } : State).setEntry ref _ = _
  rw [setEntry_bus', setEntry_freeCount, setEntry_setEntry]

/-- A slot with a fresh value (R111). -/
def Slot.fresh (sl : Slot) (values : List Word16) (reported : Word16) (changed : RoleSet) : Slot :=
  { sl with cache := values, age := 0, quality := Quality.good, lastReported := reported, changed := changed }

/-- A reply that carries values refreshes the slot, and the watchers hear of a change that reaches the delta (R111). -/
def Refreshed (s : State) (ref : EntryRef) (e : Entry) (k : Nat) (sl : Slot) (values : List Word16) (v : State) : Prop :=
  let sum := (values.map BitVec.toInt).foldl (· + ·) 0
  let enough := sl.watch ≠ 0 ∧ sl.delta ≤ (sum - sl.lastReported.toInt).natAbs
  let put := fun (reported : Word16) (changed : RoleSet) (n : Nat) =>
    s.cleared ref { e with slots := e.slots.set k (sl.fresh values reported changed) } n
  (¬enough ∧ v = put sl.lastReported sl.changed s.freeCount) ∨
  (enough ∧ ∃ reported n, v = (put reported (sl.changed ||| sl.watch) n).raiseFor sl.watch .valueChanged ∧
    (-32768 ≤ sum → sum ≤ 32767 → reported.toInt = sum ∧ n = s.freeCount))

/-- The deferred reads of a slot (R163). -/
def State.readsOf (s : State) (sl : Slot) : List Deferred :=
  s.dec.deferred.filter fun d => some d.number = sl.number ∧ d.value = none

/-- A fresh value answers the deferred reads of its slot once the slot has taken it (R111, R163). -/
theorem freshValue_answered (entry : s.entry ref = some e) (slot : e.slots[k]? = some sl) (values : List Word16) :
    ∃ v, Refreshed s ref e k sl values v ∧ (s.idle.answeredThere ref).freshValue ref k values =
      (s.readsOf sl).foldl (State.deliver ref k values) v := by
  rw [idle_answeredThere_cleared entry]
  obtain ⟨v, taken, fresh⟩ := freshValue_eq (entry_cleared s ref e s.freeCount) slot values
  refine ⟨v, ?_, taken.trans ?_⟩
  · unfold Refreshed
    simp only [setEntry_cleared, cleared_freeCount] at fresh
    exact fresh
  · rw [cleared_dec]
    rfl

/-! ## The decoder's collections at a reply (R163, R168, R169) -/

theorem refreshed_dec (fresh : Refreshed s ref e k sl values v) : v.dec = s.dec := by
  rcases fresh with ⟨-, rfl⟩ | ⟨-, reported, n, rfl, -⟩
  · exact cleared_dec ..
  · exact (State.raiseFor_dec ..).trans (cleared_dec ..)

theorem deliver_posted (ref : EntryRef) (k : Nat) (values : List Word16) (s : State) (d : Deferred) :
    (State.deliver ref k values s d).dec.posted = s.dec.posted := by
  have dropped : ∀ (t : State) (r : Option Role), (t.dropChanged ref k r).dec = t.dec := by
    intro t r
    cases r with
    | none => rfl
    | some r =>
      show (t.modEntry ref _).dec = t.dec
      unfold State.modEntry
      cases t.entry ref with
      | none => rfl
      | some e => exact State.setEntry_dec ..
  unfold State.deliver
  rw [dropped, complete_deferred]

theorem delivered_posted (ref : EntryRef) (k : Nat) (values : List Word16) (ds : List Deferred) (s : State) :
    (ds.foldl (State.deliver ref k values) s).dec.posted = s.dec.posted := by
  induction ds generalizing s with
  | nil => rfl
  | cons d ds ih => rw [List.foldl_cons, ih, deliver_posted]

/-- What a deferred request that is completed leaves (R176). -/
theorem complete_active {d : Deferred} {m : Mlu} (link : v.link d.link = some m) (active : m.busOff = false) (st : Status)
    (content : List Byte) : v.complete d st content =
      { v with dec := { v.dec with deferred := v.dec.deferred.filter fun y => !(y.link = d.link && y.tag = d.tag) }
        }.setLink d.link { m with
          buffer := m.buffer ++ contentFrames .completion (if d.value.isNone then 5 else 6) d.tag st content } := by
  unfold State.complete
  rw [State.place_active (s := v.dropDeferred d) link active]
  cases isNone : d.value.isNone <;> simp [Deferred.kindCode, isNone, State.dropDeferred] <;> rfl

/-- A deferred read answered with a fresh value: its role leaves the changed-since-read set (R162, R163, R171). -/
theorem deliver_active {d : Deferred} {m : Mlu} (link : v.link d.link = some m) (active : m.busOff = false)
    (entry : v.entry ref = some e) (slot : e.slots[k]? = some sl) (values : List Word16) :
    State.deliver ref k values v d = (v.complete d .done (byteOf values.length :: values.flatMap Word16.bytes)).setEntry
      ref (some { e with slots := e.slots.set k { sl with changed := dropBit sl.changed (roleBit m.role.role) } }) := by
  have role : v.linkRole d.link = some m.role.role := by
    unfold State.linkRole
    rw [link]
    rfl
  have stays : (v.complete d .done (valueContent values)).entry ref = some e := by
    rw [complete_active link active, entry_setLink, ← entry]
    cases ref <;> rfl
  unfold State.deliver
  rw [role]
  exact modSlot_at stays slot _

/-! ## Replies to a WRITE (R112) -/

theorem exec_write_answered (flight : s.bus.flight = some f) (inTime : f.waited ≤ 5) (alive : f.discard ≠ .teardown)
    (write : f.txn = .write ref k x owner) (reply : replyPayload f.txn.command bytes = some [a]) :
    exec (.trailerBusFrameReceived bytes first) s = .next (s.settle
      (s.idle.writeOutcome ref k x owner (decide (f.discard = .kept)) (.reply [a]))) := by
  rw [exec_frame flight inTime (by rw [write]; rfl) reply, takeReply_alone (by rw [write]; rfl),
    endFlight_write write alive]

/-- A WRITE that does not set the slot, refused or to a slot that is no setting, leaves the entry cleared (R112). -/
theorem writeOutcome_quiet (entry : s.entry ref = some e) (slot : e.slots[k]? = some sl)
    (quiet : a ≠ 1 ∨ sl.access ≠ .setting) (heard : Bool) : s.idle.writeOutcome ref k x owner heard (.reply [a]) =
      if heard then (s.cleared ref e s.freeCount).writeHeard owner x (if a = 1 then .ack else .nak)
      else s.cleared ref e s.freeCount := by
  have there : (s.cleared ref e s.freeCount).slot ref k = some sl := slot_at (entry_cleared ..) slot
  have kept : sl.access ≠ .setting → (s.cleared ref e s.freeCount).writeCache ref k x = s.cleared ref e s.freeCount := by
    intro other
    unfold State.writeCache
    rw [there]
    exact if_neg other
  unfold State.writeOutcome
  rw [show (BusOutcome.reply [a]).answer = if a = 1 then Answer.ack else .nak from rfl, idle_answeredThere_cleared entry]
  by_cases ack : a = 1
  · rw [if_pos ack]
    dsimp only
    rw [kept (quiet.resolve_left (not_not_intro ack))]
  · rw [if_neg ack]

/-- A setting that is acknowledged takes the value written, every member of a group alike (R112 (1), log 22). -/
theorem writeOutcome_set (entry : s.entry ref = some e) (slot : e.slots[k]? = some sl) (setting : sl.access = .setting)
    (heard : Bool) : ∃ v, Refreshed s ref e k sl (List.replicate sl.cache.length x) v ∧
      s.idle.writeOutcome ref k x owner heard (.reply [1]) =
        let w := (s.readsOf sl).foldl (State.deliver ref k (List.replicate sl.cache.length x)) v
        if heard then w.writeHeard owner x .ack else w := by
  obtain ⟨v, fresh, answered⟩ := freshValue_answered entry slot (List.replicate sl.cache.length x)
  have there : (s.idle.answeredThere ref).slot ref k = some sl := by
    rw [idle_answeredThere_cleared entry]
    exact slot_at (entry_cleared ..) slot
  have taken : (s.idle.answeredThere ref).writeCache ref k x =
      (s.readsOf sl).foldl (State.deliver ref k (List.replicate sl.cache.length x)) v := by
    unfold State.writeCache
    rw [there, ← answered]
    exact if_pos setting
  refine ⟨v, fresh, ?_⟩
  rw [← taken]
  rfl

/-- A posted entry settled after acts that leave the buffer alone (R168, R169 (1)). -/
theorem settlePosted_kept {p : Posted} {poster : Role} (bounded : s.bounded = true)
    (posted : v.dec.posted = s.dec.posted) (mem : p ∈ s.dec.posted) (carried : p.carried = some (x, poster)) (ok : Bool) :
    v.settlePosted p.number ok =
      if p.replaced then
        if p.lockedOut then ((v.dropPosted p.number).postedFailed ok poster).postedFailed false p.poster
        else (v.modPosted p.number fun x => { x with carried := none, replaced := false }).postedFailed ok poster
      else (v.dropPosted p.number).postedFailed ok poster := by
  rw [← posted] at mem
  refine settlePosted_carried mem carried (fun q member same => ?_) ok
  rw [posted] at mem member
  exact (bounded_keys bounded).2 q p member mem same

/-- A setting takes a value written, and the deferred reads that wait for the slot are completed (R112 (1), R163). -/
def Written (s : State) (ref : EntryRef) (e : Entry) (k : Nat) (sl : Slot) (x : Word16) (v : State) : Prop :=
  ∃ v', Refreshed s ref e k sl (List.replicate sl.cache.length x) v' ∧
    v = (s.readsOf sl).foldl (State.deliver ref k (List.replicate sl.cache.length x)) v'

theorem written_posted (written : Written s ref e k sl x v) : v.dec.posted = s.dec.posted := by
  obtain ⟨v', fresh, rfl⟩ := written
  rw [delivered_posted, refreshed_dec fresh]

section
variable (flight : s.bus.flight = some f) (inTime : f.waited ≤ 5) (alive : f.discard ≠ .teardown)
variable (reply : replyPayload f.txn.command bytes = some payload) (entry : s.entry ref = some e)
variable (slot : e.slots[k]? = some sl)
include flight inTime alive reply entry slot

theorem exec_write_unset (write : f.txn = .write ref k x owner) (one : payload = [a])
    (notSet : a ≠ 1 ∨ sl.access ≠ .setting) : exec (.trailerBusFrameReceived bytes first) s = .next (s.settle
      (if f.discard = .kept then (s.cleared ref e s.freeCount).writeHeard owner x (if a = 1 then .ack else .nak)
        else s.cleared ref e s.freeCount)) := by
  subst one
  rw [exec_write_answered flight inTime alive write reply, writeOutcome_quiet entry slot notSet]
  simp only [decide_eq_true_eq]

theorem exec_write_sets (write : f.txn = .write ref k x owner) (one : payload = [a]) (ack : a = 1)
    (setting : sl.access = .setting) : ∃ v, Written s ref e k sl x v ∧ exec (.trailerBusFrameReceived bytes first) s =
      .next (s.settle (if f.discard = .kept then v.writeHeard owner x .ack else v)) := by
  subst one ack
  obtain ⟨v, isFresh, ends⟩ := writeOutcome_set (x := x) (owner := owner) entry slot setting (decide (f.discard = .kept))
  refine ⟨_, ⟨v, isFresh, rfl⟩, ?_⟩
  rw [exec_write_answered flight inTime alive write reply, ends]
  simp only [decide_eq_true_eq]

omit alive slot in
/-- A group READ awaits a frame of each member (R111). -/
theorem exec_read_awaits {own : Option (LinkId × Byte)} {hi lo : Byte} (read : f.txn = .read ref k own)
    (two : payload = [hi, lo]) (more : f.members.length + 1 < e.run) : exec (.trailerBusFrameReceived bytes first) s =
      .next { s with bus := { s.bus with
        flight := some { f with members := f.members ++ [word16 hi lo], waited := 0 } } } := by
  subst two
  have frames : s.replyFrames f.txn = e.run := by
    rw [read, replyFrames_read entry, Nat.max_eq_right (by omega)]
  rw [exec_frame flight inTime (by rw [read]; rfl) reply, settle_takeReply_awaits frames (by omega)
    (by simpa [readValues_two] using more)]
  rfl

/-- The last frame of a READ refreshes the slot and answers its deferred reads (R111, R163). -/
theorem exec_read_whole {own : Option (LinkId × Byte)} {hi lo : Byte} (read : f.txn = .read ref k own)
    (two : payload = [hi, lo]) (whole : e.run ≤ 1 ∨ f.members.length + 1 = e.run) :
    let values := if e.run ≤ 1 then [word16 hi lo] else f.members ++ [word16 hi lo]
    ∃ v, Refreshed s ref e k sl values v ∧ exec (.trailerBusFrameReceived bytes first) s =
      .next (s.settle ((s.readsOf sl).foldl (State.deliver ref k values) v)) := by
  subst two
  intro values
  obtain ⟨v, fresh, answered⟩ := freshValue_answered entry slot values
  have frames : s.replyFrames f.txn = max 1 e.run := by rw [read, replyFrames_read entry]
  have ends : ∃ content, s.takeReply f [hi, lo] first = s.endFlight f (.reply content) first ∧
      readValues content = values := by
    by_cases single : e.run ≤ 1
    · exact ⟨[hi, lo], takeReply_alone (by omega), (if_pos single).symm⟩
    · have last : f.members.length + 1 = e.run := whole.resolve_left single
      refine ⟨_, takeReply_last frames (by omega) ?_, (readValues_bytes _).trans (if_neg single).symm⟩
      rw [List.length_append, readValues_two, List.length_singleton]
      omega
  obtain ⟨content, taken, isValues⟩ := ends
  refine ⟨v, fresh, ?_⟩
  rw [exec_frame flight inTime (by rw [read]; rfl) reply, taken, endFlight_read read alive]
  show Host.Outcome.next (s.settle ((s.idle.answeredThere ref).freshValue ref k (readValues content))) = _
  rw [isValues, answered]

/-- A deferred WRITE that sets no slot completes DONE or NODE_REFUSED (R112). -/
theorem exec_write_deferred {d : Deferred} (bounded : s.bounded = true)
    (write : f.txn = .write ref k x (.deferred d.link d.tag)) (one : payload = [a]) (mem : d ∈ s.dec.deferred)
    (kept : f.discard = .kept) (notSet : a ≠ 1 ∨ sl.access ≠ .setting) :
    exec (.trailerBusFrameReceived bytes first) s = .next (s.settle ((s.cleared ref e s.freeCount).complete d
      (if a = 1 then .done else .nodeRefused) (Word16.bytes x))) := by
  have completes : ∀ st content, (s.cleared ref e s.freeCount).completeFor (some (d.link, d.tag)) st content =
      (s.cleared ref e s.freeCount).complete d st content :=
    completeFor_deferred (by rw [cleared_dec]; exact mem) fun y member =>
      (bounded_keys bounded).1 y d (by rwa [cleared_dec] at member) mem
  rw [exec_write_unset flight inTime alive reply entry slot write one notSet, if_pos kept, ← completes]
  by_cases ack : a = 1
  · rw [if_pos ack, if_pos ack]
    rfl
  · rw [if_neg ack, if_neg ack]
    rfl

/-- A posted WRITE that is refused (R168, R169). -/
theorem exec_write_posted_nak {p : Posted} {poster : Role} (bounded : s.bounded = true)
    (write : f.txn = .write ref k x (.posted p.number)) (one : payload = [a]) (mem : p ∈ s.dec.posted)
    (carried : p.carried = some (x, poster)) (kept : f.discard = .kept) (nak : a ≠ 1) :
    exec (.trailerBusFrameReceived bytes first) s = .next (s.settle
      (let quiet := s.cleared ref e s.freeCount
      if p.replaced then
        if p.lockedOut then
          ((quiet.dropPosted p.number).raiseRole poster .postedWriteFailed).raiseRole p.poster .postedWriteFailed
        else (quiet.modPosted p.number fun x => { x with carried := none, replaced := false }).raiseRole poster
          .postedWriteFailed
      else (quiet.dropPosted p.number).raiseRole poster .postedWriteFailed)) := by
  rw [exec_write_unset flight inTime alive reply entry slot write one (.inl nak), if_pos kept, if_neg nak]
  exact next_settle_congr (settlePosted_kept bounded (congrArg Decoder.posted (cleared_dec ..)) mem carried false)

/-- A posted WRITE that is acknowledged (R168, R169). -/
theorem exec_write_posted_ack {p : Posted} {poster : Role} (bounded : s.bounded = true)
    (write : f.txn = .write ref k x (.posted p.number)) (one : payload = [a]) (mem : p ∈ s.dec.posted)
    (carried : p.carried = some (x, poster)) (kept : f.discard = .kept) (ack : a = 1) (setting : sl.access = .setting) :
    ∃ v, Written s ref e k sl x v ∧ exec (.trailerBusFrameReceived bytes first) s = .next (s.settle
      (if p.replaced then
        if p.lockedOut then (v.dropPosted p.number).raiseRole p.poster .postedWriteFailed
        else v.modPosted p.number fun x => { x with carried := none, replaced := false }
      else v.dropPosted p.number)) := by
  obtain ⟨v, written, ends⟩ := exec_write_sets flight inTime alive reply entry slot write one ack setting
  refine ⟨v, written, ?_⟩
  rw [ends, if_pos kept]
  exact next_settle_congr (settlePosted_kept bounded (written_posted written) mem carried true)

end

/-- Settles O48. -/
theorem repliesApplied : Obligations.RepliesApplied := by
  intro s f bytes payload first ref e k sl flight inTime alive reply bounded entry slot
  refine ⟨?_, ?_, ?_, ?_, ?_, ?_⟩
  · exact fun owner hi lo read two => ⟨exec_read_awaits flight inTime reply entry read two,
      exec_read_whole flight inTime alive reply entry slot read two⟩
  · intro x owner a write one off
    have unheard : f.discard ≠ .kept := by simp [off]
    refine ⟨fun notSet => ?_, fun ack setting => ?_⟩
    · refine (exec_write_unset flight inTime alive reply entry slot write one notSet).trans ?_
      rw [if_neg unheard]
      rfl
    · obtain ⟨v, written, ends⟩ := exec_write_sets flight inTime alive reply entry slot write one ack setting
      exact ⟨v, written, ends.trans (by rw [if_neg unheard])⟩
  · exact fun x d a write one mem kept notSet =>
      exec_write_deferred flight inTime alive reply entry slot bounded write one mem kept notSet
  · intro x p poster a write one mem carried kept alone
    have notReplaced : ¬p.replaced = true := by simp [alone]
    refine ⟨fun nak => ?_, fun ack setting => ?_⟩
    · refine (exec_write_posted_nak flight inTime alive reply entry slot bounded write one mem carried kept nak).trans ?_
      exact next_settle_congr (if_neg notReplaced)
    · obtain ⟨v, written, ends⟩ :=
        exec_write_posted_ack flight inTime alive reply entry slot bounded write one mem carried kept ack setting
      exact ⟨v, written, ends.trans (by rw [if_neg notReplaced])⟩
  · intro x p poster a write one mem carried kept replaced settled told
    refine ⟨fun nak => ?_, fun ack setting => ?_⟩
    · refine (exec_write_posted_nak flight inTime alive reply entry slot bounded write one mem carried kept nak).trans
        (next_settle_congr ((if_pos replaced).trans ?_))
      by_cases out : p.lockedOut = true
      · exact (if_pos out).trans (by simp only [settled, told, if_pos out]; rfl)
      · exact (if_neg out).trans (by simp only [settled, told, if_neg out]; rfl)
    · obtain ⟨v, written, ends⟩ :=
        exec_write_posted_ack flight inTime alive reply entry slot bounded write one mem carried kept ack setting
      refine ⟨v, written, ends.trans (next_settle_congr ((if_pos replaced).trans ?_))⟩
      by_cases out : p.lockedOut = true
      · exact (if_pos out).trans (by simp only [settled, told, if_pos out])
      · exact (if_neg out).trans (by simp only [settled, told, if_neg out])
  · exact fun v d m link active => ⟨fun st content => complete_active link active st content,
      fun values e' sl' entry slot => deliver_active link active entry slot values⟩

end Sys2Proof.Machine
end

section
/-! Poll reports (R109, R119 to R122): O49. -/

namespace Sys2Proof.Machine

-- One proof at a time and no linter passes: together they take more memory than the check gives.
set_option Elab.async false
set_option linter.all false

variable {s : State} {p q : Pos} {w : Watch} {present : Bool}

/-! ## What a report does (Table 6-2) -/

theorem pollReport_live (watch : s.det.watches.get (posIdx p) = some w) (behind : posBehind p = some q)
    (live : s.live q = true) (present : Bool) : s.pollReport p present =
      if present then s.setWatch p (some { w with absent := 0 })
      else if w.absent + 1 = 5 then (s.setWatch p (some { w with absent := w.absent + 1 })).teardown q
      else s.setWatch p (some { w with absent := w.absent + 1 }) := by
  rw [pollReport_eq watch, behind]
  exact if_pos live

section
variable (watch : s.det.watches.get (posIdx p) = some w) (behind : posBehind p = some q) (dead : s.live q = false)
include watch behind dead

theorem pollReport_absent (present : Bool) : s.pollReport p present = s.reportAbsent p q w present := by
  rw [pollReport_eq watch, behind]
  exact if_neg (by simp [dead])

theorem pollReport_nobody : s.pollReport p false = s.setWatch p (some { w with present := 0 }) :=
  pollReport_absent watch behind dead false

/-- Only reports from a closed segment count toward coupling (R120). -/
theorem pollReport_open (opened : w.closed = false) :
    s.pollReport p true = s.setWatch p (some { w with present := 0, absent := 0 }) := by
  rw [pollReport_absent watch behind dead]
  unfold State.reportAbsent
  dsimp only
  rw [if_pos rfl, if_neg (c := w.closed = true) (by simp [opened])]
  exact if_neg (by decide)

theorem pollReport_closed (closed : w.closed = true) : s.pollReport p true =
    if w.present = 1 then (s.setWatch p (some { w with present := 2, absent := 0 })).confirmBehind p q
    else s.setWatch p (some { w with present := w.present + 1, absent := 0 }) := by
  rw [pollReport_absent watch behind dead]
  unfold State.reportAbsent
  dsimp only
  rw [if_pos rfl, if_pos (c := w.closed = true) closed]
  by_cases second : w.present = 1
  · rw [if_pos second, second]
    rfl
  · rw [if_neg second]
    exact if_neg (by omega)

end

theorem pollReport_last (watch : s.det.watches.get (posIdx .p3) = some w) (present : Bool) :
    s.pollReport .p3 present = s.reportLast w present := by
  rw [pollReport_eq watch]
  rfl

/-- CHAIN_LIMIT is raised at the second present report in a row, once (R121). -/
theorem reportLast_present (s : State) (w : Watch) : s.reportLast w true =
    if min 2 (w.present + 1) = 2 ∧ w.held = false then
      (s.setWatch .p3 (some { w with present := 0, absent := 0, held := true })).raiseAll .chainLimit
    else s.setWatch .p3 (some { w with present := min 2 (w.present + 1), absent := 0 }) := rfl

theorem reportLast_absent (s : State) (w : Watch) : s.reportLast w false =
    if min 5 (w.absent + 1) = 5 ∧ w.held = true then
      s.setWatch .p3 (some { w with present := 0, absent := 0, held := false })
    else s.setWatch .p3 (some { w with present := 0, absent := min 5 (w.absent + 1) }) := rfl

/-! ## The position behind coupled (R120) -/

theorem confirmBehind_told (s : State) (p q : Pos) : s.told (s.confirmBehind p q) .coupled := by
  have links : (s.abandonRelearn.beginBringUp q).links = s.links := by
    show s.abandonRelearn.links = s.links
    rw [abandonRelearn_facts]
  exact told_links links (told_raiseAll (s.abandonRelearn.beginBringUp q) .coupled)

theorem confirmBehind_matrix (s : State) (p q : Pos) : (s.confirmBehind p q).matrix = s.matrix := by
  show s.abandonRelearn.matrix = s.matrix
  rw [abandonRelearn_facts]

theorem confirmBehind_pos (s : State) (p q : Pos) :
    (s.confirmBehind p q).pos q = PosRec.couple (s.abandonRelearn.pos q) := by
  show (s.abandonRelearn.modPos q PosRec.couple).pos q = _
  rw [State.pos_modPos, if_pos rfl]

theorem confirmBehind_bringUp (s : State) (p q : Pos) : (s.confirmBehind p q).det.bringUp = some { pos := q } := rfl

theorem confirmBehind_relearn (s : State) (p q : Pos) : (s.confirmBehind p q).det.relearn = none :=
  abandonRelearn_none s

theorem confirmBehind_watch (watch : s.det.watches.get (posIdx p) = some w) (q : Pos) :
    (s.confirmBehind p q).det.watches.get (posIdx p) = some { w with present := 0, absent := 0 } := by
  have kept : s.abandonRelearn.det.watches = s.det.watches :=
    congrArg (fun t => t.det.watches) (abandonRelearn_facts s)
  show (s.abandonRelearn.det.watches.set (posIdx p)
    ((s.abandonRelearn.det.watches.get (posIdx p)).map _)).get (posIdx p) = _
  rw [Tbl.get_set_self, kept, watch]
  rfl

/-- Settles O49. -/
theorem pollReportsCounted : Obligations.PollReportsCounted := by
  intro s f bytes a first p ref e w flight poll inTime alive reply repeater entry watch polled c present v u seen put
  have reports : exec c s = .next (s.settle (if s.polled p then seen.pollReport p present else seen)) := by
    rw [exec_report flight poll inTime alive reply repeater]
    have there : ({ s with bus := { s.bus with flight := none } } : State).answeredThere ref = u :=
      idle_answeredThere entry
    rw [there]
  have polledIff : s.polled p = true ↔ polled := Option.isSome_iff_ne_none
  have seenOf : ∀ {β : Type} (g : State → β), g u.grantIfIdle = g u → g seen = g u := by
    intro β g same
    cases first with
    | false => rfl
    | true => exact same
  have det : seen.det = s.det := (seenOf State.det (State.grantIfIdle_det u)).trans (State.setEntry_det ..)
  have matrix : seen.matrix = s.matrix := (seenOf State.matrix (State.grantIfIdle_matrix u)).trans (State.setEntry_matrix ..)
  have links : seen.links = s.links := (seenOf State.links (State.grantIfIdle_links u)).trans (links_setEntry ..)
  have liveSeen : ∀ q, seen.live q = s.live q := by
    intro q
    have pos : seen.pos q = s.pos q :=
      (State.pos_of_map (seenOf State.map (State.grantIfIdle_map u)) q).trans (pos_setEntry ..)
    exact congrArg (fun r : PosRec => r.state.live) pos
  have watched : seen.det.watches.get (posIdx p) = some w := by rw [det, watch]
  have report : polled → exec c s = .next (s.settle (seen.pollReport p present)) := fun isPolled => by
    rw [reports, if_pos (polledIff.2 isPolled)]
  refine ⟨fun unpolled => ?_, fun isPolled q behind live => ?_, fun isPolled q behind dead => ?_,
    fun isPolled last => ?_⟩
  · rw [reports, if_neg (mt polledIff.1 unpolled)]
  · have exec_eq := report isPolled
    rw [pollReport_live watched behind ((liveSeen q).trans live)] at exec_eq
    refine ⟨fun here => ?_, fun gone more => ?_, fun gone fourth => ?_⟩
    · exact exec_eq.trans (by rw [if_pos here]; rfl)
    · exact exec_eq.trans (by rw [if_neg (by simp [gone]), if_neg (by omega)]; rfl)
    · rw [if_neg (by simp [gone]), if_pos (by omega), fourth] at exec_eq
      refine ⟨_, ?_, exec_eq⟩
      cases p with
      | p3 => nomatch behind
      | p1 =>
        obtain rfl := Option.some.inj behind
        exact torn_behind _ rfl
      | p2 =>
        obtain rfl := Option.some.inj behind
        exact torn_behind _ rfl
  · refine ⟨fun gone => ?_, fun here opened => ?_, fun here closed more => ?_, fun here closed second => ?_⟩
    · rw [report isPolled, gone, pollReport_nobody watched behind ((liveSeen q).trans dead)]
      rfl
    · rw [report isPolled, here, pollReport_open watched behind ((liveSeen q).trans dead) opened]
      rfl
    · rw [report isPolled, here, pollReport_closed watched behind ((liveSeen q).trans dead) closed, if_neg more]
      rfl
    · obtain ⟨x, hx⟩ : ∃ x, x = seen.setWatch p (some { w with present := 2, absent := 0 }) := ⟨_, rfl⟩
      have couples : exec c s = .next (s.settle (x.confirmBehind p q)) := by
        rw [report isPolled, here, pollReport_closed watched behind ((liveSeen q).trans dead) closed, if_pos second, hx]
      have watchX : x.det.watches.get (posIdx p) = some { w with present := 2, absent := 0 } := by
        rw [hx]
        exact Tbl.get_set_self ..
      refine ⟨_, couples, ?_, ?_, ?_, ?_, ?_, ?_, ?_⟩
      · exact told_settle_of (told_links (by rw [hx]; exact links) (confirmBehind_told x p q))
      · rw [pos_settle, confirmBehind_pos]
        rfl
      · rw [pos_settle, confirmBehind_pos]
        rfl
      · rw [State.settle_det, confirmBehind_bringUp]
      · rw [State.settle_det, confirmBehind_relearn]
      · rw [State.settle_det, confirmBehind_watch watchX]
      · rw [State.settle_matrix, confirmBehind_matrix, hx]
        exact matrix
  · subst last
    intro n k
    have last : exec c s = .next (s.settle (seen.reportLast w present)) := by
      rw [report isPolled, pollReport_last watched]
    refine ⟨fun here second free => ?_, fun here held => ?_, fun gone fifth held => ?_, fun gone free => ?_⟩
    · rw [last, here, reportLast_present, if_pos ⟨second, free⟩]
      rfl
    · rw [last, here, reportLast_present, if_neg fun both => held.elim (· both.1) (by simp [both.2])]
      rfl
    · rw [last, gone, reportLast_absent, if_pos ⟨fifth, held⟩]
      rfl
    · rw [last, gone, reportLast_absent, if_neg fun both => free.elim (· both.1) (by simp [both.2])]
      rfl

end Sys2Proof.Machine
end

section
/-! The end of the position-1 debounce and the coupling of position 1 (R115 to R118): O51. -/

namespace Sys2Proof.Machine

-- One proof at a time and no linter passes: together they take more memory than the check gives.
set_option Elab.async false
set_option linter.all false

variable {s : State} {p : Profile} {c : ChanId}

/-! ## Before position 1 couples (R123) -/

/-- With position 1 ABSENT nothing is in bring-up and no probe is held (R61, R123, R124). -/
theorem idle_of_dead (chain : s.chainLaw = true) (dead : s.live .p1 = false) :
    s.det.bringUp = none ∧ s.bank.probe = none := by
  obtain ⟨second, third, -, bringUp, probe⟩ := chain_iff.1 chain
  have ready_live : ∀ p, s.ready p = true → s.live p = true := by
    intro p ready
    unfold State.ready at ready
    unfold State.live
    cases state : (s.pos p).state <;> simp_all [PosState.ready, PosState.live]
  have nobody : ∀ p, s.live p = false := by
    have p2 : s.live .p2 = false := Bool.eq_false_iff.2 fun live => by
      rw [ready_live .p1 (second live)] at dead
      cases dead
    intro p
    cases p with
    | p1 => exact dead
    | p2 => exact p2
    | p3 =>
      refine Bool.eq_false_iff.2 fun live => ?_
      rw [ready_live .p2 (third live)] at p2
      cases p2
  constructor
  · refine Option.eq_none_iff_forall_ne_some.2 fun b held => ?_
    have inBringUp := bringUp b held
    have absent : (s.pos b.pos).state.live = false := nobody b.pos
    cases state : (s.pos b.pos).state <;> simp_all [PosState.inBringUp, PosState.live]
  · refine Option.eq_none_iff_forall_ne_some.2 fun q held => ?_
    have live := probe q held
    rw [nobody] at live
    cases live

/-! ## Position 1 coupled (R117) -/

theorem connect_channels (noBringUp : s.det.bringUp = none) (p : Profile) : ∃ chans : Tbl Channel 12,
    s.connect p = { s with matrix := { s.matrix with active := p }, bank := { s.bank with channels := chans } } ∧
    ∀ c, ∃ on, chans.get c = if routes p c = true then (s.chan c).connect on else s.chan c := by
  obtain ⟨chans, connected, chanOf⟩ :=
    connect_list p allChans (by decide) { s with matrix := { s.matrix with active := p } } noBringUp rfl
  refine ⟨chans, connected, fun c => ⟨_, (chanOf c).trans (ite_congr (propext ?_) (fun _ => rfl) fun _ => rfl)⟩⟩
  have all : c ∈ allChans := by revert c; decide
  exact and_iff_right all

/-- Without a probe the demands are handed over and nothing else (R149). -/
theorem formDemand_unprobed (noProbe : s.bank.probe = none) :
    s.formDemand = allChans.foldl (State.handDemand s) s.stepFlashers := by
  have noChan : s.probeChan = none := by
    unfold State.probeChan
    rw [noProbe]
    rfl
  unfold State.formDemand
  rw [noChan]

/-- Coupling of position 1 confirmed, before the broadcasts are claimed and stages are passed (R117). -/
def State.coupleFirst (s : State) (p : Profile) : State :=
  (((s.connect p).beginBringUp .p1).setCoupling true).raiseAll .coupled

theorem confirmFirst_eq (s : State) (p : Profile) :
    s.confirmFirst p = (s.coupleFirst p).claimBroadcasts.skipStages .p1 := rfl

/-- What the coupling of position 1 leaves (R37, R117, R149). -/
structure CoupledFirst (s t : State) (p : Profile) : Prop where
  told : s.told t .coupled
  matrix : t.matrix = { s.matrix with active := p }
  debounce : t.det.debounce = s.det.debounce
  coupling : t.det.couplingDemand = true
  bringUp : t.det.bringUp = some { pos := .p1 }
  position : t.pos .p1 = { s.pos .p1 with state := .powering, coupledSeconds := 0, secondMs := 0 }
  bus : t.bus = s.bus
  demand : ∀ c, (t.chan c).demand = demandOf s.effective true c
  drives : ∀ c, (s.chan c).state = .off → ((t.chan c).state = .drive ↔
    routes p c = true ∧ demandOf s.effective true c ≠ .off)

theorem coupleFirst_coupled (noBringUp : s.det.bringUp = none) (noProbe : s.bank.probe = none) :
    CoupledFirst s (s.coupleFirst p) p := by
  obtain ⟨chans, connected, chanOf⟩ := connect_channels noBringUp p
  obtain ⟨x, hx⟩ : ∃ x : State, x = { (s.connect p).beginBringUp .p1 with
    det := { ((s.connect p).beginBringUp .p1).det with couplingDemand := true } } := ⟨_, rfl⟩
  rw [connected] at hx
  have matrix : x.matrix = { s.matrix with active := p } := by rw [hx]; rfl
  have debounce : x.det.debounce = s.det.debounce := by rw [hx]; rfl
  have coupling : x.det.couplingDemand = true := by rw [hx]
  have bringUp : x.det.bringUp = some { pos := .p1 } := by rw [hx]; rfl
  have bus : x.bus = s.bus := by rw [hx]; rfl
  have links : x.links = s.links := by rw [hx]; rfl
  have light : x.light = s.light := by rw [hx]; rfl
  have chan : ∀ c, x.chan c = chans.get c := fun c => by rw [hx]; rfl
  have position : x.pos .p1 = { s.pos .p1 with state := .powering, coupledSeconds := 0, secondMs := 0 } := by
    rw [hx]
    exact State.pos_setPos_self ..
  have newDemand : ∀ c, x.newDemand c = demandOf s.effective true c := by
    intro c
    unfold State.newDemand State.effective State.serviceCounted State.bench
    rw [light, links, coupling]
  obtain ⟨t, ht⟩ : ∃ t, t = allChans.foldl (State.handDemand x) x.stepFlashers := ⟨_, rfl⟩
  have coupled : s.coupleFirst p = t.raiseAll .coupled := by
    rw [ht, ← formDemand_unprobed (by rw [hx]; exact noProbe), hx]
    unfold State.coupleFirst
    rw [connected]
    rfl
  obtain ⟨handed, -, handedChan⟩ := handDemands x allChans (by decide) x.stepFlashers
  have stays := handed_bringUp x (b := { pos := .p1 }) rfl allChans x.stepFlashers bringUp
  rw [← ht] at handed handedChan stays
  rw [coupled]
  have chanT : ∀ c, (t.raiseAll .coupled).chan c = if demandOf s.effective true c = (x.chan c).demand then x.chan c
      else (x.chan c).acceptDemand (routes p c) (x.wantsOn (x.chan c).demand)
        (x.stepFlashers.wantsOn (demandOf s.effective true c)) (demandOf s.effective true c) := by
    intro c
    have all : c ∈ allChans := by revert c; decide
    have routed : x.stepFlashers.routed c = routes p c := by
      show routes x.matrix.active c = _
      rw [matrix]
    refine (handedChan c all).trans ?_
    rw [routed, newDemand]
    rfl
  refine ⟨?_, ?_, ?_, ?_, ?_, ?_, ?_, ?_, ?_⟩
  · exact told_links (handed.links.trans links) (told_raiseAll t .coupled)
  · exact handed.matrix.trans matrix
  · exact handed.detector.2.1.trans debounce
  · exact handed.detector.2.2.1.trans coupling
  · exact stays
  · exact (State.pos_of_map handed.map .p1).trans position
  · exact handed.bus.trans bus
  · intro c
    rw [chanT]
    split
    · next same => exact same.symm
    · exact (acceptDemand_held ..).2
  · intro c off
    obtain ⟨on, get⟩ := chanOf c
    rw [chanT]
    exact off_connected (routes p c) on _ _ _ (s.chan c) (x.chan c) off ((chan c).trans get)

/-- A claim that waits alone is granted on an idle bus (R96). -/
theorem grantIfIdle_lone {x : Txn} (routed : s.matrix.active = .l ∨ s.matrix.active = .d) (idle : s.bus.flight = none)
    (noClass1 : s.bus.class1 = []) (alone : s.bus.class2 = [x]) : s.grantIfIdle.bus.flight =
      some { txn := x, frame := ({ s with bus := { s.bus with class2 := [] } } : State).requestOf x } := by
  rw [grantIfIdle_idle routed idle]
  unfold State.grant
  rw [noClass1, alone]
  rfl

section
variable {u : State} (coupled : CoupledFirst s u p)
include coupled

/-- Without CH9 and the data pair the stages before MEASURING are passed at once (R124). -/
theorem skipStages_unrouted (profile : p = .s) :
    u.claimBroadcasts.skipStages .p1 = u.enterMeasuring .p1 := by
  have data : u.dataRouted = false := by
    unfold State.dataRouted
    rw [coupled.matrix, profile]
    rfl
  have ch9 : u.routed 9 = false := by
    unfold State.routed
    rw [coupled.matrix, profile]
    rfl
  have unclaimed : u.claimBroadcasts = u := if_neg (by simp [data])
  rw [unclaimed]
  exact (if_neg (by simp [ch9])).trans (if_neg (by simp [data]))

/-- Under L and D the position is POWERING and ADDRESS_RESET is claimed (R117 (6)). -/
theorem skipStages_routed (profile : p = .l ∨ p = .d) : u.claimBroadcasts.skipStages .p1 =
    { u with
      det := { u.det with bringUp := some { pos := .p1, broadcasts := 2 } }
      bus := { u.bus with class2 := u.bus.class2 ++ [.addressReset] } } := by
  have data : u.dataRouted = true := (routesData_iff _).2 (by rw [coupled.matrix]; exact profile)
  have claimed : u.claimBroadcasts = { u with
      det := { u.det with bringUp := some { pos := .p1, broadcasts := 2 } }
      bus := { u.bus with class2 := u.bus.class2 ++ [.addressReset] } } := by
    refine (if_pos data).trans ?_
    unfold State.modBringUp
    rw [coupled.bringUp]
    rfl
  rw [claimed]
  refine if_pos ?_
  show routes u.matrix.active 9 = true
  rw [coupled.matrix]
  rcases profile with rfl | rfl <;> rfl

end

/-- Settles O51. -/
theorem debounceEnds : Obligations.DebounceEnds := by
  intro s chain
  refine ⟨fun idle => ?_, fun d debounce expired => ?_⟩
  · show execPosition1DebounceExpiry s = _
    unfold execPosition1DebounceExpiry
    rw [idle]
  have exec_eq : exec .position1DebounceExpiry s = .next (s.settle (s.debounceOver d.candidate)) := by
    show execPosition1DebounceExpiry s = _
    unfold execPosition1DebounceExpiry
    rw [debounce]
    dsimp only
    rw [State.await_of_le expired]
  obtain ⟨v, hv⟩ : ∃ v, v = s.stopDebounce := ⟨_, rfl⟩
  have chainV : v.chainLaw = true := by rw [hv]; exact chain
  have liveV : v.live .p1 = s.live .p1 := by rw [hv]; rfl
  refine ⟨fun live => ?_, fun dead noProfile => ?_, fun dead profile => ?_⟩
  · refine ⟨v.teardown .p1, ?_, exec_eq.trans ?_⟩
    · have torn := torn_first chainV (liveV.trans live)
      rw [hv] at torn ⊢
      exact torn
    · unfold State.debounceOver
      rw [← hv]
      exact congrArg (fun t => Host.Outcome.next (s.settle t)) (if_pos (liveV.trans live))
  · rw [exec_eq]
    unfold State.debounceOver
    dsimp only
    rw [← hv, if_neg (by simp [liveV, dead]), if_pos noProfile, hv]
    exact next_settle rfl
  · have confirms : exec .position1DebounceExpiry s = .next (s.settle (v.confirmFirst d.candidate)) := by
      rw [exec_eq]
      unfold State.debounceOver
      dsimp only
      rw [← hv, if_neg (by simp [liveV, dead]), if_neg profile]
    obtain ⟨noBringUp, noProbe⟩ := idle_of_dead chainV (liveV.trans dead)
    obtain ⟨u, hu⟩ : ∃ u, u = v.coupleFirst d.candidate := ⟨_, rfl⟩
    have coupled := coupleFirst_coupled (p := d.candidate) noBringUp noProbe
    rw [confirmFirst_eq, ← hu] at confirms
    rw [← hu] at coupled
    have toldV : v.told u .coupled := coupled.told
    have linksV : v.links = s.links := by rw [hv]; rfl
    have effectiveV : v.effective = s.effective := by rw [hv]; rfl
    have liveU : u.live .p1 = true := by
      unfold State.live
      rw [coupled.position]
      rfl
    by_cases isS : d.candidate = .s
    · rw [skipStages_unrouted coupled isS] at confirms
      obtain ⟨w, hw⟩ : ∃ w, w = u.enterMeasuring .p1 := ⟨_, rfl⟩
      have calm : Calm u w := by
        rw [hw]
        exact calm_measure .p1 liveU allLamps (calm_modPos (Calm.refl u) .p1 (.inl ⟨liveU, fun _ => rfl⟩))
      have measured := measured_measure .p1 allLamps (u.modPos .p1 (PosRec.stage .measuring))
        (.inl (by rw [State.pos_modPos, if_pos rfl]; rfl))
      obtain ⟨louder, inMeasuring⟩ : Louder u w ∧ Measured (w.pos .p1).state := by
        rw [hw]
        exact ⟨(louder_of_links rfl).trans measured.1, measured.2⟩
      rw [← hw] at confirms
      refine ⟨_, confirms, ?_, ?_, ?_, ?_, fun c => ?_, fun _ => ?_, fun notS => absurd isS notS⟩
      · refine told_settle_of (told_links linksV ?_)
        intro l m link interest
        obtain ⟨m', atU, pending⟩ := toldV l m link interest
        obtain ⟨m'', atW, keeps⟩ := louder l m' atU
        exact ⟨m'', atW, keeps _ pending⟩
      · rw [State.settle_matrix, calm.matrix, coupled.matrix, hv]
        rfl
      · rw [State.settle_det, calm.debounce, coupled.debounce, hv]
        rfl
      · rw [State.settle_det, calm.coupling, coupled.coupling]
      · rw [chan_settle, calm.demand, coupled.demand, effectiveV]
      · rw [pos_settle]
        exact inMeasuring
    · have routed : d.candidate = .l ∨ d.candidate = .d := by
        cases held : d.candidate <;> simp_all
      rw [skipStages_routed coupled routed] at confirms
      refine ⟨_, confirms, ?_, ?_, ?_, ?_, fun c => ?_, fun h => absurd h isS, fun _ => ⟨?_, ?_, ?_, fun c off => ?_⟩⟩
      · exact told_settle_of (told_links linksV toldV)
      · rw [State.settle_matrix]
        exact coupled.matrix.trans (by rw [hv]; rfl)
      · rw [State.settle_det]
        exact coupled.debounce.trans (by rw [hv]; rfl)
      · rw [State.settle_det]
        exact coupled.coupling
      · rw [chan_settle]
        exact (coupled.demand c).trans (by rw [effectiveV])
      · rw [pos_settle]
        exact coupled.position.trans (by rw [hv]; rfl)
      · rw [State.settle_det]
      · intro idle none1 none2
        have bus : u.bus = s.bus := coupled.bus.trans (by rw [hv]; rfl)
        have active : u.matrix.active = .l ∨ u.matrix.active = .d := by
          rw [coupled.matrix]
          exact routed
        unfold State.settle
        rw [State.finish_bus]
        exact grantIfIdle_lone active (by rw [← idle, ← bus]) (by rw [← none1, ← bus]) (by rw [bus, none2]; rfl)
      · rw [chan_settle]
        refine (coupled.drives c (by rw [hv]; exact off)).trans ?_
        rw [effectiveV]

end Sys2Proof.Machine
end

section
/-! MAP_REBUILD and PROFILE_FORCE (R31, R41, R42, R139): O52. -/

namespace Sys2Proof.Machine

-- One proof at a time and no linter passes: together they take more memory than the check gives.
set_option Elab.async false
set_option linter.all false

variable {s v : State} {l : LinkId} {m : Mlu} {f : List Byte} {rest : List (List Byte)} {b : Byte} {x : Forced}

/-- Contents are those of a state's matrix (R41, Table 10-2). -/
def contentOf (x : Forced) (ka kb : Bool) (active : Profile) : List Byte :=
  [byteOf x.code, byteOf (bit ka + 2 * bit kb), byteOf (decodeProfile ka kb).code, byteOf active.code]

theorem profileContent_eq (s : State) : s.profileContent =
    contentOf s.matrix.forced s.matrix.kaGrounded s.matrix.kbGrounded s.matrix.active := rfl

theorem ofCode_none (outside : 4 ≤ b.toNat) : Forced.ofCode b = none := by
  unfold Forced.ofCode
  split <;> first | rfl | omega

theorem ofCode_code (code : b.toNat = x.code) : Forced.ofCode b = some x := by
  unfold Forced.ofCode
  rw [code]
  cases x <;> rfl

/-! ## MAP_REBUILD (R31, R139) -/

theorem exec_mapRebuild (head : Head s l m f rest .mapRebuild) (service : m.role = .service ∨ m.role = .bench) :
    exec (.mapRebuild l) s = .next (s.settle
      ((s.setLink l { m with queue := rest }).rebuild.answer l .mapRebuild (byteAt f 1) .ok [])) := by
  have may : roleMay m.role .mapRebuild = true := by
    rcases service with h | h <;> rw [h] <;> rfl
  show Host.Outcome.next (s.settle (s.serve l .mapRebuild _)) = _
  rw [serve_take head (k := .mapRebuild) rfl may]

/-- A Map Rebuild tears down a live position 1, prunes the Node Table and starts detection again (R139). -/
theorem rebuild_live (live : v.live .p1 = true) : v.rebuild = (v.teardown .p1).prune.restartDetection := by
  unfold State.rebuild
  rw [if_pos live]

theorem rebuild_absent (dead : v.live .p1 = false) : v.rebuild = v.prune.restartDetection := by
  unfold State.rebuild
  rw [if_neg (by simp [dead])]

/-! ## PROFILE_FORCE (R41, R42) -/

theorem exec_profileForce (head : Head s l m f rest (.profileForce b)) (service : m.role = .service ∨ m.role = .bench) :
    exec (.profileForce l) s = .next (s.settle
      ((s.setLink l { m with queue := rest }).profileForce l (byteAt f 1) b)) := by
  have may : roleMay m.role .profileForce = true := by
    rcases service with h | h <;> rw [h] <;> rfl
  show Host.Outcome.next (s.settle (s.serve l .profileForce _)) = _
  rw [serve_take head (k := .profileForce) rfl may]

/-- The forced setting taken, before the code is formed again (R41). -/
def State.forcing (s : State) (x : Forced) : State := { s with matrix := { s.matrix with forced := x } }

/-- The effective code the forced setting gives. -/
def State.forcedCode (s : State) (x : Forced) : Profile := effectiveOf x s.matrix.kaGrounded s.matrix.kbGrounded

theorem force_same (same : v.forcedCode x = v.det.effective) : v.force x = v.forcing x := if_pos same

theorem force_change (change : v.forcedCode x ≠ v.det.effective)
    (stays : v.live .p1 = false ∨ v.forcedCode x = v.matrix.active ∨ v.forcedCode x = .none) :
    v.force x = (v.forcing x).codeChange (v.forcedCode x) := by
  refine (if_neg change).trans (if_neg ?_)
  rintro ⟨live, other, code⟩
  rcases stays with dead | same | no
  · exact absurd (live.symm.trans dead) (by decide)
  · exact other same
  · exact code no

theorem force_torn (change : v.forcedCode x ≠ v.det.effective) (live : v.live .p1 = true)
    (other : v.forcedCode x ≠ v.matrix.active) (profile : v.forcedCode x ≠ .none) : v.force x =
      ({ v.forcing x with det := { v.det with effective := v.forcedCode x } } : State).teardown .p1 :=
  (if_neg change).trans (if_pos ⟨live, other, profile⟩)

/-- The matrix after a teardown from position 1: no profile is active (R134 (1)). -/
theorem torn_matrix {t : State} (torn : Torn .p1 v t) : t.matrix = { v.matrix with active := .none } := by
  obtain ⟨a, w, taken, rfl, ended⟩ := torn
  have whole := congrArg State.matrix (ended : FirstEnded a w).whole
  exact whole.trans (by rw [taken.rest.2.1])

/-- Settles O52. -/
theorem rebuildAndForce : Obligations.RebuildAndForce := by
  intro l s m f rest r head service chain
  obtain ⟨v, hv⟩ : ∃ v, v = s.setLink l { m with queue := rest } := ⟨_, rfl⟩
  have liveV : v.live .p1 = s.live .p1 := by rw [hv, live_setLink]
  have chainV : v.chainLaw = true := by rw [hv, chainLaw_setLink, chain]
  have matrixV : v.matrix = s.matrix := by rw [hv, State.setLink_matrix]
  have detV : v.det = s.det := by rw [hv, State.setLink_det]
  constructor
  · rintro rfl
    have exec_eq := exec_mapRebuild head service
    rw [← hv] at exec_eq
    refine ⟨fun dead => ?_, fun live => ?_⟩
    · have rebuilt := rebuild_absent (liveV.trans dead)
      rw [rebuild_dead (liveV.trans dead)] at rebuilt
      rw [exec_eq, rebuilt, hv]
      rfl
    · have torn := torn_teardown chainV (liveV.trans live)
      have rebuilt := rebuild_live (liveV.trans live)
      rw [rebuild_dead (torn_dead torn)] at rebuilt
      refine ⟨v.teardown .p1, hv ▸ torn, ?_⟩
      rw [exec_eq, rebuilt]
      rfl
  · rintro b rfl
    have exec_eq := exec_profileForce head service
    rw [← hv] at exec_eq
    unfold State.profileForce at exec_eq
    refine ⟨fun outside => ?_, fun x code => ?_⟩
    · rw [exec_eq, ofCode_none outside, hv]
    rw [ofCode_code (x := x) (code.trans (by cases x <;> rfl))] at exec_eq
    dsimp only at exec_eq
    have done : ∀ (t : State) (active : Profile), v.force x = t → t.matrix = { v.matrix with forced := x, active := active } →
        exec (.profileForce l) s = .next (s.settle (t.answer l .profileForce (byteAt f 1) .ok
          (contentOf x s.matrix.kaGrounded s.matrix.kbGrounded active))) := by
      intro t active becomes matrix
      rw [exec_eq, becomes, profileContent_eq, matrix, ← matrixV]
    have codeV : v.forcedCode x = effectiveOf x s.matrix.kaGrounded s.matrix.kbGrounded := by
      unfold State.forcedCode
      rw [matrixV]
    have same_iff : v.forcedCode x = v.det.effective ↔
        effectiveOf x s.matrix.kaGrounded s.matrix.kbGrounded = s.det.effective := by rw [codeV, detV]
    have active_iff : v.forcedCode x = (v.forcing x).matrix.active ↔
        effectiveOf x s.matrix.kaGrounded s.matrix.kbGrounded = s.matrix.active := by
      show v.forcedCode x = v.matrix.active ↔ _
      rw [codeV, matrixV]
    have unchanged : ({ v.matrix with forced := x } : ContactMatrix) =
        { v.matrix with forced := x, active := s.matrix.active } := by rw [matrixV]
    refine ⟨fun same => ?_, fun change same live => ?_, fun change other live noCode => ?_, fun change dead => ?_,
      fun change other live profile => ?_⟩
    · have exec_eq := done _ _ (force_same (same_iff.2 same)) unchanged
      subst hv
      exact exec_eq
    · have becomes := force_change (mt same_iff.1 change) (.inr (.inl (active_iff.2 same)))
      rw [codeChange_live (u := v.forcing x) (liveV.trans live), if_pos (active_iff.2 same), codeV] at becomes
      have exec_eq := done _ _ becomes unchanged
      subst hv
      exact exec_eq
    · have becomes := force_change (mt same_iff.1 change) (.inr (.inr (codeV.trans noCode)))
      rw [codeChange_live (u := v.forcing x) (liveV.trans live), if_neg (mt active_iff.1 other),
        if_pos (codeV.trans noCode), codeV, ← noCode] at becomes
      have exec_eq := done _ _ becomes unchanged
      subst hv
      exact exec_eq
    · have becomes := force_change (mt same_iff.1 change) (.inl (liveV.trans dead))
      rw [codeChange_dead (u := v.forcing x) (liveV.trans dead), codeV] at becomes
      have exec_eq := done _ _ becomes unchanged
      subst hv
      exact exec_eq
    · have becomes := force_torn (mt same_iff.1 change) (liveV.trans live) (mt active_iff.1 other)
        (fun noCode => profile (codeV.symm.trans noCode))
      obtain ⟨w, hw⟩ : ∃ w : State, w = { v.forcing x with det := { v.det with effective := v.forcedCode x } } := ⟨_, rfl⟩
      rw [← hw] at becomes
      have torn : Torn .p1 w (w.teardown .p1) := by
        refine torn_teardown ?_ ?_
        · rw [hw]
          exact chainV
        · rw [hw]
          exact liveV.trans live
      have exec_eq := done _ .none becomes (by rw [torn_matrix torn, hw]; rfl)
      refine ⟨w.teardown .p1, ?_, exec_eq⟩
      have coded : w = { v.forcing x with det := { v.det with
          effective := effectiveOf x s.matrix.kaGrounded s.matrix.kbGrounded, debounce := s.det.debounce } } := by
        rw [hw, codeV, ← detV]
      subst hv
      rw [coded] at torn ⊢
      exact torn

end Sys2Proof.Machine
end

section
/-! The search (R99 to R102): O53 and O54. -/

namespace Sys2Proof.Machine

-- One proof at a time and no linter passes: together they take more memory than the check gives.
set_option Elab.async false
set_option linter.all false

variable {s : State} {f : InFlight} {c : Instr} {b : BringUp} {bits : Word32} {len : Nat} {id : Word32} {o : BusOutcome}

/-! ## The outcome of a DISCOVER (R94, R99, R100) -/

theorem exec_search_replies {payload : List Byte} (flight : s.bus.flight = some f) (search : f.txn = .search bits len)
    (kept : f.discard = .kept) (replies : Replies f c payload) :
    exec c s = .next (s.settle (s.idle.searchOutcome bits len (.reply payload))) := by
  rw [exec_replies flight replies (by rw [search]; rfl) (by rw [search]; rfl) kept (by simp [search]), search]
  rfl

theorem exec_search_fails (flight : s.bus.flight = some f) (search : f.txn = .search bits len) (kept : f.discard = .kept)
    (repeated : f.repeated = true) (fails : Fails f c) : exec c s = .next (s.settle
      (if c = .responseTimeout then s.idle.bringUpNext else s.idle.splitItem bits len)) := by
  obtain ⟨o, kind, exec_eq⟩ := exec_failed flight repeated fails (by rw [search]; rfl) kept (by simp [search])
  rw [exec_eq, search]
  rcases kind with ⟨rfl, frame⟩ | ⟨rfl, timeout⟩
  · rw [if_neg frame]
    rfl
  · rw [if_pos timeout]
    rfl

/-- A reply fits a DISCOVER where it begins with the prefix and carries a lawful run (R100). -/
theorem fits_iff_discovered (id bits : Word32) (len : Nat) (run : Byte) :
    (beginsWith id bits len = true ∧ runOk run.toNat = true) ↔
      (∀ n, n < len → id.getLsbD (31 - n) = bits.getLsbD (31 - n)) ∧
        (run = 0 ∨ run = 2 ∨ run = 4 ∨ run = 8 ∨ run = 16) :=
  and_congr (beginsWith_iff ..) (runOk_iff run)

theorem searchOutcome_fits {a3 a2 a1 a0 run : Byte} (fits : beginsWith (word32 a3 a2 a1 a0) bits len = true ∧
    runOk run.toNat = true) :
    s.searchOutcome bits len (.reply [a3, a2, a1, a0, run]) = s.found (word32 a3 a2 a1 a0) run.toNat := by
  have drawn : (BusOutcome.reply [a3, a2, a1, a0, run]).discovered bits len =
      (.reply [a3, a2, a1, a0, run], word32 a3 a2 a1 a0, run.toNat) := if_pos fits
  unfold State.searchOutcome
  rw [drawn]

theorem searchOutcome_unfit {a3 a2 a1 a0 run : Byte} (unfit : ¬(beginsWith (word32 a3 a2 a1 a0) bits len = true ∧
    runOk run.toNat = true)) : s.searchOutcome bits len (.reply [a3, a2, a1, a0, run]) = s.splitItem bits len := by
  have drawn : (BusOutcome.reply [a3, a2, a1, a0, run]).discovered bits len = (.garbled, 0, 0) := if_neg unfit
  unfold State.searchOutcome
  rw [drawn]

theorem splitItem_short (bringUp : s.det.bringUp = some b) (short : len < 32) : s.splitItem bits len =
    { s.claims2 (.search bits (len + 1)) with bus := { (s.claims2 (.search bits (len + 1))).bus with
      stack := ⟨bits ||| BitVec.twoPow 32 (31 - len), len + 1⟩ :: s.bus.stack } } := by
  unfold State.splitItem
  rw [if_pos short]
  exact conflict_on (u := { s with bus := { s.bus with
    stack := ⟨bits, len + 1⟩ :: ⟨bits ||| BitVec.twoPow 32 (31 - len), len + 1⟩ :: s.bus.stack } }) bringUp rfl

theorem splitItem_full (bringUp : s.det.bringUp = some b) : s.splitItem bits 32 =
    (s.addReason b.pos .idConflict).bringUpNext := by
  unfold State.splitItem
  rw [if_neg (by decide), bringUpReason_eq bringUp]

/-! ## A single node found (R23, R100, R101) -/

theorem findGroup_live (s : State) (id : Word32) :
    (s.findGroup (holdsIdLive id)).isSome = true ↔ ∃ j, HasIdLive id (s.entry (.group j)) :=
  find_any (entry := fun j => s.entry (.group j)) (holdsIdLive_iff id)

theorem findSingle_live (s : State) (id : Word32) :
    (s.findSingle (holdsIdLive id)).isSome = true ↔ ∃ i, HasIdLive id (s.entry (.single i)) :=
  find_any (entry := fun i => s.entry (.single i)) (holdsIdLive_iff id)

/-- The lowest free address of the single nodes (R101 (2)). -/
def State.lowestFree (s : State) (n : Nat) : Prop :=
  1 ≤ n ∧ n ≤ 95 ∧ ¬(∃ i e, s.entry (.single i) = some e ∧ e.live = true ∧ e.addr = n) ∧
    ∀ k, 1 ≤ k → k < n → ∃ i e, s.entry (.single i) = some e ∧ e.live = true ∧ e.addr = k

theorem lowestAddress_lowest {n : Nat} (lowest : s.lowestFree n) : s.lowestAddress = n := by
  obtain ⟨low, high, free, below⟩ := lowest
  exact lowestAddress_eq low high (mt (addressHeld_iff s n).1 free) fun k one less =>
    (addressHeld_iff s k).2 (below k one less)

theorem chooseAddress_own {a n : Nat}
    (choice : (a = n ∧ ¬∃ i e, s.entry (.single i) = some e ∧ e.live = true ∧ e.addr = n) ∨
      ((∃ i e, s.entry (.single i) = some e ∧ e.live = true ∧ e.addr = a) ∧ s.lowestFree n)) :
    s.chooseAddress (some a) = n := by
  rcases choice with ⟨rfl, free⟩ | ⟨held, lowest⟩
  · exact if_neg (mt (addressHeld_iff s a).1 free)
  · exact (if_pos ((addressHeld_iff s a).2 held)).trans (lowestAddress_lowest lowest)

theorem foundSingle_conflict (bringUp : s.det.bringUp = some b) (group : ∃ j, HasIdLive id (s.entry (.group j))) :
    s.foundSingle id = (s.addReason b.pos .idConflict).bringUpNext := by
  unfold State.foundSingle
  rw [if_pos ((findGroup_live s id).2 group), bringUpReason_eq bringUp]

theorem foundSingle_stale {i : SingleId} {e : Entry} {n : Nat} (noGroup : ¬∃ j, HasIdLive id (s.entry (.group j)))
    (own : FirstWith (fun i => s.entry (.single i)) (HasId id) i) (entry : s.entry (.single i) = some e)
    (stale : e.live = false) (address : s.chooseAddress (some e.addr) = n) : s.foundSingle id = s.claims2 (.place
      { ref := .single i, nodeId := id, addr := n, run := 0, reuse := true, victim := false, clearUsed := false }) := by
  have found : s.findSingle (holdsId id) = some i := find_firstWith (holdsId_iff id) own
  have addr : s.addrOf (.single i) = e.addr := by
    unfold State.addrOf
    rw [entry]
    rfl
  unfold State.foundSingle
  rw [if_neg (mt (findGroup_live s id).1 noGroup), found]
  dsimp only
  rw [entry, if_neg (by simp [stale]), addr, address]
  rfl

section
variable (noGroup : ¬∃ j, HasIdLive id (s.entry (.group j))) (unknown : ∀ i, ¬HasId id (s.entry (.single i)))
include noGroup unknown

theorem foundSingle_chosen {i : SingleId} {n : Nat} {victim clear : Bool}
    (chosen : Chosen (fun i => s.entry (.single i)) i victim clear) (lowest : s.lowestFree n) :
    s.foundSingle id = s.claims2 (.place
      { ref := .single i, nodeId := id, addr := n, run := 0, reuse := false, victim := victim, clearUsed := clear }) := by
  have found : s.findSingle (holdsId id) = none := find_noneWith (holdsId_iff id) unknown
  have picked : pickEntry (s.findSingle invalidEntry) (s.findSingle unusedVictim) (s.findSingle anyVictim) =
      some (i, victim, clear) := pick_chosen chosen
  have address : s.chooseAddress none = n := lowestAddress_lowest lowest
  unfold State.foundSingle
  rw [if_neg (mt (findGroup_live s id).1 noGroup), found]
  dsimp only
  rw [picked, address]
  rfl

theorem foundSingle_noneLeft (bringUp : s.det.bringUp = some b)
    (full : NoneLeft fun i => s.entry (.single i)) :
    s.foundSingle id = ((s.addReason b.pos .mapFull).raiseAll .mapFull).bringUpNext := by
  have found : s.findSingle (holdsId id) = none := find_noneWith (holdsId_iff id) unknown
  have picked : pickEntry (s.findSingle invalidEntry) (s.findSingle unusedVictim) (s.findSingle anyVictim) = none :=
    pick_noneLeft full
  unfold State.foundSingle
  rw [if_neg (mt (findGroup_live s id).1 noGroup), found]
  dsimp only
  rw [picked]
  dsimp only
  unfold State.notEntered
  rw [bringUpReason_eq bringUp]

end

/-- Settles O53. -/
theorem searchPlaces : Obligations.SearchPlaces := by
  intro s f c b bits len flight search kept bringUp bound goesOn claims splits
  have split : exec c s = .next (s.settle (s.idle.splitItem bits len)) → splits := by
    intro exec_eq
    refine ⟨fun short => ?_, fun full => ?_⟩
    · rw [splitItem_short (s := s.idle) bringUp short] at exec_eq
      exact exec_eq.trans (next_settle rfl)
    · subst full
      rwa [splitItem_full (s := s.idle) bringUp] at exec_eq
  refine ⟨fun repeated timeout late => ?_, fun repeated fails frame => ?_, ?_⟩
  · have exec_eq := exec_search_fails flight search kept repeated (.inr ⟨timeout, late⟩)
    rwa [if_pos timeout] at exec_eq
  · have exec_eq := exec_search_fails flight search kept repeated fails
    rw [if_neg frame] at exec_eq
    exact split exec_eq
  · intro a3 a2 a1 a0 run replies id fits single liveGroup held lowest place
    have exec_eq := exec_search_replies flight search kept replies
    have fitsIff := fits_iff_discovered (word32 a3 a2 a1 a0) bits len run
    have alone : fits → run = 0 → exec c s = .next (s.settle (s.idle.foundSingle id)) := by
      intro fit none
      rw [exec_eq, searchOutcome_fits (fitsIff.2 fit), none]
      rfl
    have claimed : ∀ x, s.idle.foundSingle id = s.idle.claims2 x → fits → run = 0 → claims s.bus.stack x := by
      intro x found fit none
      rw [found] at alone
      exact (alone fit none).trans (next_settle rfl)
    refine ⟨fun unfit => ?_, fun fit none group => ?_, fun fit none noGroup => ⟨?_, fun unknown => ⟨?_, ?_⟩⟩⟩
    · rw [searchOutcome_unfit (mt fitsIff.1 unfit)] at exec_eq
      exact split exec_eq
    · refine (alone fit none).trans ?_
      rw [foundSingle_conflict (s := s.idle) bringUp group]
    · intro i e n own entry stale choice
      exact claimed _ (foundSingle_stale (s := s.idle) noGroup own entry stale (chooseAddress_own choice)) fit none
    · intro i n victim clear chosen isLowest
      exact claimed _ (foundSingle_chosen (s := s.idle) noGroup unknown chosen isLowest) fit none
    · intro full
      refine (alone fit none).trans ?_
      rw [foundSingle_noneLeft (s := s.idle) noGroup unknown bringUp full]

/-! ## A group head found (R24, R100, R102) -/

theorem foundHead_conflict (bringUp : s.det.bringUp = some b) (single : ∃ i, HasIdLive id (s.entry (.single i)))
    (run : Nat) : s.foundHead id run = (s.addReason b.pos .idConflict).bringUpNext := by
  unfold State.foundHead
  rw [if_pos ((findSingle_live s id).2 single), bringUpReason_eq bringUp]

section
variable {run : Nat} (noSingle : ∀ i, ¬HasIdLive id (s.entry (.single i)))
variable (noGroup : ∀ j, ¬HasIdLive id (s.entry (.group j)))
include noSingle noGroup

theorem foundHead_placed {t : Tentative} (placed : s.chooseGroup id run none = some t) :
    s.foundHead id run = s.claims2 (.place t) := by
  have found : s.findGroup (holdsIdLive id) = none := find_noneWith (holdsIdLive_iff id) noGroup
  unfold State.foundHead
  rw [if_neg fun some => (findSingle_live s id).1 some |>.elim noSingle, found]
  dsimp only
  rw [placed]
  rfl

theorem foundHead_full (bringUp : s.det.bringUp = some b) (full : s.chooseGroup id run none = none) :
    s.foundHead id run = ((s.addReason b.pos .mapFull).raiseAll .mapFull).bringUpNext := by
  have found : s.findGroup (holdsIdLive id) = none := find_noneWith (holdsIdLive_iff id) noGroup
  unfold State.foundHead
  rw [if_neg fun some => (findSingle_live s id).1 some |>.elim noSingle, found]
  dsimp only
  rw [full]
  dsimp only
  unfold State.notEntered
  rw [bringUpReason_eq bringUp]

end

/-- Settles O54. -/
theorem groupHeadsPlaced : Obligations.GroupHeadsPlaced := by
  intro s f c b bits len a3 a2 a1 a0 run flight search kept bringUp bound replies runs id fits goesOn
  have fit := (fits_iff_discovered (word32 a3 a2 a1 a0) bits len run).2 ⟨fits, .inr runs⟩
  have head : run.toNat ≠ 0 := by rcases runs with rfl | rfl | rfl | rfl <;> decide
  have exec_eq : exec c s = .next (s.settle (s.idle.foundHead id run.toNat)) := by
    rw [exec_search_replies flight search kept replies, searchOutcome_fits fit]
    exact congrArg (fun t => Host.Outcome.next (s.settle t)) (if_neg head)
  refine ⟨fun single => ?_, fun noSingle noGroup => ?_⟩
  · exact exec_eq.trans (by rw [foundHead_conflict (s := s.idle) bringUp single])
  · refine ⟨_, chooseGroup_placed s id run.toNat none, fun x placed => ?_, fun full => ?_⟩
    · rw [exec_eq, foundHead_placed (s := s.idle) noSingle noGroup placed]
      exact next_settle rfl
    · exact exec_eq.trans (by rw [foundHead_full (s := s.idle) noSingle noGroup bringUp full])

end Sys2Proof.Machine
end

section
/-! The outcomes of ASSIGN and GROUP_ASSIGN (R103, R105): O55. -/

namespace Sys2Proof.Machine

-- One proof at a time and no linter passes: together they take more memory than the check gives.
set_option Elab.async false
set_option linter.all false

variable {s : State} {f : InFlight} {c : Instr} {b : BringUp} {p : Pos} {x : Reason}

/-- A transaction in flight that is answered by a frame of one byte (Table 10-6). -/
structure Acknowledged (s : State) (f : InFlight) : Prop where
  flight : s.bus.flight = some f
  awaits : f.txn.broadcast = false
  alone : s.replyFrames f.txn = 1
  kept : f.discard = .kept
  noPoll : ∀ p, f.txn ≠ .poll p

theorem exec_acknowledged (sent : Acknowledged s f) (replies : Replies f c [1]) :
    exec c s = .next (s.settle (s.idle.applyOutcome f.txn true (.reply [1]))) :=
  exec_replies sent.flight replies sent.awaits sent.alone sent.kept sent.noPoll

/-- Anything else than an ACK (R94). -/
theorem exec_refused (sent : Acknowledged s f)
    (refused : f.repeated = true ∧ Fails f c ∨ ∃ a, a ≠ 1 ∧ Replies f c [a]) : ∃ o : BusOutcome,
      decide (o.answer = .ack) = false ∧ exec c s = .next (s.settle (s.idle.applyOutcome f.txn true o)) := by
  rcases refused with ⟨repeated, fails⟩ | ⟨a, nak, replies⟩
  · obtain ⟨o, kind, exec_eq⟩ := exec_failed sent.flight repeated fails sent.awaits sent.kept sent.noPoll
    exact ⟨o, by rw [answer_failed kind]; rfl, exec_eq⟩
  · refine ⟨.reply [a], decide_eq_false ?_, exec_replies sent.flight replies sent.awaits sent.alone sent.kept sent.noPoll⟩
    show ¬(if a = 1 then Answer.ack else Answer.nak) = .ack
    rw [if_neg nak]
    decide

/-! ## What the outcomes write -/

theorem releaseGroupOutcome_refused (bringUp : s.det.bringUp = some b) :
    s.releaseGroupOutcome false = (s.addReason b.pos .idConflict).bringUpNext := by
  show (s.bringUpReason .idConflict).bringUpNext = _
  rw [bringUpReason_eq bringUp]

/-- The reason and an entry are written apart (R6, R11). -/
theorem addReason_setEntry (i : SingleId) (e : Option Entry) :
    (s.setEntry (.single i) e).addReason p x = (s.addReason p x).setEntry (.single i) e := rfl

theorem modEntry_undescribed (i : SingleId) : s.modEntry (.single i) Entry.undescribed =
    s.setEntry (.single i) ((s.entry (.single i)).map fun e => { e with kind := NodeKind.unknown, slots := [] }) :=
  modEntry_map s (.single i) Entry.undescribed

theorem releaseSingleOutcome_refused (bringUp : s.det.bringUp = some b) (i : SingleId) :
    s.releaseSingleOutcome i false = ((s.addReason b.pos .idConflict).setEntry (.single i)
      ((s.entry (.single i)).map fun e => { e with kind := NodeKind.unknown, slots := [] })).bringUpNext := by
  unfold State.releaseSingleOutcome
  rw [bringUp]
  dsimp only
  rw [if_neg (by decide), modEntry_undescribed, addReason_setEntry]

theorem releaseSingleOutcome_ack (bringUp : s.det.bringUp = some b) (i : SingleId) :
    s.releaseSingleOutcome i true = ((s.setEntry (.single i) none).setPos b.pos
      { s.pos b.pos with singles := (s.pos b.pos).singles.filter (· ≠ i) }).bringUpNext := by
  unfold State.releaseSingleOutcome
  rw [bringUp]
  rfl

theorem placeOutcome_ack (bringUp : s.det.bringUp = some b) (t : Tentative) :
    s.placeOutcome t true = (s.makePlacement b.pos t).bringUpNext := by
  unfold State.placeOutcome
  rw [bringUp]
  rfl

theorem placeOutcome_refused (bringUp : s.det.bringUp = some b) {t : Tentative} (noSingle : t.fromSingle = none) :
    s.placeOutcome t false = (s.addReason b.pos .idConflict).bringUpNext := by
  unfold State.placeOutcome
  rw [bringUp]
  dsimp only
  rw [if_neg (by decide), noSingle]

theorem placeOutcome_refused_single (bringUp : s.det.bringUp = some b) {t : Tentative} {i : SingleId}
    (single : t.fromSingle = some i) : s.placeOutcome t false = ((s.addReason b.pos .idConflict).setEntry (.single i)
      ((s.entry (.single i)).map fun e => { e with kind := NodeKind.unknown, slots := [] })).bringUpNext := by
  unfold State.placeOutcome
  rw [bringUp]
  dsimp only
  rw [if_neg (by decide), single]
  dsimp only
  rw [modEntry_undescribed]
  rfl

/-- Settles O55. -/
theorem placementsMade : Obligations.PlacementsMade := by
  intro s f c b flight kept bringUp goesOn refused conflict undescribed
  have ack : Acknowledged s f → ∀ u : State, s.idle.applyOutcome f.txn true (.reply [1]) = u.bringUpNext →
      Replies f c [1] → goesOn u := by
    intro sent u becomes replies
    exact (exec_acknowledged sent replies).trans (by rw [becomes])
  have nak : Acknowledged s f → ∀ u : State, (∀ o : BusOutcome, decide (o.answer = .ack) = false →
      s.idle.applyOutcome f.txn true o = u.bringUpNext) → refused → goesOn u := by
    intro sent u becomes no
    obtain ⟨o, notAck, exec_eq⟩ := exec_refused sent no
    exact exec_eq.trans (by rw [becomes o notAck])
  refine ⟨fun id base txn => ?_, fun i txn => ?_, fun t txn => ?_⟩
  · have sent : Acknowledged s f := ⟨flight, by rw [txn]; rfl, by rw [txn]; rfl, kept, by simp [txn]⟩
    refine ⟨ack sent _ (by rw [txn]; rfl), nak sent _ fun o notAck => ?_⟩
    rw [txn]
    show s.idle.releaseGroupOutcome (decide _) = _
    rw [notAck, releaseGroupOutcome_refused (s := s.idle) bringUp]
  · have sent : Acknowledged s f := ⟨flight, by rw [txn]; rfl, by rw [txn]; rfl, kept, by simp [txn]⟩
    refine ⟨nak sent _ fun o notAck => ?_, ack sent _ ?_⟩
    · rw [txn]
      show s.idle.releaseSingleOutcome i (decide _) = _
      rw [notAck, releaseSingleOutcome_refused (s := s.idle) bringUp]
      rfl
    · rw [txn]
      exact releaseSingleOutcome_ack (s := s.idle) bringUp i
  · have sent : Acknowledged s f := ⟨flight, by rw [txn]; rfl, by rw [txn]; rfl, kept, by simp [txn]⟩
    refine ⟨fun no => ⟨fun noSingle => nak sent _ (fun o notAck => ?_) no, fun i single => nak sent _ (fun o notAck => ?_) no⟩,
      fun replies apart => ?_⟩
    · rw [txn]
      show s.idle.placeOutcome t (decide _) = _
      rw [notAck, placeOutcome_refused (s := s.idle) bringUp noSingle]
    · rw [txn]
      show s.idle.placeOutcome t (decide _) = _
      rw [notAck, placeOutcome_refused_single (s := s.idle) bringUp single]
      rfl
    · refine ⟨s.idle.makePlacement b.pos t, ack sent _ ?_ replies, makePlacement_facts s.idle b.pos t apart⟩
      rw [txn]
      exact placeOutcome_ack (s := s.idle) bringUp t

end Sys2Proof.Machine
end

section
/-! Descriptions (R11, R104, R105): O56. -/

namespace Sys2Proof.Machine

-- One proof at a time and no linter passes: together they take more memory than the check gives.
set_option Elab.async false
set_option linter.all false

variable {s u : State} {f : InFlight} {c : Instr} {b : BringUp} {ref : EntryRef} {e : Entry} {d : Description}
variable {p0 : Page0} {page k : Nat} {payload : List Byte}

/-! ## The bring-up in progress -/

/-- The bring-up in progress replaced. -/
def State.withBringUp (s : State) (b : BringUp) : State := { s with det := { s.det with bringUp := some b } }

/-- A description has ended (R104). -/
def BringUp.ended (b : BringUp) (ref : EntryRef) : BringUp := { b with desc := none, described := ref :: b.described }

theorem modBringUp_eq (bringUp : s.det.bringUp = some b) (g : BringUp → BringUp) :
    s.modBringUp g = s.withBringUp (g b) := by
  unfold State.modBringUp
  rw [bringUp]
  rfl

theorem endDescription_eq (bringUp : s.det.bringUp = some b) (ref : EntryRef) :
    s.endDescription ref = (s.withBringUp (b.ended ref)).bringUpNext := by
  unfold State.endDescription
  rw [modBringUp_eq bringUp]
  rfl

/-! ## A description fails (R105) -/

theorem failDescription_single {i : SingleId} (bringUp : u.det.bringUp = some b) (entry : u.entry (.single i) = some e) :
    u.failDescription (.single i) =
      ((u.setEntry (.single i) (some { e with kind := .unknown, slots := [] })).withBringUp
        (b.ended (.single i))).bringUpNext := by
  show (u.modEntry (.single i) Entry.undescribed).endDescription (.single i) = _
  rw [modEntry_eq entry, endDescription_eq ((congrArg Detector.bringUp (State.setEntry_det ..)).trans bringUp)]
  rfl

theorem failDescription_group {j : GroupId} (bringUp : u.det.bringUp = some b) (entry : u.entry (.group j) = some e) :
    u.failDescription (.group j) = (((u.setEntry (.group j) none).setPos b.pos
      { u.pos b.pos with groups := (u.pos b.pos).groups.filter (· ≠ j) }).withBringUp { b with desc := none }).claims2
        (.releaseGroup e.nodeId (if e.unassigned then 255 else e.addr)) := by
  unfold State.failDescription
  dsimp only
  rw [entry, bringUp]
  dsimp only
  exact congrArg (fun t => State.claims2 t (.releaseGroup e.nodeId e.presentAddr))
    (modBringUp_eq (s := (u.setEntry (.group j) none).modPos b.pos (PosRec.leave (.group j))) bringUp _)

/-! ## A page taken in (R104) -/

theorem takePage_first (bringUp : u.det.bringUp = some b) (desc : b.desc = some d) (first : d.page0 = none) :
    u.takePage page payload = u.takePage0 d payload := by
  unfold State.takePage
  rw [bringUp, Option.bind_some, desc]
  dsimp only
  rw [first]

theorem takePage_later (bringUp : u.det.bringUp = some b) (desc : b.desc = some d) (later : d.page0 = some p0) :
    u.takePage page payload = u.takeLaterPage d p0 page payload := by
  unfold State.takePage
  rw [bringUp, Option.bind_some, desc]
  dsimp only
  rw [later]

theorem descriptionNext_on (bringUp : u.det.bringUp = some b) {next : Nat} (more : p0.pageAfter k = some next) :
    u.descriptionNext d p0 k = (u.withBringUp { b with desc := some d }).claims2 (.describe d.ref next) := by
  unfold State.descriptionNext
  rw [more]
  dsimp only
  rw [modBringUp_eq bringUp]
  rfl

theorem descriptionNext_ends (last : p0.pageAfter k = none) : u.descriptionNext d p0 k = u.finishDescription d p0 := by
  unfold State.descriptionNext
  rw [last]

/-- The ident of a described repeater is kept (R104). -/
theorem keepIdent_single (i : SingleId) (p0 : Page0) (ident : List Byte) (b : BringUp) :
    keepIdent (.single i) p0 ident b = { b with
      idents := if p0.kind = .repeater ∧ p0.identLen ≠ 0 then (i, ident.take p0.identLen) :: b.idents else b.idents } := by
  unfold keepIdent
  dsimp only
  by_cases keeps : p0.kind = .repeater ∧ p0.identLen ≠ 0
  · rw [if_pos keeps]
    exact if_neg fun drops => drops.elim keeps.2 fun other => other keeps.1
  · rw [if_neg keeps]
    refine if_pos ?_
    by_cases empty : p0.identLen = 0
    · exact .inl empty
    · exact .inr fun kind => keeps ⟨kind, empty⟩

theorem replied_det (s : State) (ref : EntryRef) (e : Entry) : (s.replied ref e).det = s.det := by
  cases ref <;> rfl

theorem replied_entry (s : State) (ref : EntryRef) (e : Entry) :
    (s.replied ref e).entry ref = some { e with strikes := 0 } :=
  (entry_bus ..).trans (entry_setEntry ..)

theorem finishDescription_replied (bringUp : s.det.bringUp = some b) (same : d.ref = ref) :
    (s.replied ref e).finishDescription d p0 =
      ((s.replied ref { e with kind := p0.kind, slots := matchSlots e.run e.slots d.slots }).withBringUp
        ((keepIdent ref p0 d.ident b).ended ref)).bringUpNext := by
  subst same
  unfold State.finishDescription
  rw [replied_modEntry (e' := { e with kind := p0.kind, slots := matchSlots e.run e.slots d.slots }) _ rfl]
  dsimp only
  rw [modBringUp_eq (by rw [replied_det]; exact bringUp), endDescription_eq (b := keepIdent d.ref p0 d.ident b) rfl]
  rfl

theorem takePage0_unlawful {page : List Byte} (unlawful : decodePage0 page = none) :
    u.takePage0 d page = u.failDescription d.ref := by
  unfold State.takePage0
  rw [unlawful]

theorem takePage0_single {page : List Byte} {i : SingleId} (lawful : decodePage0 page = some p0)
    (single : d.ref = .single i) : u.takePage0 d page =
      if p0.run = 0 then u.descriptionNext { d with page0 := some p0 } p0 0 else u.provedHead i p0.run := by
  unfold State.takePage0
  rw [lawful]
  dsimp only
  rw [single]

theorem takePage0_group {page : List Byte} {j : GroupId} (lawful : decodePage0 page = some p0)
    (group : d.ref = .group j) : u.takePage0 d page = if groupPage0Ok p0 (u.runOf d.ref) then
      u.descriptionNext { d with page0 := some p0 } p0 0 else u.failDescription d.ref := by
  unfold State.takePage0
  rw [lawful]
  dsimp only
  rw [group]

theorem groupPage0Ok_iff (p0 : Page0) (run : Nat) : groupPage0Ok p0 run = true ↔
    (p0.kind = .lampCluster ∨ p0.kind = .tyreHub) ∧ p0.count = 1 ∧ p0.run = run := by
  simp only [groupPage0Ok, Bool.and_eq_true, Bool.or_eq_true, decide_eq_true_eq, and_assoc]

/-! ## The outcome of a DESCRIBE -/

theorem exec_describe_fails (flight : s.bus.flight = some f) (describe : f.txn = .describe ref page)
    (kept : f.discard = .kept) (repeated : f.repeated = true) (fails : Fails f c) :
    exec c s = .next (s.settle ((s.idle.strike ref).failDescription ref)) := by
  obtain ⟨o, kind, exec_eq⟩ :=
    exec_failed flight repeated fails (by rw [describe]; rfl) kept (by simp [describe])
  rw [exec_eq, describe]
  rcases kind with ⟨rfl, -⟩ | ⟨rfl, -⟩ <;> rfl

theorem exec_describe_replies (flight : s.bus.flight = some f) (describe : f.txn = .describe ref page)
    (kept : f.discard = .kept) (entry : s.entry ref = some e) (replies : Replies f c payload) :
    exec c s = .next (s.settle ((s.replied ref { e with unassigned := false }).takePage page payload)) := by
  rw [exec_replies flight replies (by rw [describe]; rfl) (by rw [describe]; rfl) kept (by simp [describe]), describe,
    ← idle_answeredThere entry]
  rfl

section
variable {i : SingleId} {run : Nat} (bringUp : u.det.bringUp = some b) (entry : u.entry (.single i) = some e)
include bringUp entry

/-- A single entry with a run is placed as a group head (R105). -/
theorem provedHead_placed {t : Tentative}
    (placed : (u.withBringUp (b.ended (.single i))).chooseGroup e.nodeId run (some i) = some t) :
    u.provedHead i run = (u.withBringUp (b.ended (.single i))).claims2 (.place t) := by
  have id : u.idOf (.single i) = e.nodeId := by
    unfold State.idOf
    rw [entry]
    rfl
  unfold State.provedHead
  dsimp only
  rw [modBringUp_eq bringUp, id]
  rw [show ({ b with desc := none, described := .single i :: b.described } : BringUp) = b.ended (.single i) from rfl,
    placed]
  rfl

theorem provedHead_full (full : (u.withBringUp (b.ended (.single i))).chooseGroup e.nodeId run (some i) = none) :
    u.provedHead i run = (((u.withBringUp (b.ended (.single i))).addReason b.pos .mapFull).raiseAll .mapFull).claims2
      (.releaseSingle i) := by
  have id : u.idOf (.single i) = e.nodeId := by
    unfold State.idOf
    rw [entry]
    rfl
  unfold State.provedHead
  dsimp only
  rw [modBringUp_eq bringUp, id]
  rw [show ({ b with desc := none, described := .single i :: b.described } : BringUp) = b.ended (.single i) from rfl,
    full]
  rfl

end

/-- The slots of a description (R11), as the statement says them. -/
theorem matchSlots_place {slots : List SlotDesc} {n : Nat} {x : SlotDesc} (get : slots[n]? = some x) (e : Entry) :
    (matchSlots e.run e.slots slots)[n]? = some
      (match (e.slots.filter fun sl => sl.kind = x.kind ∧ sl.inst = x.inst)[(slots.take n).countP
          fun y => y.kind = x.kind ∧ y.inst = x.inst]? with
        | some sl => { sl with access := x.access, rangeMin := x.rangeMin, rangeMax := x.rangeMax, unit := x.unit }
        | none => {
            kind := x.kind, inst := x.inst, access := x.access, rangeMin := x.rangeMin, rangeMax := x.rangeMax
            unit := x.unit, cache := List.replicate (max 1 e.run) 0 }) := by
  have fits : e.slots.filter x.fits = e.slots.filter fun sl => sl.kind = x.kind ∧ sl.inst = x.inst := by
    refine List.filter_congr fun sl _ => ?_
    unfold SlotDesc.fits
    rw [Bool.decide_and]
  rw [(matchSlots_get e.run slots e.slots).2 n x get, fits]
  rfl

/-- Settles O56. -/
theorem nodesDescribed : Obligations.NodesDescribed := by
  intro s f c b d page e flight describe kept bringUp desc entry next with_ ended failed v fails goesOn
  have detV : v.det.bringUp = some b := by
    rw [← bringUp]
    exact congrArg Detector.bringUp (replied_det ..)
  have entryV : v.entry d.ref = some { e with strikes := 0, unassigned := false } := replied_entry ..
  have failsTo : ∀ (u : State) (e' : Entry), u.det.bringUp = some b → u.entry d.ref = some e' →
      u.failDescription d.ref = failed u e' := by
    intro u e' bringUpU entryU
    dsimp only [failed, with_, ended]
    generalize d.ref = ref at entryU ⊢
    cases ref with
    | single i => exact failDescription_single bringUpU entryU
    | group j => exact failDescription_group bringUpU entryU
  have goes : ∀ (d' : Description) (p0 : Page0) (k : Nat), d'.ref = d.ref → next (v.descriptionNext d' p0 k) →
      goesOn d' p0 k := by
    intro d' p0 k same exec_eq
    obtain ⟨more, ids, last⟩ := pageAfter_eq p0 k
    refine ⟨fun less => ?_, fun past has => ?_, fun past no => ?_⟩
    · have on := descriptionNext_on (d := d') detV (more less)
      rw [same] at on
      exact on ▸ exec_eq
    · have on := descriptionNext_on (d := d') detV (ids past has)
      rw [same] at on
      exact on ▸ exec_eq
    · have finished : v.descriptionNext d' p0 k = _ :=
        (descriptionNext_ends (last past no)).trans (finishDescription_replied bringUp same)
      refine ⟨matchSlots e.run e.slots d'.slots, (matchSlots_get ..).1, fun n x get => matchSlots_place get e, ?_⟩
      rw [finished] at exec_eq
      dsimp only [ended]
      generalize d.ref = ref at exec_eq ⊢
      cases ref with
      | group j => exact exec_eq
      | single i =>
        rw [keepIdent_single] at exec_eq
        exact exec_eq
  refine ⟨fun repeated no bounded quiet => ?_, fun payload replies => ?_⟩
  · have struck := idle_struck entry
    obtain ⟨-, e', entryW, -⟩ := struck_locked struck ((entry_bus ..).trans entry) (.inl quiet)
    have bringUpW : (s.idle.strike d.ref).det.bringUp = some b :=
      (congrArg Detector.bringUp (struck_det struck (.inl quiet))).trans bringUp
    refine ⟨_, e', struck, entryW, ?_⟩
    have exec_eq := exec_describe_fails flight describe kept repeated no
    rw [failsTo _ e' bringUpW entryW] at exec_eq
    exact exec_eq
  · intro at_
    have taken : next (v.takePage page payload) := exec_describe_replies flight describe kept entry replies
    have failing : next (v.failDescription d.ref) → fails := fun exec_eq => by
      rw [failsTo v _ detV entryV] at exec_eq
      exact exec_eq
    refine ⟨fun first => ?_, fun p0 later count => ?_⟩
    · rw [takePage_first detV desc first] at taken
      obtain ⟨bad, good⟩ := decodePage0_facts payload
      refine ⟨fun unlawful => failing ?_, fun lawful kind code => ⟨fun i single alone => goes _ _ _ rfl ?_,
        fun i single run => ?_, fun j group => ?_⟩⟩
      · rw [takePage0_unlawful (bad unlawful)] at taken
        exact taken
      · rw [takePage0_single (good lawful kind code) single, if_pos alone] at taken
        exact taken
      · rw [takePage0_single (good lawful kind code) single, if_neg run] at taken
        have entryI : v.entry (.single i) = some { e with strikes := 0, unassigned := false } := single ▸ entryV
        have described : with_ v ended = v.withBringUp (b.ended (.single i)) := by
          rw [← single]
          rfl
        refine ⟨_, chooseGroup_placed (with_ v ended) e.nodeId (at_ 2) (some i), fun x placed => ?_, fun full => ?_⟩
        · rw [described] at placed ⊢
          rw [provedHead_placed detV entryI placed] at taken
          exact taken
        · rw [described] at full ⊢
          rw [provedHead_full detV entryI full] at taken
          exact taken
      · have lawfulPage := good lawful kind code
        rw [takePage0_group lawfulPage group] at taken
        have runV : v.runOf d.ref = e.run := by
          unfold State.runOf
          rw [entryV]
          rfl
        refine ⟨fun ofGroup => goes _ _ _ rfl ?_, fun notOf => failing ?_⟩
        · rw [if_pos ((groupPage0Ok_iff ..).2 (by rw [runV]; exact ofGroup))] at taken
          exact taken
        · rw [if_neg (mt (groupPage0Ok_iff ..).1 (by rw [runV]; exact notOf))] at taken
          exact taken
    · rw [takePage_later detV desc later] at taken
      unfold State.takeLaterPage at taken
      obtain ⟨bad, good⟩ := decodeFunctionPage_facts payload
      refine ⟨fun low unlawful => failing ?_, fun low lawful x kind inst access unit least most => goes _ _ _ rfl ?_,
        fun high => goes _ _ _ rfl ?_⟩
      · rw [if_pos low, bad unlawful] at taken
        exact taken
      · rw [if_pos low, good lawful x kind inst access unit least most] at taken
        exact taken
      · rw [if_neg (by omega)] at taken
        exact taken

end Sys2Proof.Machine
end

section
/-! What a bring-up does next (R5, R27, R99, R104, R126): O57. -/

namespace Sys2Proof.Machine

-- One proof at a time and no linter passes: together they take more memory than the check gives.
set_option Elab.async false
set_option linter.all false

variable {s t : State} {b : BringUp} {p : Pos} {i : SingleId} {e : Entry} {ref : EntryRef}

/-! ## The next description (R104) -/

/-- An entry that the descriptions pass over: it is described, or locked out. -/
def State.passed (s : State) (b : BringUp) (ref : EntryRef) : Prop :=
  ref ∈ b.described ∨ ∃ e, s.entry ref = some e ∧ e.locked = true

theorem describable_iff : (!b.described.contains ref && !((s.entry ref).any (·.locked))) = true ↔ ¬s.passed b ref := by
  unfold State.passed
  rw [Bool.and_eq_true, Bool.not_eq_true', ← Bool.not_eq_true, List.contains_iff_mem, Bool.not_eq_true', ← Bool.not_eq_true,
    Option.any_eq_true, not_or]

theorem nextToDescribe_first {front back : List EntryRef} (refs : (s.pos b.pos).refs = front ++ ref :: back)
    (before : ∀ r ∈ front, s.passed b r) (here : ¬s.passed b ref) : s.nextToDescribe b = some ref := by
  unfold State.nextToDescribe
  rw [refs]
  exact find_first _ front ref back
    (fun r member => Bool.eq_false_iff.2 fun asks => describable_iff.1 asks (before r member)) (describable_iff.2 here)

theorem nextToDescribe_none (all : ∀ r ∈ (s.pos b.pos).refs, s.passed b r) : s.nextToDescribe b = none :=
  List.find?_eq_none.2 fun r member asks => describable_iff.1 asks (all r member)

/-! ## The chain repeater (R5) -/

/-- A single entry of a position that may be its chain repeater. -/
def State.mayChain (s : State) (p : Pos) (i : SingleId) (e : Entry) : Prop :=
  i ∈ (s.pos p).singles ∧ s.entry (.single i) = some e ∧ e.kind = .repeater ∧ e.locked = false

theorem mem_chainable : i ∈ ((s.pos p).singles.filter fun i => (s.entry (.single i)).any Entry.canChain) ↔
    ∃ e, s.mayChain p i e := by
  unfold State.mayChain Entry.canChain
  rw [List.mem_filter, Option.any_eq_true]
  simp only [Bool.and_eq_true, decide_eq_true_eq, Bool.not_eq_true']
  exact ⟨fun ⟨member, e, entry, free⟩ => ⟨e, member, entry, free⟩, fun ⟨e, member, entry, free⟩ => ⟨member, e, entry, free⟩⟩

theorem idOf_entry (entry : s.entry ref = some e) : s.idOf ref = e.nodeId := by
  unfold State.idOf
  rw [entry]
  rfl

theorem chooseRepeater_none (none : s.chooseRepeater p = none) (i : SingleId) (e : Entry) : ¬s.mayChain p i e := by
  intro may
  have empty := ((lowerId_fold s _ Option.none).1 none).2
  have member := mem_chainable.2 ⟨e, may⟩
  rw [empty] at member
  cases member

theorem chooseRepeater_some (chosen : s.chooseRepeater p = some i) :
    ∃ e, s.mayChain p i e ∧ ∀ j x, s.mayChain p j x → e.nodeId.toNat ≤ x.nodeId.toNat := by
  obtain ⟨found, least⟩ := (lowerId_fold s _ none).2 i chosen
  obtain ⟨e, may⟩ := mem_chainable.1 (found.resolve_left nofun)
  refine ⟨e, may, fun j x other => ?_⟩
  have lower := least j (.inr (mem_chainable.2 ⟨x, other⟩))
  rwa [idOf_entry may.2.1, idOf_entry other.2.1] at lower

/-- Binding changes slots alone, so the candidates stand (R27). -/
theorem mayChain_of_slots (singles : (t.pos p).singles = (s.pos p).singles)
    (entries : ∀ ref e, s.entry ref = some e → ∃ slots, t.entry ref = some { e with slots := slots })
    (invalid : ∀ ref, s.entry ref = none → t.entry ref = none) (i : SingleId) :
    (∀ e, s.mayChain p i e → ∃ slots, t.mayChain p i { e with slots := slots }) ∧
    ∀ x, t.mayChain p i x → ∃ e slots, x = { e with slots := slots } ∧ s.mayChain p i e := by
  refine ⟨fun e ⟨member, entry, kind, free⟩ => ?_, fun x ⟨member, entry, kind, free⟩ => ?_⟩
  · obtain ⟨slots, kept⟩ := entries _ e entry
    exact ⟨slots, singles ▸ member, kept, kind, free⟩
  · cases before : s.entry (.single i) with
    | none =>
      rw [invalid _ before] at entry
      cases entry
    | some e =>
      obtain ⟨slots, kept⟩ := entries _ e before
      obtain rfl := Option.some.inj (entry.symm.trans kept)
      exact ⟨e, slots, rfl, singles ▸ member, before, kind, free⟩

theorem identOf_first {front back : List (SingleId × List Byte)} {x : List Byte} (idents : b.idents = front ++ (i, x) :: back)
    (before : ∀ y ∈ front, y.1 ≠ i) : b.identOf i = some x := by
  unfold BringUp.identOf
  rw [idents, find_first _ front (i, x) back (fun y member => decide_eq_false (before y member)) (by simp)]
  rfl

theorem identOf_none (unread : ∀ y ∈ b.idents, y.1 ≠ i) : b.identOf i = none := by
  unfold BringUp.identOf
  rw [List.find?_eq_none.2 fun y member => by simpa using unread y member]
  rfl

/-! ## The end of ENUMERATING (R126) -/

theorem endEnumerating_eq (s : State) (b : BringUp) : s.endEnumerating b =
    let t := s.bindAll b.pos
    let rep := t.chooseRepeater b.pos
    (t.setPos b.pos { t.pos b.pos with state := .measuring, repeater := rep, ident := rep.bind b.identOf }).measure b.pos
      allLamps := by
  unfold State.endEnumerating State.enterMeasuring State.modPos
  dsimp only
  rw [setPos_setPos, pos_setPos]
  rfl

/-- Binding leaves the position record but for the mark that the numbers have run out (R27). -/
theorem bindAll_pos (s : State) (p : Pos) : (s.bindAll p).pos p =
    if (s.wanting (s.slotsOf p)).length ≤ s.freeNumbers.length then s.pos p else (s.fullMark p).pos p := by
  obtain ⟨-, -, -, -, whole⟩ := bind_facts p (s.slotsOf p) s
  refine (congrArg (fun t : State => t.pos p) whole).trans ?_
  split <;> rfl

theorem State.fullMark_pos (s : State) (p : Pos) : (s.fullMark p).pos p = (s.pos p).addReason .mapFull := by
  show (s.modPos p fun r => r.addReason .mapFull).pos p = _
  rw [State.pos_modPos, if_pos rfl]

theorem PosRec.addReason_singles (r : PosRec) (x : Reason) : (r.addReason x).singles = r.singles := rfl

/-- Settles O57. -/
theorem bringUpGoesOn : Obligations.BringUpGoesOn := by
  intro s b bringUp refs passed
  refine ⟨fun item rest stack => conflict_on bringUp stack, fun front ref back empty split before here => ?_,
    fun empty all => ?_⟩
  · unfold State.bringUpNext
    rw [bringUp, empty]
    dsimp only
    rw [nextToDescribe_first split before here]
    dsimp only
    rw [modBringUp_eq bringUp]
    rfl
  · intro held
    have ends : s.bringUpNext = s.endEnumerating b := by
      unfold State.bringUpNext
      rw [bringUp, empty]
      dsimp only
      rw [nextToDescribe_none all]
    obtain ⟨others, numbered, entries, invalid, whole⟩ := bind_facts b.pos (s.slotsOf b.pos) s
    have singles : ((s.bindAll b.pos).pos b.pos).singles = (s.pos b.pos).singles := by
      rw [bindAll_pos]
      split
      · rfl
      · rw [State.fullMark_pos, PosRec.addReason_singles]
    have candidates := mayChain_of_slots (t := s.bindAll b.pos) singles entries invalid
    refine ⟨s.freeNumbers, s.wanting (s.slotsOf b.pos), s.bindAll b.pos, freeNumbers_sorted s, mem_freeNumbers s,
      wanting_slots s b.pos, fun ref k out => others (ref, k) out, fun n ref k sl get slot => numbered n (ref, k) sl get slot,
      entries, whole, (s.bindAll b.pos).chooseRepeater b.pos, ((s.bindAll b.pos).chooseRepeater b.pos).bind b.identOf,
      fun none => ⟨by rw [none]; rfl, fun i e may => ?_⟩, fun i chosen => ?_, ends.trans (endEnumerating_eq s b)⟩
    · obtain ⟨slots, still⟩ := (candidates i).1 e may
      exact chooseRepeater_none none i _ still
    · obtain ⟨x, may, least⟩ := chooseRepeater_some chosen
      obtain ⟨e, slots, rfl, was⟩ := (candidates i).2 x may
      refine ⟨e, was, fun j y other => ?_, fun front x back idents before => ?_, fun unread => ?_⟩
      · obtain ⟨slots', still⟩ := (candidates j).1 y other
        exact least j { y with slots := slots' } still
      · rw [chosen]
        exact identOf_first idents before
      · rw [chosen]
        exact identOf_none unread

end Sys2Proof.Machine
end

section
/-! SEGMENT closes and restarted nodes (R107, R110, R129): O58 and O59. -/

namespace Sys2Proof.Machine

-- One proof at a time and no linter passes: together they take more memory than the check gives.
set_option Elab.async false
set_option linter.all false

variable {s v : State} {f : InFlight} {c : Instr} {p : Pos} {ref : EntryRef} {e : Entry} {a : Byte} {b : Bool} {id : Word32}

theorem answer_reply (a : Byte) : (BusOutcome.reply [a]).answer = if a = 1 then .ack else .nak := rfl

/-! ## SEGMENT closes (R110, R129) -/

/-- The closed mark and CHAIN_OPEN after a SEGMENT close, as the statement says them. -/
theorem closeOutcome_eq (v : State) (p : Pos) (ack : Bool) : v.closeOutcome p ack =
    let watch := (v.det.watches.get (posIdx p)).map fun w =>
      if ack then { w with closed := true } else { w with closed := false, present := 0 }
    let reasons := if ack then dropBit (v.pos p).reasons 4 else addBit (v.pos p).reasons 4
    let state := if v.ready p then (if reasons = 0 then .online else .degraded) else (v.pos p).state
    { v with det := { v.det with watches := v.det.watches.set (posIdx p) watch } }.setPos p
      { v.pos p with reasons := reasons, state := state } := by
  have follows : ∀ reasons : ReasonSet, (v.pos p).state.follow reasons =
      if v.ready p then (if reasons = 0 then .online else .degraded) else (v.pos p).state := follow_eq _
  cases ack with
  | true =>
    simp only [if_true, ← follows]
    rfl
  | false =>
    simp only [Bool.false_eq_true, if_false, ← follows]
    rfl

theorem segmentOutcome_reply (repeater : s.repeaterOf p = some ref) (entry : s.entry ref = some e) (a : Byte) :
    s.idle.segmentOutcome p (.reply [a]) =
      (s.replied ref { e with unassigned := false }).closeOutcome p (decide (a = 1)) := by
  have repeaterIdle : s.idle.repeaterOf p = some ref := repeater
  unfold State.segmentOutcome
  rw [repeaterIdle]
  dsimp only
  rw [answer_reply, ← idle_answeredThere entry]
  by_cases ack : a = 1
  · rw [if_pos ack, decide_eq_true ack]
  · rw [if_neg ack, decide_eq_false ack]

theorem segmentOutcome_failed {o : BusOutcome} (repeater : s.repeaterOf p = some ref) (failed : o.answer = .failed) :
    s.idle.segmentOutcome p o = (s.idle.strike ref).closeOutcome p false := by
  have repeaterIdle : s.idle.repeaterOf p = some ref := repeater
  unfold State.segmentOutcome
  rw [repeaterIdle]
  dsimp only
  rw [failed]

/-- Settles O58. -/
theorem segmentCloseSettled : Obligations.SegmentCloseSettled := by
  intro s f c p ref e flight txn kept repeater entry closed
  have awaits : f.txn.broadcast = false := by rw [txn]; rfl
  have noPoll : ∀ p, f.txn ≠ .poll p := by simp [txn]
  refine ⟨fun a replies => ?_, fun repeated fails bounded => ⟨_, idle_struck entry, ?_⟩⟩
  · rw [exec_replies flight replies awaits (by rw [txn]; rfl) kept noPoll, txn]
    show Host.Outcome.next (s.settle (s.idle.segmentOutcome p _)) = _
    rw [segmentOutcome_reply repeater entry, closeOutcome_eq]
  · obtain ⟨o, kind, exec_eq⟩ := exec_failed flight repeated fails awaits kept noPoll
    rw [exec_eq, txn]
    show Host.Outcome.next (s.settle (s.idle.segmentOutcome p _)) = _
    rw [segmentOutcome_failed repeater (answer_failed kind), closeOutcome_eq]

/-! ## Restarted nodes (R107) -/

theorem requestOf_reassign_single {i : SingleId} (entry : s.entry (.single i) = some e) (byBringUp : Bool) :
    s.requestOf (.reassign (.single i) byBringUp) =
      assignFrame (if e.unassigned then 255 else e.addr) e.nodeId e.addr := by
  show assignFrame (s.presentAddrOf _) (s.idOf _) (s.addrOf _) = _
  unfold State.presentAddrOf State.idOf State.addrOf
  rw [entry]
  rfl

theorem requestOf_reassign_group {j : GroupId} (entry : s.entry (.group j) = some e) (byBringUp : Bool) :
    s.requestOf (.reassign (.group j) byBringUp) =
      groupAssignFrame (if e.unassigned then 255 else e.addr) e.nodeId e.addr e.run := by
  show groupAssignFrame (s.presentAddrOf _) (s.idOf _) (s.addrOf _) (s.runOf _) = _
  unfold State.presentAddrOf State.idOf State.addrOf State.runOf
  rw [entry]
  rfl

/-- A rediscovery finds the node of its entry or nothing (R107, log 29). -/
theorem rediscoverOutcome_reply {a3 a2 a1 a0 : Byte} (entry : s.entry ref = some e) :
    s.idle.rediscoverOutcome ref (.reply [a3, a2, a1, a0, a]) =
      if word32 a3 a2 a1 a0 = e.nodeId ∧ (a = 0 ∨ a = 2 ∨ a = 4 ∨ a = 8 ∨ a = 16) then s.idle.restarted ref false
      else s.idle := by
  have id : s.idle.idOf ref = e.nodeId := idOf_entry (s := s.idle) ((entry_bus ..).trans entry)
  have fits : (beginsWith (word32 a3 a2 a1 a0) e.nodeId 32 = true ∧ runOk a.toNat = true) ↔
      word32 a3 a2 a1 a0 = e.nodeId ∧ (a = 0 ∨ a = 2 ∨ a = 4 ∨ a = 8 ∨ a = 16) :=
    and_congr (beginsWith_full ..) (runOk_iff a)
  unfold State.rediscoverOutcome
  rw [id]
  by_cases fit : word32 a3 a2 a1 a0 = e.nodeId ∧ (a = 0 ∨ a = 2 ∨ a = 4 ∨ a = 8 ∨ a = 16)
  · have drawn : (BusOutcome.reply [a3, a2, a1, a0, a]).discovered e.nodeId 32 =
        (.reply [a3, a2, a1, a0, a], word32 a3 a2 a1 a0, a.toNat) := if_pos (fits.2 fit)
    rw [if_pos fit, drawn]
  · have drawn : (BusOutcome.reply [a3, a2, a1, a0, a]).discovered e.nodeId 32 = (.garbled, 0, 0) :=
      if_neg (mt fits.1 fit)
    rw [if_neg fit, drawn]

theorem foundSingle_restarted {i : SingleId} (noGroup : ∀ j, ¬HasIdLive id (s.entry (.group j)))
    (own : FirstWith (fun i => s.entry (.single i)) (HasId id) i) (entry : s.entry (.single i) = some e)
    (live : e.live = true) : s.foundSingle id = s.restarted (.single i) true := by
  have found : s.findSingle (holdsId id) = some i := find_firstWith (holdsId_iff id) own
  unfold State.foundSingle
  rw [if_neg fun some => (findGroup_live s id).1 some |>.elim noGroup, found]
  dsimp only
  rw [entry]
  exact if_pos live

theorem foundHead_restarted {j : GroupId} (noSingle : ∀ i, ¬HasIdLive id (s.entry (.single i)))
    (own : FirstWith (fun j => s.entry (.group j)) (HasIdLive id) j) (run : Nat) :
    s.foundHead id run = s.restarted (.group j) true := by
  have found : s.findGroup (holdsIdLive id) = some j := find_firstWith (holdsIdLive_iff id) own
  unfold State.foundHead
  rw [if_neg fun some => (findSingle_live s id).1 some |>.elim noSingle, found]

theorem closeAfterRestart_replied (s : State) (ref : EntryRef) (e : Entry) :
    (s.replied ref e).closeAfterRestart ref =
      ((s.chainOf ref).elim (s.replied ref e) fun p =>
        if e.locked then s.replied ref e else (s.replied ref e).claims1 [.segmentClose p]) := by
  unfold State.closeAfterRestart
  rw [chainOf_of_pos (replied_pos s ref e), replied_entry]
  cases s.chainOf ref <;> rfl

theorem reassignOutcome_ack (entry : s.entry ref = some e) (byBringUp : Bool) :
    s.idle.reassignOutcome ref byBringUp (.reply [1]) =
      let w := (s.replied ref { e with unassigned := false }).closeAfterRestart ref
      if byBringUp then w.bringUpNext else w := by
  unfold State.reassignOutcome
  rw [answer_reply, if_pos rfl, ← idle_answeredThere entry]

theorem reassignOutcome_nak (entry : s.entry ref = some e) (byBringUp : Bool) (nak : a ≠ 1) :
    s.idle.reassignOutcome ref byBringUp (.reply [a]) =
      if byBringUp then (s.replied ref e).bringUpNext else s.replied ref e := by
  unfold State.reassignOutcome
  rw [answer_reply, if_neg nak, ← idle_clearStrikes entry]

theorem reassignOutcome_failed {o : BusOutcome} (failed : o.answer = .failed) (byBringUp : Bool) :
    s.idle.reassignOutcome ref byBringUp o =
      if byBringUp then (s.idle.strike ref).bringUpNext else s.idle.strike ref := by
  unfold State.reassignOutcome
  rw [failed]

/-- Settles O59. -/
theorem restartsReassigned : Obligations.RestartsReassigned := by
  intro s f c ref e flight kept entry next back found run
  have isBack : (s.replied ref (e.restart ref)).watchRestarted ref = back := by
    rw [watchRestarted_replied]
    cases ref <;> rfl
  have restarts : ∀ byBringUp, s.idle.restarted ref byBringUp = found byBringUp := by
    intro byBringUp
    rw [idle_restarted entry]
    dsimp only
    rw [isBack]
  refine ⟨fun byBringUp => ?_, fun txn => ⟨fun a3 a2 a1 a0 a replies => ?_, fun repeated fails => ?_⟩,
    fun bits len a3 a2 a1 a0 a txn bound live replies lawful same fits own => ?_, fun byBringUp txn => ?_⟩
  · cases ref with
    | single i => exact requestOf_reassign_single entry byBringUp
    | group j => exact requestOf_reassign_group entry byBringUp
  · have exec_eq : next (s.idle.rediscoverOutcome ref (.reply [a3, a2, a1, a0, a])) := by
      refine (exec_replies flight replies (by rw [txn]; rfl) (by rw [txn]; rfl) kept (by simp [txn])).trans ?_
      rw [txn]
      rfl
    rw [rediscoverOutcome_reply entry] at exec_eq
    refine ⟨fun fit => ?_, fun unfit => ?_⟩
    · rw [if_pos fit, restarts] at exec_eq
      exact exec_eq
    · rw [if_neg unfit] at exec_eq
      exact exec_eq
  · obtain ⟨o, kind, exec_eq⟩ := exec_failed flight repeated fails (by rw [txn]; rfl) kept (by simp [txn])
    refine exec_eq.trans ?_
    rw [txn]
    rcases kind with ⟨rfl, -⟩ | ⟨rfl, -⟩ <;> rfl
  · have exec_eq := exec_search_replies flight txn kept replies
    have fit := (fits_iff_discovered (word32 a3 a2 a1 a0) bits len a).2 ⟨same ▸ fits, lawful⟩
    rw [searchOutcome_fits fit, same] at exec_eq
    refine exec_eq.trans ?_
    rcases own with ⟨i, rfl, rfl, own, noGroup⟩ | ⟨j, rfl, group, own, noSingle⟩
    · show Host.Outcome.next (s.settle (s.idle.foundSingle e.nodeId)) = _
      rw [foundSingle_restarted (s := s.idle) noGroup own entry live, restarts]
    · have head : a.toNat ≠ 0 := fun zero => group (byte_ext zero)
      have isHead : s.idle.found e.nodeId a.toNat = s.idle.foundHead e.nodeId a.toNat := if_neg head
      rw [isHead, foundHead_restarted (s := s.idle) noSingle own, restarts]
  · have replied : ∀ {a}, Replies f c [a] → next (s.idle.reassignOutcome ref byBringUp (.reply [a])) := by
      intro a replies
      refine (exec_replies flight replies (by rw [txn]; cases ref <;> rfl) (by rw [txn]; rfl) kept (by simp [txn])).trans ?_
      rw [txn]
      rfl
    refine ⟨fun a replies nak => ?_, fun replies => ?_, fun repeated fails bounded => ⟨_, idle_struck entry, ?_⟩⟩
    · have exec_eq := replied replies
      rw [reassignOutcome_nak entry byBringUp nak] at exec_eq
      exact exec_eq
    · have exec_eq := replied replies
      rw [reassignOutcome_ack entry byBringUp, closeAfterRestart_replied] at exec_eq
      cases chain : s.chainOf ref with
      | none =>
        rw [chain] at exec_eq
        exact exec_eq
      | some p =>
        rw [chain] at exec_eq
        exact exec_eq
    · obtain ⟨o, kind, exec_eq⟩ := exec_failed flight repeated fails (by rw [txn]; rfl) kept (by simp [txn])
      refine exec_eq.trans ?_
      rw [txn]
      show Host.Outcome.next (s.settle (s.idle.reassignOutcome ref byBringUp o)) = _
      rw [reassignOutcome_failed (answer_failed kind)]

end Sys2Proof.Machine
end

section
/-! The last outcome of a measurement: O60. -/

namespace Sys2Proof.Machine

-- One proof at a time and no linter passes: together they take more memory than the check gives.
set_option Elab.async false
set_option linter.all false

variable {s t x A C : State} {p : Pos} {q : Probe} {o : ProbeOutcome}

/-! ## Every lamp judged anew (R76, R87, R154) -/

/-- What both ends of a measurement leave, whatever became of the position's record. -/
def Judged (s t : State) (p : Pos) : Prop :=
  (∀ l, t.load.verdicts.get l = {}) ∧ t.light.fast = false ∧
    (∀ l, t.load.expected.get l = ((allPos.filter fun x => t.ready x).map fun x =>
      ((t.pos x).contrib.get l).settled).sum) ∧
    ((∃ l, (s.load.verdicts.get l).kind ≠ .unchecked) → s.told t .lampVerdict) ∧ t.bank.probe = none ∧
    t.map.singles = s.map.singles ∧ t.map.groups = s.map.groups ∧ ∀ x, x ≠ p → t.pos x = s.pos x

/-- The lamps judged anew over the records of `A`: what the two ends share. -/
def State.rejudged (A : State) : State := A.formExpected.resetVerdicts allLamps

/-- What the judging of the lamps needs of a state come from `s`, with the record of `p` already changed. -/
def BeforeJudging (s A : State) (p : Pos) : Prop :=
  A.flashLaw = true ∧ A.load = s.load ∧ A.bank.probe = none ∧ A.map.singles = s.map.singles ∧
    A.map.groups = s.map.groups ∧ LinksGrow s A ∧ ∀ x, x ≠ p → A.pos x = s.pos x

theorem judged_of_beforeJudging (before : BeforeJudging s A p) (load : t.load = A.rejudged.load)
    (light : t.light = A.rejudged.light) (map : t.map = A.rejudged.map) (bank : t.bank = A.rejudged.bank)
    (links : LinksGrow A.rejudged t) : Judged s t p := by
  obtain ⟨flash, loadA, probe, singles, groups, linksA, others⟩ := before
  obtain ⟨verdicts, fast, expected, told, bankJ, mapJ, -, -, -⟩ := judged_facts A flash
  have mapA : t.map = A.map := map.trans mapJ
  have same : ∀ x, t.pos x = A.pos x := State.pos_of_map mapA
  refine ⟨fun l => ?_, ?_, fun l => ?_, fun checked => ?_, ?_, ?_, ?_, fun x elsewhere => ?_⟩
  · rw [load]
    exact verdicts l
  · rw [light]
    exact fast
  · rw [load]
    refine (expected l).trans ?_
    simp only [State.ready, same]
  · rw [← loadA] at checked
    exact told_after_grow linksA (told_of_grow (told checked) links)
  · rw [bank, show A.rejudged.bank = A.bank from bankJ, probe]
  · rw [mapA, singles]
  · rw [mapA, groups]
  · rw [same, others x elsewhere]

/-! ## The two ends (R8, R128, R137) -/

/-- The record of a position that becomes ready, with its bring-up over and its repeater not yet started (R128). -/
def State.readied (C : State) (p : Pos) : State :=
  State.modPos { C with det := { C.det with bringUp := none } } p PosRec.becomesReady

/-- The record of a position whose relearn commits (R137). -/
def State.committed (C : State) (p : Pos) : State :=
  let A := C.modPos p (PosRec.commit (C.det.relearn.any (·.incomplete)))
  { A with det := { A.det with relearn := none } }

theorem commitRelearn_eq (C : State) (p : Pos) : C.commitRelearn p = (C.committed p).rejudged := rfl

theorem map_rejudged (A : State) : A.rejudged.map = A.map := resetVerdicts_map' ..

/-- A position's becoming ready starts the watch and the poll of its repeater, if it has one (R109, R119, R128). -/
theorem becomeReady_eq (C : State) (p : Pos) :
    let M := (C.readied p).rejudged.raiseAll .positionReady
    C.becomeReady p = { M with
      det := { M.det with
        watches := if (C.pos p).repeater = none then M.det.watches else M.det.watches.set (posIdx p) (some {}) }
      bus := { M.bus with
        class2 := if (C.pos p).repeater = none then M.bus.class2 else M.bus.class2 ++ [.segmentClose p]
        polls := if (C.pos p).repeater = none then M.bus.polls else M.bus.polls.set (posIdx p) (some 0) } } := by
  intro M
  have repeater : (M.pos p).repeater = (C.pos p).repeater := by
    have map : M.map = (C.readied p).map := map_rejudged _
    rw [State.pos_of_map map, State.readied, State.pos_modPos, if_pos rfl]
    rfl
  have meaning : C.becomeReady p = match (M.pos p).repeater with
      | some _ => ((M.setWatch p (some {})).claim2 (.segmentClose p)).setPoll p (some 0)
      | none => M := rfl
  rw [meaning, repeater]
  clear_value M
  split
  next held =>
    rw [held]
    rfl
  next free =>
    rw [free]
    rfl

theorem beforeJudging_modPos {f : PosRec → PosRec} {det : Detector} (before : BeforeJudging s C p) :
    BeforeJudging s { C.modPos p f with det := det } p := by
  obtain ⟨flash, load, probe, singles, groups, links, others⟩ := before
  refine ⟨flash, load, probe, singles, groups, links.trans (LinksGrow.of_links rfl), fun x elsewhere => ?_⟩
  have same : ({ C.modPos p f with det := det } : State).pos x = (C.modPos p f).pos x := rfl
  rw [same, State.pos_modPos, if_neg (Ne.symm elsewhere), others x elsewhere]

/-- The end of a bring-up (R128). -/
theorem becomeReady_facts (before : BeforeJudging s C p) :
    let t := C.becomeReady p
    let rep := (C.pos p).repeater
    Judged s t p ∧ s.told t .positionReady ∧ t.pos p = (C.pos p).becomesReady ∧
      t.det = { C.det with
        bringUp := none
        watches := if rep = none then C.det.watches else C.det.watches.set (posIdx p) (some {}) } ∧
      t.bus = { C.bus with
        class2 := if rep = none then C.bus.class2 else C.bus.class2 ++ [.segmentClose p]
        polls := if rep = none then C.bus.polls else C.bus.polls.set (posIdx p) (some 0) } := by
  have beforeA : BeforeJudging s (C.readied p) p := beforeJudging_modPos before
  obtain ⟨-, -, -, -, -, map, det, bus, grows⟩ := judged_facts (C.readied p) beforeA.1
  intro t rep
  have meaning : t = _ := becomeReady_eq C p
  have pos : t.pos p = (C.readied p).pos p := by
    refine State.pos_of_map ?_ p
    rw [meaning]
    exact map
  refine ⟨?_, ?_, ?_, ?_, ?_⟩
  · refine judged_of_beforeJudging beforeA ?_ ?_ ?_ ?_ ?_
    · rw [meaning]
      rfl
    · rw [meaning]
      rfl
    · rw [meaning]
      rfl
    · rw [meaning]
      rfl
    · rw [meaning]
      exact (linksGrow_raiseFor _ _ _).trans (LinksGrow.of_links rfl)
  · rw [meaning]
    obtain ⟨-, -, -, -, -, linksA, -⟩ := beforeA
    have raised : (C.readied p).rejudged.told ((C.readied p).rejudged.raiseAll .positionReady) .positionReady :=
      told_raiseAll _ _
    exact told_of_grow (told_after_grow (linksA.trans grows) raised) (LinksGrow.of_links rfl)
  · rw [pos, State.readied, State.pos_modPos, if_pos rfl]
    rfl
  · have held : (C.readied p).rejudged.det = { C.det with bringUp := none } := det
    rw [meaning]
    dsimp only [State.raiseAll, State.raiseFor]
    rw [held]
  · have held : (C.readied p).rejudged.bus = C.bus := bus
    rw [meaning]
    dsimp only [State.raiseAll, State.raiseFor]
    rw [held]

/-- The end of a relearn (R8, R137). -/
theorem commitRelearn_facts (before : BeforeJudging s C p) :
    let t := C.commitRelearn p
    Judged s t p ∧ t.pos p = (C.pos p).commit (C.det.relearn.any (·.incomplete)) ∧
      t.det = { C.det with relearn := none } ∧ t.bus = C.bus := by
  have beforeA : BeforeJudging s (C.committed p) p := beforeJudging_modPos before
  obtain ⟨-, -, -, -, -, map, det, bus, -⟩ := judged_facts (C.committed p) beforeA.1
  intro t
  have pos : t.pos p = (C.committed p).pos p := State.pos_of_map map p
  refine ⟨judged_of_beforeJudging beforeA rfl rfl rfl rfl (LinksGrow.of_links rfl), ?_, det, bus⟩
  rw [pos]
  exact (State.pos_modPos ..).trans (if_pos rfl)

/-! ## The last outcome handed on -/

theorem beforeJudging_of_outcome (flash : s.flashLaw = true) (load : C.load = s.load) (light : C.light = s.light)
    (probe : C.bank.probe = none) (singles : C.map.singles = s.map.singles) (groups : C.map.groups = s.map.groups)
    (links : LinksGrow s C) (others : ∀ x, x ≠ p → C.pos x = s.pos x) : BeforeJudging s C p := by
  refine ⟨?_, load, probe, singles, groups, links, others⟩
  unfold State.flashLaw
  rw [load, light]
  exact flash

/-- The parts of `s` that a measurement leaves alone until its last outcome. -/
def MeasuresOf (s x : State) : Prop :=
  x.map = s.map ∧ x.load = s.load ∧ x.light = s.light ∧ x.bus = s.bus ∧ x.det = s.det ∧ x.links = s.links ∧
    x.matrix = s.matrix

/-- The record of a first measurement, become ready with or without PROBE_INCOMPLETE (R2, R75). -/
theorem becomesReady_measured (r : PosRec) (contrib : Tbl Contribution 10) (short : Bool) :
    let reasons := if short then addBit r.reasons 2 else r.reasons
    (if short then ({ r with contrib := contrib } : PosRec).addReason .probeIncomplete
      else { r with contrib := contrib }).becomesReady =
      { r with contrib := contrib, reasons := reasons, state := if reasons = 0 then .online else .degraded } := by
  cases short <;> rfl

/-- The commit of a ready position's record (R2, R6, R137). -/
theorem commit_eq (r : PosRec) (short : Bool) (ready : r.state.ready = true) :
    let reasons := if short then addBit r.reasons 2 else dropBit r.reasons 2
    r.commit short = { r with
      contrib := r.shadow
      shadow := Tbl.fill 10 {}
      relearn := false
      reasons := reasons
      state := if reasons = 0 then .online else .degraded } := by
  intro reasons
  cases short
  · unfold PosRec.commit PosRec.dropReason
    dsimp only
    rw [if_neg (by decide), follow_eq, if_pos ready]
    rfl
  · unfold PosRec.commit PosRec.addReason
    dsimp only
    rw [if_pos rfl, follow_eq, if_pos ready]
    rfl

/-- The last outcome of a bring-up (R39, R75, R128). -/
theorem handOutcome_bringUp (kept : MeasuresOf s x) (flash : s.flashLaw = true)
    (unrouted : ∀ l, q.lamp < l → s.routed (lampChan l) = false) (first : (s.pos q.pos).relearn = false) :
    let t := x.handOutcome q o
    let p := q.pos
    let old := s.pos p
    let reasons := if o.incomplete then addBit old.reasons 2 else old.reasons
    Judged s t p ∧ s.told t .positionReady ∧
      (∃ contrib, Learned q.lamp old.contrib contrib ∧ t.pos p = { old with
        contrib := contrib, reasons := reasons, state := if reasons = 0 then .online else .degraded }) ∧
      t.det = { s.det with
        bringUp := none
        watches := if old.repeater = none then s.det.watches else s.det.watches.set (posIdx p) (some {}) } ∧
      t.bus = { s.bus with
        class2 := if old.repeater = none then s.bus.class2 else s.bus.class2 ++ [.segmentClose p]
        polls := if old.repeater = none then s.bus.polls else s.bus.polls.set (posIdx p) (some 0) } := by
  obtain ⟨map, load, light, bus, det, links, matrix⟩ := kept
  have same : ∀ p, x.pos p = s.pos p := State.pos_of_map map
  have unroutedX : ∀ l, q.lamp < l → x.routed (lampChan l) = false := fun l later => by
    rw [State.routed, matrix]
    exact unrouted l later
  obtain ⟨C, last, others, loadC, lightC, busC, probe, singles, groups, linksC, ofBringUp, -⟩ :=
    handOutcome_last x q o unroutedX
  rw [same] at ofBringUp
  obtain ⟨detC, contrib, learned, posC⟩ := ofBringUp first
  have before : BeforeJudging s C q.pos := beforeJudging_of_outcome flash (loadC.trans load) (lightC.trans light) probe
    (singles.trans (congrArg CouplingMap.singles map)) (groups.trans (congrArg CouplingMap.groups map))
    ((LinksGrow.of_links links).trans linksC) fun y elsewhere => (others y elsewhere).trans (same y)
  obtain ⟨judged, told, pos, detT, busT⟩ := becomeReady_facts before
  have firstC : (C.pos q.pos).relearn = false := by
    rw [posC]
    split <;> exact first
  have repeater : (C.pos q.pos).repeater = (s.pos q.pos).repeater := by
    rw [posC]
    split <;> rfl
  rw [detC, det, repeater] at detT
  rw [busC, bus, repeater] at busT
  intro t p old reasons
  have meaning : t = C.becomeReady p := last.trans (if_neg (by simp [firstC]))
  rw [meaning]
  refine ⟨judged, told, ⟨contrib, learned, pos.trans ?_⟩, detT, busT⟩
  rw [posC]
  exact becomesReady_measured ..

/-- The last outcome of a relearn (R39, R75, R137). -/
theorem handOutcome_relearn (kept : MeasuresOf s x) (flash : s.flashLaw = true)
    (unrouted : ∀ l, q.lamp < l → s.routed (lampChan l) = false) (again : (s.pos q.pos).relearn = true)
    (ready : s.ready q.pos = true) {y : Relearn} (held : s.det.relearn = some y) :
    let t := x.handOutcome q o
    let p := q.pos
    let old := s.pos p
    let short := o.incomplete || y.incomplete
    let reasons := if short then addBit old.reasons 2 else dropBit old.reasons 2
    Judged s t p ∧ t.bus = s.bus ∧ t.det = { s.det with relearn := none } ∧
      ∃ contrib, Learned q.lamp old.shadow contrib ∧ t.pos p = { old with
        contrib := contrib, shadow := Tbl.fill 10 {}, relearn := false, reasons := reasons
        state := if reasons = 0 then .online else .degraded } := by
  obtain ⟨map, load, light, bus, det, links, matrix⟩ := kept
  have same : ∀ p, x.pos p = s.pos p := State.pos_of_map map
  have unroutedX : ∀ l, q.lamp < l → x.routed (lampChan l) = false := fun l later => by
    rw [State.routed, matrix]
    exact unrouted l later
  obtain ⟨C, last, others, loadC, lightC, busC, probe, singles, groups, linksC, -, ofRelearn⟩ :=
    handOutcome_last x q o unroutedX
  rw [same, det] at ofRelearn
  obtain ⟨detC, shadow, learned, posC⟩ := ofRelearn again
  have before : BeforeJudging s C q.pos := beforeJudging_of_outcome flash (loadC.trans load) (lightC.trans light) probe
    (singles.trans (congrArg CouplingMap.singles map)) (groups.trans (congrArg CouplingMap.groups map))
    ((LinksGrow.of_links links).trans linksC) fun y elsewhere => (others y elsewhere).trans (same y)
  obtain ⟨judged, pos, detT, busT⟩ := commitRelearn_facts before
  have againC : (C.pos q.pos).relearn = true := by
    rw [posC]
    exact again
  have short : C.det.relearn.any (·.incomplete) = (o.incomplete || y.incomplete) := by
    rw [detC]
    cases o.incomplete <;> simp [held]
  have ended : ({ C.det with relearn := none } : Detector) = { s.det with relearn := none } := by
    rw [detC]
    cases o.incomplete <;> rfl
  intro t p old short' reasons
  have meaning : t = C.commitRelearn p := last.trans (if_pos againC)
  rw [meaning]
  refine ⟨judged, busT.trans (busC.trans bus), detT.trans ended, shadow, learned, pos.trans ?_⟩
  rw [short, posC]
  exact commit_eq _ _ ready

/-! ## The three ways to a last outcome (R62 to R65) -/

theorem measuresOf_keepMean (s : State) (q : Probe) : MeasuresOf s (s.keepMean q) := by
  refine ⟨rfl, rfl, rfl, rfl, ?_, rfl, rfl⟩
  exact if_neg fun h => lampChan_ne _ h.1

theorem measuresOf_takeDemand (kept : MeasuresOf s x) (l : LampId) : MeasuresOf s (x.takeDemand (lampChan l)) := by
  obtain ⟨map, load, light, bus, det, links, matrix⟩ := kept
  refine ⟨map, load, light, bus, ?_, links, matrix⟩
  exact (if_neg fun h => lampChan_ne _ h.1).trans det

/-- Each of the three commands hands an outcome on, complete or not. -/
theorem exec_outcome {c : Instr} {incomplete : Bool} (held : s.bank.probe = some q)
    (way : c = .probeAttemptComplete ∧ q.phase = .attempt ∧ (s.chan (lampChan q.lamp)).state = .probeOn ∧
        q.samples.length = 16 ∧ incomplete = false ∨
      c = .settledOnlyComplete ∧ q.phase = .settledOnly ∧ q.samples.length = 16 ∧ incomplete = true ∨
      c = .probeLimitExpiry ∧ q.expired = false ∧ 10000 ≤ q.elapsed ∧ q.phase ≠ .attempt ∧ ¬s.steadyFor q ∧
        incomplete = true) :
    ∃ (x : State) (q' : Probe) (o : ProbeOutcome), exec c s = .next (s.settle (x.handOutcome q' o)) ∧
      MeasuresOf s x ∧ q'.lamp = q.lamp ∧ q'.pos = q.pos ∧ o.incomplete = incomplete := by
  rcases way with ⟨rfl, attempt, probing, full, rfl⟩ | ⟨rfl, only, full, rfl⟩ |
    ⟨rfl, fresh, late, waiting, unsteady, rfl⟩
  · exact ⟨_, q, _, exec_probeAttemptComplete held attempt probing full,
      measuresOf_takeDemand (measuresOf_keepMean s q) _, rfl, rfl, rfl⟩
  · exact ⟨_, q, _, exec_settledOnlyComplete held only full, measuresOf_keepMean s q, rfl, rfl, rfl⟩
  · refine ⟨s, { q with phase := .settledOnly, expired := true, samples := [], armed := false }, .failed, ?_,
      ⟨rfl, rfl, rfl, rfl, rfl, rfl, rfl⟩, rfl, rfl, rfl⟩
    rw [exec_probeLimitExpiry held fresh late, State.limitOver, if_neg waiting, State.resolveExpired,
      if_neg (mt (steadyFor_iff s q).1 unsteady)]

/-- Settles O60. -/
theorem measuringEnds : Obligations.MeasuringEnds := by
  intro s q c incomplete held flash ch steady way unrouted p old learned judged state
  obtain ⟨x, q', o, ran, kept, lamp, pos, rfl⟩ := exec_outcome held way
  rw [← lamp] at unrouted
  have bringUp := handOutcome_bringUp (o := o) kept flash unrouted
  have relearn := handOutcome_relearn (o := o) kept flash unrouted
  rw [lamp, pos] at bringUp relearn
  refine ⟨fun first => ⟨_, ran, bringUp first⟩, fun again ready y heldY => ⟨_, ran, relearn again ready heldY⟩⟩

end Sys2Proof.Machine
end
